-- ==== Sys2Proof/Word.lean ====
section
/-!
DEFINITION. The widths of the reader core: a register value and every frame byte is 8 bits, a register address is 6 bits
(spec/00_scope.md R8, spec/30_encoding.md R95).
-/

namespace Sys2Proof

/-- A byte: a register value, a FIFO byte, a frame byte (R8, R9). -/
abbrev Byte := BitVec 8

/-- A register address: a 6-bit value, 0 to 63 (R8, R62, R95). -/
abbrev Addr := BitVec 6

end Sys2Proof
end

