-- ==== Sys2Proof/Syntax.lean ====
section
/-!
DEFINITION. The syntax of the block: the values its requests carry and one constructor of Instr per row of
spec/opcode_table.json (spec/30_encoding.md R91, R93, R96, R97, R110).
-/

namespace Sys2Proof

/-- The four anti-collision bytes, in the order received (spec/10_state.md R30, R33). -/
structure Uid where
  u0 : Byte
  u1 : Byte
  u2 : Byte
  u3 : Byte
deriving DecidableEq, Repr

/-- A 6-byte authentication key (spec/10_state.md R30). -/
structure Key where
  k0 : Byte
  k1 : Byte
  k2 : Byte
  k3 : Byte
  k4 : Byte
  k5 : Byte
deriving DecidableEq, Repr

/-- The UID as a byte list, first byte first (R33, R110). -/
def Uid.toList (u : Uid) : List Byte := [u.u0, u.u1, u.u2, u.u3]

/-- The key as a byte list, first byte first (R110). -/
def Key.toList (k : Key) : List Byte := [k.k0, k.k1, k.k2, k.k3, k.k4, k.k5]

/-- A Card handle: the pair handed to the host (spec/10_state.md R32). -/
structure Handle where
  uid : Uid
  gen : Nat
deriving DecidableEq, Repr

/-- The four chip command names (spec/30_encoding.md R96). -/
inductive ChipCommand where
  | idle
  | calcCRC
  | transceive
  | authent
deriving DecidableEq, Repr

/-- An entry of the bus history (spec/10_state.md R38). -/
inductive TraceEntry where
  /-- `R(a, v)`: a read of `a` that returned `v`. -/
  | read (a : Addr) (v : Byte)
  /-- `W(a, v)`: a write of `v` to `a`. -/
  | write (a : Addr) (v : Byte)
  /-- `F(a)`: a transaction on `a` that the transport failed. -/
  | fail (a : Addr)
  /-- `LINE(level)`: the chip-enable line is driven to `level`. -/
  | line (level : Bool)
deriving DecidableEq, Repr

/-- The instructions of the block, one constructor per row of spec/opcode_table.json.

A card `block`, an `offset`, an int32 `value` and a register address are unbounded integers: the spec checks them when
the operation runs (R92, R210, R271, R273, R62). -/
inductive Instr where
  -- host requests, spec/30_encoding.md R91
  | regRead (a : Int)
  | regWrite (a : Int) (v : Byte)
  | setBits (a : Int) (m : Byte)
  | clearBits (a : Int) (m : Byte)
  | transceive (cmd : ChipCommand) (payload : List Byte) (framing : Nat)
  | crc16 (bytes : List Byte)
  | request (mode : Byte)
  | getUid
  | detect
  | select (h : Handle)
  | authenticate (h : Handle) (b : Int) (keyMode : Byte) (key : Option Key)
  | readBlock (h : Handle) (b : Int)
  | writeBlock (h : Handle) (b : Int) (data : List Byte)
  | endSession (h : Handle)
  | readStr (h : Handle) (b : Int)
  | writeStr (h : Handle) (b : Int) (str : List Byte)
  | readInt32 (h : Handle) (b : Int) (off : Int) (signed : Bool)
  | writeInt32 (h : Handle) (b : Int) (off : Int) (v : Int)
  | dump (h : Handle)
  | init
  | monitorStart
  | monitorCycle
  | monitorStop
  | subscribe (consumer : Nat)
  -- chip commands, spec/30_encoding.md R96
  | cmdIdle
  | cmdCalcCRC
  | cmdTransceive
  | cmdAuthent
  -- card frames, spec/30_encoding.md R97, R110, R111
  | frameReqa
  | frameWupa
  | frameAnticoll
  | frameSelect (uid : Uid) (bcc : Byte)
  | frameAuthA (b : Byte) (key : Key) (uid : Uid)
  | frameAuthB (b : Byte) (key : Key) (uid : Uid)
  | frameRead (b : Byte)
  | frameWrite (b : Byte) (data : List Byte)
  -- pseudo-requests, spec/30_encoding.md R93
  | reqa
  | wupa
  | authA (h : Handle) (b : Int)
  | authB (h : Handle) (b : Int)
  | cardRead (h : Handle) (b : Int)
  | cardWrite (h : Handle) (b : Int) (data : List Byte)
deriving DecidableEq, Repr

end Sys2Proof
end

