-- ==== Sys2Proof/Config.lean ====
section
/-!
DEFINITION. The configuration record Cfg of spec/00_scope.md R7 with the spec's values, and the environment's free
answers (spec/20_memory.md R70, R71). A shared operation takes any Cfg; exec runs with Config.cfg.
-/

namespace Sys2Proof

/-- `Cfg.RegMap`: the named register addresses (spec/30_encoding.md R100). -/
structure RegMap where
  cmd : Addr
  ien : Addr
  irq : Addr
  divIrq : Addr
  err : Addr
  status2 : Addr
  fifoData : Addr
  fifoLevel : Addr
  control : Addr
  bitFraming : Addr
  mode : Addr
  txControl : Addr
  txAsk : Addr
  crcH : Addr
  crcL : Addr
  tMode : Addr
  tPrescaler : Addr
  tReloadH : Addr
  tReloadL : Addr
deriving DecidableEq, Repr

/-- `Cfg.Bits`: the bit masks (spec/30_encoding.md R101). `ERR_MASK` is `Cfg.errMask`. -/
structure Bits where
  irqClear : Byte
  ienExtra : Byte
  irqAny : Byte
  irqNoTag : Byte
  fifoFlush : Byte
  startSend : Byte
  txLastBits : Byte
  rxLastBits : Byte
  divCrc : Byte
  cryptoOn : Byte
  antennaOn : Byte
deriving DecidableEq, Repr

/-- `Cfg.ChipCmd`: the chip command codes, written as whole bytes (spec/30_encoding.md R96). -/
structure ChipCodes where
  idle : Byte
  calcCRC : Byte
  transceive : Byte
  authent : Byte
deriving DecidableEq, Repr

/-- `Cfg.CardCmd`: the first bytes of the card frames (spec/30_encoding.md R97). -/
structure CardCodes where
  reqa : Byte
  wupa : Byte
  select : Byte
  authA : Byte
  authB : Byte
  read : Byte
  write : Byte
deriving DecidableEq, Repr

/-- One row of `Cfg.IrqMasks`: the interrupt-enable mask and the command-specific completion bits
(spec/30_encoding.md R102). -/
structure IrqMask where
  irqEn : Byte
  waitIrq : Byte
deriving DecidableEq, Repr

/-- What the monitor does on an unexpected error (spec/46_presence_monitor.md R324). -/
inductive ErrorPolicy where
  | halt
  | skip
deriving DecidableEq, Repr

/-- One transaction of `INIT_SEQUENCE`: a RegWrite or a SET_BITS (spec/46_presence_monitor.md R311, R312). -/
inductive InitStep where
  | write (a : Addr) (v : Byte)
  | setBits (a : Addr) (m : Byte)
deriving DecidableEq, Repr

/-- The configuration record of spec/00_scope.md R7. -/
structure Cfg where
  uidLen : Nat
  maxLen : Nat
  trxBudget : Nat
  crcBudget : Nat
  shortIntervalMs : Nat
  longIntervalMs : Nat
  arrivalSleepMs : Nat
  sleepSliceMs : Nat
  defaultKey : Key
  blockCount : Nat
  blockSize : Nat
  int32OffsetMax : Nat
  errMask : Byte
  ackNibble : Byte
  anticollCmd : List Byte
  selectNvb : Byte
  reqFramingBits : Nat
  reqMode : Byte
  regMap : RegMap
  bits : Bits
  chipCmd : ChipCodes
  cardCmd : CardCodes
  irqAuthent : IrqMask
  irqTransceive : IrqMask
  fifoSize : Nat
  dumpKeyMode : Byte
  monitorErrorPolicy : ErrorPolicy
  transportMayFail : Bool
  initSequence : List InitStep
deriving DecidableEq, Repr

namespace Config

/-- PRESUMED (log 10): the default register addresses (R100, D2). -/
def regMap : RegMap where
  cmd := 0x01#6
  ien := 0x02#6
  irq := 0x04#6
  divIrq := 0x05#6
  err := 0x06#6
  status2 := 0x08#6
  fifoData := 0x09#6
  fifoLevel := 0x0A#6
  control := 0x0C#6
  bitFraming := 0x0D#6
  mode := 0x11#6
  txControl := 0x14#6
  txAsk := 0x15#6
  crcH := 0x21#6
  crcL := 0x22#6
  tMode := 0x2A#6
  tPrescaler := 0x2B#6
  tReloadH := 0x2C#6
  tReloadL := 0x2D#6

/-- PRESUMED (log 10): the default bit masks (R101, D3). -/
def bits : Bits where
  irqClear := 0x80#8
  ienExtra := 0x80#8
  irqAny := 0x01#8
  irqNoTag := 0x01#8
  fifoFlush := 0x80#8
  startSend := 0x80#8
  txLastBits := 0x07#8
  rxLastBits := 0x07#8
  divCrc := 0x04#8
  cryptoOn := 0x08#8
  antennaOn := 0x03#8

/-- PRESUMED (log 10): the default `INIT_SEQUENCE` (spec/46_presence_monitor.md R312, D36). -/
def initSequence : List InitStep :=
  [.write regMap.cmd 0x0F#8, .write regMap.tMode 0x8D#8, .write regMap.tPrescaler 0x3E#8,
   .write regMap.tReloadL 0x1E#8, .write regMap.tReloadH 0x00#8, .write regMap.txAsk 0x40#8,
   .write regMap.mode 0x3D#8, .setBits regMap.txControl bits.antennaOn]

/-- The configuration exec runs with: the values of spec/00_scope.md R7. The literals the source gives are
`uidLen`, `errMask`, `ackNibble`, `anticollCmd`, `selectNvb`, `reqFramingBits`, `defaultKey`, `blockCount`, `blockSize` and
`int32OffsetMax`; DESIGN CHOICE (log 11) for the values the spec decides; PRESUMED (log 10) for the family's. -/
def cfg : Cfg where
  uidLen := 4
  maxLen := 16
  trxBudget := 2000
  crcBudget := 255
  shortIntervalMs := 300
  longIntervalMs := 3000
  arrivalSleepMs := 0
  sleepSliceMs := 100
  defaultKey := ⟨0xFF#8, 0xFF#8, 0xFF#8, 0xFF#8, 0xFF#8, 0xFF#8⟩
  blockCount := 64
  blockSize := 16
  int32OffsetMax := 12
  errMask := 0x1B#8
  ackNibble := 0x0A#8
  anticollCmd := [0x93#8, 0x20#8]
  selectNvb := 0x70#8
  reqFramingBits := 7
  reqMode := 0x26#8
  regMap := regMap
  bits := bits
  chipCmd := { idle := 0x00#8, calcCRC := 0x03#8, transceive := 0x0C#8, authent := 0x0E#8 }
  cardCmd := { reqa := 0x26#8, wupa := 0x52#8, select := 0x93#8, authA := 0x60#8, authB := 0x61#8, read := 0x30#8,
               write := 0xA0#8 }
  irqAuthent := { irqEn := 0x12#8, waitIrq := 0x10#8 }
  irqTransceive := { irqEn := 0x77#8, waitIrq := 0x30#8 }
  fifoSize := 64
  dumpKeyMode := 0x60#8
  monitorErrorPolicy := .halt
  transportMayFail := true
  initSequence := initSequence

/-- FREE VALUE (log 1): the byte the environment answers to a read of `a` after the history `trace`, with the free
choice `c`: `Env.read(trace, a, c)` of spec/20_memory.md R70. It has no body: nothing can be proved of its value. -/
opaque envRead : List TraceEntry → Addr → Nat → Byte

/-- FREE VALUE (log 1): whether the transport fails the transaction on `a` (spec/20_memory.md R71). No body. -/
opaque envFails : List TraceEntry → Addr → Nat → Bool

end Config

/-- The command code of `Cfg.ChipCmd` (R96). -/
def Cfg.chipCode (c : Cfg) : ChipCommand → Byte
  | .idle => c.chipCmd.idle
  | .calcCRC => c.chipCmd.calcCRC
  | .transceive => c.chipCmd.transceive
  | .authent => c.chipCmd.authent

/-- What the rules take for granted of a configuration: budgets of at least one poll (R166, R190), a response buffer that
holds a block (D11), a slice that makes progress (R330), block addresses that fit a byte (R113 c), an int32 slice inside
the block (R271), framing values in range (R114), and the UID length of a `Uid` (R8, R30, R33, R220). -/
def Cfg.valid (c : Cfg) : Bool :=
  decide (1 ≤ c.trxBudget) && decide (1 ≤ c.crcBudget) && decide (c.blockSize ≤ c.maxLen) &&
  decide (1 ≤ c.sleepSliceMs) && decide (c.blockCount ≤ 256) && decide (c.int32OffsetMax + 4 ≤ c.blockSize) &&
  decide (c.reqFramingBits ≤ 7) && decide (c.uidLen = 4)

end Sys2Proof
end

