-- ==== Sys2Proof/WellFormed.lean ====
section
/-!
DEFINITION. When the operands of an instruction have the types spec/30_encoding.md R91 gives them. An instruction that fails
this check is refused (R92). An operand value that the spec checks when the operation runs (a block outside [0, 64), an
offset, a value, a register address, a data length) is NOT checked here: it raises InvalidArgument (R92, R361). The operand
types of Syntax hold every other bound; only the two of TRANSCEIVE are left to check.
-/

namespace Sys2Proof

/-- `cmd` of TRANSCEIVE is Authent or Transceive (R91, D14). -/
def ChipCommand.isFrame : ChipCommand → Bool
  | .transceive => true
  | .authent => true
  | .idle => false
  | .calcCRC => false

/-- `framing` is 0 to 7 (R91, R114). -/
def framingOk (framing : Nat) : Bool := decide (framing ≤ 7)

/-- The operands have the types of R91. -/
def Instr.wf : Instr → Bool
  | .transceive cmd _ framing => cmd.isFrame && framingOk framing
  | .regRead _ | .regWrite _ _ | .setBits _ _ | .clearBits _ _ | .crc16 _ | .request _ | .getUid | .detect
  | .select _ | .authenticate _ _ _ _ | .readBlock _ _ | .writeBlock _ _ _ | .endSession _ | .readStr _ _
  | .writeStr _ _ _ | .readInt32 _ _ _ _ | .writeInt32 _ _ _ _ | .dump _ | .init | .monitorStart | .monitorCycle
  | .monitorStop | .subscribe _ | .cmdIdle | .cmdCalcCRC | .cmdTransceive | .cmdAuthent | .frameReqa | .frameWupa
  | .frameAnticoll | .frameSelect _ _ | .frameAuthA _ _ _ | .frameAuthB _ _ _ | .frameRead _ | .frameWrite _ _ | .reqa
  | .wupa | .authA _ _ | .authB _ _ | .cardRead _ _ | .cardWrite _ _ _ => true

/-- An instruction with operands of the right types. -/
abbrev Instr.WellFormed (i : Instr) : Prop := i.wf = true

end Sys2Proof
end

