-- ==== Sys2Proof/Decode.lean ====
section
/-!
DEFINITION. Decoding a request into an instruction, total and rejecting by name, and encoding an instruction as a request
(spec/30_encoding.md R90 to R93, R96, R97, R110; log 5 to log 9).
-/

namespace Sys2Proof

/-- A typed operand value of a host request: "the operands are typed values, not bit fields" (R90, R91). -/
inductive Operand where
  | int (z : Int)
  | bytes (bs : List Byte)
  | cmd (c : ChipCommand)
  | card (h : Handle)
  | bool (b : Bool)
  | consumer (n : Nat)
deriving DecidableEq, Repr

/-- What the block can be asked to run: a host request record `{op, operands}` (R90), a chip command code (R96), or the
body of a card frame, its bytes in FIFO order without the CRC the chip computes (R110). The last two formats are the
model's own way to run one row of the table alone (log 7). -/
inductive Request where
  | host (op : Byte) (operands : List Operand)
  | chipCommand (code : Byte)
  | cardFrame (body : List Byte)
deriving DecidableEq, Repr

/-- Why a request is no instruction (R92). -/
inductive DecodeError where
  /-- An `op` that R91 does not list. -/
  | reservedOp (op : Byte)
  /-- Operands of the wrong count or outside their types. -/
  | illTypedOperands (op : Byte)
  /-- A code that is none of the four of R96. -/
  | unknownChipCommand (code : Byte)
  /-- Bytes that are the body of no card frame of the table (R97, R110; log 7). -/
  | unknownFrame (body : List Byte)
deriving DecidableEq, Repr

/-- The 24 operations of the host request table (R91). -/
inductive HostOp where
  | regRead | regWrite | setBits | clearBits
  | transceive | crc16
  | request | getUid | detect | select | authenticate | readBlock | writeBlock | endSession
  | readStr | writeStr | readInt32 | writeInt32 | dump
  | init | monitorStart | monitorCycle | monitorStop | subscribe
deriving DecidableEq, Repr

/-- The `op` of an operation (R91). -/
def HostOp.code : HostOp → Byte
  | .regRead => 0x01#8
  | .regWrite => 0x02#8
  | .setBits => 0x03#8
  | .clearBits => 0x04#8
  | .transceive => 0x10#8
  | .crc16 => 0x11#8
  | .request => 0x20#8
  | .getUid => 0x21#8
  | .detect => 0x22#8
  | .select => 0x23#8
  | .authenticate => 0x24#8
  | .readBlock => 0x25#8
  | .writeBlock => 0x26#8
  | .endSession => 0x27#8
  | .readStr => 0x30#8
  | .writeStr => 0x31#8
  | .readInt32 => 0x32#8
  | .writeInt32 => 0x33#8
  | .dump => 0x34#8
  | .init => 0x40#8
  | .monitorStart => 0x41#8
  | .monitorCycle => 0x42#8
  | .monitorStop => 0x43#8
  | .subscribe => 0x44#8

/-- The rows of R91, in the table's order. -/
def HostOp.all : List HostOp :=
  [.regRead, .regWrite, .setBits, .clearBits, .transceive, .crc16, .request, .getUid, .detect, .select, .authenticate,
   .readBlock, .writeBlock, .endSession, .readStr, .writeStr, .readInt32, .writeInt32, .dump, .init, .monitorStart,
   .monitorCycle, .monitorStop, .subscribe]

/-- The operation an `op` selects; none where R91 lists no such `op` (R92: reserved). -/
def HostOp.ofCode (op : Byte) : Option HostOp := HostOp.all.find? (fun o => o.code == op)

/-- A `u8` operand: an integer 0 to 255 (R91). -/
def u8OfInt (z : Int) : Option Byte := if 0 ≤ z ∧ z ≤ 255 then some (BitVec.ofNat 8 z.toNat) else none

/-- A `framing` operand: an integer 0 to 7 (R91, R114). -/
def framingOfInt (z : Int) : Option Nat := if 0 ≤ z ∧ z ≤ 7 then some z.toNat else none

/-- A `key` operand: 6 bytes (R91). -/
def keyOfBytes : List Byte → Option Key
  | [a, b, c, d, e, f] => some ⟨a, b, c, d, e, f⟩
  | _ => none

/-- A `cmd` operand: Authent or Transceive (R91, D14). -/
def frameCommand (cmd : ChipCommand) : Option ChipCommand := if cmd.isFrame then some cmd else none

/-- The operand shapes of R91: the instruction, or none where the operands have the wrong count or types (R92). -/
def decodeHost : HostOp → List Operand → Option Instr
  | .regRead, [.int a] => some (.regRead a)
  | .regWrite, [.int a, .int v] => (u8OfInt v).map (.regWrite a)
  | .setBits, [.int a, .int m] => (u8OfInt m).map (.setBits a)
  | .clearBits, [.int a, .int m] => (u8OfInt m).map (.clearBits a)
  | .transceive, [.cmd cmd, .bytes payload, .int f] =>
    (frameCommand cmd).bind fun cmd' => (framingOfInt f).map fun f' => .transceive cmd' payload f'
  | .crc16, [.bytes bs] => some (.crc16 bs)
  | .request, [.int m] => (u8OfInt m).map .request
  | .getUid, [] => some .getUid
  | .detect, [] => some .detect
  | .select, [.card h] => some (.select h)
  | .authenticate, [.card h, .int b, .int m] => (u8OfInt m).map fun m' => .authenticate h b m' none
  | .authenticate, [.card h, .int b, .int m, .bytes k] =>
    (u8OfInt m).bind fun m' => (keyOfBytes k).map fun k' => .authenticate h b m' (some k')
  | .readBlock, [.card h, .int b] => some (.readBlock h b)
  | .writeBlock, [.card h, .int b, .bytes data] => some (.writeBlock h b data)
  | .endSession, [.card h] => some (.endSession h)
  | .readStr, [.card h, .int b] => some (.readStr h b)
  | .writeStr, [.card h, .int b, .bytes str] => some (.writeStr h b str)
  | .readInt32, [.card h, .int b, .int off, .bool sg] => some (.readInt32 h b off sg)
  | .writeInt32, [.card h, .int b, .int off, .int v] => some (.writeInt32 h b off v)
  | .dump, [.card h] => some (.dump h)
  | .init, [] => some .init
  | .monitorStart, [] => some .monitorStart
  | .monitorCycle, [] => some .monitorCycle
  | .monitorStop, [] => some .monitorStop
  | .subscribe, [.consumer n] => some (.subscribe n)
  | _, _ => none

/-- The chip command a code names (R96). -/
def decodeChipCommand (code : Byte) : Option Instr :=
  if code = Config.cfg.chipCmd.idle then some .cmdIdle
  else if code = Config.cfg.chipCmd.calcCRC then some .cmdCalcCRC
  else if code = Config.cfg.chipCmd.transceive then some .cmdTransceive
  else if code = Config.cfg.chipCmd.authent then some .cmdAuthent
  else none

/-- The card frame a one-byte body is (R97, R110): the request frame `[mode]`. DESIGN CHOICE (log 7): a bare frame is a row
of the table, so its mode is REQA or WUPA and another byte is refused; REQUEST sends any mode (R215). -/
def decodeRequestFrame (mode : Byte) : Option Instr :=
  if mode = Config.cfg.cardCmd.reqa then some .frameReqa
  else if mode = Config.cfg.cardCmd.wupa then some .frameWupa
  else none

/-- The card frame a two-byte body is (R97, R110): `[0x93, 0x20]`, or `[READ, b]`. -/
def decodeShortFrame (x b : Byte) : Option Instr :=
  if [x, b] = Config.cfg.anticollCmd then some .frameAnticoll
  else if x = Config.cfg.cardCmd.read then some (.frameRead b)
  else none

/-- The card frame a seven-byte body is (R110): `[SELECT, 0x70, u0, u1, u2, u3, bcc]`. -/
def decodeSelectFrame (x nvb : Byte) (u : Uid) (bcc : Byte) : Option Instr :=
  if x = Config.cfg.cardCmd.select ∧ nvb = Config.cfg.selectNvb then some (.frameSelect u bcc) else none

/-- The card frame a twelve-byte body is (R110): `[keyMode, b, k0..k5, u0..u3]`. DESIGN CHOICE (log 7): a bare frame is a
row of the table, so its key mode is AUTH_A or AUTH_B and another byte is refused; AUTHENTICATE sends any key mode (R235). -/
def decodeAuthFrame (x b : Byte) (k : Key) (u : Uid) : Option Instr :=
  if x = Config.cfg.cardCmd.authA then some (.frameAuthA b k u)
  else if x = Config.cfg.cardCmd.authB then some (.frameAuthB b k u)
  else none

/-- `[WRITE, b]` with its data bytes (R110, the two phases together). Their number is checked when the frame runs, as
WRITE_BLOCK's is (R245, log 8). -/
def decodeWriteFrame : List Byte → Option Instr
  | x :: b :: data => if x = Config.cfg.cardCmd.write then some (.frameWrite b data) else none
  | _ => none

/-- The card frame of one length whose body the bytes are (R110). Block bytes are checked when the frame runs (R92,
R113 c). -/
def decodeFixedFrame : List Byte → Option Instr
  | [mode] => decodeRequestFrame mode
  | [x, b] => decodeShortFrame x b
  | [x, nvb, u0, u1, u2, u3, bcc] => decodeSelectFrame x nvb ⟨u0, u1, u2, u3⟩ bcc
  | [x, b, k0, k1, k2, k3, k4, k5, u0, u1, u2, u3] => decodeAuthFrame x b ⟨k0, k1, k2, k3, k4, k5⟩ ⟨u0, u1, u2, u3⟩
  | _ => none

/-- The card frame whose body the bytes are (R110). -/
def decodeFrame (body : List Byte) : Option Instr := (decodeFixedFrame body).or (decodeWriteFrame body)

/-- The instruction a request is, or the reason it is none (R92). -/
def decode : Request → Except DecodeError Instr
  | .host op operands =>
    match HostOp.ofCode op with
    | none => .error (.reservedOp op)
    | some o =>
      match decodeHost o operands with
      | some i => .ok i
      | none => .error (.illTypedOperands op)
  | .chipCommand code =>
    match decodeChipCommand code with
    | some i => .ok i
    | none => .error (.unknownChipCommand code)
  | .cardFrame body =>
    match decodeFrame body with
    | some i => .ok i
    | none => .error (.unknownFrame body)

/-- A byte as the integer operand that carries it. -/
def Operand.ofByte (v : Byte) : Operand := .int v.toNat

/-- The host request of an operation with its operands (R90, R91). -/
def hostRequest (o : HostOp) (operands : List Operand) : Request := .host o.code operands

/-- The operands of AUTHENTICATE: the key is optional (R91, R235). -/
def authOperands (h : Handle) (b : Int) (keyMode : Byte) : Option Key → List Operand
  | none => [.card h, .int b, .ofByte keyMode]
  | some k => [.card h, .int b, .ofByte keyMode, .bytes k.toList]

/-- The request that asks for an instruction. A pseudo-request has the request of its expansion (R93). -/
def encode : Instr → Request
  | .regRead a => hostRequest .regRead [.int a]
  | .regWrite a v => hostRequest .regWrite [.int a, .ofByte v]
  | .setBits a m => hostRequest .setBits [.int a, .ofByte m]
  | .clearBits a m => hostRequest .clearBits [.int a, .ofByte m]
  | .transceive cmd payload framing => hostRequest .transceive [.cmd cmd, .bytes payload, .int framing]
  | .crc16 bs => hostRequest .crc16 [.bytes bs]
  | .request mode => hostRequest .request [.ofByte mode]
  | .getUid => hostRequest .getUid []
  | .detect => hostRequest .detect []
  | .select h => hostRequest .select [.card h]
  | .authenticate h b m k => hostRequest .authenticate (authOperands h b m k)
  | .readBlock h b => hostRequest .readBlock [.card h, .int b]
  | .writeBlock h b data => hostRequest .writeBlock [.card h, .int b, .bytes data]
  | .endSession h => hostRequest .endSession [.card h]
  | .readStr h b => hostRequest .readStr [.card h, .int b]
  | .writeStr h b str => hostRequest .writeStr [.card h, .int b, .bytes str]
  | .readInt32 h b off sg => hostRequest .readInt32 [.card h, .int b, .int off, .bool sg]
  | .writeInt32 h b off v => hostRequest .writeInt32 [.card h, .int b, .int off, .int v]
  | .dump h => hostRequest .dump [.card h]
  | .init => hostRequest .init []
  | .monitorStart => hostRequest .monitorStart []
  | .monitorCycle => hostRequest .monitorCycle []
  | .monitorStop => hostRequest .monitorStop []
  | .subscribe n => hostRequest .subscribe [.consumer n]
  | .cmdIdle => .chipCommand Config.cfg.chipCmd.idle
  | .cmdCalcCRC => .chipCommand Config.cfg.chipCmd.calcCRC
  | .cmdTransceive => .chipCommand Config.cfg.chipCmd.transceive
  | .cmdAuthent => .chipCommand Config.cfg.chipCmd.authent
  | .frameReqa => .cardFrame [Config.cfg.cardCmd.reqa]
  | .frameWupa => .cardFrame [Config.cfg.cardCmd.wupa]
  | .frameAnticoll => .cardFrame Config.cfg.anticollCmd
  | .frameSelect u bcc => .cardFrame ([Config.cfg.cardCmd.select, Config.cfg.selectNvb] ++ u.toList ++ [bcc])
  | .frameAuthA b k u => .cardFrame ([Config.cfg.cardCmd.authA, b] ++ k.toList ++ u.toList)
  | .frameAuthB b k u => .cardFrame ([Config.cfg.cardCmd.authB, b] ++ k.toList ++ u.toList)
  | .frameRead b => .cardFrame [Config.cfg.cardCmd.read, b]
  | .frameWrite b data => .cardFrame (Config.cfg.cardCmd.write :: b :: data)
  | .reqa => hostRequest .request [.ofByte Config.cfg.cardCmd.reqa]
  | .wupa => hostRequest .request [.ofByte Config.cfg.cardCmd.wupa]
  | .authA h b => hostRequest .authenticate (authOperands h b Config.cfg.cardCmd.authA none)
  | .authB h b => hostRequest .authenticate (authOperands h b Config.cfg.cardCmd.authB none)
  | .cardRead h b => hostRequest .readBlock [.card h, .int b]
  | .cardWrite h b data => hostRequest .writeBlock [.card h, .int b, .bytes data]

/-- The core instruction a pseudo-request expands to (R93); every other instruction is its own core. -/
def Instr.core : Instr → Instr
  | .reqa => .request Config.cfg.cardCmd.reqa
  | .wupa => .request Config.cfg.cardCmd.wupa
  | .authA h b => .authenticate h b Config.cfg.cardCmd.authA none
  | .authB h b => .authenticate h b Config.cfg.cardCmd.authB none
  | .cardRead h b => .readBlock h b
  | .cardWrite h b data => .writeBlock h b data
  | i => i

/-! ## A word of spec/opcode_table.json -/

/-- The all-zero operands of an operation: "operand words of zeros" for a word that gives `op` alone (log 5). An integer
is 0, a list of bytes is empty, a handle is the zero UID with generation 0, the optional key is left out, and `cmd` is the
first of its two values (R91: `cmd` ∈ {Authent, Transceive}). -/
def HostOp.zeroOperands : HostOp → List Operand
  | .regRead => [.int 0]
  | .regWrite | .setBits | .clearBits => [.int 0, .int 0]
  | .transceive => [.cmd .authent, .bytes [], .int 0]
  | .crc16 => [.bytes []]
  | .request => [.int 0]
  | .getUid | .detect | .init | .monitorStart | .monitorCycle | .monitorStop => []
  | .select | .endSession | .dump => [.card ⟨⟨0#8, 0#8, 0#8, 0#8⟩, 0⟩]
  | .authenticate => [.card ⟨⟨0#8, 0#8, 0#8, 0#8⟩, 0⟩, .int 0, .int 0]
  | .readBlock | .readStr => [.card ⟨⟨0#8, 0#8, 0#8, 0#8⟩, 0⟩, .int 0]
  | .writeBlock | .writeStr => [.card ⟨⟨0#8, 0#8, 0#8, 0#8⟩, 0⟩, .int 0, .bytes []]
  | .readInt32 => [.card ⟨⟨0#8, 0#8, 0#8, 0#8⟩, 0⟩, .int 0, .int 0, .bool false]
  | .writeInt32 => [.card ⟨⟨0#8, 0#8, 0#8, 0#8⟩, 0⟩, .int 0, .int 0, .int 0]
  | .subscribe => [.consumer 0]

/-- The length of the frame body that begins with a byte (R110), WRITE's with its 16 data bytes; 0 for no frame. -/
def frameLength (x : Byte) : Nat :=
  if x = Config.cfg.cardCmd.reqa ∨ x = Config.cfg.cardCmd.wupa then 1
  else if x = Config.cfg.cardCmd.read then 2
  else if x = Config.cfg.cardCmd.authA ∨ x = Config.cfg.cardCmd.authB then 12
  else if x = Config.cfg.cardCmd.write then 18
  else 0

/-- A frame body that begins with the given bytes, the rest zeros. -/
def zeroFrame (first : List Byte) (len : Nat) : Request :=
  .cardFrame (first ++ List.replicate (len - first.length) 0#8)

/-- The bytes of a table word: a 16-bit row is one word whose first FIFO byte is bits 15 to 8, as the table writes
`[0x93, 0x20]` as 0x9320 (log 6). -/
def tableBytes (nbits w : Nat) : List Byte :=
  if nbits = 16 then [BitVec.ofNat 8 (w / 256), BitVec.ofNat 8 w] else [BitVec.ofNat 8 w]

/-- The request of a table word. Rows of different formats share words (0x03, 0x20, 0x24, 0x25, 0x26, 0x30); a word is read
in the first format, in the table's order, that has it: host request, chip command, card frame (log 6). -/
def tableRequest (nbits w : Nat) : Request :=
  match tableBytes nbits w with
  | [x, y] =>
    if [x, y] = Config.cfg.anticollCmd then zeroFrame [x, y] 2 else zeroFrame [x, y] 7
  | x :: _ =>
    match HostOp.ofCode x with
    | some o => .host x o.zeroOperands
    | none =>
      match decodeChipCommand x with
      | some _ => .chipCommand x
      | none => if frameLength x = 0 then .host x [] else zeroFrame [x] (frameLength x)
  | [] => .host 0#8 []

/-- The instruction the decoder reads from a word of spec/opcode_table.json. -/
def decodeTableWord (nbits w : Nat) : Option Instr := (decode (tableRequest nbits w)).toOption

end Sys2Proof
end

