-- ==== Sys2Proof/Machine/State.lean ====
section
/-!
DEFINITION. The state of the block: everything spec/10_state.md gives it, the results and labels a run is observed by
(spec/46_presence_monitor.md R330, R343), and the model's own inputs (log 1, log 3). All of it is plain data.
-/

namespace Sys2Proof.Machine

/-! ## Agents, responses, errors, results -/

/-- Who takes steps (spec/00_scope.md R13): a host caller, or the monitor worker. -/
inductive Agent where
  | host (caller : Nat)
  | worker
deriving DecidableEq, Repr

/-- The status of a Response (spec/10_state.md R27, spec/60_exceptions.md R351). -/
inductive Status where
  | ok
  | noTag
deriving DecidableEq, Repr

/-- What TRANSCEIVE returns (spec/10_state.md R27). -/
structure Response where
  status : Status
  bytes : List Byte
  bits : Nat
deriving DecidableEq, Repr

/-- The info of AuthenticationFailed: the status, or the crypto bit found clear (spec/44_protocol_controller.md R235). -/
inductive AuthFailure where
  | status (s : Status)
  | notActive
deriving DecidableEq, Repr

/-- The sub-cases of WriteFailed (spec/44_protocol_controller.md R245). -/
inductive WritePhase where
  | phase1
  | phase2Partial
deriving DecidableEq, Repr

/-- The reasons of InvalidArgument (spec/60_exceptions.md R361). -/
inductive ArgReason where
  | blockRange
  | staleCard
  | offsetRange
  | valueRange
  | dataLength
  | regAddress
  | payloadLength
deriving DecidableEq, Repr

/-- An error kind with the info it records (spec/60_exceptions.md R350), but for the mark. -/
inductive Cause where
  | timeout (irq : Byte) (polls : Nat)
  | frameError (errv : Byte)
  | noTagPresent (r : Response)
  | uidChecksumError (bytes : List Byte)
  | selectFailed (r : Response)
  | authenticationFailed (why : AuthFailure)
  | readFailed (r : Response)
  | writeFailed (phase : WritePhase) (r : Response)
  | invalidArgument (reason : ArgReason)
  | transportError (a : Addr)
deriving DecidableEq, Repr

/-- What DUMP reports of one block (spec/45_card_accessors.md R290). -/
inductive BlockReport where
  | data (d : List Byte)
  | authFailed (why : AuthFailure)
  | readFailed (r : Response)
deriving DecidableEq, Repr

/-- The `partial` part of an error's info (spec/60_exceptions.md R350): none; WRITE_BLOCK's mark
(spec/44_protocol_controller.md R247); or the entries DUMP had gathered (spec/45_card_accessors.md R291). -/
inductive Mark where
  | none
  | write (isPartial : Bool)
  | dump (entries : List (Nat × BlockReport))
deriving DecidableEq, Repr

/-- `err(kind, info)` (spec/00_scope.md R11, spec/60_exceptions.md R350). -/
structure Err where
  cause : Cause
  mark : Mark
deriving DecidableEq, Repr

/-- The error kinds alone (spec/60_exceptions.md R350). -/
inductive Kind where
  | timeout
  | frameError
  | noTagPresent
  | uidChecksumError
  | selectFailed
  | authenticationFailed
  | readFailed
  | writeFailedPhase1
  | writeFailedPhase2Partial
  | invalidArgument
  | transportError
deriving DecidableEq, Repr

/-- `value` of `ok(value)`: the result types of spec/30_encoding.md R91. -/
inductive ResultValue where
  | unit
  | byte (v : Byte)
  | response (r : Response)
  | crc (lo hi : Byte)
  | uid (u : Uid) (bcc : Byte)
  | card (h : Handle)
  | bytes (bs : List Byte)
  | int (z : Int)
  | dump (entries : List (Nat × BlockReport))
deriving DecidableEq, Repr

/-- The result of an operation: `ok(value)` or `err(kind, info)` (spec/00_scope.md R11). -/
inductive Result where
  | ok (v : ResultValue)
  | err (e : Err)
deriving DecidableEq, Repr

/-- The result of one request, with its caller. -/
structure Reply where
  caller : Agent
  result : Result
deriving DecidableEq, Repr

/-! ## Session, monitor, logs -/

/-- The card session (spec/10_state.md R30). -/
structure Session where
  uid : Uid
  bcc : Byte
  key : Key
  cryptoActive : Bool
  gen : Nat
deriving DecidableEq, Repr

/-- A monitor event (spec/10_state.md R36, spec/46_presence_monitor.md R335). -/
inductive Event where
  | arrived (u : Uid)
  | removed (u : Uid)
deriving DecidableEq, Repr

/-- The presence state (spec/10_state.md R35). -/
inductive MState where
  | notStarted
  | noCard
  | cardPresent (u : Uid)
  | stopped
  | faulted (k : Kind)
deriving DecidableEq, Repr

/-- The worker's phase (spec/10_state.md R35). -/
inductive Worker where
  | none
  | polling
  | sleeping (remainingMs : Nat)
deriving DecidableEq, Repr

/-- A registered consumer with its inbox, oldest event first (spec/46_presence_monitor.md R335). -/
structure Subscriber where
  consumer : Nat
  inbox : List Event
deriving DecidableEq, Repr

/-- The presence monitor (spec/10_state.md R35). -/
structure Monitor where
  mstate : MState
  stopFlag : Bool
  subscribers : List Subscriber
  worker : Worker
deriving DecidableEq, Repr

/-- A diagnostic entry (spec/10_state.md R37). -/
inductive LogEntry where
  | crcBudgetExhausted (input : List Byte)
  | monitorError (k : Kind)
deriving DecidableEq, Repr

/-! ## The model's inputs -/

/-- One draw of the environment for one transaction: whether the transport fails it (spec/20_memory.md R71) and, for a
read, the byte answered (R70). -/
structure Answer where
  fails : Bool
  value : Byte
deriving DecidableEq, Repr

/-- A move offered to the block: a request of a host caller, or a turn of the worker (spec/60_exceptions.md R365). -/
inductive Move where
  | host (caller : Nat) (req : Request)
  | worker
deriving DecidableEq, Repr

/-! ## The state -/

/-- The state of the block (spec/10_state.md R20), with its observations and the model's own fields. -/
structure State where
  /-- The chip-enable line (R21). -/
  line : Bool
  /-- INIT has completed (R22). -/
  initialised : Bool
  /-- The owner of the bus (R23). -/
  lock : Option Agent
  /-- The card session (R30). -/
  session : Option Session
  /-- The session generation counter (R32). -/
  gen : Nat
  /-- The presence monitor (R35). -/
  monitor : Monitor
  /-- The emitted events, oldest first (R36). -/
  events : List Event
  /-- The diagnostic entries, oldest first (R37). -/
  log : List LogEntry
  /-- The bus history, oldest first (R38). -/
  trace : List TraceEntry
  /-- The result of every request, oldest first (R343, R350). -/
  results : List Reply
  /-- The lengths of the output labels `slept(d)`, oldest first (R330). -/
  labels : List Nat
  /-- The model's own: who issued the request being run (log 3). -/
  agent : Agent
  /-- The model's own: the moves to come, in the order taken (log 3). -/
  port : List Move
  /-- The model's own: the environment's next draws; when none is left, Config.envRead and Config.envFails answer (log 1). -/
  env : List Answer
  /-- The model's own: the number of draws made, the free choice `c` of R70 (log 1). -/
  choice : Nat
deriving DecidableEq, Repr

/-- The state right after reset (spec/10_state.md R40, spec/46_presence_monitor.md R342). DESIGN CHOICE (log 12): the
values of `results`, `labels` and the model's own fields. -/
def State.reset : State where
  line := false
  initialised := false
  lock := none
  session := none
  gen := 0
  monitor := { mstate := .notStarted, stopFlag := false, subscribers := [], worker := .none }
  events := []
  log := []
  trace := []
  results := []
  labels := []
  agent := .host 0
  port := []
  env := []
  choice := 0

/-! ## The reasons a step stops -/

/-- The model faults. Errors of spec/60_exceptions.md R350 are no faults: they are ordinary results (R380 a). -/
inductive Fault where
  /-- Raised by every operation that takes the bus lock, when another operation holds it: the caller waits, "no step"
  (spec/20_memory.md R81, spec/60_exceptions.md R380 c). Safe: the machine stops; no run from reset reaches it. -/
  | waitingForLock
  /-- Raised by MONITOR_CYCLE when mstate is neither NoCard nor CardPresent, a case the pseudocode of
  spec/46_presence_monitor.md R320 does not list (spec/60_exceptions.md R380 b, I17). Safe: the machine stops; no run from
  reset reaches it. -/
  | undefinedCycleState
deriving DecidableEq, Repr

/-- The refusals: requests for which the model has no step and which produce no result (spec/60_exceptions.md R363). -/
inductive Refusal where
  /-- An instruction without a meaning in this model. Raised only by an arm of exec. Safe. -/
  | notModelled (mnemonic : String)
  /-- Raised by the fetch: a reserved op, or operands of the wrong shape (spec/30_encoding.md R92). Safe. -/
  | undecodable (why : DecodeError)
  /-- Raised by TRANSCEIVE on a `cmd` or `framing` outside its type (spec/30_encoding.md R92). Safe. -/
  | illTyped
  /-- Raised by every request but INIT, the RegisterBus primitives, the chip commands, SUBSCRIBE and MONITOR_STOP before
  INIT has succeeded (spec/10_state.md R22). Safe. -/
  | notInitialised
  /-- Raised by INIT on an initialised controller (spec/46_presence_monitor.md R311). Safe. -/
  | alreadyInitialised
  /-- Raised by MONITOR_START while a worker runs (spec/46_presence_monitor.md R315). Safe. -/
  | workerRunning
  /-- Raised by MONITOR_CYCLE issued by a host caller (spec/30_encoding.md R92). Safe. -/
  | cycleFromHost
  /-- Raised by MONITOR_CYCLE when the worker is not polling (spec/46_presence_monitor.md R320). Safe. -/
  | workerNotPolling
deriving DecidableEq, Repr

/-- The outcome of a step of this machine. -/
abbrev Outcome := Host.Outcome State Fault Refusal

end Sys2Proof.Machine
end

