-- ==== Sys2Proof/Machine/Ops.lean ====
section
/-!
DEFINITION. The shared operations: one bus transaction with the environment's draw (spec/20_memory.md R61, R70, R71), the
RegisterBus operations inside other operations (spec/41_register_bus.md), raising an error and ending a request
(spec/60_exceptions.md R360, R366), the bus lock (spec/20_memory.md R81), and the updates of session and monitor.
-/

namespace Sys2Proof.Machine

/-- An operation: from a state, either a value or an error, and the state it leaves. An error keeps every state change
made before it (spec/60_exceptions.md R366). -/
abbrev Op (α : Type) := EStateM Err State α

/-! ## Errors -/

/-- `raise E(info)` (spec/00_scope.md R10): ends the operation and every operation that called it. -/
def raise {α : Type} (e : Cause) : Op α := fun s => .error { cause := e, mark := .none } s

/-- Go on when the condition holds, else raise. -/
def ensure (ok : Bool) (e : Cause) : Op Unit := if ok then pure () else raise e

/-- The kind of an error (spec/60_exceptions.md R350). -/
def Cause.kind : Cause → Kind
  | .timeout _ _ => .timeout
  | .frameError _ => .frameError
  | .noTagPresent _ => .noTagPresent
  | .uidChecksumError _ => .uidChecksumError
  | .selectFailed _ => .selectFailed
  | .authenticationFailed _ => .authenticationFailed
  | .readFailed _ => .readFailed
  | .writeFailed .phase1 _ => .writeFailedPhase1
  | .writeFailed .phase2Partial _ => .writeFailedPhase2Partial
  | .invalidArgument _ => .invalidArgument
  | .transportError _ => .transportError

/-- The code of an error kind; `ok` has code 0 (spec/60_exceptions.md R350, D22). -/
def Kind.code : Kind → Nat
  | .timeout => 1
  | .frameError => 2
  | .noTagPresent => 3
  | .uidChecksumError => 4
  | .selectFailed => 5
  | .authenticationFailed => 6
  | .readFailed => 7
  | .writeFailedPhase1 => 8
  | .writeFailedPhase2Partial => 9
  | .invalidArgument => 10
  | .transportError => 11

/-- The code of a result (spec/60_exceptions.md R350). -/
def Result.code : Result → Nat
  | .ok _ => 0
  | .err e => e.cause.kind.code

/-- The frame-layer errors, which WRITE_BLOCK marks (spec/44_protocol_controller.md R247). -/
def Cause.isFrameLayer : Cause → Bool
  | .timeout _ _ => true
  | .frameError _ => true
  | .transportError _ => true
  | .noTagPresent _ | .uidChecksumError _ | .selectFailed _ | .authenticationFailed _ | .readFailed _
  | .writeFailed _ _ | .invalidArgument _ => false

/-- Add the `partial` mark to a frame-layer error; its kind and the rest of its info stay (R247). -/
def Err.markWrite (isPartial : Bool) (e : Err) : Err :=
  if e.cause.isFrameLayer then { e with mark := .write isPartial } else e

/-- Run an operation, marking a frame-layer error it raises (R247). -/
def markingWrite {α : Type} (isPartial : Bool) (m : Op α) : Op α := fun s =>
  match m s with
  | .ok a s' => .ok a s'
  | .error e s' => .error (e.markWrite isPartial) s'

/-! ## Bus transactions -/

/-- The environment's draw for a transaction on `a` (spec/20_memory.md R70, R71): the next of `env`, else the free
constants (log 1). -/
def State.draw (s : State) (a : Addr) : Answer :=
  match s.env with
  | x :: _ => x
  | [] => { fails := Config.envFails s.trace a s.choice, value := Config.envRead s.trace a s.choice }

/-- A transaction has happened: the history grows by its entry and the draw is used up. -/
def State.transact (s : State) (e : TraceEntry) : State :=
  { s with trace := s.trace ++ [e], env := s.env.tail, choice := s.choice + 1 }

/-- The transport fails this transaction (R71): only where `TRANSPORT_MAY_FAIL` lets it. -/
def Cfg.transportFails (c : Cfg) (x : Answer) : Bool := c.transportMayFail && x.fails

/-- `RegRead(a)`: one read transaction (spec/00_scope.md R10, spec/20_memory.md R70, R71). -/
def regRead (c : Cfg) (a : Addr) : Op Byte := fun s =>
  if Cfg.transportFails c (s.draw a) then .error { cause := .transportError a, mark := .none } (s.transact (.fail a))
  else .ok (s.draw a).value (s.transact (.read a (s.draw a).value))

/-- `RegWrite(a, v)`: one write transaction (spec/00_scope.md R10, spec/20_memory.md R71). -/
def regWrite (c : Cfg) (a : Addr) (v : Byte) : Op Unit := fun s =>
  if Cfg.transportFails c (s.draw a) then .error { cause := .transportError a, mark := .none } (s.transact (.fail a))
  else .ok () (s.transact (.write a v))

/-- SET_BITS inside an operation: a read, then a write of the OR (spec/41_register_bus.md R132). -/
def setBits (c : Cfg) (a : Addr) (m : Byte) : Op Unit := do
  let v ← regRead c a
  regWrite c a (v ||| m)

/-- CLEAR_BITS inside an operation: a read, then a write of the AND-NOT (spec/41_register_bus.md R133). -/
def clearBits (c : Cfg) (a : Addr) (m : Byte) : Op Unit := do
  let v ← regRead c a
  regWrite c a (v &&& ~~~m)

/-- Load bytes into the FIFO, one write each, in list order (spec/20_memory.md R66 b). -/
def loadFifo (c : Cfg) : List Byte → Op Unit
  | [] => pure ()
  | b :: bs => do
    regWrite c c.regMap.fifoData b
    loadFifo c bs

/-- Drain bytes from the FIFO, one read each, in order (spec/20_memory.md R66 d). -/
def drainFifo (c : Cfg) : Nat → Op (List Byte)
  | 0 => pure []
  | n + 1 => do
    let b ← regRead c c.regMap.fifoData
    let bs ← drainFifo c n
    pure (b :: bs)

/-- `Log(entry)` (spec/00_scope.md R10). -/
def logEntry (e : LogEntry) : Op Unit := fun s => .ok () { s with log := s.log ++ [e] }

/-- `SetLine(chipEnable, 1)`: the line is driven and the history says so (spec/46_presence_monitor.md R311). -/
def setLine : Op Unit := fun s => .ok () { s with line := true, trace := s.trace ++ [.line true] }

/-! ## The session -/

/-- A handle is valid exactly while the session has its UID and generation (spec/10_state.md R32). -/
def State.sessionOf (s : State) (h : Handle) : Option Session :=
  s.session.filter fun q => q.uid == h.uid && q.gen == h.gen

/-- `checkCard(h)` (spec/44_protocol_controller.md R211): the current session, or InvalidArgument(staleCard). -/
def checkCard (h : Handle) : Op Session := fun s =>
  match s.sessionOf h with
  | some q => .ok q s
  | none => raise (.invalidArgument .staleCard) s

/-- Write the session's crypto mirror; nothing where there is no session (spec/10_state.md R31). -/
def setCrypto (active : Bool) : Op Unit := fun s =>
  .ok () { s with session := s.session.map fun q => { q with cryptoActive := active } }

/-! ## Ending a request -/

/-- The end of a request (spec/60_exceptions.md R366, R367): the lock is released and the caller receives `ok(value)` or
`err(kind, info)`; every state change made before an error stays. -/
def finish : EStateM.Result Err State ResultValue → State
  | .ok v s => { s with lock := none, results := s.results ++ [{ caller := s.agent, result := .ok v }] }
  | .error e s => { s with lock := none, results := s.results ++ [{ caller := s.agent, result := .err e }] }

/-- A top-level operation on the bus (spec/10_state.md R23, spec/20_memory.md R81): it takes the lock, runs, releases the
lock; a caller that finds the lock held waits (log 14, log 15). -/
def topLevel (op : Op ResultValue) (s : State) : Outcome :=
  match s.lock with
  | none => .next (finish (op { s with lock := some s.agent }))
  | some _ => .fault .waitingForLock

/-- A request that touches no bus and takes no lock ends with `ok(unit)` at once (spec/46_presence_monitor.md R331,
log 15). -/
def State.acknowledge (s : State) : State :=
  { s with results := s.results ++ [{ caller := s.agent, result := .ok .unit }] }

/-- The gate of spec/10_state.md R22. -/
def whenInitialised (s : State) (k : Outcome) : Outcome :=
  if s.initialised then k else .refused .notInitialised

/-- The gate of spec/30_encoding.md R92: operands outside their types are refused. -/
def whenTyped (ok : Bool) (k : Outcome) : Outcome :=
  if ok then k else .refused .illTyped

/-- A top-level operation that requires `initialised` (spec/10_state.md R22). -/
def cardOperation (op : Op ResultValue) (s : State) : Outcome := whenInitialised s (topLevel op s)

end Sys2Proof.Machine
end

