-- ==== Sys2Proof/Machine/Flags.lean ====
section
/-!
DEFINITION. Every status and flag computation of the block (spec/10_state.md R39, spec/45_card_accessors.md R299).
-/

namespace Sys2Proof.Machine

/-- A mask test: some bit of the mask is set. -/
def anyBit (v m : Byte) : Bool := (v &&& m) != 0#8

/-- The completion test of the poll (spec/42_frame_transceiver.md R155): the "any interrupt" bit or a command-specific
completion bit. -/
def irqDone (c : Cfg) (waitIrq irq : Byte) : Bool := anyBit irq c.bits.irqAny || anyBit irq waitIrq

/-- The error check (spec/42_frame_transceiver.md R158). -/
def frameFailed (c : Cfg) (errv : Byte) : Bool := anyBit errv c.errMask

/-- The status of a completed frame (spec/42_frame_transceiver.md R160). -/
def frameStatus (c : Cfg) (irqEn irq : Byte) : Status :=
  if anyBit (irq &&& irqEn) c.bits.irqNoTag then .noTag else .ok

/-- The bit count, on the unclamped level (spec/42_frame_transceiver.md R163, R165). -/
def bitCount (n lastBits : Nat) : Nat :=
  if n = 0 then 8 else if lastBits ≠ 0 then (n - 1) * 8 + lastBits else n * 8

/-- The number of bytes drained (spec/42_frame_transceiver.md R164). -/
def drainCount (c : Cfg) (n : Nat) : Nat := min (max n 1) c.maxLen

/-- The CRC-done bit (spec/43_crc_engine.md R192). -/
def crcDone (c : Cfg) (div : Byte) : Bool := anyBit div c.bits.divCrc

/-- The crypto-active bit (spec/44_protocol_controller.md R235). -/
def cryptoOn (c : Cfg) (st : Byte) : Bool := anyBit st c.bits.cryptoOn

/-- Byte `i` of a payload. The default is never used: a response that passed its length check has the byte
(spec/44_protocol_controller.md R214, log 22). -/
def byteAt (bs : List Byte) (i : Nat) : Byte := bs.getD i 0#8

/-- The write acknowledge (spec/44_protocol_controller.md R245): Ok, 4 bits, low nibble ACK. -/
def ackOk (c : Cfg) (r : Response) : Bool :=
  r.status == .ok && r.bits == 4 && ((byteAt r.bytes 0 &&& 0x0F#8) == c.ackNibble)

/-- Ok with the required number of bits (spec/30_encoding.md R111). -/
def okBits (n : Nat) (r : Response) : Bool := r.status == .ok && r.bits == n

/-- The read response check: Ok with one block of bytes, counted after the clamp (spec/44_protocol_controller.md R240). -/
def readOk (c : Cfg) (r : Response) : Bool := r.status == .ok && r.bytes.length == c.blockSize

/-- The UID checksum: the XOR of the four UID bytes (spec/30_encoding.md R113 a). -/
def uidBcc (u : Uid) : Byte := u.u0 ^^^ u.u1 ^^^ u.u2 ^^^ u.u3

end Sys2Proof.Machine
end

