-- ==== Sys2Proof/Machine/Operands.lean ====
section
/-!
DEFINITION. The operand forms: run-time checks of register addresses, blocks, offsets, values and lengths
(spec/60_exceptions.md R361), and the conversions of strings, integers and UIDs (spec/45_card_accessors.md R272, R273,
spec/30_encoding.md R113).
-/

namespace Sys2Proof.Machine

/-- The address check of a top-level register request (spec/20_memory.md R62). -/
def checkAddr (a : Int) : Op Addr := do
  ensure (decide (0 ≤ a ∧ a ≤ 63)) (.invalidArgument .regAddress)
  pure (BitVec.ofNat 6 a.toNat)

/-- The payload check of a host TRANSCEIVE or CRC16 (spec/60_exceptions.md R361). -/
def checkPayload (c : Cfg) (bs : List Byte) : Op Unit :=
  ensure (decide (bs.length ≤ c.fifoSize)) (.invalidArgument .payloadLength)

/-- `checkBlock(b)` (spec/44_protocol_controller.md R210), giving the block address byte (spec/30_encoding.md R113 c). -/
def checkBlock (c : Cfg) (b : Int) : Op Byte := do
  ensure (decide (0 ≤ b ∧ b < c.blockCount)) (.invalidArgument .blockRange)
  pure (BitVec.ofNat 8 b.toNat)

/-- `checkOffset(off)` (spec/45_card_accessors.md R271). -/
def checkOffset (c : Cfg) (off : Int) : Op Nat := do
  ensure (decide (0 ≤ off ∧ off ≤ c.int32OffsetMax)) (.invalidArgument .offsetRange)
  pure off.toNat

/-- The value check of WRITE_INT32 (spec/45_card_accessors.md R273). -/
def checkValue (v : Int) : Op Unit :=
  ensure (decide (-(2 : Int) ^ 31 ≤ v ∧ v < (2 : Int) ^ 32)) (.invalidArgument .valueRange)

/-- The length check of WRITE_BLOCK (spec/44_protocol_controller.md R245). -/
def checkData (c : Cfg) (data : List Byte) : Op Unit :=
  ensure (decide (data.length = c.blockSize)) (.invalidArgument .dataLength)

/-- Big-endian assembly of four bytes (spec/00_scope.md R9). -/
def be32Bytes (b0 b1 b2 b3 : Byte) : Nat := b0.toNat * 2 ^ 24 + b1.toNat * 2 ^ 16 + b2.toNat * 2 ^ 8 + b3.toNat

/-- `be32(d, off)` (spec/45_card_accessors.md R273). -/
def be32 (d : List Byte) (off : Nat) : Nat :=
  be32Bytes (byteAt d off) (byteAt d (off + 1)) (byteAt d (off + 2)) (byteAt d (off + 3))

/-- `uidInt(h)`: the UID as an unsigned 32-bit big-endian integer (spec/10_state.md R33). -/
def uidInt (u : Uid) : Nat := be32Bytes u.u0 u.u1 u.u2 u.u3

/-- `toSigned(u)`: two's complement (spec/45_card_accessors.md R273). -/
def toSigned (u : Nat) : Int := if 2 ^ 31 ≤ u then (u : Int) - (2 : Int) ^ 32 else (u : Int)

/-- The unsigned 32-bit pattern of an integer: `v mod 2^32`, not negative (spec/45_card_accessors.md R273, R299 f). -/
def pattern32 (v : Int) : Nat := (v % (2 : Int) ^ 32).toNat

/-- `bytes32(v)`: the four bytes of the pattern, most significant first (spec/45_card_accessors.md R273). -/
def bytes32 (v : Int) : List Byte :=
  [BitVec.ofNat 8 (pattern32 v / 2 ^ 24), BitVec.ofNat 8 (pattern32 v / 2 ^ 16), BitVec.ofNat 8 (pattern32 v / 2 ^ 8),
   BitVec.ofNat 8 (pattern32 v)]

/-- The block with four bytes replaced at an offset (spec/45_card_accessors.md R281). -/
def spliceAt (d : List Byte) (off : Nat) (w : List Byte) : List Byte := d.take off ++ w ++ d.drop (off + w.length)

/-- `pad16(s)`: padded with zero bytes, or cut, to a block (spec/45_card_accessors.md R272). -/
def pad16 (c : Cfg) (str : List Byte) : List Byte :=
  str.take c.blockSize ++ List.replicate (c.blockSize - str.length) 0#8

/-- `strip(d)`: every trailing zero byte removed (spec/45_card_accessors.md R272). -/
def strip (d : List Byte) : List Byte := (d.reverse.dropWhile (fun b => b == 0#8)).reverse

end Sys2Proof.Machine
end

