-- ==== Sys2Proof/Machine/RegisterBus.lean ====
section
/-!
DEFINITION. REG_READ, REG_WRITE, SET_BITS and CLEAR_BITS as host requests (spec/41_register_bus.md R130 to R134). They do
not require `initialised` (spec/10_state.md R22).
-/

namespace Sys2Proof.Machine

/-- REG_READ (spec/41_register_bus.md R130). -/
def execRegRead (a : Int) (s : State) : Outcome :=
  topLevel (do
    let r ← checkAddr a
    let v ← regRead Config.cfg r
    pure (.byte v)) s

/-- REG_WRITE (spec/41_register_bus.md R131). -/
def execRegWrite (a : Int) (v : Byte) (s : State) : Outcome :=
  topLevel (do
    let r ← checkAddr a
    regWrite Config.cfg r v
    pure .unit) s

/-- SET_BITS (spec/41_register_bus.md R132). -/
def execSetBits (a : Int) (m : Byte) (s : State) : Outcome :=
  topLevel (do
    let r ← checkAddr a
    setBits Config.cfg r m
    pure .unit) s

/-- CLEAR_BITS (spec/41_register_bus.md R133). -/
def execClearBits (a : Int) (m : Byte) (s : State) : Outcome :=
  topLevel (do
    let r ← checkAddr a
    clearBits Config.cfg r m
    pure .unit) s

end Sys2Proof.Machine
end

