-- ==== Sys2Proof/Machine/FrameTransceiver.lean ====
section
/-!
DEFINITION. TRANSCEIVE: send one frame and collect its response (spec/42_frame_transceiver.md R150 to R169).
-/

namespace Sys2Proof.Machine

/-- The row of `Cfg.IrqMasks` for a command (spec/30_encoding.md R102): Authent's for Authent, else Transceive's. -/
def Cfg.irqMask (c : Cfg) : ChipCommand → IrqMask
  | .authent => c.irqAuthent
  | .transceive | .idle | .calcCRC => c.irqTransceive

/-- Step 3 (spec/42_frame_transceiver.md R154): start send, for Transceive only. -/
def startSend (c : Cfg) : ChipCommand → Op Unit
  | .transceive => setBits c c.regMap.bitFraming c.bits.startSend
  | .authent | .idle | .calcCRC => pure ()

/-- The framing write and steps 1 to 3 (spec/42_frame_transceiver.md R151 to R154). -/
def sendFrame (c : Cfg) (cmd : ChipCommand) (payload : List Byte) (framing : Nat) : Op Unit := do
  regWrite c c.regMap.bitFraming (BitVec.ofNat 8 framing &&& c.bits.txLastBits)
  regWrite c c.regMap.ien ((Cfg.irqMask c cmd).irqEn ||| c.bits.ienExtra)
  clearBits c c.regMap.irq c.bits.irqClear
  setBits c c.regMap.fifoLevel c.bits.fifoFlush
  regWrite c c.regMap.cmd c.chipCmd.idle
  loadFifo c payload
  regWrite c c.regMap.cmd (c.chipCode cmd)
  startSend c cmd

/-- How a completion poll ended: the last value read, the reads performed, whether a completion bit was seen. -/
structure Poll where
  irq : Byte
  polls : Nat
  done : Bool
deriving DecidableEq, Repr

/-- Step 4, the completion poll (spec/42_frame_transceiver.md R155): read, count, test; stop at the first completion or when
the budget is used. `irq` and `polls` are those of the reads already performed. -/
def pollIrq (c : Cfg) (waitIrq : Byte) : (budget : Nat) → (irq : Byte) → (polls : Nat) → Op Poll
  | 0, irq, polls => pure { irq := irq, polls := polls, done := false }
  | budget + 1, _, polls => do
    let irq ← regRead c c.regMap.irq
    if irqDone c waitIrq irq then pure { irq := irq, polls := polls + 1, done := true }
    else pollIrq c waitIrq budget irq (polls + 1)

/-- Step 5 (spec/42_frame_transceiver.md R156 to R158): clear start send, then Timeout, then the error register. -/
def checkFrame (c : Cfg) (p : Poll) : Op Unit := do
  clearBits c c.regMap.bitFraming c.bits.startSend
  ensure p.done (.timeout p.irq p.polls)
  let errv ← regRead c c.regMap.err
  ensure (!frameFailed c errv) (.frameError errv)

/-- Step 8 (spec/42_frame_transceiver.md R162 to R164): the FIFO level, the last-byte bit count, the drain. -/
def readResponse (c : Cfg) (status : Status) : Op Response := do
  let n ← regRead c c.regMap.fifoLevel
  let control ← regRead c c.regMap.control
  let bytes ← drainFifo c (drainCount c n.toNat)
  pure { status := status, bytes := bytes, bits := bitCount n.toNat (control &&& c.bits.rxLastBits).toNat }

/-- Step 7 (spec/42_frame_transceiver.md R161): only Transceive reads a response. -/
def collectResponse (c : Cfg) (cmd : ChipCommand) (status : Status) : Op Response :=
  match cmd with
  | .transceive => readResponse c status
  | .authent | .idle | .calcCRC => pure { status := status, bytes := [], bits := 0 }

/-- TRANSCEIVE inside an operation (spec/42_frame_transceiver.md R150). -/
def transceive (c : Cfg) (cmd : ChipCommand) (payload : List Byte) (framing : Nat) : Op Response := do
  sendFrame c cmd payload framing
  let p ← pollIrq c (Cfg.irqMask c cmd).waitIrq c.trxBudget 0#8 0
  checkFrame c p
  collectResponse c cmd (frameStatus c (Cfg.irqMask c cmd).irqEn p.irq)

/-- TRANSCEIVE as a host request (spec/42_frame_transceiver.md R150, spec/30_encoding.md R92). -/
def execTransceive (cmd : ChipCommand) (payload : List Byte) (framing : Nat) (s : State) : Outcome :=
  whenTyped (Instr.wf (.transceive cmd payload framing)) <|
    cardOperation (do
      checkPayload Config.cfg payload
      let r ← transceive Config.cfg cmd payload framing
      pure (.response r)) s

end Sys2Proof.Machine
end

