-- ==== Sys2Proof/Machine/CrcEngine.lean ====
section
/-!
DEFINITION. CRC16: a frame checksum on the chip's coprocessor (spec/43_crc_engine.md R190 to R198).
-/

namespace Sys2Proof.Machine

/-- The CRC-done poll (spec/43_crc_engine.md R192): whether the bit was seen within the budget. -/
def pollCrc (c : Cfg) : (budget : Nat) → Op Bool
  | 0 => pure false
  | budget + 1 => do
    let div ← regRead c c.regMap.divIrq
    if crcDone c div then pure true else pollCrc c budget

/-- Set-up of the calculation (spec/43_crc_engine.md R191). -/
def startCrc (c : Cfg) (bytes : List Byte) : Op Unit := do
  clearBits c c.regMap.divIrq c.bits.divCrc
  setBits c c.regMap.fifoLevel c.bits.fifoFlush
  loadFifo c bytes
  regWrite c c.regMap.cmd c.chipCmd.calcCRC

/-- Budget exhaustion is logged and is no error (spec/43_crc_engine.md R193). -/
def noteExhaustion (done : Bool) (bytes : List Byte) : Op Unit :=
  if done then pure () else logEntry (.crcBudgetExhausted bytes)

/-- CRC16 inside an operation (spec/43_crc_engine.md R190): the two result bytes, low then high. -/
def crc16 (c : Cfg) (bytes : List Byte) : Op (Byte × Byte) := do
  startCrc c bytes
  let done ← pollCrc c c.crcBudget
  noteExhaustion done bytes
  let lo ← regRead c c.regMap.crcL
  let hi ← regRead c c.regMap.crcH
  pure (lo, hi)

/-- `withCrc(x)` (spec/44_protocol_controller.md R212): the bytes with their checksum, low byte first. -/
def withCrc (c : Cfg) (x : List Byte) : Op (List Byte) := do
  let crc ← crc16 c x
  pure (x ++ [crc.1, crc.2])

/-- CRC16 as a host request (spec/43_crc_engine.md R190). -/
def execCrc16 (bytes : List Byte) (s : State) : Outcome :=
  cardOperation (do
    checkPayload Config.cfg bytes
    let crc ← crc16 Config.cfg bytes
    pure (.crc crc.1 crc.2)) s

end Sys2Proof.Machine
end

