-- ==== Sys2Proof/Machine/ProtocolController.lean ====
section
/-!
DEFINITION. The card operations of the ISO14443-A protocol controller (spec/44_protocol_controller.md R210 to R255).
-/

namespace Sys2Proof.Machine

/-! ## Exchanges: the frame of spec/30_encoding.md R110 with the response check of R111 -/

/-- The request frame and its check (spec/44_protocol_controller.md R215). -/
def request (c : Cfg) (mode : Byte) : Op Response := do
  let r ← transceive c .transceive [mode] c.reqFramingBits
  ensure (okBits 16 r) (.noTagPresent r)
  pure r

/-- The UID and checksum byte of an anti-collision response (spec/44_protocol_controller.md R220). -/
def uidOf (bytes : List Byte) : Uid := ⟨byteAt bytes 0, byteAt bytes 1, byteAt bytes 2, byteAt bytes 3⟩

/-- The bits of an anti-collision response: the UID and its checksum byte (spec/44_protocol_controller.md R220). -/
def uidBits (c : Cfg) : Nat := 8 * (c.uidLen + 1)

/-- The anti-collision frame and its checks: length before checksum (spec/44_protocol_controller.md R220). -/
def getUid (c : Cfg) : Op (Uid × Byte) := do
  let r ← transceive c .transceive c.anticollCmd 0
  ensure (okBits (uidBits c) r) (.noTagPresent r)
  ensure (uidBcc (uidOf r.bytes) == byteAt r.bytes c.uidLen) (.uidChecksumError r.bytes)
  pure (uidOf r.bytes, byteAt r.bytes c.uidLen)

/-- The body of the select frame (spec/30_encoding.md R110). -/
def selectBody (c : Cfg) (u : Uid) (bcc : Byte) : List Byte := [c.cardCmd.select, c.selectNvb] ++ u.toList ++ [bcc]

/-- The select frame and its check; the SAK (spec/44_protocol_controller.md R230). -/
def selectExchange (c : Cfg) (u : Uid) (bcc : Byte) : Op Byte := do
  let f ← withCrc c (selectBody c u bcc)
  let r ← transceive c .transceive f 0
  ensure (okBits 24 r) (.selectFailed r)
  pure (byteAt r.bytes 0)

/-- The payload of the authenticate frame (spec/30_encoding.md R110): no CRC. -/
def authPayload (keyMode b : Byte) (k : Key) (u : Uid) : List Byte := [keyMode, b] ++ k.toList ++ u.toList

/-- The authenticate frame, the status check, then the crypto bit (spec/44_protocol_controller.md R235). -/
def authExchange (c : Cfg) (keyMode b : Byte) (k : Key) (u : Uid) : Op Unit := do
  let r ← transceive c .authent (authPayload keyMode b k u) 0
  ensure (r.status == .ok) (.authenticationFailed (.status r.status))
  let st ← regRead c c.regMap.status2
  ensure (cryptoOn c st) (.authenticationFailed .notActive)

/-- The read frame and its check (spec/44_protocol_controller.md R240). -/
def readExchange (c : Cfg) (b : Byte) : Op (List Byte) := do
  let f ← withCrc c [c.cardCmd.read, b]
  let r ← transceive c .transceive f 0
  ensure (readOk c r) (.readFailed r)
  pure r.bytes

/-- One phase of a block write: the frame with its CRC and the acknowledge (spec/44_protocol_controller.md R245). -/
def writePhase (c : Cfg) (phase : WritePhase) (body : List Byte) : Op Unit := do
  let f ← withCrc c body
  let r ← transceive c .transceive f 0
  ensure (ackOk c r) (.writeFailed phase r)

/-- The two write frames (spec/44_protocol_controller.md R245 to R247): phase 2 only after phase 1 was acknowledged, each
validated by its own response; a frame-layer error says whether phase 1 had been acknowledged. -/
def writeExchange (c : Cfg) (b : Byte) (data : List Byte) : Op Unit := do
  markingWrite false (writePhase c .phase1 [c.cardCmd.write, b])
  markingWrite true (writePhase c .phase2Partial data)

/-! ## Operations -/

/-- `installSession(u)` (spec/44_protocol_controller.md R226): the same UID keeps the session, another replaces it. -/
def installSession (c : Cfg) (u : Uid) (bcc : Byte) : Op Handle := fun s =>
  match s.session.filter fun q => q.uid == u with
  | some q => .ok { uid := q.uid, gen := q.gen } s
  | none =>
    .ok { uid := u, gen := s.gen + 1 }
      { s with
        gen := s.gen + 1
        session := some { uid := u, bcc := bcc, key := c.defaultKey, cryptoActive := false, gen := s.gen + 1 } }

/-- DETECT inside an operation (spec/44_protocol_controller.md R225). -/
def detect (c : Cfg) : Op Handle := do
  let _ ← request c c.reqMode
  let u ← getUid c
  installSession c u.1 u.2

/-- AUTHENTICATE inside an operation (spec/44_protocol_controller.md R235, R236): the mirror is cleared after the argument
checks and set only as the last step. -/
def authenticate (c : Cfg) (h : Handle) (b : Int) (keyMode : Byte) (key : Option Key) : Op Unit := do
  let q ← checkCard h
  let blk ← checkBlock c b
  setCrypto false
  authExchange c keyMode blk (key.getD q.key) q.uid
  setCrypto true

/-- READ_BLOCK inside an operation (spec/44_protocol_controller.md R240). -/
def readBlock (c : Cfg) (h : Handle) (b : Int) : Op (List Byte) := do
  let _ ← checkCard h
  let blk ← checkBlock c b
  readExchange c blk

/-- WRITE_BLOCK inside an operation (spec/44_protocol_controller.md R245). -/
def writeBlock (c : Cfg) (h : Handle) (b : Int) (data : List Byte) : Op Unit := do
  let _ ← checkCard h
  let blk ← checkBlock c b
  checkData c data
  writeExchange c blk data

/-- END_SESSION inside an operation (spec/44_protocol_controller.md R250): the handle is not checked. -/
def endSession (c : Cfg) : Op Unit := do
  clearBits c c.regMap.status2 c.bits.cryptoOn
  setCrypto false

/-- SELECT inside an operation (spec/44_protocol_controller.md R230). -/
def select (c : Cfg) (h : Handle) : Op Byte := do
  let q ← checkCard h
  selectExchange c q.uid q.bcc

/-! ## Meanings -/

/-- REQUEST (spec/44_protocol_controller.md R215). -/
def execRequest (mode : Byte) (s : State) : Outcome :=
  cardOperation (do
    let r ← request Config.cfg mode
    pure (.response r)) s

/-- GET_UID (spec/44_protocol_controller.md R220). -/
def execGetUid (s : State) : Outcome :=
  cardOperation (do
    let u ← getUid Config.cfg
    pure (.uid u.1 u.2)) s

/-- DETECT (spec/44_protocol_controller.md R225). -/
def execDetect (s : State) : Outcome :=
  cardOperation (do
    let h ← detect Config.cfg
    pure (.card h)) s

/-- SELECT (spec/44_protocol_controller.md R230). -/
def execSelect (h : Handle) (s : State) : Outcome :=
  cardOperation (do
    let sak ← select Config.cfg h
    pure (.byte sak)) s

/-- AUTHENTICATE (spec/44_protocol_controller.md R235). -/
def execAuthenticate (h : Handle) (b : Int) (keyMode : Byte) (key : Option Key) (s : State) : Outcome :=
  cardOperation (do
    authenticate Config.cfg h b keyMode key
    pure .unit) s

/-- READ_BLOCK (spec/44_protocol_controller.md R240). -/
def execReadBlock (h : Handle) (b : Int) (s : State) : Outcome :=
  cardOperation (do
    let d ← readBlock Config.cfg h b
    pure (.bytes d)) s

/-- WRITE_BLOCK (spec/44_protocol_controller.md R245). -/
def execWriteBlock (h : Handle) (b : Int) (data : List Byte) (s : State) : Outcome :=
  cardOperation (do
    writeBlock Config.cfg h b data
    pure .unit) s

/-- END_SESSION (spec/44_protocol_controller.md R250): the handle is not checked. -/
def execEndSession (_h : Handle) (s : State) : Outcome :=
  cardOperation (do
    endSession Config.cfg
    pure .unit) s

end Sys2Proof.Machine
end

