-- ==== Sys2Proof/Machine/CardAccessors.lean ====
section
/-!
DEFINITION. The typed accessors and DUMP (spec/45_card_accessors.md R270 to R299): compositions of READ_BLOCK, WRITE_BLOCK
and AUTHENTICATE with byte transformations, no transaction of their own.
-/

namespace Sys2Proof.Machine

/-- READ_STR (spec/45_card_accessors.md R275). -/
def readStr (c : Cfg) (h : Handle) (b : Int) : Op (List Byte) := do
  let d ← readBlock c h b
  pure (strip d)

/-- WRITE_STR (spec/45_card_accessors.md R276). -/
def writeStr (c : Cfg) (h : Handle) (b : Int) (str : List Byte) : Op Unit := writeBlock c h b (pad16 c str)

/-- READ_INT32 (spec/45_card_accessors.md R280): every argument check before any transaction. -/
def readInt32 (c : Cfg) (h : Handle) (b off : Int) (signed : Bool) : Op Int := do
  let _ ← checkCard h
  let _ ← checkBlock c b
  let o ← checkOffset c off
  let d ← readBlock c h b
  pure (if signed then toSigned (be32 d o) else (be32 d o : Int))

/-- WRITE_INT32 (spec/45_card_accessors.md R281): read, replace four bytes, write back. -/
def writeInt32 (c : Cfg) (h : Handle) (b off v : Int) : Op Unit := do
  let _ ← checkCard h
  let _ ← checkBlock c b
  let o ← checkOffset c off
  checkValue v
  let d ← readBlock c h b
  writeBlock c h b (spliceAt d o (bytes32 v))

/-- One block of the sweep: authenticate with the session key, then read (spec/45_card_accessors.md R290). -/
def dumpBlock (c : Cfg) (h : Handle) (b : Nat) : Op (List Byte) := do
  authenticate c h b c.dumpKeyMode none
  readBlock c h b

/-- The sweep over the blocks (spec/45_card_accessors.md R290, R291): AuthenticationFailed and ReadFailed are reported
inline, any other error ends the sweep with the entries gathered so far. -/
def dumpFrom (c : Cfg) (h : Handle) : List Nat → List (Nat × BlockReport) → Op (List (Nat × BlockReport))
  | [], out => pure out
  | b :: bs, out => fun s =>
    match dumpBlock c h b s with
    | .ok d s' => dumpFrom c h bs (out ++ [(b, .data d)]) s'
    | .error e s' =>
      match e.cause with
      | .authenticationFailed why => dumpFrom c h bs (out ++ [(b, .authFailed why)]) s'
      | .readFailed r => dumpFrom c h bs (out ++ [(b, .readFailed r)]) s'
      | _ => .error { e with mark := .dump out } s'

/-- DUMP (spec/45_card_accessors.md R290). -/
def dump (c : Cfg) (h : Handle) : Op (List (Nat × BlockReport)) := do
  let _ ← checkCard h
  dumpFrom c h (List.range c.blockCount) []

/-! ## Meanings -/

/-- READ_STR (spec/45_card_accessors.md R275). -/
def execReadStr (h : Handle) (b : Int) (s : State) : Outcome :=
  cardOperation (do
    let str ← readStr Config.cfg h b
    pure (.bytes str)) s

/-- WRITE_STR (spec/45_card_accessors.md R276). -/
def execWriteStr (h : Handle) (b : Int) (str : List Byte) (s : State) : Outcome :=
  cardOperation (do
    writeStr Config.cfg h b str
    pure .unit) s

/-- READ_INT32 (spec/45_card_accessors.md R280). -/
def execReadInt32 (h : Handle) (b off : Int) (signed : Bool) (s : State) : Outcome :=
  cardOperation (do
    let v ← readInt32 Config.cfg h b off signed
    pure (.int v)) s

/-- WRITE_INT32 (spec/45_card_accessors.md R281). -/
def execWriteInt32 (h : Handle) (b off v : Int) (s : State) : Outcome :=
  cardOperation (do
    writeInt32 Config.cfg h b off v
    pure .unit) s

/-- DUMP (spec/45_card_accessors.md R290). -/
def execDump (h : Handle) (s : State) : Outcome :=
  cardOperation (do
    let entries ← dump Config.cfg h
    pure (.dump entries)) s

end Sys2Proof.Machine
end

