-- ==== Sys2Proof/Machine/PresenceMonitor.lean ====
section
/-!
DEFINITION. INIT, the card-presence state machine with its sleep, stop and restart, and event delivery
(spec/46_presence_monitor.md R310 to R343).
-/

namespace Sys2Proof.Machine

/-! ## INIT -/

/-- One transaction of `INIT_SEQUENCE` (spec/46_presence_monitor.md R311). -/
def performInitStep (c : Cfg) : InitStep → Op Unit
  | .write a v => regWrite c a v
  | .setBits a m => setBits c a m

/-- The transactions of `INIT_SEQUENCE`, in order (spec/46_presence_monitor.md R311, R312). -/
def performInit (c : Cfg) : List InitStep → Op Unit
  | [] => pure ()
  | t :: ts => do
    performInitStep c t
    performInit c ts

/-- INIT has completed (spec/10_state.md R22). -/
def setInitialised : Op Unit := fun s => .ok () { s with initialised := true }

/-- INIT inside the gate (spec/46_presence_monitor.md R311). -/
def initialise (c : Cfg) : Op Unit := do
  setLine
  performInit c c.initSequence
  setInitialised

/-- INIT (spec/46_presence_monitor.md R311): refused on an initialised controller. -/
def execInit (s : State) : Outcome :=
  if s.initialised then .refused .alreadyInitialised
  else
    topLevel (do
      initialise Config.cfg
      pure .unit) s

/-! ## Events -/

/-- `Emit(ev)`: to the event list and to every inbox, in subscription order (spec/46_presence_monitor.md R335). -/
def State.emit (s : State) (ev : Event) : State :=
  { s with
    events := s.events ++ [ev]
    monitor := { s.monitor with
      subscribers := s.monitor.subscribers.map fun q => { q with inbox := q.inbox ++ [ev] } } }

/-- SUBSCRIBE on the subscriber list: a new consumer gets an empty inbox, a known one changes nothing
(spec/46_presence_monitor.md R335). -/
def addSubscriber (subs : List Subscriber) (consumer : Nat) : List Subscriber :=
  if subs.any fun q => q.consumer == consumer then subs else subs ++ [{ consumer := consumer, inbox := [] }]

/-- SUBSCRIBE (spec/46_presence_monitor.md R335): no bus transaction, no lock. -/
def execSubscribe (consumer : Nat) (s : State) : Outcome :=
  .next { s with monitor := { s.monitor with subscribers := addSubscriber s.monitor.subscribers consumer } }.acknowledge

/-! ## Lifecycle -/

/-- The monitor as MONITOR_START leaves it (spec/46_presence_monitor.md R315). -/
def Monitor.started (m : Monitor) : Monitor := { m with stopFlag := false, mstate := .noCard, worker := .polling }

/-- MONITOR_START (spec/46_presence_monitor.md R315): refused while a worker runs. -/
def execMonitorStart (s : State) : Outcome :=
  whenInitialised s <|
    if s.monitor.worker = .none then .next { s with monitor := s.monitor.started }.acknowledge
    else .refused .workerRunning

/-- MONITOR_STOP (spec/46_presence_monitor.md R331): sets the flag and returns at once. -/
def execMonitorStop (s : State) : Outcome :=
  .next { s with monitor := { s.monitor with stopFlag := true } }.acknowledge

/-- The worker ends because it saw the stop flag (spec/46_presence_monitor.md R325, R330). -/
def Monitor.ended (m : Monitor) : Monitor := { m with mstate := .stopped, worker := .none }

/-! ## The poll cycle -/

/-- Detect folding (spec/46_presence_monitor.md R322): NoTagPresent and UidChecksumError become "absent"; any other error
stays an error. -/
def foldDetect (c : Cfg) : Op (Option Handle) := fun s =>
  match detect c s with
  | .ok h s' => .ok (some h) s'
  | .error e s' =>
    match e.cause with
    | .noTagPresent _ => .ok none s'
    | .uidChecksumError _ => .ok none s'
    | _ => .error e s'

/-- Emit an event and take the presence state that goes with it (spec/46_presence_monitor.md R321, D32: emit, then
transition). -/
def announce (ev : Event) (m : MState) : Op Unit := fun s =>
  .ok () { s.emit ev with monitor := { (s.emit ev).monitor with mstate := m } }

/-- An arrival (spec/46_presence_monitor.md R321 a, b): emit, transition, END_SESSION; the sleep after it. -/
def arrive (c : Cfg) (h : Handle) : Op Nat := do
  announce (.arrived h.uid) (.cardPresent h.uid)
  endSession c
  pure c.arrivalSleepMs

/-- The session is destroyed; every handle becomes invalid (spec/46_presence_monitor.md R321 c). -/
def dropSession : Op Unit := fun s =>
  .ok () (if s.session.isSome then { s with session := none, gen := s.gen + 1 } else s)

/-- A removal (spec/46_presence_monitor.md R321 c): emit, transition, drop the session; no bus transaction. -/
def depart (c : Cfg) (u : Uid) : Op Nat := do
  announce (.removed u) .noCard
  dropSession
  pure c.longIntervalMs

/-- The five transitions (spec/46_presence_monitor.md R321, R323), from the card present before (`NoCard`: none) and the
folded detect; the sleep each chooses. -/
def transition (c : Cfg) : Option Uid → Option Handle → Op Nat
  | none, none => pure c.shortIntervalMs
  | none, some h => arrive c h
  | some u, some h => if h.uid = u then pure c.shortIntervalMs else arrive c h
  | some u, none => depart c u

/-- The bus work of a cycle: detect, fold, transition (spec/46_presence_monitor.md R320). -/
def pollCard (c : Cfg) (present : Option Uid) : Op Nat := do
  let card ← foldDetect c
  transition c present card

/-- An unexpected error in a cycle (spec/46_presence_monitor.md R324): log it, then halt or skip. -/
def cycleFault (c : Cfg) (e : Err) (s : State) : State :=
  match c.monitorErrorPolicy with
  | .halt =>
    { s with
      log := s.log ++ [.monitorError e.cause.kind]
      monitor := { s.monitor with mstate := .faulted e.cause.kind, worker := .none } }
  | .skip =>
    { s with
      log := s.log ++ [.monitorError e.cause.kind]
      monitor := { s.monitor with worker := .sleeping c.shortIntervalMs } }

/-- A whole cycle past its stop check, under the lock (spec/46_presence_monitor.md R320): the sleep begins after the lock is
released. -/
def runCycle (c : Cfg) (present : Option Uid) (s : State) : State :=
  match pollCard c present { s with lock := some s.agent } with
  | .ok ms s' => { s' with lock := none, monitor := { s'.monitor with worker := .sleeping ms } }
  | .error e s' => { cycleFault c e s' with lock := none }

/-- The presence states a cycle runs in: NoCard, or CardPresent with its UID (spec/46_presence_monitor.md R320). -/
def MState.watching : MState → Option (Option Uid)
  | .noCard => some none
  | .cardPresent u => some (some u)
  | .notStarted | .stopped | .faulted _ => none

/-- A cycle past its gates: the stop check comes before the lock (spec/46_presence_monitor.md R320, R325). -/
def cycle (c : Cfg) (s : State) : Outcome :=
  if s.monitor.stopFlag then .next { s with monitor := s.monitor.ended }.acknowledge
  else
    match s.monitor.mstate.watching with
    | none => .fault .undefinedCycleState
    | some present =>
      match s.lock with
      | some _ => .fault .waitingForLock
      | none => .next (runCycle c present s).acknowledge

/-- MONITOR_CYCLE (spec/46_presence_monitor.md R320): taken only by the worker, when it is polling. -/
def execMonitorCycle (s : State) : Outcome :=
  if s.agent = .worker then
    whenInitialised s <|
      if s.monitor.worker = .polling then cycle Config.cfg s else .refused .workerNotPolling
  else .refused .cycleFromHost

/-! ## Sleep -/

/-- One step of a sleeping worker (spec/46_presence_monitor.md R330): with time left, the stop check and then one slice;
with none left, back to polling. A worker that is not sleeping takes no such step. -/
def sleepSlice (c : Cfg) (s : State) : State :=
  match s.monitor.worker with
  | .sleeping 0 => { s with monitor := { s.monitor with worker := .polling } }
  | .sleeping (t + 1) =>
    if s.monitor.stopFlag then { s with monitor := s.monitor.ended }
    else
      { s with
        labels := s.labels ++ [min c.sleepSliceMs (t + 1)]
        monitor := { s.monitor with worker := .sleeping (t + 1 - min c.sleepSliceMs (t + 1)) } }
  | .none | .polling => s

end Sys2Proof.Machine
end

