-- ==== Sys2Proof/Machine/ChipCommands.lean ====
section
/-!
DEFINITION. The chip commands of spec/30_encoding.md R96 as rows of the opcode table: the byte written whole to the command
register, one write transaction (log 7). Like the RegisterBus primitives they do not require `initialised`.
-/

namespace Sys2Proof.Machine

/-- Write a command code to the command register (spec/30_encoding.md R96). -/
def writeCommand (c : Cfg) (cmd : ChipCommand) : Op ResultValue := do
  regWrite c c.regMap.cmd (c.chipCode cmd)
  pure .unit

/-- CMD.Idle (spec/30_encoding.md R96). -/
def execCmdIdle (s : State) : Outcome := topLevel (writeCommand Config.cfg .idle) s

/-- CMD.CalcCRC (spec/30_encoding.md R96). -/
def execCmdCalcCRC (s : State) : Outcome := topLevel (writeCommand Config.cfg .calcCRC) s

/-- CMD.Transceive (spec/30_encoding.md R96). -/
def execCmdTransceive (s : State) : Outcome := topLevel (writeCommand Config.cfg .transceive) s

/-- CMD.Authent (spec/30_encoding.md R96). -/
def execCmdAuthent (s : State) : Outcome := topLevel (writeCommand Config.cfg .authent) s

end Sys2Proof.Machine
end

