-- ==== Sys2Proof/Machine/CardFrames.lean ====
section
/-!
DEFINITION. The card frames of spec/30_encoding.md R97, R110 as rows of the opcode table: the exchange with the response
check of R111 and its result, without a card handle (log 7, log 8). Each requires `initialised`, as TRANSCEIVE does. A block
byte or a data length that READ_BLOCK and WRITE_BLOCK reject when they run is rejected the same way (R92, R113 c, log 8).
-/

namespace Sys2Proof.Machine

/-- CARD.REQA: the request frame `[0x26]` (spec/30_encoding.md R110, R111). -/
def execFrameReqa (s : State) : Outcome :=
  cardOperation (do
    let r ← request Config.cfg Config.cfg.cardCmd.reqa
    pure (.response r)) s

/-- CARD.WUPA: the request frame `[0x52]` (spec/30_encoding.md R110, R111). -/
def execFrameWupa (s : State) : Outcome :=
  cardOperation (do
    let r ← request Config.cfg Config.cfg.cardCmd.wupa
    pure (.response r)) s

/-- CARD.ANTICOLL: the anti-collision frame `[0x93, 0x20]` (spec/30_encoding.md R110, R111). -/
def execFrameAnticoll (s : State) : Outcome :=
  cardOperation (do
    let u ← getUid Config.cfg
    pure (.uid u.1 u.2)) s

/-- CARD.SELECT: the select frame (spec/30_encoding.md R110, R111). -/
def execFrameSelect (u : Uid) (bcc : Byte) (s : State) : Outcome :=
  cardOperation (do
    let sak ← selectExchange Config.cfg u bcc
    pure (.byte sak)) s

/-- CARD.AUTH_A: the authenticate frame with keyMode AUTH_A (spec/30_encoding.md R110, R111). -/
def execFrameAuthA (b : Byte) (k : Key) (u : Uid) (s : State) : Outcome :=
  cardOperation (do
    let blk ← checkBlock Config.cfg b.toNat
    authExchange Config.cfg Config.cfg.cardCmd.authA blk k u
    pure .unit) s

/-- CARD.AUTH_B: the authenticate frame with keyMode AUTH_B (spec/30_encoding.md R110, R111). -/
def execFrameAuthB (b : Byte) (k : Key) (u : Uid) (s : State) : Outcome :=
  cardOperation (do
    let blk ← checkBlock Config.cfg b.toNat
    authExchange Config.cfg Config.cfg.cardCmd.authB blk k u
    pure .unit) s

/-- CARD.READ: the read frame (spec/30_encoding.md R110, R111). -/
def execFrameRead (b : Byte) (s : State) : Outcome :=
  cardOperation (do
    let blk ← checkBlock Config.cfg b.toNat
    let d ← readExchange Config.cfg blk
    pure (.bytes d)) s

/-- CARD.WRITE: the two write frames (spec/30_encoding.md R110, R111). -/
def execFrameWrite (b : Byte) (data : List Byte) (s : State) : Outcome :=
  cardOperation (do
    let blk ← checkBlock Config.cfg b.toNat
    checkData Config.cfg data
    writeExchange Config.cfg blk data
    pure .unit) s

end Sys2Proof.Machine
end

