-- ==== Sys2Proof/Machine/PseudoRequests.lean ====
section
/-!
DEFINITION. The pseudo-requests of spec/30_encoding.md R93: each is its expansion.
-/

namespace Sys2Proof.Machine

/-- REQA = REQUEST 0x26 (spec/30_encoding.md R93). -/
def execReqa (s : State) : Outcome := execRequest Config.cfg.cardCmd.reqa s

/-- WUPA = REQUEST 0x52 (spec/30_encoding.md R93). -/
def execWupa (s : State) : Outcome := execRequest Config.cfg.cardCmd.wupa s

/-- AUTH_A h, b = AUTHENTICATE h, b, AUTH_A (spec/30_encoding.md R93). -/
def execAuthA (h : Handle) (b : Int) (s : State) : Outcome := execAuthenticate h b Config.cfg.cardCmd.authA none s

/-- AUTH_B h, b = AUTHENTICATE h, b, AUTH_B (spec/30_encoding.md R93). -/
def execAuthB (h : Handle) (b : Int) (s : State) : Outcome := execAuthenticate h b Config.cfg.cardCmd.authB none s

/-- CARD_READ h, b = READ_BLOCK h, b (spec/30_encoding.md R93). -/
def execCardRead (h : Handle) (b : Int) (s : State) : Outcome := execReadBlock h b s

/-- CARD_WRITE h, b, d = WRITE_BLOCK h, b, d (spec/30_encoding.md R93). -/
def execCardWrite (h : Handle) (b : Int) (data : List Byte) (s : State) : Outcome := execWriteBlock h b data s

end Sys2Proof.Machine
end

