-- ==== Sys2Proof/Machine/Dispatch.lean ====
section
/-!
DEFINITION. Dispatch: one arm per constructor of Instr, each one direct call of its meaning.
-/

namespace Sys2Proof.Machine

def exec (i : Instr) (s : State) : Host.Outcome State Fault Refusal :=
  match i with
  -- host requests (spec/30_encoding.md R91)
  | .regRead a => Sys2Proof.Machine.execRegRead a s
  | .regWrite a v => Sys2Proof.Machine.execRegWrite a v s
  | .setBits a m => Sys2Proof.Machine.execSetBits a m s
  | .clearBits a m => Sys2Proof.Machine.execClearBits a m s
  | .transceive cmd payload framing => Sys2Proof.Machine.execTransceive cmd payload framing s
  | .crc16 bytes => Sys2Proof.Machine.execCrc16 bytes s
  | .request mode => Sys2Proof.Machine.execRequest mode s
  | .getUid => Sys2Proof.Machine.execGetUid s
  | .detect => Sys2Proof.Machine.execDetect s
  | .select h => Sys2Proof.Machine.execSelect h s
  | .authenticate h b keyMode key => Sys2Proof.Machine.execAuthenticate h b keyMode key s
  | .readBlock h b => Sys2Proof.Machine.execReadBlock h b s
  | .writeBlock h b data => Sys2Proof.Machine.execWriteBlock h b data s
  | .endSession h => Sys2Proof.Machine.execEndSession h s
  | .readStr h b => Sys2Proof.Machine.execReadStr h b s
  | .writeStr h b str => Sys2Proof.Machine.execWriteStr h b str s
  | .readInt32 h b off signed => Sys2Proof.Machine.execReadInt32 h b off signed s
  | .writeInt32 h b off v => Sys2Proof.Machine.execWriteInt32 h b off v s
  | .dump h => Sys2Proof.Machine.execDump h s
  | .init => Sys2Proof.Machine.execInit s
  | .monitorStart => Sys2Proof.Machine.execMonitorStart s
  | .monitorCycle => Sys2Proof.Machine.execMonitorCycle s
  | .monitorStop => Sys2Proof.Machine.execMonitorStop s
  | .subscribe consumer => Sys2Proof.Machine.execSubscribe consumer s
  -- chip commands (spec/30_encoding.md R96)
  | .cmdIdle => Sys2Proof.Machine.execCmdIdle s
  | .cmdCalcCRC => Sys2Proof.Machine.execCmdCalcCRC s
  | .cmdTransceive => Sys2Proof.Machine.execCmdTransceive s
  | .cmdAuthent => Sys2Proof.Machine.execCmdAuthent s
  -- card frames (spec/30_encoding.md R97, R110, R111)
  | .frameReqa => Sys2Proof.Machine.execFrameReqa s
  | .frameWupa => Sys2Proof.Machine.execFrameWupa s
  | .frameAnticoll => Sys2Proof.Machine.execFrameAnticoll s
  | .frameSelect uid bcc => Sys2Proof.Machine.execFrameSelect uid bcc s
  | .frameAuthA b key uid => Sys2Proof.Machine.execFrameAuthA b key uid s
  | .frameAuthB b key uid => Sys2Proof.Machine.execFrameAuthB b key uid s
  | .frameRead b => Sys2Proof.Machine.execFrameRead b s
  | .frameWrite b data => Sys2Proof.Machine.execFrameWrite b data s
  -- pseudo-requests (spec/30_encoding.md R93)
  | .reqa => Sys2Proof.Machine.execReqa s
  | .wupa => Sys2Proof.Machine.execWupa s
  | .authA h b => Sys2Proof.Machine.execAuthA h b s
  | .authB h b => Sys2Proof.Machine.execAuthB h b s
  | .cardRead h b => Sys2Proof.Machine.execCardRead h b s
  | .cardWrite h b data => Sys2Proof.Machine.execCardWrite h b data s

end Sys2Proof.Machine
end

