-- ==== Sys2Proof/Machine/Fetch.lean ====
section
/-!
DEFINITION. Which move the block takes next, and placing a request where step finds it (spec/70_reset_and_hazards.md R401,
spec/60_exceptions.md R365; log 3, log 4).
-/

namespace Sys2Proof.Machine

/-- What the next step runs. -/
inductive Fetched where
  /-- An instruction, with the state it runs in. -/
  | run (i : Instr) (s : State)
  /-- A sleep slice of the worker. -/
  | slice (s : State)
  /-- Nothing is enabled: the block does nothing (R401). -/
  | idle (s : State)
  /-- A request that is no instruction (spec/30_encoding.md R92). -/
  | invalid (why : DecodeError)
deriving DecidableEq, Repr

/-- A turn of the worker (spec/46_presence_monitor.md R315, R320, R330): a cycle when polling, a slice when sleeping, nothing
when there is no worker. -/
def workerTurn (s : State) : Fetched :=
  match s.monitor.worker with
  | .polling => .run .monitorCycle { s with agent := .worker }
  | .sleeping _ => .slice s
  | .none => .idle s

/-- The next move: the first of the port; with none left, the worker's own (no host request is pending). -/
def fetch (s : State) : Fetched :=
  match s.port with
  | [] => workerTurn s
  | .worker :: rest => workerTurn { s with port := rest }
  | .host caller req :: rest =>
    match decode req with
    | .ok i => .run i { s with port := rest, agent := .host caller }
    | .error why => .invalid why

/-- The instructions spec/10_state.md R22 lets run before INIT has succeeded, with the chip commands (log 7). -/
def beforeInit : Instr → Bool
  | .init | .regRead _ | .regWrite _ _ | .setBits _ _ | .clearBits _ _ | .subscribe _ | .monitorStop
  | .cmdIdle | .cmdCalcCRC | .cmdTransceive | .cmdAuthent => true
  | .transceive _ _ _ | .crc16 _ | .request _ | .getUid | .detect | .select _ | .authenticate _ _ _ _
  | .readBlock _ _ | .writeBlock _ _ _ | .endSession _ | .readStr _ _ | .writeStr _ _ _ | .readInt32 _ _ _ _
  | .writeInt32 _ _ _ _ | .dump _ | .monitorStart | .monitorCycle | .frameReqa | .frameWupa | .frameAnticoll
  | .frameSelect _ _ | .frameAuthA _ _ _ | .frameAuthB _ _ _ | .frameRead _ | .frameWrite _ _ | .reqa | .wupa
  | .authA _ _ | .authB _ _ | .cardRead _ _ | .cardWrite _ _ _ => false

/-- A request of host caller 0, first in the port. -/
def State.place (s : State) (req : Request) : State := { s with port := .host 0 req :: s.port }

/-- The boot of spec/70_reset_and_hazards.md R403 taken as done (log 4). -/
def State.booted (s : State) : State := { s with line := true, initialised := true }

/-- A worker's turn first in the port, the worker started (log 4): MONITOR_CYCLE is issued by a polling worker only. -/
def State.placeCycle (s : State) : State :=
  { s.booted with port := .worker :: s.port, monitor := s.monitor.started }

/-- Place a request so that the very next step runs it: after the boot where the instruction requires it, as a worker's turn
for MONITOR_CYCLE (log 4). -/
def State.placeRequest (s : State) (req : Request) : State :=
  match decode req with
  | .ok .monitorCycle => s.placeCycle
  | .ok i => if beforeInit i then s.place req else s.booted.place req
  | .error _ => s.place req

end Sys2Proof.Machine
end

