-- ==== Sys2Proof/Machine/Step.lean ====
section
/-!
DEFINITION. One step of the machine: the next move, run. It only calls the fetch, exec and the worker's sleep.
-/

namespace Sys2Proof.Machine

/-- One step (spec/00_scope.md R13): a request, a poll cycle, a sleep slice, or nothing. -/
def step (s : State) : Host.Outcome State Fault Refusal :=
  match fetch s with
  | .run i s' => exec i s'
  | .slice s' => .next (sleepSlice Config.cfg s')
  | .idle s' => .next s'
  | .invalid why => .refused (.undecodable why)

/-- A word of spec/opcode_table.json placed where step fetches its next instruction (log 4, log 6). -/
def State.withFetchWord (s : State) (nbits w : Nat) : State := s.placeRequest (tableRequest nbits w)

end Sys2Proof.Machine
end

