-- ==== Sys2Proof/Machine/Environment.lean ====
section
/-!
DEFINITION. CRC_A, the function that environment property E5 names (spec/20_memory.md R72, R73). The block computes no CRC:
no meaning calls it; only premises about the environment do.
-/

namespace Sys2Proof.Machine

/-- One bit of the reflected CRC register (spec/20_memory.md R73). -/
def crcBit (r : BitVec 16) : BitVec 16 := if r.getLsbD 0 then (r >>> 1) ^^^ 0x8408#16 else r >>> 1

/-- `n` bits of the CRC register. -/
def crcBits : Nat → BitVec 16 → BitVec 16
  | 0, r => r
  | n + 1, r => crcBits n (crcBit r)

/-- One byte into the CRC register (spec/20_memory.md R73). -/
def crcByte (r : BitVec 16) (b : Byte) : BitVec 16 := crcBits 8 (r ^^^ b.setWidth 16)

/-- `CRC_A(bytes)`: low byte, high byte (spec/20_memory.md R73). -/
def crcA (bytes : List Byte) : Byte × Byte :=
  let r := bytes.foldl crcByte 0x6363#16
  (r.setWidth 8, (r >>> 8).setWidth 8)

end Sys2Proof.Machine
end

