-- ==== Sys2Proof/Safety.lean ====
section
/-!
DEFINITION. The terms claims are stated in: what the environment answers (spec/20_memory.md R70), the bus history of one
exchange and of one CRC calculation (spec/42_frame_transceiver.md R150, spec/43_crc_engine.md R190), the environment
properties E1 to E7 (spec/20_memory.md R72), what a bus operation may change, and the invariant every step keeps.
-/

namespace Sys2Proof

/-! ## Families of instructions, registers and history entries -/

/-- Instructions whose only effects are bus transactions, log entries and a result. -/
def Instr.busOnly : Instr → Bool
  | .regRead _ | .regWrite _ _ | .setBits _ _ | .clearBits _ _ | .transceive _ _ _ | .crc16 _ | .request _ | .getUid
  | .select _ | .readBlock _ _ | .writeBlock _ _ _ | .readStr _ _ | .writeStr _ _ _ | .readInt32 _ _ _ _
  | .writeInt32 _ _ _ _ | .cmdIdle | .cmdCalcCRC | .cmdTransceive | .cmdAuthent | .frameReqa | .frameWupa
  | .frameAnticoll | .frameSelect _ _ | .frameAuthA _ _ _ | .frameAuthB _ _ _ | .frameRead _ | .frameWrite _ _ | .reqa
  | .wupa | .cardRead _ _ | .cardWrite _ _ _ => true
  | .detect | .authenticate _ _ _ _ | .endSession _ | .dump _ | .init | .monitorStart | .monitorCycle | .monitorStop
  | .subscribe _ | .authA _ _ | .authB _ _ => false

/-- Instructions that besides the bus write the session's crypto mirror (spec/10_state.md R31). -/
def Instr.mirrorsCrypto : Instr → Bool
  | .authenticate _ _ _ _ | .endSession _ | .dump _ | .authA _ _ | .authB _ _ => true
  | _ => false

/-- The mode byte of the instructions that send the request frame (spec/30_encoding.md R110, R93). -/
def Instr.requestMode : Instr → Option Byte
  | .request mode => some mode
  | .reqa | .frameReqa => some 0x26#8
  | .wupa | .frameWupa => some 0x52#8
  | _ => none

/-- The handle of the instructions that check it (spec/44_protocol_controller.md R211). END_SESSION does not. -/
def Instr.checkedHandle : Instr → Option Handle
  | .select h | .authenticate h _ _ _ | .readBlock h _ | .writeBlock h _ _ | .readStr h _ | .writeStr h _ _
  | .readInt32 h _ _ _ | .writeInt32 h _ _ _ | .dump h | .authA h _ | .authB h _ | .cardRead h _
  | .cardWrite h _ _ => some h
  | _ => none

/-- The block of the instructions that check it (spec/44_protocol_controller.md R210). -/
def Instr.checkedBlock : Instr → Option Int
  | .authenticate _ b _ _ | .readBlock _ b | .writeBlock _ b _ | .readStr _ b | .writeStr _ b _ | .readInt32 _ b _ _
  | .writeInt32 _ b _ _ | .authA _ b | .authB _ b | .cardRead _ b | .cardWrite _ b _ => some b
  | _ => none

/-- The RegisterBus requests, whose address the host chooses (spec/41_register_bus.md). -/
def Instr.rawRegister : Instr → Bool
  | .regRead _ | .regWrite _ _ | .setBits _ _ | .clearBits _ _ => true
  | _ => false

/-- How many operands each operation takes (spec/30_encoding.md R91): AUTHENTICATE's key is optional. -/
def HostOp.arities : HostOp → List Nat
  | .getUid | .detect | .init | .monitorStart | .monitorCycle | .monitorStop => [0]
  | .regRead | .crc16 | .request | .select | .endSession | .dump | .subscribe => [1]
  | .regWrite | .setBits | .clearBits | .readBlock | .readStr => [2]
  | .transceive | .writeBlock | .writeStr => [3]
  | .authenticate => [3, 4]
  | .readInt32 | .writeInt32 => [4]

/-- The registers of `Cfg.RegMap` (spec/30_encoding.md R100), the only ones the block's own operations reach
(spec/20_memory.md R62, R75). -/
def RegMap.all (m : RegMap) : List Addr :=
  [m.cmd, m.ien, m.irq, m.divIrq, m.err, m.status2, m.fifoData, m.fifoLevel, m.control, m.bitFraming, m.mode, m.txControl,
   m.txAsk, m.crcH, m.crcL, m.tMode, m.tPrescaler, m.tReloadH, m.tReloadL]

/-- The register a history entry names; none for the chip-enable line. -/
def TraceEntry.addr : TraceEntry → Option Addr
  | .read a _ | .write a _ | .fail a => some a
  | .line _ => none

/-- The transport failed this transaction (spec/20_memory.md R71). -/
def TraceEntry.failed : TraceEntry → Bool
  | .fail _ => true
  | .read _ _ | .write _ _ | .line _ => false

end Sys2Proof

namespace Sys2Proof.Machine

/-! ## What the environment answers -/

/-- The draw for a transaction on `a`, from the pending answers, the history and the number of draws (R70, R71). -/
def drawFrom (env : List Answer) (trace : List TraceEntry) (choice : Nat) (a : Addr) : Answer :=
  match env with
  | x :: _ => x
  | [] => { fails := Config.envFails trace a choice, value := Config.envRead trace a choice }

/-- One draw is as a history entry says: a read answered its value, a write not failed, a failure failed. A LINE entry is no
transaction. -/
def entryAnswered (draw : Addr → Answer) : TraceEntry → Bool
  | .read a v => !(draw a).fails && (draw a).value == v
  | .write a _ => !(draw a).fails
  | .fail a => (draw a).fails
  | .line _ => false

/-- The environment answers each transaction of a list in turn as the list says. -/
def answersFrom : List Answer → List TraceEntry → Nat → List TraceEntry → Bool
  | _, _, _, [] => true
  | env, trace, choice, e :: rest =>
    entryAnswered (drawFrom env trace choice) e && answersFrom env.tail (trace ++ [e]) (choice + 1) rest

/-- From this state on, the environment answers the transactions `T` as `T` says. It is a premise about the environment
only: `env`, the history and the draw counter decide it (R70, R72). -/
def State.Answers (s : State) (T : List TraceEntry) : Prop := answersFrom s.env s.trace s.choice T = true

/-- The state after the transactions `T`: the history has grown by them, as many draws are used up, nothing else. -/
def State.ran (s : State) (T : List TraceEntry) : State :=
  { s with trace := s.trace ++ T, env := s.env.drop T.length, choice := s.choice + T.length }

/-- The state after transactions `T` and log entries `L`. -/
def State.busStep (s : State) (T : List TraceEntry) (L : List LogEntry) : State := { s.ran T with log := s.log ++ L }

/-- The state after a request with its result: the lock is free and the result is recorded (R366). -/
def State.replied (s : State) (r : Result) : State :=
  { s with lock := none, results := s.results ++ [{ caller := s.agent, result := r }] }

/-! ## The history of one exchange and of one CRC calculation -/

/-- The two transactions of SET_BITS (spec/41_register_bus.md R132). -/
def setTrace (a : Addr) (v m : Byte) : List TraceEntry := [.read a v, .write a (v ||| m)]

/-- The two transactions of CLEAR_BITS (spec/41_register_bus.md R133). -/
def clearTrace (a : Addr) (v m : Byte) : List TraceEntry := [.read a v, .write a (v &&& ~~~m)]

/-- What the environment answers in one TRANSCEIVE (spec/42_frame_transceiver.md R150): the reads in program order. `waits`
are the polls that showed no completion and `irq` the one that did; `framing0`, `level`, `control` and `bytes` are read for
Transceive only. -/
structure Exchange where
  irq0 : Byte
  level0 : Byte
  framing0 : Byte
  waits : List Byte
  irq : Byte
  framing1 : Byte
  errv : Byte
  level : Byte
  control : Byte
  bytes : List Byte
deriving DecidableEq, Repr

/-- The transactions before the poll (spec/42_frame_transceiver.md R151 to R154). -/
def Exchange.sent (x : Exchange) (c : Cfg) (cmd : ChipCommand) (payload : List Byte) (framing : Nat) : List TraceEntry :=
  [.write c.regMap.bitFraming (BitVec.ofNat 8 framing &&& c.bits.txLastBits),
   .write c.regMap.ien ((Cfg.irqMask c cmd).irqEn ||| c.bits.ienExtra)] ++
  clearTrace c.regMap.irq x.irq0 c.bits.irqClear ++
  setTrace c.regMap.fifoLevel x.level0 c.bits.fifoFlush ++
  [.write c.regMap.cmd c.chipCmd.idle] ++
  payload.map (.write c.regMap.fifoData ·) ++
  [.write c.regMap.cmd (c.chipCode cmd)] ++
  (if cmd = .transceive then setTrace c.regMap.bitFraming x.framing0 c.bits.startSend else [])

/-- Reads of the interrupt-flag register with the values answered (spec/42_frame_transceiver.md R155). -/
def pollTrace (c : Cfg) (values : List Byte) : List TraceEntry := values.map (.read c.regMap.irq ·)

/-- The transactions that follow a completed poll: start-send clear and error register (R157, R158). -/
def Exchange.checked (x : Exchange) (c : Cfg) : List TraceEntry :=
  clearTrace c.regMap.bitFraming x.framing1 c.bits.startSend ++ [.read c.regMap.err x.errv]

/-- The response reads of Transceive (spec/42_frame_transceiver.md R162, R164). -/
def Exchange.collected (x : Exchange) (c : Cfg) (cmd : ChipCommand) : List TraceEntry :=
  if cmd = .transceive then
    [.read c.regMap.fifoLevel x.level, .read c.regMap.control x.control] ++ x.bytes.map (.read c.regMap.fifoData ·)
  else []

/-- The whole history of a TRANSCEIVE that succeeds (spec/42_frame_transceiver.md R150). -/
def Exchange.trace (x : Exchange) (c : Cfg) (cmd : ChipCommand) (payload : List Byte) (framing : Nat) :
    List TraceEntry :=
  x.sent c cmd payload framing ++ pollTrace c (x.waits ++ [x.irq]) ++ x.checked c ++ x.collected c cmd

/-- The history of a TRANSCEIVE that ends in Timeout: `polls` are all its polls (spec/42_frame_transceiver.md R156). -/
def Exchange.timeoutTrace (x : Exchange) (c : Cfg) (cmd : ChipCommand) (payload : List Byte) (framing : Nat)
    (polls : List Byte) : List TraceEntry :=
  x.sent c cmd payload framing ++ pollTrace c polls ++ clearTrace c.regMap.bitFraming x.framing1 c.bits.startSend

/-- The history of a TRANSCEIVE that ends in FrameError (spec/42_frame_transceiver.md R158). -/
def Exchange.errorTrace (x : Exchange) (c : Cfg) (cmd : ChipCommand) (payload : List Byte) (framing : Nat) :
    List TraceEntry :=
  x.sent c cmd payload framing ++ pollTrace c (x.waits ++ [x.irq]) ++ x.checked c

/-- No value of a list shows a completion bit (spec/42_frame_transceiver.md R155). -/
def noneDone (c : Cfg) (cmd : ChipCommand) (values : List Byte) : Bool :=
  values.all fun v => !irqDone c (Cfg.irqMask c cmd).waitIrq v

/-- The poll ends in completion within the budget (spec/42_frame_transceiver.md R155). -/
def Exchange.polledOk (x : Exchange) (c : Cfg) (cmd : ChipCommand) : Bool :=
  noneDone c cmd x.waits && irqDone c (Cfg.irqMask c cmd).waitIrq x.irq && decide (x.waits.length < c.trxBudget)

/-- The exchange succeeds: completed poll, no error bit of the mask, and as many bytes drained as the clamp says. -/
def Exchange.completes (x : Exchange) (c : Cfg) (cmd : ChipCommand) : Bool :=
  x.polledOk c cmd && !frameFailed c x.errv &&
    (cmd != .transceive || decide (x.bytes.length = drainCount c x.level.toNat))

/-- The status the exchange gives (spec/42_frame_transceiver.md R160). -/
def Exchange.status (x : Exchange) (c : Cfg) (cmd : ChipCommand) : Status := frameStatus c (Cfg.irqMask c cmd).irqEn x.irq

/-- The Response the exchange gives (spec/42_frame_transceiver.md R161, R163, R164). -/
def Exchange.response (x : Exchange) (c : Cfg) (cmd : ChipCommand) : Response :=
  if cmd = .transceive then
    { status := x.status c cmd, bytes := x.bytes,
      bits := bitCount x.level.toNat (x.control &&& c.bits.rxLastBits).toNat }
  else { status := x.status c cmd, bytes := [], bits := 0 }

/-- What the environment answers in one CRC16 (spec/43_crc_engine.md R190): `waits` are the polls without the done bit, and
`done` the poll that showed it, none where the budget ran out. -/
structure CrcRun where
  div0 : Byte
  level0 : Byte
  waits : List Byte
  done : Option Byte
  lo : Byte
  hi : Byte
deriving DecidableEq, Repr

/-- The whole history of a CRC16 (spec/43_crc_engine.md R190). -/
def CrcRun.trace (x : CrcRun) (c : Cfg) (bytes : List Byte) : List TraceEntry :=
  clearTrace c.regMap.divIrq x.div0 c.bits.divCrc ++
  setTrace c.regMap.fifoLevel x.level0 c.bits.fifoFlush ++
  bytes.map (.write c.regMap.fifoData ·) ++
  [.write c.regMap.cmd c.chipCmd.calcCRC] ++
  (x.waits ++ x.done.toList).map (.read c.regMap.divIrq ·) ++
  [.read c.regMap.crcL x.lo, .read c.regMap.crcH x.hi]

/-- The poll of a CRC16 is as R192 says: the done bit seen within the budget, or the budget used up without it. -/
def CrcRun.polledOk (x : CrcRun) (c : Cfg) : Bool :=
  x.waits.all (fun v => !crcDone c v) &&
    match x.done with
    | some v => crcDone c v && decide (x.waits.length < c.crcBudget)
    | none => decide (x.waits.length = c.crcBudget)

/-- The log entries of a CRC16 (spec/43_crc_engine.md R193). -/
def CrcRun.logged (x : CrcRun) (bytes : List Byte) : List LogEntry :=
  match x.done with
  | some _ => []
  | none => [.crcBudgetExhausted bytes]

/-- The frame a CRC16 completes (spec/44_protocol_controller.md R212). -/
def CrcRun.frame (x : CrcRun) (bytes : List Byte) : List Byte := bytes ++ [x.lo, x.hi]

/-- A framed exchange with its checksum: the CRC calculation, then the exchange (spec/43_crc_engine.md R196). -/
structure Framed where
  crc : CrcRun
  exchange : Exchange
deriving DecidableEq, Repr

/-- The history of a framed exchange (spec/44_protocol_controller.md R230, R240, R245). -/
def Framed.trace (x : Framed) (c : Cfg) (body : List Byte) : List TraceEntry :=
  x.crc.trace c body ++ x.exchange.trace c .transceive (x.crc.frame body) 0

/-- A framed exchange runs to its response. -/
def Framed.completes (x : Framed) (c : Cfg) : Bool := x.crc.polledOk c && x.exchange.completes c .transceive

/-- The Response of a framed exchange. -/
def Framed.response (x : Framed) (c : Cfg) : Response := x.exchange.response c .transceive

/-- What the environment answers in one DETECT that no frame-layer error ends (spec/44_protocol_controller.md R225): the
request exchange, and the anti-collision exchange where the request was answered. -/
structure Probe where
  req : Exchange
  anti : Option Exchange
deriving DecidableEq, Repr

/-- The history of the probe (spec/44_protocol_controller.md R215, R220). -/
def Probe.trace (p : Probe) (c : Cfg) : List TraceEntry :=
  p.req.trace c .transceive [c.reqMode] c.reqFramingBits ++
    match p.anti with
    | some x => x.trace c .transceive c.anticollCmd 0
    | none => []

/-- The exchanges run to their responses, and the second is there exactly when the first answered 16 bits. -/
def Probe.completes (p : Probe) (c : Cfg) : Bool :=
  p.req.completes c .transceive &&
    match p.anti with
    | some x => okBits 16 (p.req.response c .transceive) && x.completes c .transceive
    | none => !okBits 16 (p.req.response c .transceive)

/-- The UID and checksum byte of an anti-collision exchange that passes both checks of spec/44_protocol_controller.md
R220. -/
def Exchange.cardUid (x : Exchange) (c : Cfg) : Option (Uid × Byte) :=
  if okBits (uidBits c) (x.response c .transceive) && (uidBcc (uidOf x.bytes) == byteAt x.bytes c.uidLen) then
    some (uidOf x.bytes, byteAt x.bytes c.uidLen)
  else none

/-- The card the probe found: none where the request or the anti-collision failed its check (spec/46_presence_monitor.md
R322). -/
def Probe.card (p : Probe) (c : Cfg) : Option (Uid × Byte) :=
  match p.anti with
  | some x => x.cardUid c
  | none => none

/-- The state after `installSession` (spec/44_protocol_controller.md R226). -/
def State.installed (c : Cfg) (s : State) (u : Uid) (bcc : Byte) : State :=
  match s.session.filter fun q => q.uid == u with
  | some _ => s
  | none =>
    { s with
      gen := s.gen + 1
      session := some { uid := u, bcc := bcc, key := c.defaultKey, cryptoActive := false, gen := s.gen + 1 } }

/-- The handle `installSession` returns (R226). -/
def State.handleFor (s : State) (u : Uid) : Handle :=
  match s.session.filter fun q => q.uid == u with
  | some q => { uid := q.uid, gen := q.gen }
  | none => { uid := u, gen := s.gen + 1 }

/-- The transactions of END_SESSION, with the status byte answered (spec/44_protocol_controller.md R250). -/
def endSessionTrace (c : Cfg) (status2 : Byte) : List TraceEntry := clearTrace c.regMap.status2 status2 c.bits.cryptoOn

/-- What the environment answers for one block of DUMP (spec/45_card_accessors.md R290); `read` is used only where the
crypto bit was found set. -/
structure BlockRun where
  auth : Exchange
  status2 : Byte
  read : Framed
deriving DecidableEq, Repr

/-- The history of one block of DUMP. -/
def BlockRun.trace (x : BlockRun) (c : Cfg) (b : Nat) (q : Session) : List TraceEntry :=
  x.auth.trace c .authent (authPayload c.dumpKeyMode (BitVec.ofNat 8 b) q.key q.uid) 0 ++
    .read c.regMap.status2 x.status2 ::
    if cryptoOn c x.status2 then x.read.trace c [c.cardCmd.read, BitVec.ofNat 8 b] else []

/-- The exchanges of one block of DUMP run to their responses. -/
def BlockRun.completes (x : BlockRun) (c : Cfg) : Bool :=
  x.auth.completes c .authent && (x.auth.status c .authent == .ok) && (!cryptoOn c x.status2 || x.read.completes c)

/-- What DUMP reports of the block. -/
def BlockRun.report (x : BlockRun) (c : Cfg) : BlockReport :=
  if cryptoOn c x.status2 then
    if readOk c (x.read.response c) then .data x.read.exchange.bytes else .readFailed (x.read.response c)
  else .authFailed .notActive

/-- The log entries of one block of DUMP. -/
def BlockRun.logged (x : BlockRun) (c : Cfg) (b : Nat) : List LogEntry :=
  if cryptoOn c x.status2 then x.read.crc.logged [c.cardCmd.read, BitVec.ofNat 8 b] else []

/-- The history of the blocks from `b` on. -/
def sweepTrace (c : Cfg) (q : Session) : Nat → List BlockRun → List TraceEntry
  | _, [] => []
  | b, x :: xs => x.trace c b q ++ sweepTrace c q (b + 1) xs

/-- The log entries of the blocks from `b` on. -/
def sweepLogged (c : Cfg) : Nat → List BlockRun → List LogEntry
  | _, [] => []
  | b, x :: xs => x.logged c b ++ sweepLogged c (b + 1) xs

/-- DUMP's entries for the blocks from `b` on. -/
def sweepEntries (c : Cfg) : Nat → List BlockRun → List (Nat × BlockReport)
  | _, [] => []
  | b, x :: xs => (b, x.report c) :: sweepEntries c (b + 1) xs

/-! ## The environment properties of spec/20_memory.md R72, as named premises -/

/-- (E1) The chip delivers a final byte of fewer than 8 bits. -/
def partialFinalByte (c : Cfg) (control : Byte) : Prop := control &&& c.bits.rxLastBits ≠ 0#8

/-- (E2) The chip reports a FIFO level of 0 after a completed Transceive. -/
def zeroLevel (level : Byte) : Prop := level = 0#8

/-- (E3) The status register read after an Authent exchange that opened a window shows the crypto bit. -/
def windowOpen (c : Cfg) (status2 : Byte) : Prop := cryptoOn c status2 = true

/-- (E4) The coprocessor finishes within the budget. -/
def CrcRun.finished (x : CrcRun) : Prop := x.done.isSome = true

/-- (E5) The result registers hold the CRC_A of the bytes loaded. -/
def CrcRun.isCrcA (x : CrcRun) (bytes : List Byte) : Prop := (x.lo, x.hi) = crcA bytes

/-- (E6) for a read: without an open crypto session the card answers no block, the read fails its check. -/
def Framed.readControlled (x : Framed) (c : Cfg) (active : Bool) : Prop :=
  active = false → readOk c (x.response c) = false

/-- (E6) for a write: without an open crypto session the card acknowledges no write frame. -/
def Framed.writeControlled (x : Framed) (c : Cfg) (active : Bool) : Prop :=
  active = false → ackOk c (x.response c) = false

/-- (E7) A written block reads back: the read answers the data. -/
def Framed.readsBack (x : Framed) (data : List Byte) : Prop := x.exchange.bytes = data

/-! ## What an operation may change -/

/-- The state an operation leaves, whether it returns or raises. -/
def endState {α : Type} : EStateM.Result Err State α → State
  | .ok _ s => s
  | .error _ s => s

/-- The operation only uses the bus, at most `n` transactions, and may log: nothing else of the state changes, whatever the
environment answers (R166, R441). -/
def BusWithin {α : Type} (n : Nat) (m : Op α) : Prop :=
  ∀ s : State, ∃ T L, endState (m s) = s.busStep T L ∧ T.length ≤ n

/-- The session with its crypto mirror set. -/
def withCrypto (q : Option Session) (active : Bool) : Option Session := q.map fun p => { p with cryptoActive := active }

/-- An error result without a `partial` mark (spec/60_exceptions.md R350). -/
def raised (e : Cause) : Result := .err { cause := e, mark := .none }

/-- The block address byte of a block in range (spec/30_encoding.md R113 c). -/
def blockByte (b : Int) : Byte := BitVec.ofNat 8 b.toNat

/-! ## The frame an instruction opens with -/

/-- The first frame an instruction sends once its argument checks have passed: the chip command that sends it, its body, its
framing, and whether CRC16 completes the body first (spec/30_encoding.md R110, spec/44_protocol_controller.md R212). -/
structure Opening where
  cmd : ChipCommand
  body : List Byte
  framing : Nat
  checksum : Bool
deriving DecidableEq, Repr

/-- The request frame of R110. -/
def Opening.request (mode : Byte) : Opening := ⟨.transceive, [mode], 7, false⟩

/-- The anti-collision frame of R110. -/
def Opening.anticoll : Opening := ⟨.transceive, [0x93#8, 0x20#8], 0, false⟩

/-- The select frame of R110. -/
def Opening.select (u : Uid) (bcc : Byte) : Opening :=
  ⟨.transceive, [0x93#8, 0x70#8, u.u0, u.u1, u.u2, u.u3, bcc], 0, true⟩

/-- The authenticate frame of R110. -/
def Opening.auth (mode b : Byte) (k : Key) (u : Uid) : Opening := ⟨.authent, [mode, b] ++ k.toList ++ u.toList, 0, false⟩

/-- The read frame of R110, with the family's command byte (log 10). -/
def Opening.read (b : Byte) : Opening := ⟨.transceive, [0x30#8, b], 0, true⟩

/-- A block in range, as its byte (spec/44_protocol_controller.md R210). -/
def blockIn (b : Int) : Option Byte := if 0 ≤ b ∧ b < 64 then some (blockByte b) else none

/-- The opening of an authentication with a valid handle and a block in range (spec/44_protocol_controller.md R235). -/
def State.authOpening (s : State) (h : Handle) (b : Int) (mode : Byte) (key : Option Key) : Option Opening :=
  (s.sessionOf h).bind fun q => (blockIn b).map fun blk => .auth mode blk (key.getD q.key) q.uid

/-- The opening of a block read with a valid handle and a block in range (spec/44_protocol_controller.md R240). -/
def State.readOpening (s : State) (h : Handle) (b : Int) : Option Opening :=
  (s.sessionOf h).bind fun _ => (blockIn b).map .read

/-- The frame an instruction opens with in a state in which its argument checks pass, where a frame-layer error in that
frame surfaces unchanged (spec/60_exceptions.md R360): not the write frames, which mark it (R247), nor DUMP, which adds its
entries (R291), nor MONITOR_CYCLE, which catches it (R324). -/
def State.opening (s : State) : Instr → Option Opening
  | .request mode => some (.request mode)
  | .reqa | .frameReqa | .detect => some (.request 0x26#8)
  | .wupa | .frameWupa => some (.request 0x52#8)
  | .getUid | .frameAnticoll => some .anticoll
  | .select h => (s.sessionOf h).map fun q => .select q.uid q.bcc
  | .frameSelect u bcc => some (.select u bcc)
  | .authenticate h b mode key => s.authOpening h b mode key
  | .authA h b => s.authOpening h b 0x60#8 none
  | .authB h b => s.authOpening h b 0x61#8 none
  | .frameAuthA b k u => (blockIn b.toNat).map fun blk => .auth 0x60#8 blk k u
  | .frameAuthB b k u => (blockIn b.toNat).map fun blk => .auth 0x61#8 blk k u
  | .readBlock h b | .cardRead h b | .readStr h b => s.readOpening h b
  | .frameRead b => (blockIn b.toNat).map .read
  | .readInt32 h b off _ => if 0 ≤ off ∧ off ≤ 12 then s.readOpening h b else none
  | .writeInt32 h b off v =>
    if (0 ≤ off ∧ off ≤ 12) ∧ -2147483648 ≤ v ∧ v < 4294967296 then s.readOpening h b else none
  | .regRead _ | .regWrite _ _ | .setBits _ _ | .clearBits _ _ | .transceive _ _ _ | .crc16 _ | .writeBlock _ _ _
  | .endSession _ | .writeStr _ _ _ | .dump _ | .init | .monitorStart | .monitorCycle | .monitorStop | .subscribe _
  | .cmdIdle | .cmdCalcCRC | .cmdTransceive | .cmdAuthent | .frameWrite _ _ | .cardWrite _ _ _ => none

/-- The frame as it is sent, with the checksum calculated (R212). -/
def Opening.frame (f : Opening) (crc : CrcRun) : List Byte := if f.checksum then crc.frame f.body else f.body

/-- The transactions before the frame: those of its checksum. -/
def Opening.before (f : Opening) (c : Cfg) (crc : CrcRun) : List TraceEntry :=
  if f.checksum then crc.trace c f.body else []

/-- The log entries before the frame: that of its checksum. -/
def Opening.logged (f : Opening) (crc : CrcRun) : List LogEntry := if f.checksum then crc.logged f.body else []

/-- The checksum is calculated, where the frame has one. -/
def Opening.polledOk (f : Opening) (c : Cfg) (crc : CrcRun) : Bool := !f.checksum || crc.polledOk c

/-- The session when the frame is sent: an authentication has cleared the mirror (spec/44_protocol_controller.md R236). -/
def State.openingSession (s : State) (i : Instr) : Option Session :=
  if i.mirrorsCrypto then withCrypto s.session false else s.session

/-! ## The monitor -/

/-- The worker, polling and not stopped, runs a cycle on a free bus (spec/46_presence_monitor.md R320). -/
structure State.CycleReady (s : State) : Prop where
  agent_eq : s.agent = .worker
  initialised_eq : s.initialised = true
  worker_eq : s.monitor.worker = .polling
  stop_eq : s.monitor.stopFlag = false
  lock_eq : s.lock = none

/-- The monitor after an event was delivered and a transition taken (spec/46_presence_monitor.md R321, R335). -/
def Monitor.announced (m : Monitor) (ev : Event) (next : MState) (sleepMs : Nat) : Monitor :=
  { m with
    mstate := next
    subscribers := m.subscribers.map fun q => { q with inbox := q.inbox ++ [ev] }
    worker := .sleeping sleepMs }

/-- The state after a cycle that performed `T` and then met an unexpected error, policy `halt`: the error is logged, the
worker has ended, nothing is emitted, the session is kept (spec/46_presence_monitor.md R324; the result: log 18). -/
def State.halted (s : State) (T : List TraceEntry) (k : Kind) : State :=
  { s.ran T with
    log := s.log ++ [.monitorError k]
    monitor := { s.monitor with mstate := .faulted k, worker := .none }
    results := s.results ++ [{ caller := .worker, result := .ok .unit }] }

/-! ## The invariant -/

/-- What holds of the session: its generation is the counter's, its checksum byte is the XOR of its UID, its key is the
default key (spec/10_state.md R30, R32; spec/44_protocol_controller.md R220, R226). -/
structure Session.Fits (q : Session) (gen : Nat) : Prop where
  gen_eq : q.gen = gen
  gen_pos : 1 ≤ gen
  bcc_eq : q.bcc = uidBcc q.uid
  key_eq : q.key = Config.cfg.defaultKey

/-- The presence states a running worker has (spec/46_presence_monitor.md R315, R320). -/
def MState.active (m : MState) : Prop := m.watching.isSome = true

/-- The invariant of the machine. -/
structure State.Inv (s : State) : Prop where
  /-- Between steps no operation holds the bus (R366: the lock is released). -/
  lock_free : s.lock = none
  /-- An initialised controller has asserted the chip-enable line (R311). -/
  line_high : s.initialised = true → s.line = true
  /-- Before INIT there is no session, no generation, no worker and no event (R22, R40). -/
  cold : s.initialised = false →
    s.session = none ∧ s.gen = 0 ∧ s.monitor.worker = .none ∧ s.monitor.mstate = .notStarted ∧ s.events = []
  /-- The session fits its counter, checksum and key. -/
  session_fits : ∀ q, s.session = some q → q.Fits s.gen
  /-- A worker runs exactly in NoCard and CardPresent (R35, R315, R324, R325). -/
  worker_active : s.monitor.worker ≠ .none ↔ s.monitor.mstate.active
  /-- CardPresent(u): there is a session, and the last event is arrived(u) (R321, R336). -/
  present : ∀ u, s.monitor.mstate = .cardPresent u →
    s.session.isSome = true ∧ s.events.getLast? = some (.arrived u)
  /-- Faulted(k) was logged (R324). -/
  fault_logged : ∀ k, s.monitor.mstate = .faulted k → LogEntry.monitorError k ∈ s.log
  /-- No consumer is listed twice (R335). -/
  consumers_nodup : (s.monitor.subscribers.map (·.consumer)).Nodup
  /-- Every inbox is the end part of the events: those after its SUBSCRIBE (R335, R336). -/
  inbox_suffix : ∀ q ∈ s.monitor.subscribers, q.inbox <:+ s.events

/-- The histories of `t` continue those of `s`: none is rewritten (R36, R38, R335, R343). -/
structure Continues (s t : State) : Prop where
  trace : s.trace <+: t.trace
  events : s.events <+: t.events
  log : s.log <+: t.log
  results : s.results <+: t.results
  labels : s.labels <+: t.labels

/-- A handle is valid (spec/10_state.md R32): the session it names. -/
def State.holds (s : State) (h : Handle) (q : Session) : Prop := s.session = some q ∧ q.uid = h.uid ∧ q.gen = h.gen

end Sys2Proof.Machine
end

