-- ==== Sys2Proof/Certificates/Slice0/Obligations.lean ====
section
/-!
DEFINITION. The statements for the provers. Each docstring names the rule of spec/ the statement formalises. A premise
`s.Answers T` is about the environment only: from `s` on it answers the transactions `T` as `T` says (spec/20_memory.md R70,
R72); a `T` of the statement is then the whole history the instruction adds.
-/

section Statements

open Sys2Proof Sys2Proof.Machine

/-! ## Reset, decoding, stepping -/

/-- R342: the state right after construction, `cleanReset`. -/
def Obligations.ResetState : Prop :=
  State.reset.line = false ∧ State.reset.initialised = false ∧ State.reset.lock = none ∧ State.reset.session = none ∧
  State.reset.gen = 0 ∧
  State.reset.monitor = { mstate := .notStarted, stopFlag := false, subscribers := [], worker := .none } ∧
  State.reset.events = [] ∧ State.reset.log = [] ∧ State.reset.trace = [] ∧
  Config.cfg.defaultKey.toList = [0xFF#8, 0xFF#8, 0xFF#8, 0xFF#8, 0xFF#8, 0xFF#8]

/-- The invariant holds after construction (R40). -/
def Obligations.ResetInvariant : Prop := State.reset.Inv

/-- Every step keeps the invariant: the lock is free between steps, the session fits its counter, checksum and key, a worker
runs exactly in NoCard and CardPresent, a present card was the last announced, faults are logged, inboxes follow the events
(R30, R32, R35, R226, R321, R324, R335, R366). -/
def Obligations.StepKeepsInvariant : Prop := ∀ s t : State, s.Inv → step s = .next t → t.Inv

/-- Decoding the request of a well-formed instruction gives it back, a pseudo-request as its expansion (R90, R91, R93, R96,
R97, R110). The request formats of chip commands and card frames are the model's choice (log 7), and so is the request of a
pseudo-request (log 9). -/
def Obligations.DecodeEncode : Prop := ∀ i : Instr, i.wf = true → decode (encode i) = .ok i.core

/-- A request that decodes is well formed, is no pseudo-request, and is the request of its instruction: no part of it is
dropped (R91, R92, R110). The request formats of chip commands and card frames are the model's choice (log 7). -/
def Obligations.EncodeDecode : Prop :=
  ∀ (r : Request) (i : Instr), decode r = .ok i → i.wf = true ∧ i.core = i ∧ encode i = r

/-- Requests written out from the tables of R91, R96 and R110 decode to the instruction they stand for. The request formats of
chip commands and card frames are the model's choice (log 7); the command codes are the family's, as R96 and R97 take them
(log 10). -/
def Obligations.SpecWordsDecode : Prop :=
  decode (.host 0x02#8 [.int 0x0D, .int 0x87]) = .ok (.regWrite 0x0D 0x87#8) ∧
  decode (.host 0x10#8 [.cmd .transceive, .bytes [0x26#8], .int 7]) = .ok (.transceive .transceive [0x26#8] 7) ∧
  decode (.host 0x11#8 [.bytes [0x30#8, 0x00#8]]) = .ok (.crc16 [0x30#8, 0x00#8]) ∧
  decode (.host 0x24#8 [.card ⟨⟨0xDE#8, 0xAD#8, 0xBE#8, 0xEF#8⟩, 1⟩, .int 4, .int 0x60]) =
    .ok (.authenticate ⟨⟨0xDE#8, 0xAD#8, 0xBE#8, 0xEF#8⟩, 1⟩ 4 0x60#8 none) ∧
  decode (.host 0x33#8 [.card ⟨⟨0xDE#8, 0xAD#8, 0xBE#8, 0xEF#8⟩, 1⟩, .int 4, .int 12, .int (-1)]) =
    .ok (.writeInt32 ⟨⟨0xDE#8, 0xAD#8, 0xBE#8, 0xEF#8⟩, 1⟩ 4 12 (-1)) ∧
  decode (.host 0x44#8 [.consumer 5]) = .ok (.subscribe 5) ∧
  decode (.chipCommand 0x0C#8) = .ok .cmdTransceive ∧
  decode (.cardFrame [0x93#8, 0x20#8]) = .ok .frameAnticoll ∧
  decode (.cardFrame [0x93#8, 0x70#8, 0xDE#8, 0xAD#8, 0xBE#8, 0xEF#8, 0x22#8]) =
    .ok (.frameSelect ⟨0xDE#8, 0xAD#8, 0xBE#8, 0xEF#8⟩ 0x22#8) ∧
  decode (.cardFrame [0x61#8, 0x04#8, 1#8, 2#8, 3#8, 4#8, 5#8, 6#8, 0xDE#8, 0xAD#8, 0xBE#8, 0xEF#8]) =
    .ok (.frameAuthB 0x04#8 ⟨1#8, 2#8, 3#8, 4#8, 5#8, 6#8⟩ ⟨0xDE#8, 0xAD#8, 0xBE#8, 0xEF#8⟩)

/-- R92: a reserved `op` and operands of the wrong count or outside their types are refused, MONITOR_CYCLE from a host caller
is refused, and a block out of range is no reason to refuse. -/
def Obligations.IllegalRequests : Prop :=
  (∀ (s : State) (n : Nat) (op : Byte) (operands : List Operand) (rest : List Move),
    s.port = .host n (.host op operands) :: rest →
    op ∉ [0x01#8, 0x02#8, 0x03#8, 0x04#8, 0x10#8, 0x11#8, 0x20#8, 0x21#8, 0x22#8, 0x23#8, 0x24#8, 0x25#8, 0x26#8, 0x27#8,
      0x30#8, 0x31#8, 0x32#8, 0x33#8, 0x34#8, 0x40#8, 0x41#8, 0x42#8, 0x43#8, 0x44#8] →
    step s = .refused (.undecodable (.reservedOp op))) ∧
  (∀ (s : State) (n : Nat) (o : HostOp) (operands : List Operand) (rest : List Move),
    s.port = .host n (.host o.code operands) :: rest → operands.length ∉ o.arities →
    step s = .refused (.undecodable (.illTypedOperands o.code))) ∧
  (∀ (s : State) (n : Nat) (cmd : ChipCommand) (payload : List Byte) (framing : Int) (rest : List Move),
    s.port = .host n (.host 0x10#8 [.cmd cmd, .bytes payload, .int framing]) :: rest →
    cmd = .calcCRC ∨ cmd = .idle ∨ framing < 0 ∨ 8 ≤ framing →
    step s = .refused (.undecodable (.illTypedOperands 0x10#8))) ∧
  (∀ (s : State) (n : Nat) (a v : Int) (op : Byte) (rest : List Move), op = 0x02#8 ∨ op = 0x03#8 ∨ op = 0x04#8 →
    s.port = .host n (.host op [.int a, .int v]) :: rest → v < 0 ∨ 256 ≤ v →
    step s = .refused (.undecodable (.illTypedOperands op))) ∧
  (∀ (s : State) (n : Nat) (rest : List Move), s.port = .host n (.host 0x42#8 []) :: rest →
    step s = .refused .cycleFromHost) ∧
  (∀ (h : Handle) (b : Int), decode (.host 0x25#8 [.card h, .int b]) = .ok (.readBlock h b))

/-- A step runs the decoded instruction (R90, R115): a pending request that decodes is exec of its instruction, with the
request taken from the port and its caller noted. A turn of the worker, also when no request is pending (R13, R315, R320,
R330, R401), is a poll cycle when it polls, a sleep slice when it sleeps, nothing when there is no worker. The port and its
turns are the model's choice (log 3). -/
def Obligations.StepRunsDecoded : Prop :=
  (∀ (s : State) (n : Nat) (req : Request) (rest : List Move) (i : Instr),
    s.port = .host n req :: rest → decode req = .ok i → step s = exec i { s with port := rest, agent := .host n }) ∧
  (∀ (s : State) (rest : List Move), (s.port = [] ∧ rest = []) ∨ s.port = .worker :: rest →
    (s.monitor.worker = .polling → step s = exec .monitorCycle { s with port := rest, agent := .worker }) ∧
    (∀ ms, s.monitor.worker = .sleeping ms → step s = .next (sleepSlice Config.cfg { s with port := rest })) ∧
    (s.monitor.worker = .none → step s = .next { s with port := rest }))

/-! ## Refusals, results, errors -/

/-- R363, R22, R311, R315: what is refused, and that the requests R22 excepts (here with the chip commands, which write one
register, log 7) are never refused for want of INIT. That the chip commands run before INIT is the model's choice (log 7). -/
def Obligations.Refusals : Prop :=
  (∀ (i : Instr) (s : State), i.wf = true → beforeInit i = false → s.initialised = false →
    (i = .monitorCycle → s.agent = .worker) → exec i s = .refused .notInitialised) ∧
  (∀ (i : Instr) (s : State), beforeInit i = true → exec i s ≠ .refused .notInitialised) ∧
  (∀ s : State, s.initialised = true → exec .init s = .refused .alreadyInitialised) ∧
  (∀ s : State, s.initialised = true → s.monitor.worker ≠ .none → exec .monitorStart s = .refused .workerRunning) ∧
  (∀ (s : State) (n : Nat), s.agent = .host n → exec .monitorCycle s = .refused .cycleFromHost)

/-- R350, R366: from every state between requests, an instruction is refused, or it ends with one result, `ok` or `err`, for
its caller and with the bus lock free; it never faults. That a worker's cycle has a result is the model's choice (log 18). -/
def Obligations.RequestsEnd : Prop :=
  ∀ (i : Instr) (s : State), s.Inv →
    (∃ why, exec i s = .refused why) ∨
    (∃ t r, exec i s = .next t ∧ t.results = s.results ++ [{ caller := s.agent, result := r }] ∧ t.lock = none)

/-- No step of the machine stops with a fault (R380: errors are ordinary results, the pseudocode is total for every answer of
the environment). -/
def Obligations.StepNeverFaults : Prop := ∀ (s : State) (why : Fault), s.Inv → step s ≠ .fault why

/-- R362: where the transport fails a transaction, that transaction is the last the instruction performs, and its caller
receives TransportError with the address. It covers the chip commands and card frames, whose meaning as rows of their own is
the model's choice (log 7, log 8). -/
def Obligations.TransportFailureEnds : Prop :=
  ∀ (i : Instr) (s t : State) (T : List TraceEntry) (a : Addr), i ≠ .monitorCycle → exec i s = .next t →
    t.trace = s.trace ++ T → .fail a ∈ T →
    ∃ U mark, T = U ++ [.fail a] ∧ (∀ e ∈ U, e.failed = false) ∧
      t.results = s.results ++ [{ caller := s.agent, result := .err { cause := .transportError a, mark := mark } }]

/-- The block's own operations reach the registers of the register map only (R62, R75). -/
def Obligations.OwnRegistersOnly : Prop :=
  ∀ (i : Instr) (s t : State) (T : List TraceEntry), i.rawRegister = false → exec i s = .next t →
    t.trace = s.trace ++ T → ∀ e ∈ T, ∀ a, e.addr = some a → a ∈ Config.cfg.regMap.all

/-- The histories only grow: no step rewrites the trace, the events, the log, the results or the labels (R36, R37, R38). -/
def Obligations.HistoriesGrow : Prop := ∀ s t : State, step s = .next t → Continues s t

/-- A handle that is not valid never becomes valid again (R32, R226, R321 c); the premise on its generation holds of every
handle the block has handed out. -/
def Obligations.StaleForever : Prop :=
  ∀ (s t : State) (h : Handle), step s = .next t → h.gen ≤ s.gen → s.sessionOf h = none →
    t.sessionOf h = none ∧ h.gen ≤ t.gen

/-! ## Frames -/

/-- Frame of the register requests, chip commands, card frames and of TRANSCEIVE, CRC16, REQUEST, GET_UID, SELECT, READ_BLOCK,
WRITE_BLOCK, the typed accessors and their pseudo-requests: they add transactions to the history, may log an exhausted CRC
budget, and end with a result; every other part of the state is as before. The chip commands and card frames as rows of their
own are the model's choice (log 7, log 8). -/
def Obligations.BusOnlyFrame : Prop :=
  ∀ (i : Instr) (s t : State), i.busOnly = true → exec i s = .next t →
    ∃ T L r, t = (s.busStep T L).replied r ∧ ∀ e ∈ L, ∃ bytes, e = .crcBudgetExhausted bytes

/-- Frame of AUTHENTICATE, AUTH_A, AUTH_B, END_SESSION and DUMP: beside the history, the log and the result they change at
most the session's crypto mirror (R31). -/
def Obligations.MirrorFrame : Prop :=
  ∀ (i : Instr) (s t : State), i.mirrorsCrypto = true → exec i s = .next t →
    ∃ T L r q, t = ({ s with session := q }.busStep T L).replied r ∧ (∀ e ∈ L, ∃ bytes, e = .crcBudgetExhausted bytes) ∧
      (q = s.session ∨ q = withCrypto s.session true ∨ q = withCrypto s.session false)

/-! ## RegisterBus and chip commands -/

/-- R130, R131: REG_READ and REG_WRITE, an address out of range, the transaction, and its failure. -/
def Obligations.RegisterAccess : Prop :=
  (∀ (a : Int) (s : State) (v : Byte), s.lock = none → 0 ≤ a → a ≤ 63 → s.Answers [.read (BitVec.ofNat 6 a.toNat) v] →
    exec (.regRead a) s = .next ((s.ran [.read (BitVec.ofNat 6 a.toNat) v]).replied (.ok (.byte v)))) ∧
  (∀ (a : Int) (s : State) (v : Byte), s.lock = none → 0 ≤ a → a ≤ 63 → s.Answers [.write (BitVec.ofNat 6 a.toNat) v] →
    exec (.regWrite a v) s = .next ((s.ran [.write (BitVec.ofNat 6 a.toNat) v]).replied (.ok .unit))) ∧
  (∀ (a : Int) (s : State) (v : Byte) (i : Instr), i = .regRead a ∨ i = .regWrite a v → s.lock = none → a < 0 ∨ 63 < a →
    exec i s = .next (s.replied (raised (.invalidArgument .regAddress)))) ∧
  (∀ (a : Int) (s : State) (v : Byte) (i : Instr), i = .regRead a ∨ i = .regWrite a v → s.lock = none → 0 ≤ a → a ≤ 63 →
    s.Answers [.fail (BitVec.ofNat 6 a.toNat)] →
    exec i s = .next ((s.ran [.fail (BitVec.ofNat 6 a.toNat)]).replied
      (raised (.transportError (BitVec.ofNat 6 a.toNat)))))

/-- R132, R133: SET_BITS and CLEAR_BITS read, then write the OR or the AND-NOT back; a failed read ends them with no write,
and so does a failed write. -/
def Obligations.BitUpdates : Prop :=
  (∀ (a : Int) (s : State) (v m : Byte), s.lock = none → 0 ≤ a → a ≤ 63 →
    s.Answers [.read (BitVec.ofNat 6 a.toNat) v, .write (BitVec.ofNat 6 a.toNat) (v ||| m)] →
    exec (.setBits a m) s = .next ((s.ran
      [.read (BitVec.ofNat 6 a.toNat) v, .write (BitVec.ofNat 6 a.toNat) (v ||| m)]).replied (.ok .unit))) ∧
  (∀ (a : Int) (s : State) (v m : Byte), s.lock = none → 0 ≤ a → a ≤ 63 →
    s.Answers [.read (BitVec.ofNat 6 a.toNat) v, .write (BitVec.ofNat 6 a.toNat) (v &&& ~~~m)] →
    exec (.clearBits a m) s = .next ((s.ran
      [.read (BitVec.ofNat 6 a.toNat) v, .write (BitVec.ofNat 6 a.toNat) (v &&& ~~~m)]).replied (.ok .unit))) ∧
  (∀ (a : Int) (s : State) (m : Byte) (i : Instr), i = .setBits a m ∨ i = .clearBits a m → s.lock = none →
    a < 0 ∨ 63 < a → exec i s = .next (s.replied (raised (.invalidArgument .regAddress)))) ∧
  (∀ (a : Int) (s : State) (m : Byte) (i : Instr), i = .setBits a m ∨ i = .clearBits a m → s.lock = none → 0 ≤ a →
    a ≤ 63 → s.Answers [.fail (BitVec.ofNat 6 a.toNat)] →
    exec i s = .next ((s.ran [.fail (BitVec.ofNat 6 a.toNat)]).replied
      (raised (.transportError (BitVec.ofNat 6 a.toNat))))) ∧
  (∀ (a : Int) (s : State) (v m : Byte) (i : Instr), i = .setBits a m ∨ i = .clearBits a m → s.lock = none → 0 ≤ a →
    a ≤ 63 → s.Answers [.read (BitVec.ofNat 6 a.toNat) v, .fail (BitVec.ofNat 6 a.toNat)] →
    exec i s = .next ((s.ran [.read (BitVec.ofNat 6 a.toNat) v, .fail (BitVec.ofNat 6 a.toNat)]).replied
      (raised (.transportError (BitVec.ofNat 6 a.toNat)))))

/-- The chip commands of R96: each writes its code, as the whole byte, to the command register. That the table's row alone is
that one transaction is the model's reading (log 7). The codes and the address are the family's, as R96 and R100 take them
(log 10). -/
def Obligations.ChipCommands : Prop :=
  ∀ (i : Instr) (code : Byte) (s : State),
    (i, code) ∈ [(Instr.cmdIdle, 0x00#8), (.cmdCalcCRC, 0x03#8), (.cmdTransceive, 0x0C#8), (.cmdAuthent, 0x0E#8)] →
    s.lock = none → s.Answers [.write 0x01#6 code] →
    exec i s = .next ((s.ran [.write 0x01#6 code]).replied (.ok .unit))

/-! ## TRANSCEIVE -/

/-- R151, R153, R154, R161: a TRANSCEIVE whose exchange completes performs exactly the exchange's transactions and returns
its Response. -/
def Obligations.TransceiveResult : Prop :=
  ∀ (cmd : ChipCommand) (payload : List Byte) (framing : Nat) (x : Exchange) (s : State),
    cmd = .transceive ∨ cmd = .authent → framing ≤ 7 → payload.length ≤ Config.cfg.fifoSize → s.initialised = true →
    s.lock = none →
    x.completes Config.cfg cmd = true → s.Answers (x.trace Config.cfg cmd payload framing) →
    exec (.transceive cmd payload framing) s =
      .next ((s.ran (x.trace Config.cfg cmd payload framing)).replied (.ok (.response (x.response Config.cfg cmd))))

/-- R156: none of `TRX_BUDGET` polls shows a completion bit: start-send is cleared and Timeout is raised, with the last value
polled; the error register is not read. R360: it surfaces unchanged, with nothing done after it, from every instruction that
opens with a frame (`State.opening`: REQUEST, GET_UID, DETECT, SELECT, AUTHENTICATE, READ_BLOCK, READ_STR, READ_INT32,
WRITE_INT32's read, their pseudo-requests, the card frames), and from the anti-collision frame of DETECT. The card frames as
rows of their own are the model's choice (log 8), the command bytes the family's (log 10). -/
def Obligations.TransceiveTimeout : Prop :=
  (∀ (cmd : ChipCommand) (payload : List Byte) (framing : Nat) (x : Exchange) (polls : List Byte) (s : State),
    cmd = .transceive ∨ cmd = .authent → framing ≤ 7 → payload.length ≤ Config.cfg.fifoSize → s.initialised = true →
    s.lock = none →
    polls.length = Config.cfg.trxBudget → noneDone Config.cfg cmd polls = true →
    s.Answers (x.timeoutTrace Config.cfg cmd payload framing polls) →
    exec (.transceive cmd payload framing) s =
      .next ((s.ran (x.timeoutTrace Config.cfg cmd payload framing polls)).replied
        (raised (.timeout (polls.getLastD 0#8) Config.cfg.trxBudget)))) ∧
  (∀ (i : Instr) (f : Opening) (crc : CrcRun) (x : Exchange) (polls : List Byte) (s : State), s.opening i = some f →
    s.initialised = true → s.lock = none → f.polledOk Config.cfg crc = true → polls.length = Config.cfg.trxBudget →
    noneDone Config.cfg f.cmd polls = true →
    s.Answers (f.before Config.cfg crc ++ x.timeoutTrace Config.cfg f.cmd (f.frame crc) f.framing polls) →
    exec i s = .next (State.replied
      (State.busStep { s with session := s.openingSession i }
        (f.before Config.cfg crc ++ x.timeoutTrace Config.cfg f.cmd (f.frame crc) f.framing polls) (f.logged crc))
      (raised (.timeout (polls.getLastD 0#8) Config.cfg.trxBudget)))) ∧
  (∀ (req x : Exchange) (polls : List Byte) (s : State), s.initialised = true → s.lock = none →
    req.completes Config.cfg .transceive = true → (req.response Config.cfg .transceive).status = .ok →
    (req.response Config.cfg .transceive).bits = 16 → polls.length = Config.cfg.trxBudget →
    noneDone Config.cfg .transceive polls = true →
    s.Answers (req.trace Config.cfg .transceive [0x26#8] 7 ++
      x.timeoutTrace Config.cfg .transceive [0x93#8, 0x20#8] 0 polls) →
    exec .detect s = .next (State.replied
      (s.ran (req.trace Config.cfg .transceive [0x26#8] 7 ++
        x.timeoutTrace Config.cfg .transceive [0x93#8, 0x20#8] 0 polls))
      (raised (.timeout (polls.getLastD 0#8) Config.cfg.trxBudget))))

/-- R158: a bit of the mask 0x1B set in the error register raises FrameError; a value with none of them does not, whatever its
other bits (the CRC-error bit 0x04 among them). R360: it surfaces unchanged, with nothing done after it, from every
instruction that opens with a frame (`State.opening`: REQUEST, GET_UID, DETECT, SELECT, AUTHENTICATE, READ_BLOCK, READ_STR,
READ_INT32, WRITE_INT32's read, their pseudo-requests, the card frames), and from the anti-collision frame of DETECT. The card
frames as rows of their own are the model's choice (log 8), the command bytes the family's (log 10). -/
def Obligations.TransceiveFrameError : Prop :=
  (∀ (cmd : ChipCommand) (payload : List Byte) (framing : Nat) (x : Exchange) (s : State),
    cmd = .transceive ∨ cmd = .authent → framing ≤ 7 → payload.length ≤ Config.cfg.fifoSize → s.initialised = true →
    s.lock = none →
    x.polledOk Config.cfg cmd = true →
    (x.errv &&& 0x1B#8 ≠ 0#8 → s.Answers (x.errorTrace Config.cfg cmd payload framing) →
      exec (.transceive cmd payload framing) s =
        .next ((s.ran (x.errorTrace Config.cfg cmd payload framing)).replied (raised (.frameError x.errv)))) ∧
    (x.errv &&& 0x1B#8 = 0#8 → (cmd = .transceive → x.bytes.length = drainCount Config.cfg x.level.toNat) →
      s.Answers (x.trace Config.cfg cmd payload framing) →
      exec (.transceive cmd payload framing) s =
        .next ((s.ran (x.trace Config.cfg cmd payload framing)).replied (.ok (.response (x.response Config.cfg cmd)))))) ∧
  (∀ (i : Instr) (f : Opening) (crc : CrcRun) (x : Exchange) (s : State), s.opening i = some f →
    s.initialised = true → s.lock = none → f.polledOk Config.cfg crc = true → x.polledOk Config.cfg f.cmd = true →
    x.errv &&& 0x1B#8 ≠ 0#8 →
    s.Answers (f.before Config.cfg crc ++ x.errorTrace Config.cfg f.cmd (f.frame crc) f.framing) →
    exec i s = .next (State.replied
      (State.busStep { s with session := s.openingSession i }
        (f.before Config.cfg crc ++ x.errorTrace Config.cfg f.cmd (f.frame crc) f.framing) (f.logged crc))
      (raised (.frameError x.errv)))) ∧
  (∀ (req x : Exchange) (s : State), s.initialised = true → s.lock = none →
    req.completes Config.cfg .transceive = true → (req.response Config.cfg .transceive).status = .ok →
    (req.response Config.cfg .transceive).bits = 16 → x.polledOk Config.cfg .transceive = true →
    x.errv &&& 0x1B#8 ≠ 0#8 →
    s.Answers (req.trace Config.cfg .transceive [0x26#8] 7 ++ x.errorTrace Config.cfg .transceive [0x93#8, 0x20#8] 0) →
    exec .detect s = .next (State.replied
      (s.ran (req.trace Config.cfg .transceive [0x26#8] 7 ++ x.errorTrace Config.cfg .transceive [0x93#8, 0x20#8] 0))
      (raised (.frameError x.errv))))

/-- R166: the transaction counts of TRANSCEIVE, and its bound whatever the environment answers. The budget 2000 and the clamp
16 are the values R7 decides (log 11). -/
def Obligations.TransceiveCounts : Prop :=
  (∀ (payload : List Byte) (framing : Nat) (x : Exchange) (polls : List Byte),
    (x.trace Config.cfg .transceive payload framing).length =
      15 + payload.length + (x.waits.length + 1) + x.bytes.length ∧
    (x.errorTrace Config.cfg .transceive payload framing).length = 13 + payload.length + (x.waits.length + 1) ∧
    (x.timeoutTrace Config.cfg .transceive payload framing polls).length = 12 + payload.length + polls.length ∧
    (x.trace Config.cfg .authent payload framing).length = 11 + payload.length + (x.waits.length + 1) ∧
    (x.errorTrace Config.cfg .authent payload framing).length = 11 + payload.length + (x.waits.length + 1) ∧
    (x.timeoutTrace Config.cfg .authent payload framing polls).length = 10 + payload.length + polls.length) ∧
  (∀ (cmd : ChipCommand) (payload : List Byte) (framing : Nat) (s t : State),
    exec (.transceive cmd payload framing) s = .next t →
    ∃ T, t.trace = s.trace ++ T ∧ T.length ≤ 15 + payload.length + 2000 + 16)

/-- R163 to R165: every Response of a Transceive ends with the FIFO level, the last-byte count and the drain, and its `bits`
and bytes follow from them; a level of 0 (environment property E2) gives one byte and 8 bits, a final byte of fewer than 8
bits (E1) counts its own bits. -/
def Obligations.ResponseShape : Prop :=
  ∀ (payload : List Byte) (framing : Nat) (r : Response) (s t : State),
    exec (.transceive .transceive payload framing) s = .next t →
    t.results = s.results ++ [{ caller := s.agent, result := .ok (.response r) }] →
    ∃ (T : List TraceEntry) (n control : Byte),
      t.trace = s.trace ++ T ++ [.read Config.cfg.regMap.fifoLevel n, .read Config.cfg.regMap.control control] ++
        r.bytes.map (.read Config.cfg.regMap.fifoData ·) ∧
      r.bytes.length = min (max n.toNat 1) Config.cfg.maxLen ∧
      (zeroLevel n → r.bytes.length = 1 ∧ r.bits = 8) ∧
      (¬zeroLevel n → ¬partialFinalByte Config.cfg control → r.bits = n.toNat * 8) ∧
      (¬zeroLevel n → partialFinalByte Config.cfg control →
        r.bits = (n.toNat - 1) * 8 + (control &&& Config.cfg.bits.rxLastBits).toNat)

/-- R214: the lengths in bits that the protocol checks fix the byte count. That the last-byte count is at most 7 is the
family's mask of R101 (log 10). -/
def Obligations.ResponseLengths : Prop :=
  (∀ n k : Nat, k ≤ 7 →
    (bitCount n k = 16 ↔ n = 2 ∧ k = 0) ∧ (bitCount n k = 24 ↔ n = 3 ∧ k = 0) ∧ (bitCount n k = 40 ↔ n = 5 ∧ k = 0) ∧
    (bitCount n k = 4 ↔ n = 1 ∧ k = 4)) ∧
  (∀ (payload : List Byte) (framing : Nat) (r : Response) (s t : State),
    exec (.transceive .transceive payload framing) s = .next t →
    t.results = s.results ++ [{ caller := s.agent, result := .ok (.response r) }] →
    (r.bits = 16 → r.bytes.length = 2) ∧ (r.bits = 24 → r.bytes.length = 3) ∧ (r.bits = 40 → r.bytes.length = 5) ∧
    (r.bits = 4 → r.bytes.length = 1))

/-- R160 with the default masks of R101 and R102: the status is NoTag exactly when the bit 0x01 is set in the last polled
value and in the command's enable mask; an Authent exchange is never NoTag, and returns no bytes (R161). The masks are the
family's (log 10). -/
def Obligations.ResponseStatus : Prop :=
  (∀ x : Exchange, (x.response Config.cfg .transceive).status = .noTag ↔ x.irq &&& 0x77#8 &&& 0x01#8 ≠ 0#8) ∧
  (∀ (payload : List Byte) (framing : Nat) (r : Response) (s t : State),
    exec (.transceive .authent payload framing) s = .next t →
    t.results = s.results ++ [{ caller := s.agent, result := .ok (.response r) }] →
    r = { status := .ok, bytes := [], bits := 0 })

/-! ## CRC16 -/

/-- R191 to R194: a CRC16 performs exactly the calculation's transactions and returns the two result registers, low byte first;
a budget used up without the done bit is logged and changes nothing else. -/
def Obligations.CrcResult : Prop :=
  ∀ (bytes : List Byte) (x : CrcRun) (s : State), bytes.length ≤ Config.cfg.fifoSize → s.initialised = true → s.lock = none →
    x.waits.all (fun v => (v &&& Config.cfg.bits.divCrc) == 0#8) = true →
    (∀ v, x.done = some v → v &&& Config.cfg.bits.divCrc ≠ 0#8 ∧ x.waits.length < Config.cfg.crcBudget) →
    (x.done = none → x.waits.length = Config.cfg.crcBudget) →
    s.Answers (x.trace Config.cfg bytes) →
    exec (.crc16 bytes) s = .next ((s.busStep (x.trace Config.cfg bytes)
      (if x.done = none then [.crcBudgetExhausted bytes] else [])).replied (.ok (.crc x.lo x.hi)))

/-- R352, with the bound of R190: a CRC16 ends with a result, with TransportError or with InvalidArgument(payloadLength),
never with another error, within 7 + len(bytes) + CRC_BUDGET transactions. The budget 255 is the value R7 decides (log 11),
FIFO_SIZE 64 the family's (log 10). -/
def Obligations.CrcEnds : Prop :=
  ∀ (bytes : List Byte) (s t : State), exec (.crc16 bytes) s = .next t →
    (∃ T, t.trace = s.trace ++ T ∧ T.length ≤ 7 + bytes.length + 255) ∧
    ∃ r, t.results = s.results ++ [{ caller := s.agent, result := r }] ∧
      ((∃ lo hi, r = .ok (.crc lo hi)) ∨ (∃ a, r = raised (.transportError a)) ∨
        (64 < bytes.length ∧ r = raised (.invalidArgument .payloadLength)))

/-- R73 and R195: CRC_A on the checks of R73 and on the bytes of R198, and, with the environment properties E4 and E5, CRC16
returns CRC_A of its bytes and logs nothing. CRC_A is from general knowledge, as R73 says, and E5 is a premise (log 10). -/
def Obligations.CrcA : Prop :=
  crcA [0x00#8, 0x00#8] = (0xA0#8, 0x1E#8) ∧ crcA [0x12#8, 0x34#8] = (0x26#8, 0xCF#8) ∧ crcA [] = (0x63#8, 0x63#8) ∧
  crcA [0x30#8, 0x00#8] = (0x02#8, 0xA8#8) ∧
  (∀ (bytes : List Byte) (x : CrcRun) (s : State), bytes.length ≤ 64 → s.initialised = true → s.lock = none →
    x.polledOk Config.cfg = true → x.finished → x.isCrcA bytes → s.Answers (x.trace Config.cfg bytes) →
    exec (.crc16 bytes) s =
      .next ((s.ran (x.trace Config.cfg bytes)).replied (.ok (.crc (crcA bytes).1 (crcA bytes).2))))

/-! ## Protocol controller -/

/-- R215 (and R110, R111 for the card frames, R93 for REQA and WUPA): the request frame is one byte with framing 7; exactly 16
bits with status Ok are returned, anything else is NoTagPresent. The frames' modes are the family's (log 10); CARD.REQA and
CARD.WUPA as rows of their own are the model's choice (log 8). -/
def Obligations.RequestResult : Prop :=
  ∀ (i : Instr) (mode : Byte) (x : Exchange) (s : State), i.requestMode = some mode → s.initialised = true →
    s.lock = none → x.completes Config.cfg .transceive = true → s.Answers (x.trace Config.cfg .transceive [mode] 7) →
    exec i s = .next ((s.ran (x.trace Config.cfg .transceive [mode] 7)).replied
      (if (x.response Config.cfg .transceive).status = .ok ∧ (x.response Config.cfg .transceive).bits = 16 then
        .ok (.response (x.response Config.cfg .transceive))
       else raised (.noTagPresent (x.response Config.cfg .transceive))))

/-- R220: GET_UID and the anti-collision frame: the length is checked before the checksum. CARD.ANTICOLL as a row of its own
is the model's choice (log 8). -/
def Obligations.GetUidResult : Prop :=
  ∀ (i : Instr) (x : Exchange) (s : State), i = .getUid ∨ i = .frameAnticoll → s.initialised = true → s.lock = none →
    x.completes Config.cfg .transceive = true → s.Answers (x.trace Config.cfg .transceive [0x93#8, 0x20#8] 0) →
    ((x.response Config.cfg .transceive).status = .noTag ∨ (x.response Config.cfg .transceive).bits ≠ 40 →
      exec i s = .next ((s.ran (x.trace Config.cfg .transceive [0x93#8, 0x20#8] 0)).replied
        (raised (.noTagPresent (x.response Config.cfg .transceive))))) ∧
    (∀ u0 u1 u2 u3 bcc, (x.response Config.cfg .transceive).status = .ok → (x.response Config.cfg .transceive).bits = 40 →
      x.bytes = [u0, u1, u2, u3, bcc] →
      exec i s = .next ((s.ran (x.trace Config.cfg .transceive [0x93#8, 0x20#8] 0)).replied
        (if u0 ^^^ u1 ^^^ u2 ^^^ u3 = bcc then .ok (.uid ⟨u0, u1, u2, u3⟩ bcc) else raised (.uidChecksumError x.bytes))))

/-- R221: a 40-bit response that differs from a valid one in exactly one of its five bytes makes GET_UID raise
UidChecksumError. -/
def Obligations.UidChecksumLaw : Prop :=
  ∀ (x : Exchange) (s : State) (u : Uid) (k : Nat) (v : Byte), s.initialised = true → s.lock = none →
    x.completes Config.cfg .transceive = true → (x.response Config.cfg .transceive).status = .ok →
    (x.response Config.cfg .transceive).bits = 40 → k < 5 →
    x.bytes = (u.toList ++ [u.u0 ^^^ u.u1 ^^^ u.u2 ^^^ u.u3]).set k v →
    (u.toList ++ [u.u0 ^^^ u.u1 ^^^ u.u2 ^^^ u.u3])[k]? ≠ some v →
    s.Answers (x.trace Config.cfg .transceive [0x93#8, 0x20#8] 0) →
    exec .getUid s = .next ((s.ran (x.trace Config.cfg .transceive [0x93#8, 0x20#8] 0)).replied
      (raised (.uidChecksumError x.bytes)))

/-- R226: DETECT runs the request and the anti-collision; the same UID keeps the session, another UID or none installs a
new one with the next generation, after which no handle for another UID is valid; a detect that finds no card changes no
session. -/
def Obligations.DetectResult : Prop :=
  ∀ (p : Probe) (s : State), s.initialised = true → s.lock = none → p.completes Config.cfg = true →
    s.Answers (p.trace Config.cfg) →
    (∀ u bcc q, p.card Config.cfg = some (u, bcc) → s.session = some q → q.uid = u →
      exec .detect s = .next ((s.ran (p.trace Config.cfg)).replied (.ok (.card { uid := q.uid, gen := q.gen })))) ∧
    (∀ u bcc, p.card Config.cfg = some (u, bcc) → (∀ q, s.session = some q → q.uid ≠ u) →
      exec .detect s = .next (State.replied
        { s.ran (p.trace Config.cfg) with
          gen := s.gen + 1
          session := some { uid := u, bcc := bcc, key := ⟨0xFF#8, 0xFF#8, 0xFF#8, 0xFF#8, 0xFF#8, 0xFF#8⟩,
                            cryptoActive := false, gen := s.gen + 1 } }
        (.ok (.card { uid := u, gen := s.gen + 1 }))) ∧
      ∀ h t, exec .detect s = .next t → h.uid ≠ u → t.sessionOf h = none) ∧
    (p.card Config.cfg = none → ∃ e, exec .detect s = .next ((s.ran (p.trace Config.cfg)).replied (raised e)) ∧
      (e.kind = .noTagPresent ∨ e.kind = .uidChecksumError))

/-- Frames of DETECT (R225) and of MONITOR_CYCLE (R320, R335). DETECT: on an error the session is left as it was, whatever
the error; on success only session and counter may change, beside the history and the result. MONITOR_CYCLE: beside history,
session, counter, log, presence state and worker it changes only events and inboxes, by the same at most one event, and
records one result for its caller, which is the model's choice (log 18). -/
def Obligations.DetectAndCycleFrame : Prop :=
  (∀ s t : State, exec .detect s = .next t →
    (∃ T e, t = (s.ran T).replied (raised e)) ∨
    (∃ T q g h, t = State.replied { s.ran T with session := q, gen := g } (.ok (.card h)) ∧ t.sessionOf h = q ∧
      q.isSome = true ∧ ((q = s.session ∧ g = s.gen) ∨ g = s.gen + 1))) ∧
  (∀ s t : State, exec .monitorCycle s = .next t →
    t.line = s.line ∧ t.initialised = s.initialised ∧ t.lock = s.lock ∧ t.labels = s.labels ∧ t.port = s.port ∧
    t.agent = s.agent ∧ t.monitor.stopFlag = s.monitor.stopFlag ∧
    t.results = s.results ++ [{ caller := s.agent, result := .ok .unit }] ∧
    ∃ E : List Event, E.length ≤ 1 ∧ t.events = s.events ++ E ∧
      t.monitor.subscribers = s.monitor.subscribers.map fun q => { q with inbox := q.inbox ++ E })

/-- R230 (and R110, R111 for the card frame): SELECT sends the five anti-collision bytes with their checksum; 24 bits with
status Ok give the first byte, anything else is SelectFailed. The command byte is the family's (log 10); CARD.SELECT as a row
of its own is the model's choice (log 8). -/
def Obligations.SelectResult : Prop :=
  ∀ (i : Instr) (u : Uid) (bcc : Byte) (x : Framed) (s : State),
    i = .frameSelect u bcc ∨ (∃ h q, i = .select h ∧ s.holds h q ∧ q.uid = u ∧ q.bcc = bcc) →
    s.initialised = true → s.lock = none → x.completes Config.cfg = true →
    s.Answers (x.trace Config.cfg [0x93#8, 0x70#8, u.u0, u.u1, u.u2, u.u3, bcc]) →
    exec i s = .next ((s.busStep (x.trace Config.cfg [0x93#8, 0x70#8, u.u0, u.u1, u.u2, u.u3, bcc])
      (x.crc.logged [0x93#8, 0x70#8, u.u0, u.u1, u.u2, u.u3, bcc])).replied
      (if (x.response Config.cfg).status = .ok ∧ (x.response Config.cfg).bits = 24 then
        .ok (.byte (byteAt x.exchange.bytes 0))
       else raised (.selectFailed (x.response Config.cfg))))

/-- R235 (R93 for AUTH_A and AUTH_B): the payload is the mode, the block, the key supplied or else the session's, and the four
UID bytes, sent by Authent; the crypto bit of STATUS2 (environment property E3) then decides, and the mirror says what it was.
The card frames (R110, R111) do the same with the key and UID given, and write no session (log 8). The key modes and the
register are the family's (log 10). -/
def Obligations.AuthenticateResult : Prop :=
  (∀ (i : Instr) (h : Handle) (b : Int) (mode : Byte) (key : Option Key) (q : Session) (x : Exchange) (st : Byte)
    (s : State),
    i = .authenticate h b mode key ∨ (i = .authA h b ∧ mode = 0x60#8 ∧ key = none) ∨
      (i = .authB h b ∧ mode = 0x61#8 ∧ key = none) →
    s.initialised = true → s.lock = none → s.holds h q → 0 ≤ b → b < 64 → x.completes Config.cfg .authent = true →
    s.Answers (x.trace Config.cfg .authent ([mode, blockByte b] ++ (key.getD q.key).toList ++ q.uid.toList) 0 ++
      [.read 0x08#6 st]) →
    (windowOpen Config.cfg st → exec i s = .next (State.replied
      (State.ran { s with session := some { q with cryptoActive := true } }
        (x.trace Config.cfg .authent ([mode, blockByte b] ++ (key.getD q.key).toList ++ q.uid.toList) 0 ++
          [.read 0x08#6 st])) (.ok .unit))) ∧
    (¬windowOpen Config.cfg st → exec i s = .next (State.replied
      (State.ran { s with session := some { q with cryptoActive := false } }
        (x.trace Config.cfg .authent ([mode, blockByte b] ++ (key.getD q.key).toList ++ q.uid.toList) 0 ++
          [.read 0x08#6 st])) (raised (.authenticationFailed .notActive))))) ∧
  (∀ (i : Instr) (b mode : Byte) (k : Key) (u : Uid) (x : Exchange) (st : Byte) (s : State),
    (i = .frameAuthA b k u ∧ mode = 0x60#8) ∨ (i = .frameAuthB b k u ∧ mode = 0x61#8) → b.toNat < 64 →
    s.initialised = true → s.lock = none → x.completes Config.cfg .authent = true →
    s.Answers (x.trace Config.cfg .authent ([mode, b] ++ k.toList ++ u.toList) 0 ++ [.read 0x08#6 st]) →
    exec i s = .next ((s.ran (x.trace Config.cfg .authent ([mode, b] ++ k.toList ++ u.toList) 0 ++
      [.read 0x08#6 st])).replied
      (if st &&& 0x08#8 ≠ 0#8 then .ok .unit else raised (.authenticationFailed .notActive))))

/-- R236: past its argument checks AUTHENTICATE leaves the mirror true exactly when it succeeds, and it never writes the chip's
crypto bit; an InvalidArgument leaves the mirror unchanged. -/
def Obligations.AuthenticateMirror : Prop :=
  ∀ (h : Handle) (b : Int) (mode : Byte) (key : Option Key) (s t : State),
    exec (.authenticate h b mode key) s = .next t →
    (∀ q, s.holds h q → 0 ≤ b → b < 64 → ∃ T r, t.trace = s.trace ++ T ∧ (∀ v, .write Config.cfg.regMap.status2 v ∉ T) ∧
      t.results = s.results ++ [{ caller := s.agent, result := r }] ∧
      t.session = some { q with cryptoActive := decide (r = .ok .unit) }) ∧
    (∀ reason, t.results = s.results ++ [{ caller := s.agent, result := raised (.invalidArgument reason) }] →
      t.session = s.session)

/-- R240 (R93 for CARD_READ, R110 and R111 for the card frame): the read frame with its checksum; 16 bytes with status Ok are
returned, anything else is ReadFailed. The command byte is the family's (log 10); CARD.READ as a row of its own is the model's
choice (log 8). -/
def Obligations.ReadBlockResult : Prop :=
  ∀ (i : Instr) (b : Byte) (x : Framed) (s : State),
    (i = .frameRead b ∧ b.toNat < 64) ∨
      (∃ h n q, (i = .readBlock h n ∨ i = .cardRead h n) ∧ s.holds h q ∧ 0 ≤ n ∧ n < 64 ∧ b = blockByte n) →
    s.initialised = true → s.lock = none → x.completes Config.cfg = true → s.Answers (x.trace Config.cfg [0x30#8, b]) →
    exec i s = .next ((s.busStep (x.trace Config.cfg [0x30#8, b]) (x.crc.logged [0x30#8, b])).replied
      (if (x.response Config.cfg).status = .ok ∧ x.exchange.bytes.length = 16 then .ok (.bytes x.exchange.bytes)
       else raised (.readFailed (x.response Config.cfg))))

/-- R213 with the environment property E6: without an open crypto session READ_BLOCK surfaces the card's refusal as
ReadFailed, and WRITE_BLOCK as WriteFailed of phase 1, with no data frame sent. The command bytes are the family's (log 10). -/
def Obligations.AccessControl : Prop :=
  ∀ (h : Handle) (b : Int) (q : Session) (x : Framed) (s : State), s.initialised = true → s.lock = none → s.holds h q →
    q.cryptoActive = false → 0 ≤ b → b < 64 → x.completes Config.cfg = true →
    (x.readControlled Config.cfg q.cryptoActive → s.Answers (x.trace Config.cfg [0x30#8, blockByte b]) →
      exec (.readBlock h b) s = .next ((s.busStep (x.trace Config.cfg [0x30#8, blockByte b])
        (x.crc.logged [0x30#8, blockByte b])).replied (raised (.readFailed (x.response Config.cfg))))) ∧
    (∀ data : List Byte, data.length = 16 → x.writeControlled Config.cfg q.cryptoActive →
      s.Answers (x.trace Config.cfg [0xA0#8, blockByte b]) →
      exec (.writeBlock h b data) s = .next ((s.busStep (x.trace Config.cfg [0xA0#8, blockByte b])
        (x.crc.logged [0xA0#8, blockByte b])).replied (raised (.writeFailed .phase1 (x.response Config.cfg)))))

/-- R245, R246 (R93 for CARD_WRITE, R110 and R111 for the card frame): two frames, each judged by its own acknowledge; the
second is sent only after the first was acknowledged. The command byte is the family's (log 10); CARD.WRITE as a row of its
own is the model's choice (log 8). -/
def Obligations.WriteBlockResult : Prop :=
  ∀ (i : Instr) (b : Byte) (data : List Byte) (x y : Framed) (s : State),
    (i = .frameWrite b data ∧ b.toNat < 64) ∨
      (∃ h n q, (i = .writeBlock h n data ∨ i = .cardWrite h n data) ∧ s.holds h q ∧ 0 ≤ n ∧ n < 64 ∧
        b = blockByte n) →
    data.length = 16 → s.initialised = true → s.lock = none → x.completes Config.cfg = true →
    (ackOk Config.cfg (x.response Config.cfg) = true → y.completes Config.cfg = true →
      s.Answers (x.trace Config.cfg [0xA0#8, b] ++ y.trace Config.cfg data) →
      exec i s = .next ((s.busStep (x.trace Config.cfg [0xA0#8, b] ++ y.trace Config.cfg data)
        (x.crc.logged [0xA0#8, b] ++ y.crc.logged data)).replied
        (if (y.response Config.cfg).status = .ok ∧ (y.response Config.cfg).bits = 4 ∧
            byteAt y.exchange.bytes 0 &&& 0x0F#8 = 0x0A#8 then .ok .unit
         else raised (.writeFailed .phase2Partial (y.response Config.cfg))))) ∧
    (ackOk Config.cfg (x.response Config.cfg) = false → s.Answers (x.trace Config.cfg [0xA0#8, b]) →
      exec i s = .next ((s.busStep (x.trace Config.cfg [0xA0#8, b]) (x.crc.logged [0xA0#8, b])).replied
        (raised (.writeFailed .phase1 (x.response Config.cfg)))))

/-- R247: a frame-layer error of WRITE_BLOCK is marked partial exactly when the first frame had been acknowledged. How the
mark is recorded is the model's choice (log 20), the command byte the family's, as R97 takes it (log 10). -/
def Obligations.WritePartialMark : Prop :=
  ∀ (h : Handle) (b : Int) (data : List Byte) (e : Err) (s t : State), exec (.writeBlock h b data) s = .next t →
    t.results = s.results ++ [{ caller := s.agent, result := .err e }] → e.cause.isFrameLayer = true →
    ∃ isPartial, e.mark = .write isPartial ∧
      (isPartial = true ↔ ∃ x : Framed, x.completes Config.cfg = true ∧ ackOk Config.cfg (x.response Config.cfg) = true ∧
        s.Answers (x.trace Config.cfg [0xA0#8, blockByte b]))

/-- R250: END_SESSION clears the crypto bit and the mirror whatever the handle; a failed transaction leaves the mirror. -/
def Obligations.EndSession : Prop :=
  ∀ (h : Handle) (v : Byte) (a : Addr) (s : State), s.initialised = true → s.lock = none →
    a = Config.cfg.regMap.status2 →
    (s.Answers [.read a v, .write a (v &&& ~~~Config.cfg.bits.cryptoOn)] →
      exec (.endSession h) s = .next (State.replied
        { s.ran [.read a v, .write a (v &&& ~~~Config.cfg.bits.cryptoOn)] with session := withCrypto s.session false }
        (.ok .unit))) ∧
    (s.Answers [.fail a] →
      exec (.endSession h) s = .next ((s.ran [.fail a]).replied (raised (.transportError a)))) ∧
    (s.Answers [.read a v, .fail a] →
      exec (.endSession h) s = .next ((s.ran [.read a v, .fail a]).replied (raised (.transportError a))))

/-- R210, with the card check before it: a handle that is not valid raises staleCard, and with a valid handle a block outside
[0, 64) raises blockRange; neither performs a transaction, and the handle is checked first. -/
def Obligations.HandleAndBlockChecks : Prop :=
  ∀ (i : Instr) (h : Handle) (s : State), i.checkedHandle = some h → s.initialised = true → s.lock = none →
    (s.sessionOf h = none → exec i s = .next (s.replied (raised (.invalidArgument .staleCard)))) ∧
    (∀ b, s.sessionOf h ≠ none → i.checkedBlock = some b → b < 0 ∨ 64 ≤ b →
      exec i s = .next (s.replied (raised (.invalidArgument .blockRange))))

/-- R271, R273, R361: offset, value, data length and payload length are checked, in that order and after handle and block,
before any transaction; so are the block byte and the data length of a card frame, which is the model's choice (log 8).
FIFO_SIZE 64 is the family's (log 10). -/
def Obligations.OperandChecks : Prop :=
  (∀ (h : Handle) (b off v : Int) (sg : Bool) (i : Instr) (s : State),
    i = .readInt32 h b off sg ∨ i = .writeInt32 h b off v → s.initialised = true → s.lock = none →
    s.sessionOf h ≠ none → 0 ≤ b → b < 64 → off < 0 ∨ 12 < off →
    exec i s = .next (s.replied (raised (.invalidArgument .offsetRange)))) ∧
  (∀ (h : Handle) (b off v : Int) (s : State), s.initialised = true → s.lock = none → s.sessionOf h ≠ none →
    0 ≤ b → b < 64 → 0 ≤ off → off ≤ 12 → v < -2147483648 ∨ 4294967296 ≤ v →
    exec (.writeInt32 h b off v) s = .next (s.replied (raised (.invalidArgument .valueRange)))) ∧
  (∀ (h : Handle) (b : Int) (data : List Byte) (i : Instr) (s : State),
    i = .writeBlock h b data ∨ i = .cardWrite h b data → s.initialised = true → s.lock = none → s.sessionOf h ≠ none →
    0 ≤ b → b < 64 → data.length ≠ 16 →
    exec i s = .next (s.replied (raised (.invalidArgument .dataLength)))) ∧
  (∀ (cmd : ChipCommand) (bytes : List Byte) (framing : Nat) (i : Instr) (s : State),
    cmd = .transceive ∨ cmd = .authent → framing ≤ 7 → i = .transceive cmd bytes framing ∨ i = .crc16 bytes →
    s.initialised = true → s.lock = none → 64 < bytes.length →
    exec i s = .next (s.replied (raised (.invalidArgument .payloadLength)))) ∧
  (∀ (b : Byte) (k : Key) (u : Uid) (data : List Byte) (i : Instr) (s : State),
    i = .frameAuthA b k u ∨ i = .frameAuthB b k u ∨ i = .frameRead b ∨ i = .frameWrite b data → s.initialised = true →
    s.lock = none → 64 ≤ b.toNat → exec i s = .next (s.replied (raised (.invalidArgument .blockRange)))) ∧
  (∀ (b : Byte) (data : List Byte) (s : State), s.initialised = true → s.lock = none → b.toNat < 64 → data.length ≠ 16 →
    exec (.frameWrite b data) s = .next (s.replied (raised (.invalidArgument .dataLength))))

/-! ## Typed accessors and DUMP -/

/-- R272, R275, R276: READ_STR returns the block without its trailing zero bytes, and a read that fails its check is its
ReadFailed; WRITE_STR writes the string padded with zeros or cut to 16 bytes, by the two write frames, and its WriteFailed
says which of them was not acknowledged. The command bytes are the family's (log 10). -/
def Obligations.StringAccess : Prop :=
  (∀ (h : Handle) (b : Int) (q : Session) (x : Framed) (s : State), s.initialised = true → s.lock = none → s.holds h q →
    0 ≤ b → b < 64 → x.completes Config.cfg = true → s.Answers (x.trace Config.cfg [0x30#8, blockByte b]) →
    ((x.response Config.cfg).status = .ok → x.exchange.bytes.length = 16 →
      ∃ str zeros, exec (.readStr h b) s = .next ((s.busStep (x.trace Config.cfg [0x30#8, blockByte b])
          (x.crc.logged [0x30#8, blockByte b])).replied (.ok (.bytes str))) ∧
        x.exchange.bytes = str ++ List.replicate zeros 0x00#8 ∧ str.getLast? ≠ some 0x00#8) ∧
    ((x.response Config.cfg).status = .noTag ∨ x.exchange.bytes.length ≠ 16 →
      exec (.readStr h b) s = .next ((s.busStep (x.trace Config.cfg [0x30#8, blockByte b])
        (x.crc.logged [0x30#8, blockByte b])).replied (raised (.readFailed (x.response Config.cfg)))))) ∧
  (∀ (h : Handle) (b : Int) (q : Session) (str data : List Byte) (x y : Framed) (s : State), s.initialised = true →
    s.lock = none → s.holds h q → 0 ≤ b → b < 64 →
    (str.length ≤ 16 → data = str ++ List.replicate (16 - str.length) 0x00#8) → (16 < str.length → data = str.take 16) →
    x.completes Config.cfg = true →
    (ackOk Config.cfg (x.response Config.cfg) = true → y.completes Config.cfg = true →
      s.Answers (x.trace Config.cfg [0xA0#8, blockByte b] ++ y.trace Config.cfg data) →
      exec (.writeStr h b str) s = .next ((s.busStep
        (x.trace Config.cfg [0xA0#8, blockByte b] ++ y.trace Config.cfg data)
        (x.crc.logged [0xA0#8, blockByte b] ++ y.crc.logged data)).replied
        (if ackOk Config.cfg (y.response Config.cfg) = true then .ok .unit
         else raised (.writeFailed .phase2Partial (y.response Config.cfg))))) ∧
    (ackOk Config.cfg (x.response Config.cfg) = false → s.Answers (x.trace Config.cfg [0xA0#8, blockByte b]) →
      exec (.writeStr h b str) s = .next ((s.busStep (x.trace Config.cfg [0xA0#8, blockByte b])
        (x.crc.logged [0xA0#8, blockByte b])).replied (raised (.writeFailed .phase1 (x.response Config.cfg))))))

/-- R277: after a WRITE_STR that succeeded, a READ_STR of the same block whose frame reads back what was written (environment
property E7) returns the first 16 bytes without trailing zeros; a string of at most 16 bytes that does not end in zero comes
back whole. The command byte is the family's (log 10). -/
def Obligations.StringRoundTrip : Prop :=
  ∀ (h : Handle) (b : Int) (str : List Byte) (x : Framed) (s t : State), exec (.writeStr h b str) s = .next t →
    t.results = s.results ++ [{ caller := s.agent, result := .ok .unit }] → x.completes Config.cfg = true →
    (x.response Config.cfg).status = .ok → x.readsBack (pad16 Config.cfg str) →
    t.Answers (x.trace Config.cfg [0x30#8, blockByte b]) →
    ∃ u back zeros, exec (.readStr h b) t = .next u ∧
      u.results = t.results ++ [{ caller := t.agent, result := .ok (.bytes back) }] ∧
      str.take 16 = back ++ List.replicate zeros 0x00#8 ∧ back.getLast? ≠ some 0x00#8 ∧
      (str.length ≤ 16 → str.getLast? ≠ some 0x00#8 → back = str)

/-- R280, R281: READ_INT32 assembles four bytes big-endian at the offset, signed by two's complement; WRITE_INT32 reads the
block, replaces four bytes by the value's 32-bit pattern, and writes it back, the other twelve bytes as read. A read that
fails its check is the ReadFailed of both, and nothing is written; a write frame that is not acknowledged is WRITE_INT32's
WriteFailed. The command bytes are the family's (log 10). -/
def Obligations.IntAccess : Prop :=
  (∀ (h : Handle) (b : Int) (off : Nat) (sg : Bool) (q : Session) (b0 b1 b2 b3 : Byte) (x : Framed) (s : State),
    s.initialised = true → s.lock = none → s.holds h q → 0 ≤ b → b < 64 → off ≤ 12 → x.completes Config.cfg = true →
    (x.response Config.cfg).status = .ok → x.exchange.bytes.length = 16 →
    (x.exchange.bytes.drop off).take 4 = [b0, b1, b2, b3] →
    s.Answers (x.trace Config.cfg [0x30#8, blockByte b]) →
    exec (.readInt32 h b off sg) s = .next ((s.busStep (x.trace Config.cfg [0x30#8, blockByte b])
      (x.crc.logged [0x30#8, blockByte b])).replied (.ok (.int
        (if sg = true ∧ 2147483648 ≤ b0.toNat * 16777216 + b1.toNat * 65536 + b2.toNat * 256 + b3.toNat then
          (b0.toNat * 16777216 + b1.toNat * 65536 + b2.toNat * 256 + b3.toNat : Int) - 4294967296
         else (b0.toNat * 16777216 + b1.toNat * 65536 + b2.toNat * 256 + b3.toNat : Int)))))) ∧
  (∀ (h : Handle) (b v : Int) (off : Nat) (sg : Bool) (q : Session) (x : Framed) (i : Instr) (s : State),
    i = .readInt32 h b off sg ∨ (i = .writeInt32 h b off v ∧ -2147483648 ≤ v ∧ v < 4294967296) →
    s.initialised = true → s.lock = none → s.holds h q → 0 ≤ b → b < 64 → off ≤ 12 → x.completes Config.cfg = true →
    (x.response Config.cfg).status = .noTag ∨ x.exchange.bytes.length ≠ 16 →
    s.Answers (x.trace Config.cfg [0x30#8, blockByte b]) →
    exec i s = .next ((s.busStep (x.trace Config.cfg [0x30#8, blockByte b])
      (x.crc.logged [0x30#8, blockByte b])).replied (raised (.readFailed (x.response Config.cfg))))) ∧
  (∀ (h : Handle) (b v : Int) (off : Nat) (q : Session) (b0 b1 b2 b3 : Byte) (data : List Byte) (x y z : Framed)
    (s : State),
    s.initialised = true → s.lock = none → s.holds h q → 0 ≤ b → b < 64 → off ≤ 12 → -2147483648 ≤ v → v < 4294967296 →
    x.completes Config.cfg = true → (x.response Config.cfg).status = .ok → x.exchange.bytes.length = 16 →
    (b0.toNat * 16777216 + b1.toNat * 65536 + b2.toNat * 256 + b3.toNat : Int) = v % 4294967296 →
    data = x.exchange.bytes.take off ++ [b0, b1, b2, b3] ++ x.exchange.bytes.drop (off + 4) →
    y.completes Config.cfg = true →
    (ackOk Config.cfg (y.response Config.cfg) = true → z.completes Config.cfg = true →
      s.Answers (x.trace Config.cfg [0x30#8, blockByte b] ++
        (y.trace Config.cfg [0xA0#8, blockByte b] ++ z.trace Config.cfg data)) →
      exec (.writeInt32 h b off v) s = .next ((s.busStep (x.trace Config.cfg [0x30#8, blockByte b] ++
        (y.trace Config.cfg [0xA0#8, blockByte b] ++ z.trace Config.cfg data))
        (x.crc.logged [0x30#8, blockByte b] ++ (y.crc.logged [0xA0#8, blockByte b] ++ z.crc.logged data))).replied
        (if ackOk Config.cfg (z.response Config.cfg) = true then .ok .unit
         else raised (.writeFailed .phase2Partial (z.response Config.cfg))))) ∧
    (ackOk Config.cfg (y.response Config.cfg) = false →
      s.Answers (x.trace Config.cfg [0x30#8, blockByte b] ++ y.trace Config.cfg [0xA0#8, blockByte b]) →
      exec (.writeInt32 h b off v) s = .next ((s.busStep (x.trace Config.cfg [0x30#8, blockByte b] ++
        y.trace Config.cfg [0xA0#8, blockByte b])
        (x.crc.logged [0x30#8, blockByte b] ++ y.crc.logged [0xA0#8, blockByte b])).replied
        (raised (.writeFailed .phase1 (y.response Config.cfg))))))

/-- R282: after a WRITE_INT32 that succeeded, a READ_INT32 at the same offset whose frame reads back the bytes written there
(environment property E7) returns the value: signed for [-2^31, 2^31), unsigned for [0, 2^32). The command byte is the
family's (log 10). -/
def Obligations.IntRoundTrip : Prop :=
  ∀ (h : Handle) (b v : Int) (off : Nat) (sg : Bool) (before : List Byte) (x : Framed) (s t : State),
    exec (.writeInt32 h b off v) s = .next t →
    t.results = s.results ++ [{ caller := s.agent, result := .ok .unit }] → x.completes Config.cfg = true →
    (x.response Config.cfg).status = .ok → before.length = 16 → x.readsBack (spliceAt before off (bytes32 v)) →
    t.Answers (x.trace Config.cfg [0x30#8, blockByte b]) →
    (sg = true → -2147483648 ≤ v ∧ v < 2147483648) → (sg = false → 0 ≤ v ∧ v < 4294967296) →
    ∃ u, exec (.readInt32 h b off sg) t = .next u ∧
      u.results = t.results ++ [{ caller := t.agent, result := .ok (.int v) }]

/-- R290: DUMP authenticates and reads the 64 blocks in order with the session's key, and reports a refused authentication or
a failed read inline; the mirror ends as the last authentication left it. The key mode and the command byte are the family's
(log 10). -/
def Obligations.DumpResult : Prop :=
  ∀ (h : Handle) (q : Session) (runs : List BlockRun) (last : BlockRun) (s : State), s.initialised = true →
    s.lock = none → s.holds h q → runs.length = 64 → runs.getLast? = some last →
    (∀ x ∈ runs, x.completes Config.cfg = true) → s.Answers (sweepTrace Config.cfg q 0 runs) →
    exec (.dump h) s = .next (State.replied
      (State.busStep { s with session := some { q with cryptoActive := cryptoOn Config.cfg last.status2 } }
        (sweepTrace Config.cfg q 0 runs) (sweepLogged Config.cfg 0 runs))
      (.ok (.dump (sweepEntries Config.cfg 0 runs))))

/-- R290, R291: a DUMP that returns has 64 entries, one per block in order; a DUMP that is ended by an error, other than a
stale handle, is ended by a frame-layer error and carries the entries of the blocks before it. How the entries are recorded in
the error is the model's choice (log 20). -/
def Obligations.DumpEnds : Prop :=
  ∀ (h : Handle) (s t : State), exec (.dump h) s = .next t →
    ∃ r, t.results = s.results ++ [{ caller := s.agent, result := r }] ∧
      ((∃ out : List (Nat × BlockReport), r = .ok (.dump out) ∧ out.map (·.1) = List.range 64) ∨
        r = raised (.invalidArgument .staleCard) ∨
        (∃ (e : Err) (out : List (Nat × BlockReport)), r = .err e ∧ e.cause.isFrameLayer = true ∧ e.mark = .dump out ∧
          out.map (·.1) = List.range out.length ∧ out.length < 64))

/-! ## INIT and the monitor -/

/-- R311, R312: INIT asserts the line, performs the sequence, and only then sets `initialised`; a failed transaction ends it
with the line asserted and `initialised` false; nothing else changes. The sequence is the family's, as R312 takes it (log 10).
-/
def Obligations.Init : Prop :=
  (∀ (v : Byte) (s : State), s.initialised = false → s.lock = none →
    State.Answers { s with line := true, trace := s.trace ++ [.line true] }
      [.write 0x01#6 0x0F#8, .write 0x2A#6 0x8D#8, .write 0x2B#6 0x3E#8, .write 0x2D#6 0x1E#8, .write 0x2C#6 0x00#8,
       .write 0x15#6 0x40#8, .write 0x11#6 0x3D#8, .read 0x14#6 v, .write 0x14#6 (v ||| 0x03#8)] →
    exec .init s = .next (State.replied
      (State.ran { s with line := true, initialised := true, trace := s.trace ++ [.line true] }
        [.write 0x01#6 0x0F#8, .write 0x2A#6 0x8D#8, .write 0x2B#6 0x3E#8, .write 0x2D#6 0x1E#8, .write 0x2C#6 0x00#8,
         .write 0x15#6 0x40#8, .write 0x11#6 0x3D#8, .read 0x14#6 v, .write 0x14#6 (v ||| 0x03#8)])
      (.ok .unit))) ∧
  (∀ s t : State, exec .init s = .next t →
    ∃ T done r, t = State.replied
        (State.ran { s with line := true, initialised := done, trace := s.trace ++ [.line true] } T) r ∧
      ((done = true ∧ r = .ok .unit) ∨ (done = false ∧ ∃ a, r = raised (.transportError a))))

/-- R315, R331, R325 and SUBSCRIBE of R335: what MONITOR_START, MONITOR_STOP, SUBSCRIBE and a cycle that finds the stop flag
do; no transaction, no lock. That MONITOR_START and SUBSCRIBE take no lock (log 15) and that a worker's cycle has a result
(log 18) are the model's choices. -/
def Obligations.MonitorControl : Prop :=
  (∀ s : State, s.initialised = true → s.monitor.worker = .none →
    exec .monitorStart s = .next
      { s with
        monitor := { mstate := .noCard, stopFlag := false, subscribers := s.monitor.subscribers, worker := .polling }
        results := s.results ++ [{ caller := s.agent, result := .ok .unit }] }) ∧
  (∀ s : State, exec .monitorStop s = .next
    { s with
      monitor := { s.monitor with stopFlag := true }
      results := s.results ++ [{ caller := s.agent, result := .ok .unit }] }) ∧
  (∀ (n : Nat) (s : State), exec (.subscribe n) s = .next
    { s with
      monitor := { s.monitor with
        subscribers := s.monitor.subscribers ++
          (if n ∈ s.monitor.subscribers.map (·.consumer) then [] else [{ consumer := n, inbox := [] }]) }
      results := s.results ++ [{ caller := s.agent, result := .ok .unit }] }) ∧
  (∀ s : State, s.agent = .worker → s.initialised = true → s.monitor.worker = .polling → s.monitor.stopFlag = true →
    exec .monitorCycle s = .next
      { s with
        monitor := { s.monitor with mstate := .stopped, worker := .none }
        results := s.results ++ [{ caller := .worker, result := .ok .unit }] })

/-- R323: a cycle without an event. No card in NoCard: nothing changes. The card of CardPresent again: no END_SESSION, and the
session is kept (R226; where a host DETECT has meanwhile replaced it by another card's, DETECT installs it anew). The presence
state is kept and the worker sleeps 300 ms. 300 ms is the value R7 gives (log 11); that the cycle has a result is the model's
choice (log 18). -/
def Obligations.CycleWithoutEvent : Prop :=
  ∀ (p : Probe) (s : State), s.CycleReady → p.completes Config.cfg = true → s.Answers (p.trace Config.cfg) →
    (s.monitor.mstate = .noCard → p.card Config.cfg = none →
      exec .monitorCycle s = .next
        { s.ran (p.trace Config.cfg) with
          monitor := { s.monitor with worker := .sleeping 300 }
          results := s.results ++ [{ caller := .worker, result := .ok .unit }] }) ∧
    (∀ u bcc, s.monitor.mstate = .cardPresent u → p.card Config.cfg = some (u, bcc) →
      exec .monitorCycle s = .next
        { State.installed Config.cfg (s.ran (p.trace Config.cfg)) u bcc with
          monitor := { s.monitor with worker := .sleeping 300 }
          results := s.results ++ [{ caller := .worker, result := .ok .unit }] } ∧
      (∀ q, s.session = some q → q.uid = u →
        (State.installed Config.cfg (s.ran (p.trace Config.cfg)) u bcc).session = s.session ∧
        (State.installed Config.cfg (s.ran (p.trace Config.cfg)) u bcc).gen = s.gen))

/-- R321: the cycles with an event. An arrival or a replacement emits `arrived`, takes CardPresent, clears the crypto bit, and
sleeps 0 ms; a removal emits `removed`, takes NoCard, destroys the session, performs no further transaction, and sleeps 3000
ms. The sleeps are the values R7 gives (log 11), register and mask the family's (log 10); that the cycle has a result is the
model's choice (log 18). -/
def Obligations.CycleEvents : Prop :=
  ∀ (p : Probe) (v : Byte) (s : State), s.CycleReady → p.completes Config.cfg = true →
    (∀ u bcc, p.card Config.cfg = some (u, bcc) →
      (s.monitor.mstate = .noCard ∨ ∃ w, s.monitor.mstate = .cardPresent w ∧ w ≠ u) →
      s.Answers (p.trace Config.cfg ++ [.read 0x08#6 v, .write 0x08#6 (v &&& ~~~0x08#8)]) →
      exec .monitorCycle s = .next
        { State.installed Config.cfg
            (s.ran (p.trace Config.cfg ++ [.read 0x08#6 v, .write 0x08#6 (v &&& ~~~0x08#8)])) u bcc with
          session := withCrypto (State.installed Config.cfg s u bcc).session false
          events := s.events ++ [.arrived u]
          monitor := s.monitor.announced (.arrived u) (.cardPresent u) 0
          results := s.results ++ [{ caller := .worker, result := .ok .unit }] }) ∧
    (∀ u, p.card Config.cfg = none → s.monitor.mstate = .cardPresent u → s.Answers (p.trace Config.cfg) →
      exec .monitorCycle s = .next
        { s.ran (p.trace Config.cfg) with
          session := none
          gen := if s.session = none then s.gen else s.gen + 1
          events := s.events ++ [.removed u]
          monitor := s.monitor.announced (.removed u) .noCard 3000
          results := s.results ++ [{ caller := .worker, result := .ok .unit }] })

/-- R324 with R322, for the default policy `halt`. What ends the worker in a cycle that is not stopped is a Timeout, a
FrameError or a TransportError: its kind is logged, Faulted is taken, nothing is emitted and the session is kept; only a
TransportError of END_SESSION comes after an arrival, whose event and session stay (log 16); no error is taken for a removal.
A transaction that the transport fails, anywhere in the cycle, is its last and halts it. Whatever frame-layer error DETECT
raises halts the cycle: a Timeout or FrameError of either exchange and a failed first transaction among them. The budget is
the value R7 decides (log 11), mode and addresses the family's (log 10); that the cycle has a result is the model's choice
(log 18). -/
def Obligations.CycleFault : Prop :=
  (∀ s t : State, s.CycleReady → exec .monitorCycle s = .next t → t.monitor.worker = .none →
    ∃ k, (k = .timeout ∨ k = .frameError ∨ k = .transportError) ∧ t.monitor.mstate = .faulted k ∧
      t.log = s.log ++ [.monitorError k] ∧
      ((t.events = s.events ∧ t.session = s.session ∧ t.gen = s.gen) ∨
        (k = .transportError ∧ ∃ u bcc, s.monitor.mstate ≠ .cardPresent u ∧ t.events = s.events ++ [.arrived u] ∧
          t.session = (State.installed Config.cfg s u bcc).session ∧ t.gen = (State.installed Config.cfg s u bcc).gen))) ∧
  (∀ (s t : State) (T : List TraceEntry) (a : Addr), s.CycleReady → exec .monitorCycle s = .next t →
    t.trace = s.trace ++ T → .fail a ∈ T →
    (∃ U, T = U ++ [.fail a] ∧ ∀ e ∈ U, e.failed = false) ∧ t.monitor.worker = .none ∧
      t.monitor.mstate = .faulted .transportError ∧ t.log = s.log ++ [.monitorError .transportError]) ∧
  (∀ (e : Cause) (T : List TraceEntry) (s : State), s.CycleReady → s.monitor.mstate.active → e.isFrameLayer = true →
    exec .detect s = .next ((s.ran T).replied (raised e)) → exec .monitorCycle s = .next (s.halted T e.kind)) ∧
  (∀ (x : Exchange) (s : State), s.CycleReady → s.monitor.mstate.active →
    (∀ polls, polls.length = 2000 → noneDone Config.cfg .transceive polls = true →
      s.Answers (x.timeoutTrace Config.cfg .transceive [0x26#8] 7 polls) →
      exec .monitorCycle s =
        .next (s.halted (x.timeoutTrace Config.cfg .transceive [0x26#8] 7 polls) .timeout)) ∧
    (x.polledOk Config.cfg .transceive = true → x.errv &&& 0x1B#8 ≠ 0#8 →
      s.Answers (x.errorTrace Config.cfg .transceive [0x26#8] 7) →
      exec .monitorCycle s = .next (s.halted (x.errorTrace Config.cfg .transceive [0x26#8] 7) .frameError)) ∧
    (s.Answers [.fail 0x0D#6] → exec .monitorCycle s = .next (s.halted [.fail 0x0D#6] .transportError))) ∧
  (∀ (req x : Exchange) (s : State), s.CycleReady → s.monitor.mstate.active →
    req.completes Config.cfg .transceive = true → (req.response Config.cfg .transceive).status = .ok →
    (req.response Config.cfg .transceive).bits = 16 →
    (∀ polls, polls.length = 2000 → noneDone Config.cfg .transceive polls = true →
      s.Answers (req.trace Config.cfg .transceive [0x26#8] 7 ++
        x.timeoutTrace Config.cfg .transceive [0x93#8, 0x20#8] 0 polls) →
      exec .monitorCycle s = .next (s.halted (req.trace Config.cfg .transceive [0x26#8] 7 ++
        x.timeoutTrace Config.cfg .transceive [0x93#8, 0x20#8] 0 polls) .timeout)) ∧
    (x.polledOk Config.cfg .transceive = true → x.errv &&& 0x1B#8 ≠ 0#8 →
      s.Answers (req.trace Config.cfg .transceive [0x26#8] 7 ++
        x.errorTrace Config.cfg .transceive [0x93#8, 0x20#8] 0) →
      exec .monitorCycle s = .next (s.halted (req.trace Config.cfg .transceive [0x26#8] 7 ++
        x.errorTrace Config.cfg .transceive [0x93#8, 0x20#8] 0) .frameError))) ∧
  (∀ (p : Probe) (u : Uid) (bcc v : Byte) (F : List TraceEntry) (s : State), s.CycleReady →
    p.completes Config.cfg = true → p.card Config.cfg = some (u, bcc) →
    (s.monitor.mstate = .noCard ∨ ∃ w, s.monitor.mstate = .cardPresent w ∧ w ≠ u) →
    F = [.fail 0x08#6] ∨ F = [.read 0x08#6 v, .fail 0x08#6] → s.Answers (p.trace Config.cfg ++ F) →
    exec .monitorCycle s = .next
      { State.installed Config.cfg (s.ran (p.trace Config.cfg ++ F)) u bcc with
        log := s.log ++ [.monitorError .transportError]
        events := s.events ++ [.arrived u]
        monitor := { s.monitor.announced (.arrived u) (.faulted .transportError) 0 with worker := .none }
        results := s.results ++ [{ caller := .worker, result := .ok .unit }] })

/-- R335, R336, R321: the only events of a step. `arrived(u)` leads to CardPresent(u), or to Faulted when END_SESSION fails on
the transport (log 16), and never repeats the UID present; `removed(u)` is of the card present, whose `arrived(u)` is the last
event, and leads to NoCard with no session. -/
def Obligations.EventsOfAStep : Prop :=
  ∀ s t : State, s.Inv → step s = .next t →
    t.events = s.events ∨
    (∃ u, t.events = s.events ++ [.arrived u] ∧ s.monitor.mstate ≠ .cardPresent u ∧
      (t.monitor.mstate = .cardPresent u ∨ t.monitor.mstate = .faulted .transportError)) ∨
    (∃ u, t.events = s.events ++ [.removed u] ∧ s.monitor.mstate = .cardPresent u ∧
      s.events.getLast? = some (.arrived u) ∧ t.monitor.mstate = .noCard ∧ t.session = none)

/-- R330: the steps of a sleeping worker, and that the labels of one sleep sum to its length. The slice of 100 ms is the value
R7 decides (log 11); the list of labels (log 19) and the worker moving when no request is pending (log 3) are the model's
choices. -/
def Obligations.Sleep : Prop :=
  (∀ s : State, s.port = [] → s.monitor.worker = .sleeping 0 →
    step s = .next { s with monitor := { s.monitor with worker := .polling } }) ∧
  (∀ (ms : Nat) (s : State), s.port = [] → s.monitor.worker = .sleeping ms → 0 < ms → s.monitor.stopFlag = true →
    step s = .next { s with monitor := { s.monitor with mstate := .stopped, worker := .none } }) ∧
  (∀ (ms : Nat) (s : State), s.port = [] → s.monitor.worker = .sleeping ms → 0 < ms → s.monitor.stopFlag = false →
    step s = .next
      { s with
        labels := s.labels ++ [min 100 ms]
        monitor := { s.monitor with worker := .sleeping (ms - min 100 ms) } }) ∧
  (∀ (ms : Nat) (s : State), s.port = [] → s.monitor.worker = .sleeping ms → s.monitor.stopFlag = false →
    ∃ L : List Nat, L.sum = ms ∧ (∀ d ∈ L, d ≤ 100) ∧
      Host.Core.run core (L.length + 1) s =
        .next { s with labels := s.labels ++ L, monitor := { s.monitor with worker := .polling } })

/-- R332: with the stop flag set and no request pending, the worker ends in at most two steps, with no transaction and no
further sleep. The worker moving when no request is pending is the model's choice (log 3). -/
def Obligations.StopLatency : Prop :=
  ∀ s : State, s.Inv → s.port = [] → s.monitor.worker ≠ .none → s.monitor.stopFlag = true →
    ∃ k t, k ≤ 2 ∧ Host.Core.run core k s = .next t ∧ t.monitor.worker = .none ∧ t.monitor.mstate = .stopped ∧
      t.trace = s.trace ∧ t.labels = s.labels ∧ t.events = s.events

/-- R326: the scenario. From NoCard, six cycles whose detects find nothing, A, A, B, nothing, nothing emit exactly arrived(A),
arrived(B), removed(B); `awake` is the state once the sleep of the cycle before it has ended. The sleeps are the values R7
gives (log 11). -/
def Obligations.Scenario : Prop :=
  ∀ (A B : Uid) (bccA bccB : Byte) (p : Fin 6 → Probe) (vA vB : Byte) (awake after : Fin 6 → State), A ≠ B →
    (∀ k, (awake k).CycleReady ∧ (p k).completes Config.cfg = true ∧ exec .monitorCycle (awake k) = .next (after k)) →
    (∀ k : Fin 5, (awake k.succ).monitor.mstate = (after k.castSucc).monitor.mstate ∧
      (awake k.succ).session = (after k.castSucc).session ∧ (awake k.succ).events = (after k.castSucc).events) →
    (awake 0).monitor.mstate = .noCard →
    (p 0).card Config.cfg = none → (p 1).card Config.cfg = some (A, bccA) → (p 2).card Config.cfg = some (A, bccA) →
    (p 3).card Config.cfg = some (B, bccB) → (p 4).card Config.cfg = none → (p 5).card Config.cfg = none →
    (awake 0).Answers ((p 0).trace Config.cfg) →
    (awake 1).Answers ((p 1).trace Config.cfg ++ endSessionTrace Config.cfg vA) →
    (awake 2).Answers ((p 2).trace Config.cfg) →
    (awake 3).Answers ((p 3).trace Config.cfg ++ endSessionTrace Config.cfg vB) →
    (awake 4).Answers ((p 4).trace Config.cfg) → (awake 5).Answers ((p 5).trace Config.cfg) →
    (after 5).events = (awake 0).events ++ [.arrived A, .arrived B, .removed B] ∧
    List.ofFn (fun k => (after k).monitor.worker) =
      [.sleeping 300, .sleeping 0, .sleeping 300, .sleeping 0, .sleeping 3000, .sleeping 300]

end Statements
end

