-- ==== Sys2Proof/Laws/State.lean ====
section
/-!
SUPPORT. One lemma per field per update of State, so that no later proof unfolds a record update.
-/

namespace Sys2Proof.Machine

/-! ## State.ran: bus transactions -/

@[simp] theorem State.ran_line (s : State) (T : List TraceEntry) : (s.ran T).line = s.line := rfl
@[simp] theorem State.ran_initialised (s : State) (T : List TraceEntry) : (s.ran T).initialised = s.initialised := rfl
@[simp] theorem State.ran_lock (s : State) (T : List TraceEntry) : (s.ran T).lock = s.lock := rfl
@[simp] theorem State.ran_session (s : State) (T : List TraceEntry) : (s.ran T).session = s.session := rfl
@[simp] theorem State.ran_gen (s : State) (T : List TraceEntry) : (s.ran T).gen = s.gen := rfl
@[simp] theorem State.ran_monitor (s : State) (T : List TraceEntry) : (s.ran T).monitor = s.monitor := rfl
@[simp] theorem State.ran_events (s : State) (T : List TraceEntry) : (s.ran T).events = s.events := rfl
@[simp] theorem State.ran_log (s : State) (T : List TraceEntry) : (s.ran T).log = s.log := rfl
@[simp] theorem State.ran_trace (s : State) (T : List TraceEntry) : (s.ran T).trace = s.trace ++ T := rfl
@[simp] theorem State.ran_results (s : State) (T : List TraceEntry) : (s.ran T).results = s.results := rfl
@[simp] theorem State.ran_labels (s : State) (T : List TraceEntry) : (s.ran T).labels = s.labels := rfl
@[simp] theorem State.ran_agent (s : State) (T : List TraceEntry) : (s.ran T).agent = s.agent := rfl
@[simp] theorem State.ran_port (s : State) (T : List TraceEntry) : (s.ran T).port = s.port := rfl
@[simp] theorem State.ran_env (s : State) (T : List TraceEntry) : (s.ran T).env = s.env.drop T.length := rfl
@[simp] theorem State.ran_choice (s : State) (T : List TraceEntry) : (s.ran T).choice = s.choice + T.length := rfl

/-! ## State.busStep: bus transactions and log entries -/

@[simp] theorem State.busStep_line (s : State) (T : List TraceEntry) (L : List LogEntry) :
    (s.busStep T L).line = s.line := rfl
@[simp] theorem State.busStep_initialised (s : State) (T : List TraceEntry) (L : List LogEntry) :
    (s.busStep T L).initialised = s.initialised := rfl
@[simp] theorem State.busStep_lock (s : State) (T : List TraceEntry) (L : List LogEntry) :
    (s.busStep T L).lock = s.lock := rfl
@[simp] theorem State.busStep_session (s : State) (T : List TraceEntry) (L : List LogEntry) :
    (s.busStep T L).session = s.session := rfl
@[simp] theorem State.busStep_gen (s : State) (T : List TraceEntry) (L : List LogEntry) :
    (s.busStep T L).gen = s.gen := rfl
@[simp] theorem State.busStep_monitor (s : State) (T : List TraceEntry) (L : List LogEntry) :
    (s.busStep T L).monitor = s.monitor := rfl
@[simp] theorem State.busStep_events (s : State) (T : List TraceEntry) (L : List LogEntry) :
    (s.busStep T L).events = s.events := rfl
@[simp] theorem State.busStep_log (s : State) (T : List TraceEntry) (L : List LogEntry) :
    (s.busStep T L).log = s.log ++ L := rfl
@[simp] theorem State.busStep_trace (s : State) (T : List TraceEntry) (L : List LogEntry) :
    (s.busStep T L).trace = s.trace ++ T := rfl
@[simp] theorem State.busStep_results (s : State) (T : List TraceEntry) (L : List LogEntry) :
    (s.busStep T L).results = s.results := rfl
@[simp] theorem State.busStep_labels (s : State) (T : List TraceEntry) (L : List LogEntry) :
    (s.busStep T L).labels = s.labels := rfl
@[simp] theorem State.busStep_agent (s : State) (T : List TraceEntry) (L : List LogEntry) :
    (s.busStep T L).agent = s.agent := rfl
@[simp] theorem State.busStep_port (s : State) (T : List TraceEntry) (L : List LogEntry) :
    (s.busStep T L).port = s.port := rfl
@[simp] theorem State.busStep_env (s : State) (T : List TraceEntry) (L : List LogEntry) :
    (s.busStep T L).env = s.env.drop T.length := rfl
@[simp] theorem State.busStep_choice (s : State) (T : List TraceEntry) (L : List LogEntry) :
    (s.busStep T L).choice = s.choice + T.length := rfl

/-! ## State.replied: the end of a request -/

@[simp] theorem State.replied_line (s : State) (r : Result) : (s.replied r).line = s.line := rfl
@[simp] theorem State.replied_initialised (s : State) (r : Result) : (s.replied r).initialised = s.initialised := rfl
@[simp] theorem State.replied_lock (s : State) (r : Result) : (s.replied r).lock = none := rfl
@[simp] theorem State.replied_session (s : State) (r : Result) : (s.replied r).session = s.session := rfl
@[simp] theorem State.replied_gen (s : State) (r : Result) : (s.replied r).gen = s.gen := rfl
@[simp] theorem State.replied_monitor (s : State) (r : Result) : (s.replied r).monitor = s.monitor := rfl
@[simp] theorem State.replied_events (s : State) (r : Result) : (s.replied r).events = s.events := rfl
@[simp] theorem State.replied_log (s : State) (r : Result) : (s.replied r).log = s.log := rfl
@[simp] theorem State.replied_trace (s : State) (r : Result) : (s.replied r).trace = s.trace := rfl
@[simp] theorem State.replied_results (s : State) (r : Result) :
    (s.replied r).results = s.results ++ [{ caller := s.agent, result := r }] := rfl
@[simp] theorem State.replied_labels (s : State) (r : Result) : (s.replied r).labels = s.labels := rfl
@[simp] theorem State.replied_agent (s : State) (r : Result) : (s.replied r).agent = s.agent := rfl
@[simp] theorem State.replied_port (s : State) (r : Result) : (s.replied r).port = s.port := rfl
@[simp] theorem State.replied_env (s : State) (r : Result) : (s.replied r).env = s.env := rfl
@[simp] theorem State.replied_choice (s : State) (r : Result) : (s.replied r).choice = s.choice := rfl

/-! ## State.emit and State.acknowledge -/

@[simp] theorem State.emit_line (s : State) (ev : Event) : (s.emit ev).line = s.line := rfl
@[simp] theorem State.emit_initialised (s : State) (ev : Event) : (s.emit ev).initialised = s.initialised := rfl
@[simp] theorem State.emit_lock (s : State) (ev : Event) : (s.emit ev).lock = s.lock := rfl
@[simp] theorem State.emit_session (s : State) (ev : Event) : (s.emit ev).session = s.session := rfl
@[simp] theorem State.emit_gen (s : State) (ev : Event) : (s.emit ev).gen = s.gen := rfl
@[simp] theorem State.emit_events (s : State) (ev : Event) : (s.emit ev).events = s.events ++ [ev] := rfl
@[simp] theorem State.emit_log (s : State) (ev : Event) : (s.emit ev).log = s.log := rfl
@[simp] theorem State.emit_trace (s : State) (ev : Event) : (s.emit ev).trace = s.trace := rfl
@[simp] theorem State.emit_results (s : State) (ev : Event) : (s.emit ev).results = s.results := rfl
@[simp] theorem State.emit_labels (s : State) (ev : Event) : (s.emit ev).labels = s.labels := rfl
@[simp] theorem State.emit_agent (s : State) (ev : Event) : (s.emit ev).agent = s.agent := rfl
@[simp] theorem State.emit_port (s : State) (ev : Event) : (s.emit ev).port = s.port := rfl
@[simp] theorem State.emit_mstate (s : State) (ev : Event) : (s.emit ev).monitor.mstate = s.monitor.mstate := rfl
@[simp] theorem State.emit_worker (s : State) (ev : Event) : (s.emit ev).monitor.worker = s.monitor.worker := rfl
@[simp] theorem State.emit_stopFlag (s : State) (ev : Event) : (s.emit ev).monitor.stopFlag = s.monitor.stopFlag := rfl
@[simp] theorem State.emit_subscribers (s : State) (ev : Event) :
    (s.emit ev).monitor.subscribers =
      s.monitor.subscribers.map fun q => { q with inbox := q.inbox ++ [ev] } := rfl

@[simp] theorem State.acknowledge_line (s : State) : s.acknowledge.line = s.line := rfl
@[simp] theorem State.acknowledge_initialised (s : State) : s.acknowledge.initialised = s.initialised := rfl
@[simp] theorem State.acknowledge_lock (s : State) : s.acknowledge.lock = s.lock := rfl
@[simp] theorem State.acknowledge_session (s : State) : s.acknowledge.session = s.session := rfl
@[simp] theorem State.acknowledge_gen (s : State) : s.acknowledge.gen = s.gen := rfl
@[simp] theorem State.acknowledge_monitor (s : State) : s.acknowledge.monitor = s.monitor := rfl
@[simp] theorem State.acknowledge_events (s : State) : s.acknowledge.events = s.events := rfl
@[simp] theorem State.acknowledge_log (s : State) : s.acknowledge.log = s.log := rfl
@[simp] theorem State.acknowledge_trace (s : State) : s.acknowledge.trace = s.trace := rfl
@[simp] theorem State.acknowledge_results (s : State) :
    s.acknowledge.results = s.results ++ [{ caller := s.agent, result := .ok .unit }] := rfl
@[simp] theorem State.acknowledge_labels (s : State) : s.acknowledge.labels = s.labels := rfl
@[simp] theorem State.acknowledge_agent (s : State) : s.acknowledge.agent = s.agent := rfl
@[simp] theorem State.acknowledge_port (s : State) : s.acknowledge.port = s.port := rfl

/-! ## The monitor -/

@[simp] theorem Monitor.started_mstate (m : Monitor) : m.started.mstate = .noCard := rfl
@[simp] theorem Monitor.started_stopFlag (m : Monitor) : m.started.stopFlag = false := rfl
@[simp] theorem Monitor.started_worker (m : Monitor) : m.started.worker = .polling := rfl
@[simp] theorem Monitor.started_subscribers (m : Monitor) : m.started.subscribers = m.subscribers := rfl
@[simp] theorem Monitor.ended_mstate (m : Monitor) : m.ended.mstate = .stopped := rfl
@[simp] theorem Monitor.ended_stopFlag (m : Monitor) : m.ended.stopFlag = m.stopFlag := rfl
@[simp] theorem Monitor.ended_worker (m : Monitor) : m.ended.worker = .none := rfl
@[simp] theorem Monitor.ended_subscribers (m : Monitor) : m.ended.subscribers = m.subscribers := rfl

end Sys2Proof.Machine
end

