-- ==== Sys2Proof/Laws/Ops.lean ====
section
/-!
SUPPORT. What each shared operation of Machine/Ops.lean does: sequencing, one bus transaction, set and clear, loading and
draining the FIFO, and ending a request.
-/

namespace Sys2Proof.Machine

/-! ## Sequencing -/

theorem op_bind_ok {α β : Type} {m : Op α} {f : α → Op β} {s s' : State} {a : α} (h : m s = .ok a s') :
    (m >>= f) s = f a s' := by
  show EStateM.bind m f s = _
  simp only [EStateM.bind, h]

theorem op_bind_error {α β : Type} {m : Op α} {f : α → Op β} {s s' : State} {e : Err} (h : m s = .error e s') :
    (m >>= f) s = .error e s' := by
  show EStateM.bind m f s = _
  simp only [EStateM.bind, h]

/-- A sequence whose first part may be replaced by one that does the same here. -/
theorem op_bind_congr {α β : Type} {m n : Op α} {f : α → Op β} {s : State} (h : m s = n s) : (m >>= f) s = (n >>= f) s := by
  show EStateM.bind m f s = EStateM.bind n f s
  simp only [EStateM.bind, h]

@[simp] theorem op_pure {α : Type} (a : α) (s : State) : (pure a : Op α) s = .ok a s := rfl

@[simp] theorem raise_apply {α : Type} (e : Cause) (s : State) :
    (raise e : Op α) s = .error { cause := e, mark := .none } s := rfl

theorem ensure_true {ok : Bool} {e : Cause} {s : State} (h : ok = true) : ensure ok e s = .ok () s := by
  simp [ensure, h]

theorem ensure_false {ok : Bool} {e : Cause} {s : State} (h : ok = false) :
    ensure ok e s = .error { cause := e, mark := .none } s := by
  simp [ensure, h]

/-- A sequence that returns: its first part returned, and the rest returned from there. -/
theorem op_bind_returns {α β : Type} {m : Op α} {f : α → Op β} {s t : State} {b : β} (h : (m >>= f) s = .ok b t) :
    ∃ a s', m s = .ok a s' ∧ f a s' = .ok b t := by
  cases hm : m s with
  | ok a s' => exact ⟨a, s', rfl, by rw [op_bind_ok hm] at h; exact h⟩
  | error e s' => rw [op_bind_error hm] at h; cases h

/-- A sequence that raises: its first part raised, or the first part returned and the rest raised from there. -/
theorem op_bind_raises {α β : Type} {m : Op α} {f : α → Op β} {s t : State} {e : Err} (h : (m >>= f) s = .error e t) :
    m s = .error e t ∨ ∃ a s', m s = .ok a s' ∧ f a s' = .error e t := by
  cases hm : m s with
  | ok a s' => exact .inr ⟨a, s', rfl, by rw [op_bind_ok hm] at h; exact h⟩
  | error e' s' => rw [op_bind_error hm] at h; cases h; exact .inl rfl

/-- `ensure` returns exactly when its condition holds, and changes no state. -/
theorem ensure_returns {ok : Bool} {e : Cause} {s t : State} (h : ensure ok e s = .ok () t) : ok = true ∧ t = s := by
  cases ok with
  | true => rw [ensure_true rfl] at h; cases h; exact ⟨rfl, rfl⟩
  | false => rw [ensure_false rfl] at h; cases h

/-- What `ensure` raises, and when. -/
theorem ensure_raises {ok : Bool} {e : Cause} {e' : Err} {s t : State} (h : ensure ok e s = .error e' t) :
    ok = false ∧ e' = { cause := e, mark := .none } ∧ t = s := by
  cases ok with
  | true => rw [ensure_true rfl] at h; cases h
  | false => rw [ensure_false rfl] at h; cases h; exact ⟨rfl, rfl, rfl⟩

/-! ## The environment's answers -/

theorem State.draw_eq (s : State) (a : Addr) : s.draw a = drawFrom s.env s.trace s.choice a := rfl

theorem State.transact_eq_ran (s : State) (e : TraceEntry) : s.transact e = s.ran [e] := by
  simp [State.transact, State.ran]

@[simp] theorem State.ran_nil (s : State) : s.ran [] = s := by simp [State.ran]

theorem State.ran_append (s : State) (T U : List TraceEntry) : s.ran (T ++ U) = (s.ran T).ran U := by
  simp [State.ran, Nat.add_assoc]

@[simp] theorem State.answers_nil (s : State) : s.Answers [] := rfl

theorem State.answers_cons (s : State) (e : TraceEntry) (T : List TraceEntry) :
    s.Answers (e :: T) ↔ entryAnswered s.draw e = true ∧ (s.ran [e]).Answers T := by
  show (_ && _) = true ↔ _
  rw [Bool.and_eq_true]
  have : (s.ran [e]).Answers T ↔ answersFrom s.env.tail (s.trace ++ [e]) (s.choice + 1) T = true := by
    simp [State.Answers]
  rw [this]; rfl

theorem State.answers_append (s : State) (T U : List TraceEntry) :
    s.Answers (T ++ U) ↔ s.Answers T ∧ (s.ran T).Answers U := by
  induction T generalizing s with
  | nil => simp
  | cons e T ih =>
    rw [List.cons_append, State.answers_cons, State.answers_cons, ih, ← State.ran_append, and_assoc, List.singleton_append]

/-- What the environment answers depends on its own fields only. -/
theorem State.answers_congr {s t : State} {T : List TraceEntry} (henv : s.env = t.env) (htr : s.trace = t.trace)
    (hch : s.choice = t.choice) (h : s.Answers T) : t.Answers T := by
  unfold State.Answers at *; rw [← henv, ← htr, ← hch]; exact h

/-! ## One transaction -/

theorem regRead_answered {c : Cfg} {a : Addr} {v : Byte} {s : State} (h : s.Answers [.read a v]) :
    regRead c a s = .ok v (s.ran [.read a v]) := by
  rw [State.answers_cons] at h
  obtain ⟨hf, hv⟩ : (s.draw a).fails = false ∧ (s.draw a).value = v := by simpa [entryAnswered] using h.1
  simp [regRead, Cfg.transportFails, hf, hv, State.transact_eq_ran]

theorem regWrite_answered {c : Cfg} {a : Addr} {v : Byte} {s : State} (h : s.Answers [.write a v]) :
    regWrite c a v s = .ok () (s.ran [.write a v]) := by
  rw [State.answers_cons] at h
  have hf : (s.draw a).fails = false := by simpa [entryAnswered] using h.1
  simp [regWrite, Cfg.transportFails, hf, State.transact_eq_ran]

/-- A read transaction either returns the byte answered or fails, and its entry is recorded. -/
theorem regRead_cases (c : Cfg) (a : Addr) (s : State) :
    (∃ v, regRead c a s = .ok v (s.ran [.read a v])) ∨
      regRead c a s = .error { cause := .transportError a, mark := .none } (s.ran [.fail a]) := by
  unfold regRead
  split
  · exact .inr (by rw [State.transact_eq_ran])
  · exact .inl ⟨_, by rw [State.transact_eq_ran]⟩

/-- A write transaction either happens or fails, and its entry is recorded. -/
theorem regWrite_cases (c : Cfg) (a : Addr) (v : Byte) (s : State) :
    regWrite c a v s = .ok () (s.ran [.write a v]) ∨
      regWrite c a v s = .error { cause := .transportError a, mark := .none } (s.ran [.fail a]) := by
  unfold regWrite
  split
  · exact .inr (by rw [State.transact_eq_ran])
  · exact .inl (by rw [State.transact_eq_ran])

/-- One operation followed by another whose answers are known. -/
theorem op_then {α β : Type} {m : Op α} {f : α → Op β} {s : State} {T : List TraceEntry} {a : α}
    {r : EStateM.Result Err State β} (hm : m s = .ok a (s.ran T)) (hf : f a (s.ran T) = r) : (m >>= f) s = r := by
  rw [op_bind_ok hm, hf]

theorem setBits_answered {c : Cfg} {a : Addr} {v m : Byte} {s : State} (h : s.Answers (setTrace a v m)) :
    setBits c a m s = .ok () (s.ran (setTrace a v m)) := by
  obtain ⟨h1, h2⟩ := (State.answers_append s [.read a v] [.write a (v ||| m)]).mp h
  show (regRead c a >>= fun v => regWrite c a (v ||| m)) s = _
  rw [op_bind_ok (regRead_answered h1), regWrite_answered h2, ← State.ran_append]
  rfl

theorem clearBits_answered {c : Cfg} {a : Addr} {v m : Byte} {s : State} (h : s.Answers (clearTrace a v m)) :
    clearBits c a m s = .ok () (s.ran (clearTrace a v m)) := by
  obtain ⟨h1, h2⟩ := (State.answers_append s [.read a v] [.write a (v &&& ~~~m)]).mp h
  show (regRead c a >>= fun v => regWrite c a (v &&& ~~~m)) s = _
  rw [op_bind_ok (regRead_answered h1), regWrite_answered h2, ← State.ran_append]
  rfl

theorem loadFifo_answered {c : Cfg} {bs : List Byte} {s : State}
    (h : s.Answers (bs.map (.write c.regMap.fifoData ·))) :
    loadFifo c bs s = .ok () (s.ran (bs.map (.write c.regMap.fifoData ·))) := by
  induction bs generalizing s with
  | nil => simp [loadFifo]
  | cons b bs ih =>
    obtain ⟨h1, h2⟩ := (State.answers_append s [.write c.regMap.fifoData b] _).mp h
    show (regWrite c c.regMap.fifoData b >>= fun _ => loadFifo c bs) s = _
    rw [op_bind_ok (regWrite_answered h1), ih h2, ← State.ran_append]
    rfl

theorem drainFifo_answered {c : Cfg} {bs : List Byte} {s : State}
    (h : s.Answers (bs.map (.read c.regMap.fifoData ·))) :
    drainFifo c bs.length s = .ok bs (s.ran (bs.map (.read c.regMap.fifoData ·))) := by
  induction bs generalizing s with
  | nil => simp [drainFifo]
  | cons b bs ih =>
    obtain ⟨h1, h2⟩ := (State.answers_append s [.read c.regMap.fifoData b] _).mp h
    show (regRead c c.regMap.fifoData >>= fun b => drainFifo c bs.length >>= fun bs => pure (b :: bs)) s = _
    rw [op_bind_ok (regRead_answered h1), op_bind_ok (ih h2), op_pure, ← State.ran_append]
    rfl

/-! ## Ending a request -/

theorem topLevel_free {op : Op ResultValue} {s : State} (h : s.lock = none) :
    topLevel op s = .next (finish (op { s with lock := some s.agent })) := by
  simp [topLevel, h]

theorem topLevel_held {op : Op ResultValue} {s : State} {a : Agent} (h : s.lock = some a) :
    topLevel op s = .fault .waitingForLock := by
  simp [topLevel, h]

/-- A top-level operation that answers a next state found the lock free. -/
theorem topLevel_next {op : Op ResultValue} {s t : State} (h : topLevel op s = .next t) :
    s.lock = none ∧ t = finish (op { s with lock := some s.agent }) := by
  unfold topLevel at h
  split at h
  · rename_i hl; injection h with h; exact ⟨hl, h.symm⟩
  · cases h

theorem cardOperation_ready {op : Op ResultValue} {s : State} (hi : s.initialised = true) (hl : s.lock = none) :
    cardOperation op s = .next (finish (op { s with lock := some s.agent })) := by
  simp [cardOperation, whenInitialised, hi, topLevel_free hl]

/-- A card operation that answers a next state ran initialised and with the lock free. -/
theorem cardOperation_next {op : Op ResultValue} {s t : State} (h : cardOperation op s = .next t) :
    s.initialised = true ∧ s.lock = none ∧ t = finish (op { s with lock := some s.agent }) := by
  unfold cardOperation whenInitialised at h
  split at h
  · rename_i hi; exact ⟨hi, topLevel_next h⟩
  · cases h

theorem finish_ok (v : ResultValue) (s : State) : finish (.ok v s) = s.replied (.ok v) := rfl

theorem finish_error (e : Err) (s : State) : finish (.error e s) = s.replied (.err e) := rfl

/-- A request ends with the state its operation leaves, the lock released and one result (R366). -/
theorem finish_eq (r : EStateM.Result Err State ResultValue) :
    ∃ res, finish r = (endState r).replied res := by
  cases r with
  | ok v s => exact ⟨.ok v, rfl⟩
  | error e s => exact ⟨.err e, rfl⟩

/-- A request that took the lock and ran the bus ends as if the lock had never been taken. -/
theorem replied_ran_locked (s : State) (a : Option Agent) (T : List TraceEntry) (r : Result) :
    (({ s with lock := a } : State).ran T).replied r = (s.ran T).replied r := rfl

theorem replied_busStep_locked (s : State) (a : Option Agent) (T : List TraceEntry) (L : List LogEntry) (r : Result) :
    (({ s with lock := a } : State).busStep T L).replied r = (s.busStep T L).replied r := rfl

end Sys2Proof.Machine
end

