-- ==== Sys2Proof/Laws/Bus.lean ====
section
/-!
SUPPORT. What the bus operations may do, whatever the environment answers: the history grows by at most a stated number of
transactions of a stated kind, entries of a stated kind may be logged, nothing else of the state changes, and a failed
transaction is the last (spec/42_frame_transceiver.md R166, spec/60_exceptions.md R362, spec/70_reset_and_hazards.md R441).
-/

namespace Sys2Proof.Machine

theorem State.busStep_nil (s : State) : s.busStep [] [] = s := by simp [State.busStep]

theorem State.busStep_busStep (s : State) (T U : List TraceEntry) (L K : List LogEntry) :
    (s.busStep T L).busStep U K = s.busStep (T ++ U) (L ++ K) := by
  simp [State.busStep, State.ran, Nat.add_assoc]

theorem State.ran_eq_busStep (s : State) (T : List TraceEntry) : s.ran T = s.busStep T [] := by
  simp [State.busStep, State.ran]

/-- How an operation that made the transactions `T` ended: where it returned none failed; where it raised either none failed
and the error is not a TransportError, or the last one failed and the error says so (R362). -/
def FailsLast {α : Type} (r : EStateM.Result Err State α) (T : List TraceEntry) : Prop :=
  match r with
  | .ok _ _ => ∀ x ∈ T, x.failed = false
  | .error e _ =>
    ((∀ x ∈ T, x.failed = false) ∧ ∀ a, e.cause ≠ .transportError a) ∨
      ∃ U a, T = U ++ [.fail a] ∧ (∀ x ∈ U, x.failed = false) ∧ e.cause = .transportError a

/-- The operation only uses the bus: at most `n` transactions, each satisfying `P`, and log entries satisfying `Q`. -/
def Effects (P : TraceEntry → Prop) (Q : LogEntry → Prop) {α : Type} (n : Nat) (m : Op α) : Prop :=
  ∀ s : State, ∃ T L, endState (m s) = s.busStep T L ∧ T.length ≤ n ∧ (∀ e ∈ T, P e) ∧ (∀ e ∈ L, Q e) ∧ FailsLast (m s) T

/-- An entry of the block's own exchanges: a register of the map, and for a write one that TRANSCEIVE or CRC16 writes. -/
def ownEntry (c : Cfg) : TraceEntry → Prop
  | .read a _ | .fail a => a ∈ c.regMap.all
  | .write a _ =>
    a ∈ [c.regMap.cmd, c.regMap.ien, c.regMap.irq, c.regMap.divIrq, c.regMap.fifoData, c.regMap.fifoLevel,
      c.regMap.bitFraming]
  | .line _ => False

/-- The log entry of CRC16 (R193). -/
def crcEntry (e : LogEntry) : Prop := ∃ bytes, e = .crcBudgetExhausted bytes

/-- No log entry. -/
def noEntry (_ : LogEntry) : Prop := False

variable {P : TraceEntry → Prop} {Q : LogEntry → Prop}

theorem Effects.busWithin {α : Type} {m : Op α} {n : Nat} (h : Effects P Q n m) : BusWithin n m := fun s =>
  let ⟨T, L, he, hl, _⟩ := h s
  ⟨T, L, he, hl⟩

theorem Effects.weaken {α : Type} {P' : TraceEntry → Prop} {Q' : LogEntry → Prop} {m : Op α} {n k : Nat}
    (h : Effects P Q n m) (hP : ∀ e, P e → P' e) (hQ : ∀ e, Q e → Q' e) (hk : n ≤ k) : Effects P' Q' k m := fun s =>
  let ⟨T, L, he, hl, h1, h2, h3⟩ := h s
  ⟨T, L, he, hl.trans hk, fun e hm => hP e (h1 e hm), fun e hm => hQ e (h2 e hm), h3⟩

theorem effects_mono {α : Type} {m : Op α} {n k : Nat} (h : Effects P Q n m) (hk : n ≤ k) : Effects P Q k m :=
  h.weaken (fun _ h => h) (fun _ h => h) hk

/-- A silent operation is one of any log kind. -/
theorem Effects.loud {α : Type} {m : Op α} {n : Nat} (h : Effects P noEntry n m) : Effects P Q n m :=
  h.weaken (fun _ h => h) (fun _ h => h.elim) (Nat.le_refl n)

theorem effects_pure {α : Type} (a : α) : Effects P Q 0 (pure a : Op α) := fun s =>
  ⟨[], [], by rw [State.busStep_nil]; rfl, Nat.le_refl 0, by simp, by simp, by simp [FailsLast]⟩

theorem effects_raise {α : Type} {e : Cause} (he : ∀ a, e ≠ .transportError a) : Effects P Q 0 (raise e : Op α) := fun s =>
  ⟨[], [], by rw [State.busStep_nil]; rfl, Nat.le_refl 0, by simp, by simp, .inl ⟨by simp, he⟩⟩

theorem effects_ensure (ok : Bool) {e : Cause} (he : ∀ a, e ≠ .transportError a) : Effects P Q 0 (ensure ok e) := by
  unfold ensure
  split
  · exact effects_pure ()
  · exact effects_raise he

/-- A sequence uses at most the sum of what its parts use; the second part is judged on what the first returned. -/
theorem effects_bind_of {α β : Type} {m : Op α} {f : α → Op β} {n k : Nat} (hm : Effects P Q n m)
    (hf : ∀ a s t, m s = .ok a t → Effects P Q k (f a)) : Effects P Q (n + k) (m >>= f) := by
  intro s
  obtain ⟨T, L, he, hl, hP, hQ, hF⟩ := hm s
  cases h : m s with
  | ok a s' =>
    obtain ⟨U, K, he', hl', hP', hQ', hF'⟩ := hf a s s' h s'
    have hs : s' = s.busStep T L := by rw [h] at he; exact he
    refine ⟨T ++ U, L ++ K, ?_, ?_, ?_, ?_, ?_⟩
    · rw [op_bind_ok h, he', hs, State.busStep_busStep]
    · rw [List.length_append]; omega
    · simp only [List.mem_append]; rintro e (hm | hm); exacts [hP e hm, hP' e hm]
    · simp only [List.mem_append]; rintro e (hm | hm); exacts [hQ e hm, hQ' e hm]
    · rw [op_bind_ok h]
      rw [h] at hF
      have hT : ∀ x ∈ T, x.failed = false := hF
      cases h' : f a s' with
      | ok b u =>
        rw [h'] at hF'
        have hU : ∀ x ∈ U, x.failed = false := hF'
        show ∀ x ∈ T ++ U, x.failed = false
        simp only [List.mem_append]; rintro x (hx | hx); exacts [hT x hx, hU x hx]
      | error e u =>
        rw [h'] at hF'
        rcases hF' with ⟨hU, hne⟩ | ⟨V, b, rfl, hV, hb⟩
        · refine .inl ⟨?_, hne⟩
          simp only [List.mem_append]; rintro x (hx | hx); exacts [hT x hx, hU x hx]
        · refine .inr ⟨T ++ V, b, by rw [List.append_assoc], ?_, hb⟩
          simp only [List.mem_append]; rintro x (hx | hx); exacts [hT x hx, hV x hx]
  | error e s' =>
    rw [h] at he hF
    exact ⟨T, L, by rw [op_bind_error h]; exact he, by omega, hP, hQ, by rw [op_bind_error h]; exact hF⟩

theorem effects_bind {α β : Type} {m : Op α} {f : α → Op β} {n k : Nat} (hm : Effects P Q n m)
    (hf : ∀ a, Effects P Q k (f a)) : Effects P Q (n + k) (m >>= f) := effects_bind_of hm fun a _ _ _ => hf a

theorem effects_regRead (c : Cfg) {a : Addr} (hr : ∀ v, P (.read a v)) (hf : P (.fail a)) :
    Effects P Q 1 (regRead c a) := by
  intro s
  rcases regRead_cases c a s with ⟨v, h⟩ | h
  · refine ⟨[.read a v], [], by rw [h]; exact s.ran_eq_busStep _, Nat.le_refl 1, by simpa using hr v, by simp, ?_⟩
    rw [h]; simp [FailsLast, TraceEntry.failed]
  · refine ⟨[.fail a], [], by rw [h]; exact s.ran_eq_busStep _, Nat.le_refl 1, by simpa using hf, by simp, ?_⟩
    rw [h]; exact .inr ⟨[], a, rfl, by simp, rfl⟩

theorem effects_regWrite (c : Cfg) {a : Addr} {v : Byte} (hw : P (.write a v)) (hf : P (.fail a)) :
    Effects P Q 1 (regWrite c a v) := by
  intro s
  rcases regWrite_cases c a v s with h | h
  · refine ⟨[.write a v], [], by rw [h]; exact s.ran_eq_busStep _, Nat.le_refl 1, by simpa using hw, by simp, ?_⟩
    rw [h]; simp [FailsLast, TraceEntry.failed]
  · refine ⟨[.fail a], [], by rw [h]; exact s.ran_eq_busStep _, Nat.le_refl 1, by simpa using hf, by simp, ?_⟩
    rw [h]; exact .inr ⟨[], a, rfl, by simp, rfl⟩

theorem effects_setBits (c : Cfg) {a : Addr} {m : Byte} (hr : ∀ v, P (.read a v)) (hw : ∀ v, P (.write a v))
    (hf : P (.fail a)) : Effects P Q 2 (setBits c a m) :=
  effects_bind (effects_regRead c hr hf) fun _ => effects_regWrite c (hw _) hf

theorem effects_clearBits (c : Cfg) {a : Addr} {m : Byte} (hr : ∀ v, P (.read a v)) (hw : ∀ v, P (.write a v))
    (hf : P (.fail a)) : Effects P Q 2 (clearBits c a m) :=
  effects_bind (effects_regRead c hr hf) fun _ => effects_regWrite c (hw _) hf

theorem effects_logEntry {e : LogEntry} (he : Q e) : Effects P Q 0 (logEntry e) := fun s =>
  ⟨[], [e], by simp [logEntry, endState, State.busStep], Nat.le_refl 0, by simp, by simpa using he, by simp [FailsLast, logEntry]⟩

theorem effects_checkCard (h : Handle) : Effects P Q 0 (checkCard h) := by
  intro s
  refine ⟨[], [], ?_, Nat.le_refl 0, by simp, by simp, ?_⟩
  · rw [State.busStep_nil]; unfold checkCard
    split <;> rfl
  · unfold checkCard
    split
    · simp [FailsLast]
    · exact .inl ⟨by simp, by intro a; simp⟩

theorem effects_markingWrite {α : Type} {n : Nat} {m : Op α} (isPartial : Bool) (h : Effects P Q n m) :
    Effects P Q n (markingWrite isPartial m) := by
  intro s
  obtain ⟨T, L, he, hl, hP, hQ, hF⟩ := h s
  refine ⟨T, L, ?_, hl, hP, hQ, ?_⟩
  · rw [← he]; unfold markingWrite
    cases m s <;> rfl
  · unfold markingWrite
    cases hm : m s with
    | ok a s' => rw [hm] at hF; exact hF
    | error e s' =>
      rw [hm] at hF
      have : (e.markWrite isPartial).cause = e.cause := by unfold Err.markWrite; split <;> rfl
      simpa [FailsLast, this] using hF

/-! ## Reads and writes of the register map -/

theorem own_read (c : Cfg) {a : Addr} (h : a ∈ c.regMap.all) : Effects (ownEntry c) Q 1 (regRead c a) :=
  effects_regRead c (fun _ => h) h

theorem own_write (c : Cfg) {a : Addr} {v : Byte} (h : a ∈ c.regMap.all) (hw : ownEntry c (.write a v)) :
    Effects (ownEntry c) Q 1 (regWrite c a v) := effects_regWrite c hw h

theorem own_setBits (c : Cfg) {a : Addr} {m : Byte} (h : a ∈ c.regMap.all) (hw : ∀ v, ownEntry c (.write a v)) :
    Effects (ownEntry c) Q 2 (setBits c a m) := effects_setBits c (fun _ => h) hw h

theorem own_clearBits (c : Cfg) {a : Addr} {m : Byte} (h : a ∈ c.regMap.all) (hw : ∀ v, ownEntry c (.write a v)) :
    Effects (ownEntry c) Q 2 (clearBits c a m) := effects_clearBits c (fun _ => h) hw h

theorem effects_loadFifo (c : Cfg) : ∀ bs : List Byte, Effects (ownEntry c) Q bs.length (loadFifo c bs)
  | [] => effects_pure ()
  | b :: bs => effects_mono (effects_bind (own_write c (by simp [RegMap.all]) (by simp [ownEntry]))
      fun _ => effects_loadFifo c bs) (by rw [List.length_cons]; omega)

theorem effects_drainFifo (c : Cfg) : ∀ n : Nat, Effects (ownEntry c) Q n (drainFifo c n)
  | 0 => effects_pure []
  | n + 1 => effects_mono (effects_bind (own_read c (by simp [RegMap.all]))
      fun _ => effects_bind (effects_drainFifo c n) fun _ => effects_pure _) (by omega)

/-! ## The exchange and the checksum -/

theorem effects_startSend (c : Cfg) (cmd : ChipCommand) : Effects (ownEntry c) Q 2 (startSend c cmd) := by
  cases cmd
  case transceive => exact own_setBits c (by simp [RegMap.all]) (by simp [ownEntry])
  all_goals exact effects_mono (effects_pure ()) (by omega)

theorem effects_sendFrame (c : Cfg) (cmd : ChipCommand) (payload : List Byte) (framing : Nat) :
    Effects (ownEntry c) Q (10 + payload.length) (sendFrame c cmd payload framing) :=
  effects_mono (effects_bind (own_write c (by simp [RegMap.all]) (by simp [ownEntry])) fun _ =>
    effects_bind (own_write c (by simp [RegMap.all]) (by simp [ownEntry])) fun _ =>
    effects_bind (own_clearBits c (by simp [RegMap.all]) (by simp [ownEntry])) fun _ =>
    effects_bind (own_setBits c (by simp [RegMap.all]) (by simp [ownEntry])) fun _ =>
    effects_bind (own_write c (by simp [RegMap.all]) (by simp [ownEntry])) fun _ =>
    effects_bind (effects_loadFifo c payload) fun _ =>
    effects_bind (own_write c (by simp [RegMap.all]) (by simp [ownEntry])) fun _ => effects_startSend c cmd) (by omega)

theorem effects_pollIrq (c : Cfg) (waitIrq : Byte) :
    ∀ (budget : Nat) (irq : Byte) (polls : Nat), Effects (ownEntry c) Q budget (pollIrq c waitIrq budget irq polls)
  | 0, _, _ => effects_pure _
  | budget + 1, _, polls => by
    refine effects_mono (effects_bind (k := budget) (own_read c (by simp [RegMap.all])) fun irq => ?_) (by omega)
    split
    · exact effects_mono (effects_pure _) (by omega)
    · exact effects_pollIrq c waitIrq budget irq (polls + 1)

theorem effects_checkFrame (c : Cfg) (p : Poll) : Effects (ownEntry c) Q 3 (checkFrame c p) :=
  effects_mono (effects_bind (own_clearBits c (by simp [RegMap.all]) (by simp [ownEntry])) fun _ =>
    effects_bind (effects_ensure _ (by intro a; simp)) fun _ =>
    effects_bind (own_read c (by simp [RegMap.all])) fun _ => effects_ensure _ (by intro a; simp)) (by omega)

theorem effects_readResponse (c : Cfg) (status : Status) :
    Effects (ownEntry c) Q (2 + c.maxLen) (readResponse c status) :=
  effects_mono (effects_bind (own_read c (by simp [RegMap.all])) fun n =>
    effects_bind (own_read c (by simp [RegMap.all])) fun _ =>
    effects_bind (effects_mono (effects_drainFifo c (drainCount c n.toNat))
      (show _ ≤ c.maxLen by unfold drainCount; omega)) fun _ => effects_pure _) (by omega)

theorem effects_collectResponse (c : Cfg) (cmd : ChipCommand) (status : Status) :
    Effects (ownEntry c) Q (2 + c.maxLen) (collectResponse c cmd status) := by
  cases cmd
  case transceive => exact effects_readResponse c status
  all_goals exact effects_mono (effects_pure _) (by omega)

/-- TRANSCEIVE ends within its transaction bound (R166) and logs nothing. -/
theorem effects_transceive (c : Cfg) (cmd : ChipCommand) (payload : List Byte) (framing : Nat) :
    Effects (ownEntry c) Q (15 + payload.length + c.trxBudget + c.maxLen) (transceive c cmd payload framing) :=
  effects_mono (effects_bind (effects_sendFrame c cmd payload framing) fun _ =>
    effects_bind (effects_pollIrq c _ c.trxBudget 0#8 0) fun p => effects_bind (effects_checkFrame c p) fun _ =>
    effects_collectResponse c cmd _) (by omega)

theorem effects_pollCrc (c : Cfg) : ∀ budget : Nat, Effects (ownEntry c) Q budget (pollCrc c budget)
  | 0 => effects_pure false
  | budget + 1 => by
    refine effects_mono (effects_bind (k := budget) (own_read c (by simp [RegMap.all])) fun div => ?_) (by omega)
    split
    · exact effects_mono (effects_pure _) (by omega)
    · exact effects_pollCrc c budget

theorem effects_noteExhaustion (done : Bool) (bytes : List Byte) : Effects P crcEntry 0 (noteExhaustion done bytes) := by
  unfold noteExhaustion
  split
  · exact effects_pure ()
  · exact effects_logEntry ⟨bytes, rfl⟩

/-- CRC16 ends within its transaction bound (R190, R441) and logs at most an exhausted budget (R193). -/
theorem effects_crc16 (c : Cfg) (bytes : List Byte) :
    Effects (ownEntry c) crcEntry (7 + bytes.length + c.crcBudget) (crc16 c bytes) :=
  effects_mono (effects_bind
    (effects_bind (own_clearBits c (by simp [RegMap.all]) (by simp [ownEntry])) fun _ =>
      effects_bind (own_setBits c (by simp [RegMap.all]) (by simp [ownEntry])) fun _ =>
      effects_bind (effects_loadFifo c bytes) fun _ => own_write c (by simp [RegMap.all]) (by simp [ownEntry])) fun _ =>
    effects_bind (effects_pollCrc c c.crcBudget) fun _ => effects_bind (effects_noteExhaustion _ bytes) fun _ =>
    effects_bind (own_read c (by simp [RegMap.all])) fun _ =>
    effects_bind (own_read c (by simp [RegMap.all])) fun _ => effects_pure _)
    (by omega)

theorem effects_withCrc (c : Cfg) (x : List Byte) :
    Effects (ownEntry c) crcEntry (7 + x.length + c.crcBudget) (withCrc c x) :=
  effects_bind (k := 0) (effects_crc16 c x) fun _ => effects_pure _

/-- The frame with its checksum is two bytes longer. -/
theorem withCrc_returns {c : Cfg} {x f : List Byte} {s t : State} (h : withCrc c x s = .ok f t) :
    f.length = x.length + 2 := by
  obtain ⟨crc, s', _, h⟩ := op_bind_returns h
  rw [op_pure] at h
  cases h
  simp

/-! ## The card operations -/

/-- A framed exchange with a body of `n` bytes uses at most this many transactions (R441). -/
def framedBound (c : Cfg) (n : Nat) : Nat := (7 + n + c.crcBudget) + (15 + (n + 2) + c.trxBudget + c.maxLen)

/-- A checksum, then the exchange of the frame it completes, then anything that uses no bus. -/
theorem effects_framed {β : Type} (c : Cfg) (x : List Byte) (f : Response → Op β)
    (hf : ∀ r, Effects (ownEntry c) crcEntry 0 (f r)) :
    Effects (ownEntry c) crcEntry (framedBound c x.length)
      (withCrc c x >>= fun fr => transceive c .transceive fr 0 >>= f) :=
  effects_bind_of (effects_withCrc c x) fun fr s t h =>
    effects_mono (effects_bind (effects_transceive c .transceive fr 0) hf) (by rw [withCrc_returns h]; omega)

theorem effects_request (c : Cfg) (mode : Byte) :
    Effects (ownEntry c) Q (16 + c.trxBudget + c.maxLen) (request c mode) :=
  effects_mono (effects_bind (effects_transceive c .transceive [mode] c.reqFramingBits) fun r =>
    effects_bind (effects_ensure _ (by intro a; simp)) fun _ => effects_pure r)
    (by rw [List.length_singleton]; omega)

theorem effects_getUid (c : Cfg) :
    Effects (ownEntry c) Q (15 + c.anticollCmd.length + c.trxBudget + c.maxLen) (getUid c) :=
  effects_mono (effects_bind (effects_transceive c .transceive c.anticollCmd 0) fun _ =>
    effects_bind (effects_ensure _ (by intro a; simp)) fun _ =>
    effects_bind (effects_ensure _ (by intro a; simp)) fun _ => effects_pure _)
    (by omega)

theorem effects_selectExchange (c : Cfg) (u : Uid) (bcc : Byte) :
    Effects (ownEntry c) crcEntry (framedBound c 7) (selectExchange c u bcc) :=
  effects_framed c (selectBody c u bcc) _ fun _ =>
    effects_bind (n := 0) (k := 0) (effects_ensure _ (by intro a; simp)) fun _ => effects_pure _

theorem effects_authExchange (c : Cfg) (keyMode b : Byte) (k : Key) (u : Uid) :
    Effects (ownEntry c) Q (28 + c.trxBudget + c.maxLen) (authExchange c keyMode b k u) :=
  effects_mono (effects_bind (effects_transceive c .authent (authPayload keyMode b k u) 0) fun _ =>
    effects_bind (effects_ensure _ (by intro a; simp)) fun _ =>
    effects_bind (own_read c (by simp [RegMap.all])) fun _ => effects_ensure _ (by intro a; simp))
    (by simp only [authPayload, Key.toList, Uid.toList, List.length_append, List.length_cons, List.length_nil]; omega)

theorem effects_readExchange (c : Cfg) (b : Byte) :
    Effects (ownEntry c) crcEntry (framedBound c 2) (readExchange c b) :=
  effects_framed c [c.cardCmd.read, b] _ fun _ =>
    effects_bind (n := 0) (k := 0) (effects_ensure _ (by intro a; simp)) fun _ => effects_pure _

theorem effects_writePhase (c : Cfg) (phase : WritePhase) (body : List Byte) :
    Effects (ownEntry c) crcEntry (framedBound c body.length) (writePhase c phase body) :=
  effects_framed c body _ fun _ => effects_ensure _ (by intro a; simp)

theorem effects_writeExchange (c : Cfg) (b : Byte) (data : List Byte) :
    Effects (ownEntry c) crcEntry (framedBound c 2 + framedBound c data.length) (writeExchange c b data) :=
  effects_bind (effects_markingWrite _ (effects_writePhase c _ _)) fun _ =>
    effects_markingWrite _ (effects_writePhase c _ _)

theorem effects_checkAddr (a : Int) : Effects P Q 0 (checkAddr a) :=
  effects_bind (n := 0) (k := 0) (effects_ensure _ (by intro a; simp)) fun _ => effects_pure _

theorem effects_checkPayload (c : Cfg) (bs : List Byte) : Effects P Q 0 (checkPayload c bs) :=
  effects_ensure _ (by intro a; simp)

theorem effects_checkBlock (c : Cfg) (b : Int) : Effects P Q 0 (checkBlock c b) :=
  effects_bind (n := 0) (k := 0) (effects_ensure _ (by intro a; simp)) fun _ => effects_pure _

theorem effects_checkOffset (c : Cfg) (off : Int) : Effects P Q 0 (checkOffset c off) :=
  effects_bind (n := 0) (k := 0) (effects_ensure _ (by intro a; simp)) fun _ => effects_pure _

theorem effects_checkValue (v : Int) : Effects P Q 0 (checkValue v) := effects_ensure _ (by intro a; simp)

theorem effects_checkData (c : Cfg) (data : List Byte) : Effects P Q 0 (checkData c data) :=
  effects_ensure _ (by intro a; simp)

theorem effects_select (c : Cfg) (h : Handle) : Effects (ownEntry c) crcEntry (framedBound c 7) (select c h) :=
  effects_mono (effects_bind (effects_checkCard h) fun q => effects_selectExchange c q.uid q.bcc) (by omega)

theorem effects_readBlock (c : Cfg) (h : Handle) (b : Int) :
    Effects (ownEntry c) crcEntry (framedBound c 2) (readBlock c h b) :=
  effects_mono (effects_bind (effects_checkCard h) fun _ => effects_bind (effects_checkBlock c b) fun blk =>
    effects_readExchange c blk) (by omega)

/-- WRITE_BLOCK ends within its transaction bound (R441). -/
theorem effects_writeBlock (c : Cfg) (h : Handle) (b : Int) (data : List Byte) :
    Effects (ownEntry c) crcEntry (framedBound c 2 + framedBound c c.blockSize) (writeBlock c h b data) :=
  effects_mono (effects_bind (effects_checkCard h) fun _ => effects_bind (effects_checkBlock c b) fun blk =>
    effects_bind_of (effects_checkData c data) fun _ s t hd => by
      have hd : data.length = c.blockSize := of_decide_eq_true (ensure_returns hd).1
      exact effects_mono (k := framedBound c 2 + framedBound c c.blockSize) (effects_writeExchange c blk data)
        (by rw [hd])) (by omega)

theorem effects_readStr (c : Cfg) (h : Handle) (b : Int) :
    Effects (ownEntry c) crcEntry (framedBound c 2) (readStr c h b) :=
  effects_bind (k := 0) (effects_readBlock c h b) fun _ => effects_pure _

theorem effects_writeStr (c : Cfg) (h : Handle) (b : Int) (str : List Byte) :
    Effects (ownEntry c) crcEntry (framedBound c 2 + framedBound c c.blockSize) (writeStr c h b str) :=
  effects_writeBlock c h b _

theorem effects_readInt32 (c : Cfg) (h : Handle) (b off : Int) (signed : Bool) :
    Effects (ownEntry c) crcEntry (framedBound c 2) (readInt32 c h b off signed) :=
  effects_mono (effects_bind (effects_checkCard h) fun _ => effects_bind (effects_checkBlock c b) fun _ =>
    effects_bind (effects_checkOffset c off) fun _ => effects_bind (effects_readBlock c h b) fun _ =>
    effects_pure _) (by omega)

theorem effects_writeInt32 (c : Cfg) (h : Handle) (b off v : Int) :
    Effects (ownEntry c) crcEntry (framedBound c 2 + (framedBound c 2 + framedBound c c.blockSize))
      (writeInt32 c h b off v) :=
  effects_mono (effects_bind (effects_checkCard h) fun _ => effects_bind (effects_checkBlock c b) fun _ =>
    effects_bind (effects_checkOffset c off) fun _ => effects_bind (effects_checkValue v) fun _ =>
    effects_bind (effects_readBlock c h b) fun _ => effects_writeBlock c h b _) (by omega)

theorem effects_writeCommand (c : Cfg) (cmd : ChipCommand) : Effects (ownEntry c) Q 1 (writeCommand c cmd) :=
  effects_bind (k := 0) (own_write c (by simp [RegMap.all]) (by simp [ownEntry])) fun _ => effects_pure _

end Sys2Proof.Machine
end

