-- ==== Sys2Proof/Laws/Exchange.lean ====
section
/-!
SUPPORT. What TRANSCEIVE and CRC16 return when the environment's answers are given (spec/42_frame_transceiver.md R150,
spec/43_crc_engine.md R190), and what any response of TRANSCEIVE looks like.
-/

namespace Sys2Proof.Machine

/-! ## The steps of TRANSCEIVE -/

theorem sendFrame_answered {c : Cfg} {cmd : ChipCommand} {payload : List Byte} {framing : Nat} {x : Exchange} {s : State}
    (h : s.Answers (x.sent c cmd payload framing)) :
    sendFrame c cmd payload framing s = .ok () (s.ran (x.sent c cmd payload framing)) := by
  unfold Exchange.sent at h ⊢
  simp only [State.answers_append] at h
  obtain ⟨⟨⟨⟨⟨⟨h1, h2⟩, h3⟩, h4⟩, h5⟩, h6⟩, h7⟩ := h
  obtain ⟨h1, h1'⟩ := (State.answers_append s [_] [_]).mp h1
  simp only [State.ran_append] at *
  show (regWrite c _ _ >>= fun _ => regWrite c _ _ >>= fun _ => clearBits c _ _ >>= fun _ => setBits c _ _ >>= fun _ =>
    regWrite c _ _ >>= fun _ => loadFifo c payload >>= fun _ => regWrite c _ _ >>= fun _ => startSend c cmd) s = _
  rw [op_bind_ok (regWrite_answered h1), op_bind_ok (regWrite_answered h1')]
  rw [← State.ran_append]
  simp only [List.cons_append, List.nil_append]
  rw [op_bind_ok (clearBits_answered h2), op_bind_ok (setBits_answered h3), op_bind_ok (regWrite_answered h4),
    op_bind_ok (loadFifo_answered h5), op_bind_ok (regWrite_answered h6)]
  cases cmd
  case transceive => exact setBits_answered h7
  all_goals exact (congrArg _ (State.ran_nil _).symm)

theorem pollIrq_done {c : Cfg} {waitIrq irq irq0 : Byte} {waits : List Byte} {budget polls : Nat} {s : State}
    (hw : ∀ v ∈ waits, irqDone c waitIrq v = false) (hd : irqDone c waitIrq irq = true) (hb : waits.length < budget)
    (h : s.Answers (pollTrace c (waits ++ [irq]))) :
    pollIrq c waitIrq budget irq0 polls s =
      .ok { irq := irq, polls := polls + waits.length + 1, done := true } (s.ran (pollTrace c (waits ++ [irq]))) := by
  induction waits generalizing s budget polls irq0 with
  | nil =>
    cases budget with
    | zero => exact absurd hb (by simp)
    | succ n =>
      show (regRead c c.regMap.irq >>= fun v => _) s = _
      rw [op_bind_ok (regRead_answered h), if_pos hd]
      rfl
  | cons w ws ih =>
    cases budget with
    | zero => exact absurd hb (by simp)
    | succ n =>
      obtain ⟨h1, h2⟩ := (State.answers_append s [.read c.regMap.irq w] (pollTrace c (ws ++ [irq]))).mp h
      show (regRead c c.regMap.irq >>= fun v => _) s = _
      rw [op_bind_ok (regRead_answered h1), if_neg (by rw [hw w List.mem_cons_self]; decide)]
      rw [ih (fun v hv => hw v (List.mem_cons_of_mem _ hv)) (by simpa using hb) h2, ← State.ran_append]
      simp [pollTrace, Nat.add_assoc, Nat.add_comm]

theorem pollIrq_exhausted {c : Cfg} {waitIrq irq0 : Byte} {values : List Byte} {polls : Nat} {s : State}
    (hw : ∀ v ∈ values, irqDone c waitIrq v = false) (h : s.Answers (pollTrace c values)) :
    pollIrq c waitIrq values.length irq0 polls s =
      .ok { irq := values.getLastD irq0, polls := polls + values.length, done := false }
        (s.ran (pollTrace c values)) := by
  induction values generalizing s polls irq0 with
  | nil => simp [pollIrq, pollTrace]
  | cons w ws ih =>
    obtain ⟨h1, h2⟩ := (State.answers_append s [.read c.regMap.irq w] (pollTrace c ws)).mp h
    show (regRead c c.regMap.irq >>= fun v => _) s = _
    rw [op_bind_ok (regRead_answered h1), if_neg (by rw [hw w List.mem_cons_self]; decide)]
    rw [ih (fun v hv => hw v (List.mem_cons_of_mem _ hv)) h2, ← State.ran_append]
    rw [List.getLastD_cons]
    simp [pollTrace, Nat.add_assoc, Nat.add_comm]

theorem checkFrame_answered {c : Cfg} {x : Exchange} {p : Poll} {s : State} (hd : p.done = true)
    (h : s.Answers (x.checked c)) :
    checkFrame c p s =
      if frameFailed c x.errv then .error { cause := .frameError x.errv, mark := .none } (s.ran (x.checked c))
      else .ok () (s.ran (x.checked c)) := by
  obtain ⟨h1, h2⟩ := (State.answers_append s _ _).mp h
  show (clearBits c _ _ >>= fun _ => ensure _ _ >>= fun _ => regRead c _ >>= fun errv => ensure _ _) s = _
  rw [op_bind_ok (clearBits_answered h1), op_bind_ok (ensure_true hd), op_bind_ok (regRead_answered h2), ← State.ran_append]
  cases frameFailed c x.errv
  · exact ensure_true rfl
  · exact ensure_false rfl

theorem checkFrame_timeout {c : Cfg} {x : Exchange} {p : Poll} {s : State} (hd : p.done = false)
    (h : s.Answers (clearTrace c.regMap.bitFraming x.framing1 c.bits.startSend)) :
    checkFrame c p s =
      .error { cause := .timeout p.irq p.polls, mark := .none }
        (s.ran (clearTrace c.regMap.bitFraming x.framing1 c.bits.startSend)) := by
  show (clearBits c _ _ >>= fun _ => ensure _ _ >>= fun _ => regRead c _ >>= fun errv => ensure _ _) s = _
  rw [op_bind_ok (clearBits_answered h), op_bind_error (ensure_false hd)]

theorem collectResponse_answered {c : Cfg} {cmd : ChipCommand} {x : Exchange} {status : Status} {s : State}
    (hb : cmd = .transceive → x.bytes.length = drainCount c x.level.toNat) (h : s.Answers (x.collected c cmd))
    (hs : status = x.status c cmd) :
    collectResponse c cmd status s = .ok (x.response c cmd) (s.ran (x.collected c cmd)) := by
  subst hs
  cases cmd
  case transceive =>
    obtain ⟨h1, h2⟩ := (State.answers_append s [_, _] _).mp h
    obtain ⟨h1, h1'⟩ := (State.answers_append s [.read c.regMap.fifoLevel x.level] [.read c.regMap.control x.control]).mp h1
    show (regRead c _ >>= fun n => regRead c _ >>= fun control => drainFifo c (drainCount c n.toNat) >>= fun bytes => pure _) s = _
    rw [op_bind_ok (regRead_answered h1), op_bind_ok (regRead_answered h1'), ← State.ran_append, ← hb rfl]
    simp only [List.cons_append, List.nil_append]
    rw [op_bind_ok (drainFifo_answered h2), op_pure, ← State.ran_append]
    rfl
  all_goals exact (congrArg _ (State.ran_nil _).symm)

/-! ## TRANSCEIVE -/

theorem noneDone_mem {c : Cfg} {cmd : ChipCommand} {values : List Byte} (h : noneDone c cmd values = true) :
    ∀ v ∈ values, irqDone c (Cfg.irqMask c cmd).waitIrq v = false := by
  simpa [noneDone] using h

/-- A TRANSCEIVE whose poll completes and whose error register shows an error bit raises FrameError (R158). -/
theorem transceive_frameError {c : Cfg} {cmd : ChipCommand} {payload : List Byte} {framing : Nat} {x : Exchange}
    {s : State} (hp : x.polledOk c cmd = true) (hf : frameFailed c x.errv = true)
    (h : s.Answers (x.errorTrace c cmd payload framing)) :
    transceive c cmd payload framing s =
      .error { cause := .frameError x.errv, mark := .none } (s.ran (x.errorTrace c cmd payload framing)) := by
  unfold Exchange.errorTrace at h ⊢
  simp only [State.answers_append, State.ran_append] at h
  simp only [Exchange.polledOk, Bool.and_eq_true, decide_eq_true_eq] at hp
  show (sendFrame c cmd payload framing >>= fun _ => pollIrq c _ c.trxBudget 0#8 0 >>= fun p => checkFrame c p >>= fun _ =>
    collectResponse c cmd _) s = _
  rw [op_bind_ok (sendFrame_answered h.1.1), op_bind_ok (pollIrq_done (noneDone_mem hp.1.1) hp.1.2 hp.2 h.1.2)]
  rw [op_bind_error ((checkFrame_answered rfl h.2).trans (if_pos hf))]
  simp only [← State.ran_append, List.append_assoc]

/-- A TRANSCEIVE none of whose polls completes raises Timeout after its whole budget (R156). -/
theorem transceive_timeout {c : Cfg} {cmd : ChipCommand} {payload : List Byte} {framing : Nat} {x : Exchange}
    {polls : List Byte} {s : State} (hp : noneDone c cmd polls = true) (hn : polls.length = c.trxBudget)
    (h : s.Answers (x.timeoutTrace c cmd payload framing polls)) :
    transceive c cmd payload framing s =
      .error { cause := .timeout (polls.getLastD 0#8) c.trxBudget, mark := .none }
        (s.ran (x.timeoutTrace c cmd payload framing polls)) := by
  unfold Exchange.timeoutTrace at h ⊢
  simp only [State.answers_append, State.ran_append] at h
  show (sendFrame c cmd payload framing >>= fun _ => pollIrq c _ c.trxBudget 0#8 0 >>= fun p => checkFrame c p >>= fun _ =>
    collectResponse c cmd _) s = _
  rw [op_bind_ok (sendFrame_answered h.1.1), ← hn, op_bind_ok (pollIrq_exhausted (noneDone_mem hp) h.1.2)]
  rw [op_bind_error (checkFrame_timeout rfl h.2), ← State.ran_append, ← State.ran_append]
  simp

/-- A TRANSCEIVE whose exchange completes returns its Response, and its history is the exchange's (R150). -/
theorem transceive_answered {c : Cfg} {cmd : ChipCommand} {payload : List Byte} {framing : Nat} {x : Exchange}
    {s : State} (hx : x.completes c cmd = true) (h : s.Answers (x.trace c cmd payload framing)) :
    transceive c cmd payload framing s = .ok (x.response c cmd) (s.ran (x.trace c cmd payload framing)) := by
  unfold Exchange.trace at h ⊢
  simp only [State.answers_append, State.ran_append] at h
  simp only [Exchange.completes, Exchange.polledOk, Bool.and_eq_true, decide_eq_true_eq] at hx
  obtain ⟨⟨⟨⟨hw, hd⟩, hb⟩, hf⟩, hl⟩ := hx
  have hf' : frameFailed c x.errv = false := by simpa using hf
  show (sendFrame c cmd payload framing >>= fun _ => pollIrq c _ c.trxBudget 0#8 0 >>= fun p => checkFrame c p >>= fun _ =>
    collectResponse c cmd _) s = _
  rw [op_bind_ok (sendFrame_answered h.1.1.1), op_bind_ok (pollIrq_done (noneDone_mem hw) hd hb h.1.1.2)]
  rw [op_bind_ok ((checkFrame_answered rfl h.1.2).trans (if_neg (by rw [hf']; decide)))]
  refine (collectResponse_answered (by intro hc; simpa [hc] using hl) h.2 rfl).trans ?_
  simp only [← State.ran_append, List.append_assoc]

/-! ## CRC16 -/

theorem pollCrc_done {c : Cfg} {v : Byte} {waits : List Byte} {budget : Nat} {s : State}
    (hw : ∀ v ∈ waits, crcDone c v = false) (hd : crcDone c v = true) (hb : waits.length < budget)
    (h : s.Answers ((waits ++ [v]).map (.read c.regMap.divIrq ·))) :
    pollCrc c budget s = .ok true (s.ran ((waits ++ [v]).map (.read c.regMap.divIrq ·))) := by
  induction waits generalizing s budget with
  | nil =>
    cases budget with
    | zero => exact absurd hb (by simp)
    | succ n =>
      show (regRead c c.regMap.divIrq >>= fun v => _) s = _
      rw [op_bind_ok (regRead_answered h), if_pos hd]
      rfl
  | cons w ws ih =>
    cases budget with
    | zero => exact absurd hb (by simp)
    | succ n =>
      obtain ⟨h1, h2⟩ := (State.answers_append s [.read c.regMap.divIrq w] _).mp h
      show (regRead c c.regMap.divIrq >>= fun v => _) s = _
      rw [op_bind_ok (regRead_answered h1), if_neg (by rw [hw w List.mem_cons_self]; decide)]
      rw [ih (fun v hv => hw v (List.mem_cons_of_mem _ hv)) (by simpa using hb) h2, ← State.ran_append]
      simp

theorem pollCrc_exhausted {c : Cfg} {waits : List Byte} {s : State} (hw : ∀ v ∈ waits, crcDone c v = false)
    (h : s.Answers (waits.map (.read c.regMap.divIrq ·))) :
    pollCrc c waits.length s = .ok false (s.ran (waits.map (.read c.regMap.divIrq ·))) := by
  induction waits generalizing s with
  | nil => simp [pollCrc]
  | cons w ws ih =>
    obtain ⟨h1, h2⟩ := (State.answers_append s [.read c.regMap.divIrq w] _).mp h
    show (regRead c c.regMap.divIrq >>= fun v => _) s = _
    rw [op_bind_ok (regRead_answered h1), if_neg (by rw [hw w List.mem_cons_self]; decide)]
    rw [ih (fun v hv => hw v (List.mem_cons_of_mem _ hv)) h2, ← State.ran_append]
    simp

/-- Log entries and bus transactions commute. -/
theorem State.busStep_ran (s : State) (T U : List TraceEntry) (L : List LogEntry) :
    (s.busStep T L).ran U = s.busStep (T ++ U) L := by
  simp [State.busStep, State.ran, Nat.add_assoc]

theorem noteExhaustion_false (bytes : List Byte) (s : State) :
    noteExhaustion false bytes s = .ok () (s.busStep [] [.crcBudgetExhausted bytes]) := by
  simp [noteExhaustion, logEntry, State.busStep]

/-- A log entry changes nothing of what the environment answers. -/
theorem State.answers_busStep_nil {s : State} {L : List LogEntry} {T : List TraceEntry} :
    (s.busStep [] L).Answers T ↔ s.Answers T := by
  simp [State.Answers]

/-- The transactions of the set-up of a CRC16. -/
def CrcRun.started (x : CrcRun) (c : Cfg) (bytes : List Byte) : List TraceEntry :=
  clearTrace c.regMap.divIrq x.div0 c.bits.divCrc ++ setTrace c.regMap.fifoLevel x.level0 c.bits.fifoFlush ++
    bytes.map (.write c.regMap.fifoData ·) ++ [.write c.regMap.cmd c.chipCmd.calcCRC]

theorem startCrc_answered {c : Cfg} {bytes : List Byte} {x : CrcRun} {s : State} (h : s.Answers (x.started c bytes)) :
    startCrc c bytes s = .ok () (s.ran (x.started c bytes)) := by
  unfold CrcRun.started at h ⊢
  simp only [State.answers_append, State.ran_append] at h
  obtain ⟨⟨⟨h1, h2⟩, h3⟩, h4⟩ := h
  show (clearBits c _ _ >>= fun _ => setBits c _ _ >>= fun _ => loadFifo c bytes >>= fun _ => regWrite c _ _) s = _
  rw [op_bind_ok (clearBits_answered h1), op_bind_ok (setBits_answered h2), op_bind_ok (loadFifo_answered h3),
    regWrite_answered h4]
  simp only [State.ran_append]

/-- The two result reads of a CRC16. -/
theorem crcReads_answered {c : Cfg} {lo hi : Byte} {s : State}
    (h : s.Answers [.read c.regMap.crcL lo, .read c.regMap.crcH hi]) :
    (regRead c c.regMap.crcL >>= fun lo => regRead c c.regMap.crcH >>= fun hi => pure (lo, hi)) s =
      .ok (lo, hi) (s.ran [.read c.regMap.crcL lo, .read c.regMap.crcH hi]) := by
  obtain ⟨h1, h2⟩ := (State.answers_append s [_] [_]).mp h
  rw [op_bind_ok (regRead_answered h1), op_bind_ok (regRead_answered h2), op_pure, ← State.ran_append]
  rfl

/-- A CRC16 whose answers are given returns the two result bytes; where the budget ran out it is logged (R190, R193). -/
theorem crc16_answered {c : Cfg} {bytes : List Byte} {x : CrcRun} {s : State} (hx : x.polledOk c = true)
    (h : s.Answers (x.trace c bytes)) :
    crc16 c bytes s = .ok (x.lo, x.hi) (s.busStep (x.trace c bytes) (x.logged bytes)) := by
  have ht : x.trace c bytes = x.started c bytes ++ (x.waits ++ x.done.toList).map (.read c.regMap.divIrq ·) ++
      [.read c.regMap.crcL x.lo, .read c.regMap.crcH x.hi] := rfl
  rw [ht] at h ⊢
  simp only [State.answers_append, State.ran_append] at h
  obtain ⟨⟨h1, h2⟩, h3⟩ := h
  simp only [CrcRun.polledOk, Bool.and_eq_true, List.all_eq_true, Bool.not_eq_true'] at hx
  obtain ⟨hw, hx⟩ := hx
  show (startCrc c bytes >>= fun _ => pollCrc c c.crcBudget >>= fun done => noteExhaustion done bytes >>= fun _ =>
    regRead c _ >>= fun lo => regRead c _ >>= fun hi => pure (lo, hi)) s = _
  rw [op_bind_ok (startCrc_answered h1)]
  cases hdone : x.done with
  | some v =>
    rw [hdone] at hx h2 h3
    simp only [Bool.and_eq_true, decide_eq_true_eq] at hx
    rw [op_bind_ok (pollCrc_done hw hx.1 hx.2 h2), op_bind_ok (rfl : noteExhaustion true bytes _ = .ok () _)]
    refine (crcReads_answered h3).trans ?_
    simp only [State.ran_eq_busStep, State.busStep_busStep, CrcRun.logged, hdone, Option.toList, List.append_assoc,
      List.append_nil]
  | none =>
    rw [hdone] at hx h2 h3
    simp only [decide_eq_true_eq, Option.toList, List.append_nil] at hx h2 h3
    rw [← hx, op_bind_ok (pollCrc_exhausted hw h2), op_bind_ok (noteExhaustion_false bytes _)]
    refine (crcReads_answered (State.answers_busStep_nil.mpr h3)).trans ?_
    simp only [State.ran_eq_busStep, State.busStep_busStep, CrcRun.logged, hdone, Option.toList, List.append_assoc,
      List.append_nil, List.nil_append]

theorem withCrc_answered {c : Cfg} {bytes : List Byte} {x : CrcRun} {s : State} (hx : x.polledOk c = true)
    (h : s.Answers (x.trace c bytes)) :
    withCrc c bytes s = .ok (x.frame bytes) (s.busStep (x.trace c bytes) (x.logged bytes)) := by
  show (crc16 c bytes >>= fun crc => pure (bytes ++ [crc.1, crc.2])) s = _
  rw [op_bind_ok (crc16_answered hx h), op_pure]
  rfl

/-- A framed exchange: the checksum, then the exchange of the frame it completes (R196). -/
theorem framed_answered {β : Type} {c : Cfg} {body : List Byte} {x : Framed} {s : State} {f : Response → Op β}
    (hx : x.completes c = true) (h : s.Answers (x.trace c body)) :
    (withCrc c body >>= fun fr => transceive c .transceive fr 0 >>= f) s =
      f (x.response c) (s.busStep (x.trace c body) (x.crc.logged body)) := by
  simp only [Framed.completes, Bool.and_eq_true] at hx
  obtain ⟨h1, h2⟩ := (State.answers_append s _ _).mp h
  have h2' := State.answers_congr (t := s.busStep (x.crc.trace c body) (x.crc.logged body)) rfl rfl rfl h2
  rw [op_bind_ok (withCrc_answered hx.1 h1), op_bind_ok (transceive_answered hx.2 h2'), State.busStep_ran]
  rfl

/-! ## Any response -/

/-- What the drain returns has the length asked for. -/
theorem drainFifo_length {c : Cfg} : ∀ {n : Nat} {bs : List Byte} {s t : State}, drainFifo c n s = .ok bs t → bs.length = n
  | 0, bs, s, t, h => by cases h; rfl
  | n + 1, bs, s, t, h => by
    obtain ⟨b, s', _, h⟩ := op_bind_returns h
    obtain ⟨bs', s'', h', h⟩ := op_bind_returns h
    cases h
    simp [drainFifo_length h']

/-- Every Response of a Transceive: the bits and the byte count come from one FIFO level and one last-byte count (R163,
R164), whatever the environment answers. -/
theorem readResponse_shape {c : Cfg} {status : Status} {r : Response} {s t : State}
    (h : readResponse c status s = .ok r t) :
    ∃ n control : Byte, r.status = status ∧ r.bits = bitCount n.toNat (control &&& c.bits.rxLastBits).toNat ∧
      r.bytes.length = drainCount c n.toNat := by
  obtain ⟨n, s1, _, h⟩ := op_bind_returns h
  obtain ⟨control, s2, _, h⟩ := op_bind_returns h
  obtain ⟨bytes, s3, h3, h⟩ := op_bind_returns h
  cases h
  exact ⟨n, control, rfl, rfl, drainFifo_length h3⟩

/-- Every Response TRANSCEIVE returns (R160 to R164). -/
theorem transceive_shape {c : Cfg} {cmd : ChipCommand} {payload : List Byte} {framing : Nat} {r : Response} {s t : State}
    (h : transceive c cmd payload framing s = .ok r t) :
    (cmd = .transceive ∧ ∃ n control : Byte, r.bits = bitCount n.toNat (control &&& c.bits.rxLastBits).toNat ∧
      r.bytes.length = drainCount c n.toNat) ∨
    (cmd ≠ .transceive ∧ r.bytes = [] ∧ r.bits = 0) := by
  obtain ⟨_, s1, _, h⟩ := op_bind_returns h
  obtain ⟨p, s2, _, h⟩ := op_bind_returns h
  obtain ⟨_, s3, _, h⟩ := op_bind_returns h
  cases cmd
  case transceive =>
    obtain ⟨n, control, _, hb, hl⟩ := readResponse_shape h
    exact .inl ⟨rfl, n, control, hb, hl⟩
  all_goals exact .inr ⟨by decide, by cases h; exact ⟨rfl, rfl⟩⟩

end Sys2Proof.Machine
end

