-- ==== Sys2Proof/Laws/Inversion.lean ====
section
/-!
SUPPORT. The converse of Laws/Exchange.lean: an operation that returned did so because the environment answered a history,
and its state is the one that history leaves. The configuration lets the transport fail, as spec/00_scope.md R7 sets it.
-/

namespace Sys2Proof.Machine

/-- From `s` the environment answered the transactions `T`, which lead to `t`. -/
def Heard (s : State) (T : List TraceEntry) (t : State) : Prop := s.Answers T ∧ t = s.ran T

theorem heard_nil (s : State) : Heard s [] s := ⟨State.answers_nil s, (State.ran_nil s).symm⟩

theorem heard_trans {s t u : State} {T U : List TraceEntry} (h1 : Heard s T t) (h2 : Heard t U u) :
    Heard s (T ++ U) u := by
  obtain ⟨h1, rfl⟩ := h1
  obtain ⟨h2, rfl⟩ := h2
  exact ⟨(State.answers_append s T U).mpr ⟨h1, h2⟩, (State.ran_append s T U).symm⟩

/-! ## One transaction -/

theorem regRead_returns {c : Cfg} (hc : c.transportMayFail = true) {a : Addr} {v : Byte} {s t : State}
    (h : regRead c a s = .ok v t) : Heard s [.read a v] t := by
  unfold regRead at h
  split at h
  · cases h
  · rename_i hf
    have hf' : (s.draw a).fails = false := by simpa [Cfg.transportFails, hc] using hf
    cases h
    refine ⟨(State.answers_cons s _ []).mpr ⟨?_, State.answers_nil _⟩, State.transact_eq_ran s _⟩
    simp [entryAnswered, hf']

theorem regWrite_returns {c : Cfg} (hc : c.transportMayFail = true) {a : Addr} {v : Byte} {s t : State}
    (h : regWrite c a v s = .ok () t) : Heard s [.write a v] t := by
  unfold regWrite at h
  split at h
  · cases h
  · rename_i hf
    have hf' : (s.draw a).fails = false := by simpa [Cfg.transportFails, hc] using hf
    cases h
    refine ⟨(State.answers_cons s _ []).mpr ⟨?_, State.answers_nil _⟩, State.transact_eq_ran s _⟩
    simp [entryAnswered, hf']

theorem setBits_returns {c : Cfg} (hc : c.transportMayFail = true) {a : Addr} {m : Byte} {s t : State}
    (h : setBits c a m s = .ok () t) : ∃ v, Heard s (setTrace a v m) t := by
  obtain ⟨v, s1, h1, h2⟩ := op_bind_returns h
  exact ⟨v, heard_trans (regRead_returns hc h1) (regWrite_returns hc h2)⟩

theorem clearBits_returns {c : Cfg} (hc : c.transportMayFail = true) {a : Addr} {m : Byte} {s t : State}
    (h : clearBits c a m s = .ok () t) : ∃ v, Heard s (clearTrace a v m) t := by
  obtain ⟨v, s1, h1, h2⟩ := op_bind_returns h
  exact ⟨v, heard_trans (regRead_returns hc h1) (regWrite_returns hc h2)⟩

theorem loadFifo_returns {c : Cfg} (hc : c.transportMayFail = true) {bs : List Byte} {s t : State}
    (h : loadFifo c bs s = .ok () t) : Heard s (bs.map (.write c.regMap.fifoData ·)) t := by
  induction bs generalizing s with
  | nil => cases h; exact heard_nil _
  | cons b bs ih =>
    obtain ⟨_, s1, h1, h2⟩ := op_bind_returns h
    exact heard_trans (regWrite_returns hc h1) (ih h2)

theorem drainFifo_returns {c : Cfg} (hc : c.transportMayFail = true) {n : Nat} {bs : List Byte} {s t : State}
    (h : drainFifo c n s = .ok bs t) : bs.length = n ∧ Heard s (bs.map (.read c.regMap.fifoData ·)) t := by
  induction n generalizing s bs with
  | zero => cases h; exact ⟨rfl, heard_nil _⟩
  | succ n ih =>
    obtain ⟨b, s1, h1, h2⟩ := op_bind_returns h
    obtain ⟨bs', s2, h2, h3⟩ := op_bind_returns h2
    cases h3
    obtain ⟨hl, h2⟩ := ih h2
    exact ⟨by simp [hl], heard_trans (regRead_returns hc h1) h2⟩

/-! ## TRANSCEIVE -/

theorem startSend_returns {c : Cfg} (hc : c.transportMayFail = true) {cmd : ChipCommand} {s t : State}
    (h : startSend c cmd s = .ok () t) :
    ∃ framing0, Heard s (if cmd = .transceive then setTrace c.regMap.bitFraming framing0 c.bits.startSend else []) t := by
  cases cmd
  case transceive => exact setBits_returns hc h
  all_goals
    cases h
    exact ⟨0#8, heard_nil s⟩

theorem sendFrame_returns {c : Cfg} (hc : c.transportMayFail = true) {cmd : ChipCommand} {payload : List Byte}
    {framing : Nat} {s t : State} (h : sendFrame c cmd payload framing s = .ok () t) :
    ∃ irq0 level0 framing0, ∀ x : Exchange, x.irq0 = irq0 → x.level0 = level0 → x.framing0 = framing0 →
      Heard s (x.sent c cmd payload framing) t := by
  obtain ⟨_, s1, h1, h⟩ := op_bind_returns h
  obtain ⟨_, s2, h2, h⟩ := op_bind_returns h
  obtain ⟨_, s3, h3, h⟩ := op_bind_returns h
  obtain ⟨_, s4, h4, h⟩ := op_bind_returns h
  obtain ⟨_, s5, h5, h⟩ := op_bind_returns h
  obtain ⟨_, s6, h6, h⟩ := op_bind_returns h
  obtain ⟨_, s7, h7, h8⟩ := op_bind_returns h
  obtain ⟨irq0, h3⟩ := clearBits_returns hc h3
  obtain ⟨level0, h4⟩ := setBits_returns hc h4
  obtain ⟨framing0, h8⟩ := startSend_returns hc h8
  refine ⟨irq0, level0, framing0, ?_⟩
  rintro x rfl rfl rfl
  exact heard_trans (heard_trans (heard_trans (heard_trans (heard_trans (heard_trans
    (heard_trans (regWrite_returns hc h1) (regWrite_returns hc h2)) h3) h4) (regWrite_returns hc h5))
    (loadFifo_returns hc h6)) (regWrite_returns hc h7)) h8

/-- The poll either saw a completion within its budget or used it all without one (R155, R156). -/
theorem pollIrq_returns {c : Cfg} (hc : c.transportMayFail = true) {waitIrq irq0 : Byte} {budget polls : Nat} {p : Poll}
    {s t : State} (h : pollIrq c waitIrq budget irq0 polls s = .ok p t) :
    ∃ values, (∀ v ∈ values, irqDone c waitIrq v = false) ∧
      ((p.done = true ∧ irqDone c waitIrq p.irq = true ∧ values.length < budget ∧
          p.polls = polls + values.length + 1 ∧ Heard s (pollTrace c (values ++ [p.irq])) t) ∨
        (p.done = false ∧ values.length = budget ∧ p.irq = values.getLastD irq0 ∧ p.polls = polls + budget ∧
          Heard s (pollTrace c values) t)) := by
  induction budget generalizing s irq0 polls with
  | zero =>
    cases h
    exact ⟨[], by simp, .inr ⟨rfl, rfl, rfl, rfl, heard_nil _⟩⟩
  | succ n ih =>
    obtain ⟨v, s1, h1, h⟩ := op_bind_returns h
    have h1 := regRead_returns hc h1
    split at h
    · rename_i hd
      cases h
      exact ⟨[], by simp, .inl ⟨rfl, hd, by simp, rfl, h1⟩⟩
    · rename_i hd
      obtain ⟨values, hv, hr⟩ := ih h
      refine ⟨v :: values, ?_, ?_⟩
      · intro w hw
        rcases List.mem_cons.mp hw with rfl | hw
        · simpa using hd
        · exact hv w hw
      · rcases hr with ⟨h2, h3, h4, h5, h6⟩ | ⟨h2, h3, h4, h5, h6⟩
        · exact .inl ⟨h2, h3, by simpa using h4, by rw [h5]; simp; omega, heard_trans h1 h6⟩
        · exact .inr ⟨h2, by simp [h3], by rw [h4, List.getLastD_cons], by rw [h5]; omega, heard_trans h1 h6⟩

theorem checkFrame_returns {c : Cfg} (hc : c.transportMayFail = true) {p : Poll} {s t : State}
    (h : checkFrame c p s = .ok () t) :
    p.done = true ∧ ∃ framing1 errv, frameFailed c errv = false ∧ ∀ x : Exchange, x.framing1 = framing1 → x.errv = errv →
      Heard s (x.checked c) t := by
  obtain ⟨_, s1, h1, h⟩ := op_bind_returns h
  obtain ⟨_, s2, h2, h⟩ := op_bind_returns h
  obtain ⟨errv, s3, h3, h4⟩ := op_bind_returns h
  obtain ⟨framing1, h1⟩ := clearBits_returns hc h1
  obtain ⟨hd, rfl⟩ := ensure_returns h2
  have h3 := regRead_returns hc h3
  obtain ⟨he, rfl⟩ := ensure_returns h4
  refine ⟨hd, framing1, errv, by simpa using he, ?_⟩
  rintro x rfl rfl
  exact heard_trans h1 h3

theorem collectResponse_returns {c : Cfg} (hc : c.transportMayFail = true) {cmd : ChipCommand} {status : Status}
    {r : Response} {s t : State} (h : collectResponse c cmd status s = .ok r t) :
    ∃ level control bytes, ∀ x : Exchange, x.level = level → x.control = control → x.bytes = bytes →
      x.status c cmd = status →
      (cmd = .transceive → bytes.length = drainCount c level.toNat) ∧ r = x.response c cmd ∧
        Heard s (x.collected c cmd) t := by
  cases cmd
  case transceive =>
    obtain ⟨n, s1, h1, h⟩ := op_bind_returns h
    obtain ⟨control, s2, h2, h⟩ := op_bind_returns h
    obtain ⟨bytes, s3, h3, h⟩ := op_bind_returns h
    cases h
    obtain ⟨hl, hd⟩ := drainFifo_returns hc h3
    refine ⟨n, control, bytes, ?_⟩
    rintro x rfl rfl rfl rfl
    exact ⟨fun _ => hl, rfl, heard_trans (heard_trans (regRead_returns hc h1) (regRead_returns hc h2)) hd⟩
  all_goals
    cases h
    refine ⟨0#8, 0#8, [], ?_⟩
    rintro x - - - rfl
    exact ⟨by simp, rfl, heard_nil s⟩

/-- A TRANSCEIVE that returned ran a completed exchange the environment answered (R150). -/
theorem transceive_returns {c : Cfg} (hc : c.transportMayFail = true) {cmd : ChipCommand} {payload : List Byte}
    {framing : Nat} {r : Response} {s t : State} (h : transceive c cmd payload framing s = .ok r t) :
    ∃ x : Exchange, x.completes c cmd = true ∧ r = x.response c cmd ∧ Heard s (x.trace c cmd payload framing) t := by
  obtain ⟨_, s1, h1, h⟩ := op_bind_returns h
  obtain ⟨p, s2, h2, h⟩ := op_bind_returns h
  obtain ⟨_, s3, h3, h4⟩ := op_bind_returns h
  obtain ⟨irq0, level0, framing0, h1⟩ := sendFrame_returns hc h1
  obtain ⟨hd, framing1, errv, he, h3⟩ := checkFrame_returns hc h3
  obtain ⟨level, control, bytes, h4⟩ := collectResponse_returns hc h4
  obtain ⟨waits, hw, ⟨-, hi, hb, -, h2⟩ | ⟨hn, -⟩⟩ := pollIrq_returns hc h2
  swap
  · rw [hd] at hn; cases hn
  let x : Exchange := ⟨irq0, level0, framing0, waits, p.irq, framing1, errv, level, control, bytes⟩
  obtain ⟨hl, hr, h4⟩ := h4 x rfl rfl rfl rfl
  refine ⟨x, ?_, hr, heard_trans (heard_trans (heard_trans (h1 x rfl rfl rfl) h2) (h3 x rfl rfl)) h4⟩
  have hw' : noneDone c cmd waits = true := by simpa [noneDone] using hw
  have hl' : (cmd != .transceive || decide (bytes.length = drainCount c level.toNat)) = true := by
    by_cases hcmd : cmd = .transceive
    · simp [hl hcmd]
    · simp [hcmd]
  simp only [Exchange.completes, Exchange.polledOk, x, hw', hi, he, hl', hb, decide_true, Bool.and_true, Bool.not_false]

/-! ## CRC16 -/

theorem pollCrc_returns {c : Cfg} (hc : c.transportMayFail = true) {budget : Nat} {done : Bool} {s t : State}
    (h : pollCrc c budget s = .ok done t) :
    ∃ waits : List Byte, (∀ v ∈ waits, crcDone c v = false) ∧
      ((done = true ∧ ∃ v, crcDone c v = true ∧ waits.length < budget ∧
          Heard s ((waits ++ [v]).map (.read c.regMap.divIrq ·)) t) ∨
        (done = false ∧ waits.length = budget ∧ Heard s (waits.map (.read c.regMap.divIrq ·)) t)) := by
  induction budget generalizing s with
  | zero =>
    cases h
    exact ⟨[], by simp, .inr ⟨rfl, rfl, heard_nil _⟩⟩
  | succ n ih =>
    obtain ⟨v, s1, h1, h⟩ := op_bind_returns h
    have h1 := regRead_returns hc h1
    split at h
    · rename_i hd
      cases h
      exact ⟨[], by simp, .inl ⟨rfl, v, hd, by simp, h1⟩⟩
    · rename_i hd
      obtain ⟨waits, hv, hr⟩ := ih h
      refine ⟨v :: waits, ?_, ?_⟩
      · intro w hw
        rcases List.mem_cons.mp hw with rfl | hw
        · simpa using hd
        · exact hv w hw
      · rcases hr with ⟨h2, w, h3, h4, h5⟩ | ⟨h2, h3, h4⟩
        · exact .inl ⟨h2, w, h3, by simpa using h4, heard_trans h1 h5⟩
        · exact .inr ⟨h2, by simp [h3], heard_trans h1 h4⟩

/-- A CRC16 that returned ran a calculation the environment answered (R190, R193). -/
theorem crc16_returns {c : Cfg} (hc : c.transportMayFail = true) {bytes : List Byte} {lo hi : Byte} {s t : State}
    (h : crc16 c bytes s = .ok (lo, hi) t) :
    ∃ x : CrcRun, x.polledOk c = true ∧ x.lo = lo ∧ x.hi = hi ∧ s.Answers (x.trace c bytes) ∧
      t = s.busStep (x.trace c bytes) (x.logged bytes) := by
  have hrun := h
  obtain ⟨_, s1, h1, h⟩ := op_bind_returns h
  obtain ⟨done, s2, h2, h⟩ := op_bind_returns h
  obtain ⟨_, s3, h3, h⟩ := op_bind_returns h
  obtain ⟨lo', s4, h4, h⟩ := op_bind_returns h
  obtain ⟨hi', s5, h5, h⟩ := op_bind_returns h
  cases h
  obtain ⟨_, t1, g1, h1⟩ := op_bind_returns h1
  obtain ⟨_, t2, g2, h1⟩ := op_bind_returns h1
  obtain ⟨_, t3, g3, g4⟩ := op_bind_returns h1
  obtain ⟨div0, g1⟩ := clearBits_returns hc g1
  obtain ⟨level0, g2⟩ := setBits_returns hc g2
  have hs := heard_trans (heard_trans (heard_trans g1 g2) (loadFifo_returns hc g3)) (regWrite_returns hc g4)
  have h45 := heard_trans (regRead_returns hc h4) (regRead_returns hc h5)
  obtain ⟨waits, hw, hr⟩ := pollCrc_returns hc h2
  rcases hr with ⟨rfl, v, hv, hb, h2⟩ | ⟨rfl, hb, h2⟩
  · cases h3
    let x : CrcRun := { div0 := div0, level0 := level0, waits := waits, done := some v, lo := lo, hi := hi }
    have hx : x.polledOk c = true := by simpa [x, CrcRun.polledOk, hv, hb] using hw
    have ha := (heard_trans (heard_trans hs h2) h45).1
    refine ⟨x, hx, rfl, rfl, ha, ?_⟩
    have := (crc16_answered hx ha).symm.trans hrun
    cases this; rfl
  · rw [noteExhaustion_false] at h3
    cases h3
    let x : CrcRun := { div0 := div0, level0 := level0, waits := waits, done := none, lo := lo, hi := hi }
    have hx : x.polledOk c = true := by simpa [x, CrcRun.polledOk, hb] using hw
    have h45' : s2.Answers [.read c.regMap.crcL lo, .read c.regMap.crcH hi] := State.answers_busStep_nil.mp h45.1
    have ha : s.Answers (x.trace c bytes) := by
      have := (heard_trans (heard_trans hs h2) ⟨h45', rfl⟩).1
      simpa [x, CrcRun.trace, List.append_assoc] using this
    refine ⟨x, hx, rfl, rfl, ha, ?_⟩
    have := (crc16_answered hx ha).symm.trans hrun
    cases this; rfl

/-- A framed exchange that returned ran a calculation and an exchange the environment answered (R196). -/
theorem framed_returns {β : Type} {c : Cfg} (hc : c.transportMayFail = true) {body : List Byte} {f : Response → Op β}
    {b : β} {s t : State} (h : (withCrc c body >>= fun fr => transceive c .transceive fr 0 >>= f) s = .ok b t) :
    ∃ x : Framed, x.completes c = true ∧ s.Answers (x.trace c body) ∧
      f (x.response c) (s.busStep (x.trace c body) (x.crc.logged body)) = .ok b t := by
  have hrun := h
  obtain ⟨fr, s1, h1, h⟩ := op_bind_returns h
  obtain ⟨r, s2, h2, h⟩ := op_bind_returns h
  obtain ⟨⟨lo, hi⟩, s3, h3, h4⟩ := op_bind_returns h1
  cases h4
  obtain ⟨x, hx, rfl, rfl, ha, rfl⟩ := crc16_returns hc h3
  obtain ⟨y, hy, rfl, ha', -⟩ := transceive_returns hc h2
  refine ⟨⟨x, y⟩, by simp [Framed.completes, hx, hy], ?_, ?_⟩
  · exact (State.answers_append s _ _).mpr ⟨ha, State.answers_congr rfl rfl rfl ha'⟩
  · have ha2 : s.Answers (Framed.trace ⟨x, y⟩ c body) :=
      (State.answers_append s _ _).mpr ⟨ha, State.answers_congr rfl rfl rfl ha'⟩
    exact (framed_answered (x := ⟨x, y⟩) (f := f) (by simp [Framed.completes, hx, hy]) ha2).symm.trans hrun

end Sys2Proof.Machine
end

