-- ==== Sys2Proof/Laws/Protocol.lean ====
section
/-!
SUPPORT. What the argument checks, the card exchanges and the operations of the protocol controller do when the
environment's answers are given (spec/44_protocol_controller.md).
-/

namespace Sys2Proof.Machine

/-! ## Argument checks -/

/-- A valid handle names the session. -/
theorem sessionOf_some {h : Handle} {q : Session} {s : State} : s.sessionOf h = some q ↔ s.holds h q := by
  unfold State.sessionOf State.holds
  rw [Option.filter_eq_some_iff]
  simp

theorem checkCard_held {h : Handle} {q : Session} {s : State} (hq : s.holds h q) : checkCard h s = .ok q s := by
  unfold checkCard
  rw [sessionOf_some.mpr hq]

theorem checkCard_stale {h : Handle} {s : State} (hs : s.sessionOf h = none) :
    checkCard h s = .error { cause := .invalidArgument .staleCard, mark := .none } s := by
  simp [checkCard, hs]

theorem checkCard_returns {h : Handle} {q : Session} {s t : State} (hr : checkCard h s = .ok q t) :
    s.holds h q ∧ t = s := by
  unfold checkCard at hr
  split at hr
  · rename_i hq; cases hr; exact ⟨sessionOf_some.mp hq, rfl⟩
  · cases hr

theorem checkBlock_ok {c : Cfg} {b : Int} {s : State} (h : 0 ≤ b ∧ b < c.blockCount) :
    checkBlock c b s = .ok (blockByte b) s := by
  show (ensure _ _ >>= fun _ => pure _) s = _
  rw [op_bind_ok (ensure_true (decide_eq_true h))]
  rfl

theorem checkBlock_bad {c : Cfg} {b : Int} {s : State} (h : ¬(0 ≤ b ∧ b < c.blockCount)) :
    checkBlock c b s = .error { cause := .invalidArgument .blockRange, mark := .none } s := by
  show (ensure _ _ >>= fun _ => pure _) s = _
  rw [op_bind_error (ensure_false (decide_eq_false h))]

/-- A byte that addresses a block is that block's byte (R113 c). -/
@[simp] theorem blockByte_toNat (b : Byte) : blockByte (b.toNat : Int) = b := by simp [blockByte]

/-- The block check of a card frame: the byte of a block in range is itself. -/
theorem checkBlock_byte {c : Cfg} {b : Byte} {s : State} (h : b.toNat < c.blockCount) :
    checkBlock c b.toNat s = .ok b s := by
  rw [checkBlock_ok ⟨by omega, by exact_mod_cast h⟩, blockByte_toNat]

theorem checkBlock_returns {c : Cfg} {b : Int} {v : Byte} {s t : State} (h : checkBlock c b s = .ok v t) :
    (0 ≤ b ∧ b < c.blockCount) ∧ v = blockByte b ∧ t = s := by
  by_cases hb : 0 ≤ b ∧ b < c.blockCount
  · rw [checkBlock_ok hb] at h; cases h; exact ⟨hb, rfl, rfl⟩
  · rw [checkBlock_bad hb] at h; cases h

theorem checkOffset_ok {c : Cfg} {off : Int} {s : State} (h : 0 ≤ off ∧ off ≤ c.int32OffsetMax) :
    checkOffset c off s = .ok off.toNat s := by
  show (ensure _ _ >>= fun _ => pure _) s = _
  rw [op_bind_ok (ensure_true (decide_eq_true h))]
  rfl

theorem checkOffset_bad {c : Cfg} {off : Int} {s : State} (h : ¬(0 ≤ off ∧ off ≤ c.int32OffsetMax)) :
    checkOffset c off s = .error { cause := .invalidArgument .offsetRange, mark := .none } s := by
  show (ensure _ _ >>= fun _ => pure _) s = _
  rw [op_bind_error (ensure_false (decide_eq_false h))]

theorem checkAddr_ok {a : Int} {s : State} (h : 0 ≤ a ∧ a ≤ 63) : checkAddr a s = .ok (BitVec.ofNat 6 a.toNat) s := by
  show (ensure _ _ >>= fun _ => pure _) s = _
  rw [op_bind_ok (ensure_true (decide_eq_true h))]
  rfl

theorem checkAddr_bad {a : Int} {s : State} (h : ¬(0 ≤ a ∧ a ≤ 63)) :
    checkAddr a s = .error { cause := .invalidArgument .regAddress, mark := .none } s := by
  show (ensure _ _ >>= fun _ => pure _) s = _
  rw [op_bind_error (ensure_false (decide_eq_false h))]

/-! ## Exchanges -/

theorem request_answered {c : Cfg} {mode : Byte} {x : Exchange} {s : State} (hx : x.completes c .transceive = true)
    (h : s.Answers (x.trace c .transceive [mode] c.reqFramingBits)) :
    request c mode s =
      if okBits 16 (x.response c .transceive) then
        .ok (x.response c .transceive) (s.ran (x.trace c .transceive [mode] c.reqFramingBits))
      else
        .error { cause := .noTagPresent (x.response c .transceive), mark := .none }
          (s.ran (x.trace c .transceive [mode] c.reqFramingBits)) := by
  show (transceive c _ _ _ >>= fun r => ensure _ _ >>= fun _ => pure r) s = _
  rw [op_bind_ok (transceive_answered hx h)]
  split
  · rename_i ho; rw [op_bind_ok (ensure_true ho)]; rfl
  · rename_i ho; rw [op_bind_error (ensure_false (by simpa using ho))]

/-- UID_LEN as the spec fixes it: four bytes, and 40 bits with the checksum byte (R7, R8, R220). -/
@[simp] theorem uidLen_cfg : Config.cfg.uidLen = 4 := rfl

@[simp] theorem uidBits_cfg : uidBits Config.cfg = 40 := rfl

theorem getUid_answered {c : Cfg} {x : Exchange} {s : State} (hx : x.completes c .transceive = true)
    (h : s.Answers (x.trace c .transceive c.anticollCmd 0)) :
    getUid c s =
      if okBits (uidBits c) (x.response c .transceive) then
        if uidBcc (uidOf x.bytes) = byteAt x.bytes c.uidLen then
          .ok (uidOf x.bytes, byteAt x.bytes c.uidLen) (s.ran (x.trace c .transceive c.anticollCmd 0))
        else
          .error { cause := .uidChecksumError x.bytes, mark := .none } (s.ran (x.trace c .transceive c.anticollCmd 0))
      else
        .error { cause := .noTagPresent (x.response c .transceive), mark := .none }
          (s.ran (x.trace c .transceive c.anticollCmd 0)) := by
  have hb : (x.response c .transceive).bytes = x.bytes := rfl
  show (transceive c _ _ _ >>= fun r => ensure _ _ >>= fun _ => ensure _ _ >>= fun _ => pure _) s = _
  rw [op_bind_ok (transceive_answered hx h), hb]
  split
  · rename_i ho
    rw [op_bind_ok (ensure_true ho)]
    split
    · rename_i hu; rw [op_bind_ok (ensure_true (by simpa using hu))]; rfl
    · rename_i hu; rw [op_bind_error (ensure_false (by simpa using hu))]
  · rename_i ho; rw [op_bind_error (ensure_false (by simpa using ho))]

theorem selectExchange_answered {c : Cfg} {u : Uid} {bcc : Byte} {x : Framed} {s : State} (hx : x.completes c = true)
    (h : s.Answers (x.trace c (selectBody c u bcc))) :
    selectExchange c u bcc s =
      if okBits 24 (x.response c) then
        .ok (byteAt x.exchange.bytes 0) (s.busStep (x.trace c (selectBody c u bcc)) (x.crc.logged (selectBody c u bcc)))
      else
        .error { cause := .selectFailed (x.response c), mark := .none }
          (s.busStep (x.trace c (selectBody c u bcc)) (x.crc.logged (selectBody c u bcc))) := by
  refine (framed_answered (f := fun r => ensure (okBits 24 r) (.selectFailed r) >>= fun _ => pure (byteAt r.bytes 0))
    hx h).trans ?_
  split
  · rename_i ho; rw [op_bind_ok (ensure_true ho)]; rfl
  · rename_i ho; rw [op_bind_error (ensure_false (by simpa using ho))]

theorem readExchange_answered {c : Cfg} {b : Byte} {x : Framed} {s : State} (hx : x.completes c = true)
    (h : s.Answers (x.trace c [c.cardCmd.read, b])) :
    readExchange c b s =
      if readOk c (x.response c) then
        .ok x.exchange.bytes (s.busStep (x.trace c [c.cardCmd.read, b]) (x.crc.logged [c.cardCmd.read, b]))
      else
        .error { cause := .readFailed (x.response c), mark := .none }
          (s.busStep (x.trace c [c.cardCmd.read, b]) (x.crc.logged [c.cardCmd.read, b])) := by
  refine (framed_answered (f := fun r => ensure (readOk c r) (.readFailed r) >>= fun _ => pure r.bytes) hx h).trans ?_
  split
  · rename_i ho; rw [op_bind_ok (ensure_true ho)]; rfl
  · rename_i ho; rw [op_bind_error (ensure_false (by simpa using ho))]

theorem readExchange_returns {c : Cfg} (hc : c.transportMayFail = true) {b : Byte} {d : List Byte} {s t : State}
    (h : readExchange c b s = .ok d t) :
    ∃ x : Framed, x.completes c = true ∧ s.Answers (x.trace c [c.cardCmd.read, b]) ∧ readOk c (x.response c) = true ∧
      d = x.exchange.bytes := by
  obtain ⟨x, hx, ha, hf⟩ := framed_returns
    (f := fun r => ensure (readOk c r) (.readFailed r) >>= fun _ => pure r.bytes) hc h
  obtain ⟨_, s1, h1, h2⟩ := op_bind_returns hf
  obtain ⟨ho, rfl⟩ := ensure_returns h1
  cases h2
  exact ⟨x, hx, ha, ho, rfl⟩

/-- A block that was read is 16 bytes long (R240). -/
theorem readExchange_length {c : Cfg} (hc : c.transportMayFail = true) {b : Byte} {d : List Byte} {s t : State}
    (h : readExchange c b s = .ok d t) : d.length = c.blockSize := by
  obtain ⟨x, -, -, ho, rfl⟩ := readExchange_returns hc h
  simp only [readOk, Bool.and_eq_true, beq_iff_eq] at ho
  exact ho.2

theorem writePhase_answered {c : Cfg} {phase : WritePhase} {body : List Byte} {x : Framed} {s : State}
    (hx : x.completes c = true) (h : s.Answers (x.trace c body)) :
    writePhase c phase body s =
      if ackOk c (x.response c) then .ok () (s.busStep (x.trace c body) (x.crc.logged body))
      else
        .error { cause := .writeFailed phase (x.response c), mark := .none }
          (s.busStep (x.trace c body) (x.crc.logged body)) := by
  refine (framed_answered (f := fun r => ensure (ackOk c r) (.writeFailed phase r)) hx h).trans ?_
  split
  · rename_i ho; exact ensure_true ho
  · rename_i ho; exact ensure_false (by simpa using ho)

theorem writePhase_returns {c : Cfg} (hc : c.transportMayFail = true) {phase : WritePhase} {body : List Byte}
    {s t : State} (h : writePhase c phase body s = .ok () t) :
    ∃ x : Framed, x.completes c = true ∧ s.Answers (x.trace c body) ∧ ackOk c (x.response c) = true := by
  obtain ⟨x, hx, ha, hf⟩ := framed_returns (f := fun r => ensure (ackOk c r) (.writeFailed phase r)) hc h
  exact ⟨x, hx, ha, (ensure_returns hf).1⟩

theorem markingWrite_ok {α : Type} {p : Bool} {m : Op α} {a : α} {s t : State} (h : m s = .ok a t) :
    markingWrite p m s = .ok a t := by simp [markingWrite, h]

theorem markingWrite_error {α : Type} {p : Bool} {m : Op α} {e : Err} {s t : State} (h : m s = .error e t) :
    markingWrite p m s = .error (e.markWrite p) t := by simp [markingWrite, h]

/-- The two write frames, given their answers: phase 2 is judged by its own response (R245, R246). -/
theorem writeExchange_answered {c : Cfg} {b : Byte} {data : List Byte} {x y : Framed} {s : State}
    (hx : x.completes c = true) (hax : ackOk c (x.response c) = true) (hy : y.completes c = true)
    (h : s.Answers (x.trace c [c.cardCmd.write, b] ++ y.trace c data)) :
    writeExchange c b data s =
      if ackOk c (y.response c) then
        .ok () (s.busStep (x.trace c [c.cardCmd.write, b] ++ y.trace c data)
          (x.crc.logged [c.cardCmd.write, b] ++ y.crc.logged data))
      else
        .error { cause := .writeFailed .phase2Partial (y.response c), mark := .none }
          (s.busStep (x.trace c [c.cardCmd.write, b] ++ y.trace c data)
            (x.crc.logged [c.cardCmd.write, b] ++ y.crc.logged data)) := by
  obtain ⟨h1, h2⟩ := (State.answers_append s _ _).mp h
  have e1 := (writePhase_answered (phase := .phase1) hx h1).trans (if_pos hax)
  have h2' := State.answers_congr
    (t := s.busStep (x.trace c [c.cardCmd.write, b]) (x.crc.logged [c.cardCmd.write, b])) rfl rfl rfl h2
  show (markingWrite false _ >>= fun _ => markingWrite true _) s = _
  rw [op_bind_ok (markingWrite_ok e1), ← State.busStep_busStep]
  by_cases hay : ackOk c (y.response c) = true
  · rw [if_pos hay]
    exact markingWrite_ok ((writePhase_answered hy h2').trans (if_pos hay))
  · rw [if_neg hay]
    exact markingWrite_error ((writePhase_answered hy h2').trans (if_neg hay))

/-- A first write frame that is not acknowledged ends the write (R245). -/
theorem writeExchange_refused {c : Cfg} {b : Byte} {data : List Byte} {x : Framed} {s : State}
    (hx : x.completes c = true) (hax : ackOk c (x.response c) = false) (h : s.Answers (x.trace c [c.cardCmd.write, b])) :
    writeExchange c b data s =
      .error { cause := .writeFailed .phase1 (x.response c), mark := .none }
        (s.busStep (x.trace c [c.cardCmd.write, b]) (x.crc.logged [c.cardCmd.write, b])) := by
  show (markingWrite false _ >>= fun _ => markingWrite true _) s = _
  exact op_bind_error (markingWrite_error ((writePhase_answered hx h).trans (if_neg (by simp [hax]))))

theorem authExchange_answered {c : Cfg} {keyMode b : Byte} {k : Key} {u : Uid} {x : Exchange} {st : Byte} {s : State}
    (hx : x.completes c .authent = true) (ho : x.status c .authent = .ok)
    (h : s.Answers (x.trace c .authent (authPayload keyMode b k u) 0 ++ [.read c.regMap.status2 st])) :
    authExchange c keyMode b k u s =
      if cryptoOn c st then
        .ok () (s.ran (x.trace c .authent (authPayload keyMode b k u) 0 ++ [.read c.regMap.status2 st]))
      else
        .error { cause := .authenticationFailed .notActive, mark := .none }
          (s.ran (x.trace c .authent (authPayload keyMode b k u) 0 ++ [.read c.regMap.status2 st])) := by
  obtain ⟨h1, h2⟩ := (State.answers_append s _ _).mp h
  have hs : ((x.response c .authent).status == .ok) = true := beq_iff_eq.mpr ho
  show (transceive c _ _ _ >>= fun r => ensure _ _ >>= fun _ => regRead c _ >>= fun st => ensure _ _) s = _
  rw [op_bind_ok (transceive_answered hx h1), op_bind_ok (ensure_true hs), op_bind_ok (regRead_answered h2),
    ← State.ran_append]
  split
  · rename_i ho; exact ensure_true ho
  · rename_i ho; exact ensure_false (by simpa using ho)

/-- With the default masks an Authent exchange is never NoTag (R102, R160). -/
theorem authent_status (x : Exchange) : x.status Config.cfg .authent = .ok := by
  show (if anyBit (x.irq &&& 0x12#8) 0x01#8 then Status.noTag else Status.ok) = .ok
  have : (x.irq &&& 0x12#8) &&& 0x01#8 = 0#8 := by
    rw [BitVec.and_assoc, show (0x12#8 &&& 0x01#8 : Byte) = 0#8 from rfl, BitVec.and_zero]
  simp [anyBit, this]

/-! ## Sessions -/

theorem installSession_eq (c : Cfg) (u : Uid) (bcc : Byte) (s : State) :
    installSession c u bcc s = .ok (s.handleFor u) (State.installed c s u bcc) := by
  unfold installSession State.handleFor State.installed
  cases s.session.filter fun q => q.uid == u <;> rfl

@[simp] theorem handleFor_uid (s : State) (u : Uid) : (s.handleFor u).uid = u := by
  unfold State.handleFor
  split
  · rename_i q hq
    rw [Option.filter_eq_some_iff] at hq
    simpa using hq.2
  · rfl

/-- After installation the handle is valid (R226, R32). -/
theorem installed_holds (c : Cfg) (s : State) (u : Uid) (bcc : Byte) :
    ∃ q, (State.installed c s u bcc).holds (s.handleFor u) q ∧ q.uid = u := by
  unfold State.installed State.handleFor
  cases hq : s.session.filter fun q => q.uid == u with
  | some q =>
    rw [Option.filter_eq_some_iff] at hq
    exact ⟨q, ⟨hq.1, rfl, rfl⟩, by simpa using hq.2⟩
  | none => exact ⟨_, ⟨rfl, rfl, rfl⟩, rfl⟩

/-! ## DETECT -/

/-- The error of a probe that found no card (R215, R220). -/
def Probe.missing (p : Probe) (c : Cfg) : Cause :=
  match p.anti with
  | some x =>
    if okBits (uidBits c) (x.response c .transceive) then .uidChecksumError x.bytes else .noTagPresent (x.response c .transceive)
  | none => .noTagPresent (p.req.response c .transceive)

/-- What a probe that found no card raises is folded into "absent" (R322). -/
theorem missing_folded (p : Probe) (c : Cfg) :
    (∃ r, p.missing c = .noTagPresent r) ∨ (∃ bs, p.missing c = .uidChecksumError bs) := by
  unfold Probe.missing
  split
  · split
    · exact .inr ⟨_, rfl⟩
    · exact .inl ⟨_, rfl⟩
  · exact .inl ⟨_, rfl⟩

theorem detect_answered {c : Cfg} {p : Probe} {s : State} (hp : p.completes c = true) (h : s.Answers (p.trace c)) :
    detect c s =
      match p.card c with
      | some u => .ok (s.handleFor u.1) (State.installed c (s.ran (p.trace c)) u.1 u.2)
      | none => .error { cause := p.missing c, mark := .none } (s.ran (p.trace c)) := by
  obtain ⟨req, anti⟩ := p
  simp only [Probe.completes, Bool.and_eq_true] at hp
  obtain ⟨hr, ha⟩ := hp
  obtain ⟨h1, h2⟩ := (State.answers_append s _ _).mp h
  show (request c c.reqMode >>= fun _ => getUid c >>= fun u => installSession c u.1 u.2) s = _
  cases anti with
  | none =>
    have hk : okBits 16 (req.response c .transceive) = false := by simpa using ha
    rw [op_bind_error ((request_answered hr h1).trans (if_neg (by simp [hk])))]
    simp [Probe.trace, Probe.missing, Probe.card]
  | some x =>
    simp only [Bool.and_eq_true] at ha
    rw [op_bind_ok ((request_answered hr h1).trans (if_pos ha.1))]
    have hg := getUid_answered ha.2 h2
    by_cases h40 : okBits (uidBits c) (x.response c .transceive) = true
    · rw [if_pos h40] at hg
      by_cases hu : uidBcc (uidOf x.bytes) = byteAt x.bytes c.uidLen
      · rw [if_pos hu] at hg
        rw [op_bind_ok hg, installSession_eq, ← State.ran_append]
        simp only [Probe.card, Exchange.cardUid, h40, hu, Bool.true_and, beq_self_eq_true, if_true]
        rfl
      · rw [if_neg hu] at hg
        rw [op_bind_error hg, ← State.ran_append]
        simp [Probe.trace, Probe.missing, Probe.card, Exchange.cardUid, h40, hu]
    · rw [if_neg h40] at hg
      rw [op_bind_error hg, ← State.ran_append]
      simp [Probe.trace, Probe.missing, Probe.card, Exchange.cardUid, h40]

theorem foldDetect_answered {c : Cfg} {p : Probe} {s : State} (hp : p.completes c = true) (h : s.Answers (p.trace c)) :
    foldDetect c s =
      match p.card c with
      | some u => .ok (some (s.handleFor u.1)) (State.installed c (s.ran (p.trace c)) u.1 u.2)
      | none => .ok none (s.ran (p.trace c)) := by
  unfold foldDetect
  rw [detect_answered hp h]
  cases p.card c with
  | some u => rfl
  | none =>
    rcases missing_folded p c with ⟨r, hr⟩ | ⟨bs, hb⟩
    · simp [hr]
    · simp [hb]

/-! ## END_SESSION and AUTHENTICATE -/

theorem endSession_answered {c : Cfg} {v : Byte} {s : State} (h : s.Answers (endSessionTrace c v)) :
    endSession c s =
      .ok () { s.ran (endSessionTrace c v) with session := withCrypto s.session false } := by
  show (clearBits c _ _ >>= fun _ => setCrypto false) s = _
  rw [op_bind_ok (clearBits_answered h)]
  rfl

theorem authenticate_answered {c : Cfg} {h : Handle} {b : Int} {keyMode : Byte} {key : Option Key} {q : Session}
    {x : Exchange} {st : Byte} {s : State} (hq : s.holds h q) (hb : 0 ≤ b ∧ b < c.blockCount)
    (hx : x.completes c .authent = true) (ho : x.status c .authent = .ok)
    (ha : s.Answers (x.trace c .authent (authPayload keyMode (blockByte b) (key.getD q.key) q.uid) 0 ++
      [.read c.regMap.status2 st])) :
    authenticate c h b keyMode key s =
      if cryptoOn c st then
        .ok () { s.ran (x.trace c .authent (authPayload keyMode (blockByte b) (key.getD q.key) q.uid) 0 ++
          [.read c.regMap.status2 st]) with session := withCrypto s.session true }
      else
        .error { cause := .authenticationFailed .notActive, mark := .none }
          { s.ran (x.trace c .authent (authPayload keyMode (blockByte b) (key.getD q.key) q.uid) 0 ++
            [.read c.regMap.status2 st]) with session := withCrypto s.session false } := by
  obtain ⟨s0, hs0⟩ : ∃ s0 : State, s0 = { s with session := withCrypto s.session false } := ⟨_, rfl⟩
  have ha' : s0.Answers _ := State.answers_congr (by rw [hs0]) (by rw [hs0]) (by rw [hs0]) ha
  have he := authExchange_answered hx ho ha'
  show (checkCard h >>= fun q => checkBlock c b >>= fun blk => setCrypto false >>= fun _ =>
    authExchange c keyMode blk (key.getD q.key) q.uid >>= fun _ => setCrypto true) s = _
  rw [op_bind_ok (checkCard_held hq), op_bind_ok (checkBlock_ok hb)]
  rw [op_bind_ok (show setCrypto false s = .ok () s0 by rw [hs0]; rfl)]
  split
  · rename_i hc
    rw [if_pos hc] at he
    rw [op_bind_ok he, hs0]
    simp [setCrypto, State.ran, withCrypto, Function.comp_def]
  · rename_i hc
    rw [if_neg hc] at he
    rw [op_bind_error he, hs0]
    rfl

end Sys2Proof.Machine
end

