-- ==== Sys2Proof/Laws/Accessors.lean ====
section
/-!
SUPPORT. The block operations past their checks, the string and integer conversions, and the sweep of DUMP
(spec/45_card_accessors.md).
-/

namespace Sys2Proof.Machine

/-! ## Block operations past their checks -/

/-- READ_BLOCK past its checks is the read exchange (R240). -/
theorem readBlock_held {c : Cfg} {h : Handle} {q : Session} {b : Int} {s : State} (hq : s.holds h q)
    (hb : 0 ≤ b ∧ b < c.blockCount) : readBlock c h b s = readExchange c (blockByte b) s := by
  show (checkCard h >>= fun _ => checkBlock c b >>= fun blk => readExchange c blk) s = _
  rw [op_bind_ok (checkCard_held hq), op_bind_ok (checkBlock_ok hb)]

/-- WRITE_BLOCK past its checks is the two write frames (R245). -/
theorem writeBlock_held {c : Cfg} {h : Handle} {q : Session} {b : Int} {data : List Byte} {s : State} (hq : s.holds h q)
    (hb : 0 ≤ b ∧ b < c.blockCount) (hd : data.length = c.blockSize) :
    writeBlock c h b data s = writeExchange c (blockByte b) data s := by
  show (checkCard h >>= fun _ => checkBlock c b >>= fun blk => checkData c data >>= fun _ =>
    writeExchange c blk data) s = _
  rw [op_bind_ok (checkCard_held hq), op_bind_ok (checkBlock_ok hb),
    op_bind_ok (show checkData c data s = .ok () s from ensure_true (decide_eq_true hd))]

/-- READ_BLOCK that raises or returns past its checks: what it held. -/
theorem readBlock_returns {c : Cfg} {h : Handle} {b : Int} {d : List Byte} {s t : State}
    (hr : readBlock c h b s = .ok d t) :
    ∃ q, s.holds h q ∧ (0 ≤ b ∧ b < c.blockCount) ∧ readExchange c (blockByte b) s = .ok d t := by
  obtain ⟨q, s1, h1, h2⟩ := op_bind_returns hr
  obtain ⟨hq, rfl⟩ := checkCard_returns h1
  obtain ⟨blk, s2, h3, h4⟩ := op_bind_returns h2
  obtain ⟨hb, rfl, rfl⟩ := checkBlock_returns h3
  exact ⟨q, hq, hb, h4⟩

theorem writeBlock_returns {c : Cfg} {h : Handle} {b : Int} {data : List Byte} {s t : State}
    (hr : writeBlock c h b data s = .ok () t) :
    ∃ q, s.holds h q ∧ (0 ≤ b ∧ b < c.blockCount) ∧ data.length = c.blockSize ∧
      writeExchange c (blockByte b) data s = .ok () t := by
  obtain ⟨q, s1, h1, h2⟩ := op_bind_returns hr
  obtain ⟨hq, rfl⟩ := checkCard_returns h1
  obtain ⟨blk, s2, h3, h4⟩ := op_bind_returns h2
  obtain ⟨hb, rfl, rfl⟩ := checkBlock_returns h3
  obtain ⟨_, s3, h5, h6⟩ := op_bind_returns h4
  obtain ⟨hd, rfl⟩ := ensure_returns h5
  exact ⟨q, hq, hb, of_decide_eq_true hd, h6⟩

/-- READ_INT32 past its checks (R280). -/
theorem readInt32_held {c : Cfg} {h : Handle} {q : Session} {b off : Int} {sg : Bool} {s : State} (hq : s.holds h q)
    (hb : 0 ≤ b ∧ b < c.blockCount) (ho : 0 ≤ off ∧ off ≤ c.int32OffsetMax) :
    readInt32 c h b off sg s = (readExchange c (blockByte b) >>= fun d =>
      pure (if sg then toSigned (be32 d off.toNat) else (be32 d off.toNat : Int))) s := by
  show (checkCard h >>= fun _ => checkBlock c b >>= fun _ => checkOffset c off >>= fun o => readBlock c h b >>= fun d =>
    pure (if sg then toSigned (be32 d o) else (be32 d o : Int))) s = _
  rw [op_bind_ok (checkCard_held hq), op_bind_ok (checkBlock_ok hb), op_bind_ok (checkOffset_ok ho)]
  show EStateM.bind _ _ _ = EStateM.bind _ _ _
  simp only [EStateM.bind, readBlock_held hq hb]

/-- WRITE_INT32 past its checks (R281). -/
theorem writeInt32_held {c : Cfg} {h : Handle} {q : Session} {b off v : Int} {s : State} (hq : s.holds h q)
    (hb : 0 ≤ b ∧ b < c.blockCount) (ho : 0 ≤ off ∧ off ≤ c.int32OffsetMax) (hv : -(2 : Int) ^ 31 ≤ v ∧ v < (2 : Int) ^ 32) :
    writeInt32 c h b off v s = (readExchange c (blockByte b) >>= fun d =>
      writeBlock c h b (spliceAt d off.toNat (bytes32 v))) s := by
  show (checkCard h >>= fun _ => checkBlock c b >>= fun _ => checkOffset c off >>= fun o => checkValue v >>= fun _ =>
    readBlock c h b >>= fun d => writeBlock c h b (spliceAt d o (bytes32 v))) s = _
  rw [op_bind_ok (checkCard_held hq), op_bind_ok (checkBlock_ok hb), op_bind_ok (checkOffset_ok ho),
    op_bind_ok (show checkValue v s = .ok () s from ensure_true (decide_eq_true hv))]
  show EStateM.bind _ _ _ = EStateM.bind _ _ _
  simp only [EStateM.bind, readBlock_held hq hb]

/-! ## Strings (R272) -/

/-- `strip` removes exactly the trailing zeros. -/
theorem strip_spec (d : List Byte) :
    (∃ zeros, d = strip d ++ List.replicate zeros 0#8) ∧ (strip d).getLast? ≠ some 0#8 := by
  unfold strip
  constructor
  · refine ⟨(d.reverse.takeWhile fun b => b == 0#8).length, ?_⟩
    have h := congrArg List.reverse (List.takeWhile_append_dropWhile (p := fun b : Byte => b == 0#8) (l := d.reverse))
    rw [List.reverse_append, List.reverse_reverse] at h
    have hz : ((d.reverse.takeWhile fun b => b == 0#8).reverse) =
        List.replicate (d.reverse.takeWhile fun b => b == 0#8).length 0#8 := by
      rw [List.eq_replicate_iff]
      refine ⟨List.length_reverse, fun b hb => ?_⟩
      simpa using List.mem_takeWhile_imp (List.mem_reverse.mp hb)
    rw [← hz]; exact h.symm
  · rw [List.getLast?_reverse]
    intro h
    have := List.head?_dropWhile_not (fun b : Byte => b == 0#8) d.reverse
    rw [h] at this
    simp at this

/-- A string that does not end in zero is what remains of itself with zeros appended. -/
theorem strip_append_zeros (d : List Byte) (n : Nat) (h : d.getLast? ≠ some 0#8) :
    strip (d ++ List.replicate n 0#8) = d := by
  unfold strip
  rw [List.reverse_append, List.reverse_replicate, List.dropWhile_append_of_pos (by simp)]
  rw [← List.head?_reverse] at h
  cases hd : d.reverse with
  | nil => simpa using hd.symm
  | cons b bs =>
    have hb : (b == 0#8) = false := by simpa [hd] using h
    rw [List.dropWhile_cons_of_neg (by simp [hb]), ← hd, List.reverse_reverse]

theorem pad16_length (c : Cfg) (str : List Byte) : (pad16 c str).length = c.blockSize := by
  simp [pad16]; omega

/-- What READ_STR makes of a padded string: its first block without trailing zeros (R277). -/
theorem strip_pad16 (c : Cfg) (str : List Byte) :
    (∃ zeros, str.take c.blockSize = strip (pad16 c str) ++ List.replicate zeros 0#8) ∧
      (strip (pad16 c str)).getLast? ≠ some 0#8 := by
  obtain ⟨⟨z, hz⟩, hl⟩ := strip_spec (str.take c.blockSize)
  have : strip (pad16 c str) = strip (str.take c.blockSize) := by
    unfold pad16
    conv_lhs => rw [hz, List.append_assoc, List.replicate_append_replicate]
    exact strip_append_zeros _ _ hl
  rw [this]
  exact ⟨⟨z, hz⟩, hl⟩

/-! ## Integers (R273) -/

theorem bytes32_length (v : Int) : (bytes32 v).length = 4 := rfl

theorem pattern32_lt (v : Int) : pattern32 v < 2 ^ 32 := by unfold pattern32; omega

/-- The four bytes of a 32-bit number, put together again. -/
theorem be32Bytes_split (n : Nat) (h : n < 2 ^ 32) :
    be32Bytes (BitVec.ofNat 8 (n / 2 ^ 24)) (BitVec.ofNat 8 (n / 2 ^ 16)) (BitVec.ofNat 8 (n / 2 ^ 8))
      (BitVec.ofNat 8 n) = n := by
  unfold be32Bytes
  simp only [BitVec.toNat_ofNat]
  omega

/-- A byte of a spliced block at an offset of the splice. -/
theorem byteAt_splice {d w : List Byte} {off k : Nat} (ho : off ≤ d.length) (hk : k < w.length) :
    byteAt (spliceAt d off w) (off + k) = byteAt w k := by
  unfold byteAt spliceAt
  rw [List.getD_eq_getElem?_getD, List.getD_eq_getElem?_getD, List.append_assoc]
  rw [List.getElem?_append_right (by rw [List.length_take]; omega), List.length_take, min_eq_left ho,
    Nat.add_sub_cancel_left, List.getElem?_append_left hk]

/-- The integer read back from a block it was written into (R282). -/
theorem be32_splice {d : List Byte} {off : Nat} (v : Int) (ho : off ≤ d.length) :
    be32 (spliceAt d off (bytes32 v)) off = pattern32 v := by
  unfold be32
  have h0 := byteAt_splice (d := d) (w := bytes32 v) (off := off) (k := 0) ho (by simp [bytes32])
  have h1 := byteAt_splice (d := d) (w := bytes32 v) (off := off) (k := 1) ho (by simp [bytes32])
  have h2 := byteAt_splice (d := d) (w := bytes32 v) (off := off) (k := 2) ho (by simp [bytes32])
  have h3 := byteAt_splice (d := d) (w := bytes32 v) (off := off) (k := 3) ho (by simp [bytes32])
  rw [Nat.add_zero] at h0
  rw [h0, h1, h2, h3]
  exact be32Bytes_split _ (pattern32_lt v)

theorem toSigned_pattern32 {v : Int} (h : -(2 : Int) ^ 31 ≤ v ∧ v < (2 : Int) ^ 31) : toSigned (pattern32 v) = v := by
  unfold toSigned pattern32
  split <;> omega

theorem pattern32_unsigned {v : Int} (h : 0 ≤ v ∧ v < (2 : Int) ^ 32) : (pattern32 v : Int) = v := by
  unfold pattern32; omega

theorem spliceAt_length {d w : List Byte} {off : Nat} (h : off + w.length ≤ d.length) :
    (spliceAt d off w).length = d.length := by
  simp [spliceAt]; omega

/-! ## DUMP (R290) -/

/-- One block of the sweep that was authenticated: the read exchange's outcome. -/
theorem dumpBlock_answered {c : Cfg} {h : Handle} {q : Session} {b : Nat} {x : BlockRun} {s : State}
    (hq : s.holds h q) (hb : b < c.blockCount) (hx : x.completes c = true) (ha : s.Answers (x.trace c b q)) :
    dumpBlock c h b s =
      if cryptoOn c x.status2 then
        if readOk c (x.read.response c) then
          .ok x.read.exchange.bytes
            (State.busStep { s with session := withCrypto s.session true } (x.trace c b q) (x.logged c b))
        else
          .error { cause := .readFailed (x.read.response c), mark := .none }
            (State.busStep { s with session := withCrypto s.session true } (x.trace c b q) (x.logged c b))
      else
        .error { cause := .authenticationFailed .notActive, mark := .none }
          (State.busStep { s with session := withCrypto s.session false } (x.trace c b q) (x.logged c b)) := by
  simp only [BlockRun.completes, Bool.and_eq_true, beq_iff_eq] at hx
  obtain ⟨⟨hx1, hx2⟩, hx3⟩ := hx
  have hbb : (0 : Int) ≤ (b : Int) ∧ (b : Int) < c.blockCount := by omega
  have hblk : blockByte (b : Int) = BitVec.ofNat 8 b := rfl
  have hA := @authenticate_answered c h b c.dumpKeyMode none q x.auth x.status2 s hq hbb hx1 hx2
  rw [hblk] at hA
  show (authenticate c h b c.dumpKeyMode none >>= fun _ => readBlock c h b) s = _
  by_cases hc : cryptoOn c x.status2 = true
  · have hT : x.trace c b q = (x.auth.trace c .authent (authPayload c.dumpKeyMode (BitVec.ofNat 8 b) q.key q.uid) 0 ++
        [.read c.regMap.status2 x.status2]) ++ x.read.trace c [c.cardCmd.read, BitVec.ofNat 8 b] := by
      simp [BlockRun.trace, hc]
    rw [hT] at ha
    obtain ⟨a1, a2⟩ := (State.answers_append s _ _).mp ha
    obtain ⟨s1, hs1⟩ : ∃ s1 : State, s1 = { s.ran (x.auth.trace c .authent (authPayload c.dumpKeyMode (BitVec.ofNat 8 b)
      q.key q.uid) 0 ++ [.read c.regMap.status2 x.status2]) with session := withCrypto s.session true } := ⟨_, rfl⟩
    have hA1 : authenticate c h b c.dumpKeyMode none s = .ok () s1 := by rw [hs1]; exact (hA a1).trans (if_pos hc)
    have hq1 : s1.holds h { q with cryptoActive := true } := by
      rw [hs1]; exact ⟨by simp [hq.1, withCrypto], hq.2.1, hq.2.2⟩
    have a3 : s1.Answers (x.read.trace c [c.cardCmd.read, BitVec.ofNat 8 b]) := by rw [hs1]; exact a2
    rw [op_bind_ok hA1, readBlock_held hq1 hbb, hblk, readExchange_answered (by simpa [hc] using hx3) a3, if_pos hc, hT,
      hs1]
    simp [BlockRun.logged, hc, State.busStep, State.ran, Nat.add_assoc, Nat.add_comm 1]
  · have hT : x.trace c b q = (x.auth.trace c .authent (authPayload c.dumpKeyMode (BitVec.ofNat 8 b) q.key q.uid) 0 ++
        [.read c.regMap.status2 x.status2]) := by
      simp [BlockRun.trace, hc]
    rw [hT] at ha
    have hA := hA ha
    rw [if_neg hc] at hA
    rw [op_bind_error hA, if_neg hc, hT]
    simp [BlockRun.logged, hc, State.busStep, State.ran]

/-- A block that was read is reported with its bytes. -/
theorem dumpFrom_read {c : Cfg} {h : Handle} {b : Nat} {bs : List Nat} {out : List (Nat × BlockReport)} {d : List Byte}
    {s t : State} (hb : dumpBlock c h b s = .ok d t) :
    dumpFrom c h (b :: bs) out s = dumpFrom c h bs (out ++ [(b, .data d)]) t := by
  simp [dumpFrom, hb]

/-- A refused authentication is reported inline (R291). -/
theorem dumpFrom_authFailed {c : Cfg} {h : Handle} {b : Nat} {bs : List Nat} {out : List (Nat × BlockReport)}
    {why : AuthFailure} {m : Mark} {s t : State}
    (hb : dumpBlock c h b s = .error { cause := .authenticationFailed why, mark := m } t) :
    dumpFrom c h (b :: bs) out s = dumpFrom c h bs (out ++ [(b, .authFailed why)]) t := by
  simp [dumpFrom, hb]

/-- A failed read is reported inline (R291). -/
theorem dumpFrom_readFailed {c : Cfg} {h : Handle} {b : Nat} {bs : List Nat} {out : List (Nat × BlockReport)}
    {r : Response} {m : Mark} {s t : State} (hb : dumpBlock c h b s = .error { cause := .readFailed r, mark := m } t) :
    dumpFrom c h (b :: bs) out s = dumpFrom c h bs (out ++ [(b, .readFailed r)]) t := by
  simp [dumpFrom, hb]

/-- Any other error ends the sweep with the entries gathered (R291). -/
theorem dumpFrom_raised {c : Cfg} {h : Handle} {b : Nat} {bs : List Nat} {out : List (Nat × BlockReport)} {e : Err}
    {s t : State} (hb : dumpBlock c h b s = .error e t) (ha : ∀ why, e.cause ≠ .authenticationFailed why)
    (hr : ∀ r, e.cause ≠ .readFailed r) :
    dumpFrom c h (b :: bs) out s = .error { e with mark := .dump out } t := by
  obtain ⟨cause, m⟩ := e
  cases cause <;> simp_all [dumpFrom]

/-- One block of the sweep whose answers are known: the sweep goes on with the rest (R291). -/
theorem dumpFrom_step {c : Cfg} {h : Handle} {q : Session} {b : Nat} {bs : List Nat} {out : List (Nat × BlockReport)}
    {x : BlockRun} {s : State} (hq : s.holds h q) (hb : b < c.blockCount) (hx : x.completes c = true)
    (ha : s.Answers (x.trace c b q)) :
    dumpFrom c h (b :: bs) out s =
      dumpFrom c h bs (out ++ [(b, x.report c)])
        (State.busStep { s with session := withCrypto s.session (cryptoOn c x.status2) } (x.trace c b q)
          (x.logged c b)) := by
  have hd := dumpBlock_answered hq hb hx ha
  unfold BlockRun.report
  by_cases hc : cryptoOn c x.status2 = true
  · rw [if_pos hc] at hd
    by_cases hr : readOk c (x.read.response c) = true
    · rw [if_pos hr] at hd
      rw [dumpFrom_read hd, if_pos hc, if_pos hr, hc]
    · rw [if_neg hr] at hd
      rw [dumpFrom_readFailed hd, if_pos hc, if_neg hr, hc]
  · rw [if_neg hc] at hd
    rw [dumpFrom_authFailed hd, if_neg hc, Bool.eq_false_iff.mpr hc]

/-- The sweep, given the answers for every block. -/
theorem dumpFrom_answered {c : Cfg} {h : Handle} :
    ∀ (runs : List BlockRun) (b : Nat) (out : List (Nat × BlockReport)) (q : Session) (s : State) (last : BlockRun),
      s.holds h q → b + runs.length ≤ c.blockCount → (∀ x ∈ runs, x.completes c = true) → runs.getLast? = some last →
      s.Answers (sweepTrace c q b runs) →
      dumpFrom c h (List.range' b runs.length) out s =
        .ok (out ++ sweepEntries c b runs)
          (State.busStep { s with session := some { q with cryptoActive := cryptoOn c last.status2 } }
            (sweepTrace c q b runs) (sweepLogged c b runs)) := by
  intro runs
  induction runs with
  | nil => intro b out q s last _ _ _ hl; simp at hl
  | cons x xs ih =>
    intro b out q s last hq hb hx hl ha
    obtain ⟨a1, a2⟩ := (State.answers_append s (x.trace c b q) (sweepTrace c q (b + 1) xs)).mp ha
    rw [List.length_cons] at hb ⊢
    rw [List.range'_succ, dumpFrom_step hq (by omega) (hx x (by simp)) a1]
    have hs : withCrypto s.session (cryptoOn c x.status2) = some { q with cryptoActive := cryptoOn c x.status2 } := by
      simp [hq.1, withCrypto]
    rw [hs]
    cases xs with
    | nil =>
      obtain rfl : x = last := by simpa using hl
      simp [dumpFrom, sweepTrace, sweepLogged, sweepEntries]
    | cons y ys =>
      have hT : sweepTrace c { q with cryptoActive := cryptoOn c x.status2 } (b + 1) (y :: ys) =
          sweepTrace c q (b + 1) (y :: ys) := by
        have : ∀ (zs : List BlockRun) (k : Nat), sweepTrace c { q with cryptoActive := cryptoOn c x.status2 } k zs =
            sweepTrace c q k zs := by
          intro zs
          induction zs with
          | nil => intro k; rfl
          | cons z zs ihz => intro k; simp only [sweepTrace, ihz]; rfl
        exact this _ _
      have hq' : (State.busStep { s with session := some { q with cryptoActive := cryptoOn c x.status2 } } (x.trace c b q)
          (x.logged c b)).holds h { q with cryptoActive := cryptoOn c x.status2 } := ⟨rfl, hq.2⟩
      rw [ih (b + 1) _ { q with cryptoActive := cryptoOn c x.status2 } _ last hq' (by simp at hb ⊢; omega)
        (fun z hz => hx z (by simp [hz])) (by simpa using hl)
        (by rw [hT]; exact State.answers_congr rfl rfl rfl a2)]
      rw [hT]
      simp [sweepTrace, sweepLogged, sweepEntries, State.busStep, State.ran, Nat.add_assoc]

end Sys2Proof.Machine
end

