-- ==== Sys2Proof/Laws/Decode.lean ====
section
/-!
SUPPORT. The small lemmas of the decoder's and encoder's parts (spec/30_encoding.md R91, R92).
-/

namespace Sys2Proof

@[simp] theorem HostOp.ofCode_code (o : HostOp) : HostOp.ofCode o.code = some o := by cases o <;> rfl

/-- The operation an `op` selects has that `op`. -/
theorem HostOp.code_of_ofCode {op : Byte} {o : HostOp} (h : HostOp.ofCode op = some o) : o.code = op := by
  simpa using List.find?_some h

@[simp] theorem u8OfInt_toNat (v : Byte) : u8OfInt (v.toNat : Int) = some v := by
  have := v.isLt
  have h : (0 : Int) ≤ v.toNat ∧ (v.toNat : Int) ≤ 255 := by omega
  simp [u8OfInt, h]

/-- An integer that is a `u8` operand is the byte it gives. -/
theorem eq_toNat_of_u8OfInt {z : Int} {v : Byte} (h : u8OfInt z = some v) : z = v.toNat := by
  unfold u8OfInt at h
  split at h
  · cases h; simp; omega
  · cases h

@[simp] theorem keyOfBytes_toList (k : Key) : keyOfBytes k.toList = some k := rfl

/-- The bytes of a `key` operand are the key's. -/
theorem eq_toList_of_keyOfBytes {bs : List Byte} {k : Key} (h : keyOfBytes bs = some k) : bs = k.toList := by
  unfold keyOfBytes at h
  split at h
  · cases h; rfl
  · cases h

end Sys2Proof
end

