-- ==== Sys2Proof/Laws/Requests.lean ====
section
/-!
SUPPORT. What a whole request does: the result it records, failed transactions, and the operations of exec that are their
checks followed by one shared operation.
-/

namespace Sys2Proof.Machine

/-- The state a top-level operation runs in: its caller holds the lock. -/
abbrev State.locked (s : State) : State := { s with lock := some s.agent }

@[simp] theorem State.busStep_trace_append (s : State) (T : List TraceEntry) (L : List LogEntry) :
    (s.busStep T L).trace = s.trace ++ T := rfl

/-- A request records one result; two ways to write it agree. -/
theorem replied_results_inj {s : State} {T : List TraceEntry} {L : List LogEntry} {r r' : Result}
    (h : ((s.busStep T L).replied r).results = s.results ++ [{ caller := s.agent, result := r' }]) : r = r' := by
  simpa using h

/-- How a request ended: its operation `m`, run under the lock, returned or raised the result `r`. -/
def Ended (m : EStateM.Result Err State ResultValue) (r : Result) (u : State) : Prop :=
  (∃ v, r = .ok v ∧ m = .ok v u) ∨ ∃ e, r = .err e ∧ m = .error e u

/-- How a top-level operation that only uses the bus ends: its transactions, its log entries and one result. -/
theorem topLevel_ends {P : TraceEntry → Prop} {Q : LogEntry → Prop} {n : Nat} {op : Op ResultValue} {s t : State}
    (hb : Effects P Q n op) (h : topLevel op s = .next t) :
    ∃ T L r, t = (s.busStep T L).replied r ∧ T.length ≤ n ∧ (∀ e ∈ T, P e) ∧ (∀ e ∈ L, Q e) ∧
      FailsLast (op s.locked) T ∧ Ended (op s.locked) r (s.locked.busStep T L) := by
  obtain ⟨-, rfl⟩ := topLevel_next h
  obtain ⟨T, L, he, hl, hP, hQ, hF⟩ := hb s.locked
  cases hm : op s.locked with
  | ok v u =>
    have hu : u = s.locked.busStep T L := by rw [hm] at he; exact he
    subst hu
    rw [hm] at hF
    exact ⟨T, L, .ok v, by rw [finish_ok]; rfl, hl, hP, hQ, hF, .inl ⟨v, rfl, rfl⟩⟩
  | error e u =>
    have hu : u = s.locked.busStep T L := by rw [hm] at he; exact he
    subst hu
    rw [hm] at hF
    exact ⟨T, L, .err e, by rw [finish_error]; rfl, hl, hP, hQ, hF, .inr ⟨e, rfl, rfl⟩⟩

/-- An operation that requires `initialised` and answers a next state is a top-level operation of an initialised
controller. -/
theorem cardOperation_topLevel {op : Op ResultValue} {s t : State} (h : cardOperation op s = .next t) :
    s.initialised = true ∧ topLevel op s = .next t := by
  unfold cardOperation whenInitialised at h
  split at h
  · rename_i hi; exact ⟨hi, h⟩
  · cases h

/-- The same of an operation whose operands must have their types. -/
theorem whenTyped_next {ok : Bool} {o : Outcome} {t : State} (h : whenTyped ok o = .next t) : ok = true ∧ o = .next t := by
  unfold whenTyped at h
  split at h
  · rename_i hi; exact ⟨hi, h⟩
  · cases h

/-- A failed transaction of an operation that failed or returned is its last, and the result says so (R362). -/
theorem Ended.failed {m : EStateM.Result Err State ResultValue} {r : Result} {u : State} {T : List TraceEntry} {a : Addr}
    (h : Ended m r u) (hF : FailsLast m T) (ha : TraceEntry.fail a ∈ T) :
    ∃ U mark, T = U ++ [.fail a] ∧ (∀ e ∈ U, e.failed = false) ∧
      r = .err { cause := .transportError a, mark := mark } := by
  rcases h with ⟨v, rfl, rfl⟩ | ⟨e, rfl, rfl⟩
  · exact absurd (hF _ ha) (by simp [TraceEntry.failed])
  · rcases hF with ⟨hU, -⟩ | ⟨U, b, rfl, hU, hb⟩
    · exact absurd (hU _ ha) (by simp [TraceEntry.failed])
    · have hab : a = b := by
        rcases List.mem_append.mp ha with h | h
        · exact absurd (hU _ h) (by simp [TraceEntry.failed])
        · simpa using h
      subst hab
      exact ⟨U, e.mark, rfl, hU, by cases e; simp_all⟩

/-- A card operation whose body returns. -/
theorem cardOperation_returned {op : Op ResultValue} {v : ResultValue} {s t : State} (hi : s.initialised = true)
    (hl : s.lock = none) (h : op s.locked = .ok v t) : cardOperation op s = .next (t.replied (.ok v)) := by
  rw [cardOperation_ready hi hl, h, finish_ok]

/-- A card operation whose body raises. -/
theorem cardOperation_raised {op : Op ResultValue} {e : Err} {s t : State} (hi : s.initialised = true)
    (hl : s.lock = none) (h : op s.locked = .error e t) : cardOperation op s = .next (t.replied (.err e)) := by
  rw [cardOperation_ready hi hl, h, finish_error]

/-- An argument check that fails ends a card operation at once: nothing but the result is recorded (R361). -/
theorem cardOperation_rejected {op : Op ResultValue} {e : Cause} {s : State} (hi : s.initialised = true)
    (hl : s.lock = none) (h : op s.locked = .error { cause := e, mark := .none } s.locked) :
    cardOperation op s = .next (s.replied (raised e)) := by
  rw [cardOperation_raised hi hl h]
  rfl

/-! ## Failed transactions -/

theorem regRead_failed {c : Cfg} (hc : c.transportMayFail = true) {a : Addr} {s : State} (h : s.Answers [.fail a]) :
    regRead c a s = .error { cause := .transportError a, mark := .none } (s.ran [.fail a]) := by
  rw [State.answers_cons] at h
  have hf : (s.draw a).fails = true := by simpa [entryAnswered] using h.1
  simp [regRead, Cfg.transportFails, hf, hc, State.transact_eq_ran]

theorem regWrite_failed {c : Cfg} (hc : c.transportMayFail = true) {a : Addr} {v : Byte} {s : State}
    (h : s.Answers [.fail a]) :
    regWrite c a v s = .error { cause := .transportError a, mark := .none } (s.ran [.fail a]) := by
  rw [State.answers_cons] at h
  have hf : (s.draw a).fails = true := by simpa [entryAnswered] using h.1
  simp [regWrite, Cfg.transportFails, hf, hc, State.transact_eq_ran]

/-- SET_BITS whose read fails issues no write (R132). -/
theorem setBits_readFailed {c : Cfg} (hc : c.transportMayFail = true) {a : Addr} {m : Byte} {s : State}
    (h : s.Answers [.fail a]) :
    setBits c a m s = .error { cause := .transportError a, mark := .none } (s.ran [.fail a]) :=
  op_bind_error (regRead_failed hc h)

/-- CLEAR_BITS whose read fails issues no write (R133). -/
theorem clearBits_readFailed {c : Cfg} (hc : c.transportMayFail = true) {a : Addr} {m : Byte} {s : State}
    (h : s.Answers [.fail a]) :
    clearBits c a m s = .error { cause := .transportError a, mark := .none } (s.ran [.fail a]) :=
  op_bind_error (regRead_failed hc h)

theorem setBits_writeFailed {c : Cfg} (hc : c.transportMayFail = true) {a : Addr} {v m : Byte} {s : State}
    (h : s.Answers [.read a v, .fail a]) :
    setBits c a m s = .error { cause := .transportError a, mark := .none } (s.ran [.read a v, .fail a]) := by
  obtain ⟨h1, h2⟩ := (State.answers_append s [.read a v] [.fail a]).mp h
  show (regRead c a >>= fun v => regWrite c a (v ||| m)) s = _
  rw [op_bind_ok (regRead_answered h1), regWrite_failed hc h2, ← State.ran_append]
  rfl

theorem clearBits_writeFailed {c : Cfg} (hc : c.transportMayFail = true) {a : Addr} {v m : Byte} {s : State}
    (h : s.Answers [.read a v, .fail a]) :
    clearBits c a m s = .error { cause := .transportError a, mark := .none } (s.ran [.read a v, .fail a]) := by
  obtain ⟨h1, h2⟩ := (State.answers_append s [.read a v] [.fail a]).mp h
  show (regRead c a >>= fun v => regWrite c a (v &&& ~~~m)) s = _
  rw [op_bind_ok (regRead_answered h1), regWrite_failed hc h2, ← State.ran_append]
  rfl

/-! ## TRANSCEIVE and CRC16 as requests -/

/-- TRANSCEIVE past its checks (R150, R92, R361). -/
theorem execTransceive_ready {cmd : ChipCommand} {payload : List Byte} {framing : Nat} {s : State}
    (hc : cmd = .transceive ∨ cmd = .authent) (hf : framing ≤ 7) (hp : payload.length ≤ 64) (hi : s.initialised = true)
    (hl : s.lock = none) :
    execTransceive cmd payload framing s =
      .next (finish ((transceive Config.cfg cmd payload framing >>= fun r => pure (.response r)) s.locked)) := by
  have hw : Instr.wf (.transceive cmd payload framing) = true := by
    show (cmd.isFrame && framingOk framing) = true
    rcases hc with rfl | rfl <;> simp [ChipCommand.isFrame, framingOk, hf]
  show whenTyped _ (cardOperation (checkPayload Config.cfg payload >>= fun _ =>
    transceive Config.cfg cmd payload framing >>= fun r => pure (.response r)) s) = _
  rw [whenTyped, if_pos hw, cardOperation_ready hi hl]
  rw [op_bind_ok (show checkPayload Config.cfg payload _ = .ok () _ from ensure_true (decide_eq_true hp))]

/-- CRC16 past its checks (R190, R361). -/
theorem execCrc16_ready {bytes : List Byte} {s : State} (hp : bytes.length ≤ 64) (hi : s.initialised = true)
    (hl : s.lock = none) :
    execCrc16 bytes s =
      .next (finish ((crc16 Config.cfg bytes >>= fun crc => pure (.crc crc.1 crc.2)) s.locked)) := by
  show cardOperation (checkPayload Config.cfg bytes >>= fun _ => crc16 Config.cfg bytes >>= fun crc =>
    pure (.crc crc.1 crc.2)) s = _
  rw [cardOperation_ready hi hl]
  rw [op_bind_ok (show checkPayload Config.cfg bytes _ = .ok () _ from ensure_true (decide_eq_true hp))]

/-- How TRANSCEIVE as a request ends, whatever the environment answers. -/
theorem execTransceive_ends {cmd : ChipCommand} {payload : List Byte} {framing : Nat} {s t : State}
    (h : execTransceive cmd payload framing s = .next t) :
    (cmd = .transceive ∨ cmd = .authent) ∧ ∃ T r, T.length ≤ 15 + payload.length + 2000 + 16 ∧
      t = (s.ran T).replied r ∧
      ∀ resp, r = .ok (.response resp) → ∃ x : Exchange, x.completes Config.cfg cmd = true ∧
        resp = x.response Config.cfg cmd ∧ T = x.trace Config.cfg cmd payload framing := by
  obtain ⟨hw, h⟩ := whenTyped_next h
  obtain ⟨-, h⟩ := cardOperation_topLevel h
  have hw : (cmd.isFrame && framingOk framing) = true := hw
  refine ⟨by cases cmd <;> simp_all [ChipCommand.isFrame], ?_⟩
  obtain ⟨T, L, r, ht, hn, -, hL, -, hr⟩ := topLevel_ends (Q := noEntry)
    (effects_bind (effects_checkPayload Config.cfg payload) fun _ =>
      effects_bind (effects_transceive Config.cfg cmd payload framing) fun r =>
      effects_pure (ResultValue.response r)) h
  obtain rfl : L = [] := List.eq_nil_iff_forall_not_mem.mpr hL
  have hn' : T.length ≤ 15 + payload.length + 2000 + 16 := by
    have h1 : Config.cfg.trxBudget = 2000 := rfl
    have h2 : Config.cfg.maxLen = 16 := rfl
    omega
  refine ⟨T, r, hn', by rw [ht, State.ran_eq_busStep], fun resp hresp => ?_⟩
  rcases hr with ⟨v, rfl, hv⟩ | ⟨e, rfl, he⟩
  swap
  · cases hresp
  cases hresp
  obtain ⟨_, s1, h1, h2⟩ := op_bind_returns hv
  obtain ⟨-, rfl⟩ := ensure_returns h1
  obtain ⟨r', s2, h3, h4⟩ := op_bind_returns h2
  cases h4
  obtain ⟨x, hx, hxr, -, ha⟩ := transceive_returns rfl h3
  exact ⟨x, hx, hxr, by simpa using congrArg State.trace ha⟩

end Sys2Proof.Machine
end

