-- ==== Sys2Proof/Laws/Frames.lean ====
section
/-!
SUPPORT. What the operations that change more than the bus do to the history (every operation) and to the session
(AUTHENTICATE, END_SESSION, DUMP, DETECT), whatever the environment answers.
-/

namespace Sys2Proof.Machine

/-! ## Histories: every operation -/

/-- What an operation inside a request leaves: the results, labels, events and the caller as they were, the log extended. -/
structure Carried (s t : State) : Prop where
  results : t.results = s.results
  agent : t.agent = s.agent
  labels : t.labels = s.labels
  events : t.events = s.events
  log : s.log <+: t.log

theorem Carried.trans {s t u : State} (h : Carried s t) (k : Carried t u) : Carried s u :=
  ⟨k.results.trans h.results, k.agent.trans h.agent, k.labels.trans h.labels, k.events.trans h.events, h.log.trans k.log⟩

theorem carried_busStep (s : State) (T : List TraceEntry) (L : List LogEntry) : Carried s (s.busStep T L) :=
  ⟨rfl, rfl, rfl, rfl, List.prefix_append _ _⟩

/-- The operation extends the history by entries satisfying `P`, and a failed transaction is the last (R38, R362). -/
def Traced (P : TraceEntry → Prop) {α : Type} (m : Op α) : Prop :=
  ∀ s : State, ∃ T, (endState (m s)).trace = s.trace ++ T ∧ (∀ e ∈ T, P e) ∧ FailsLast (m s) T ∧
    Carried s (endState (m s))

variable {P : TraceEntry → Prop} {Q : LogEntry → Prop}

theorem Effects.traced {α : Type} {m : Op α} {n : Nat} (h : Effects P Q n m) : Traced P m := fun s =>
  let ⟨T, L, he, _, h1, _, h3⟩ := h s
  ⟨T, by rw [he]; rfl, h1, h3, by rw [he]; exact carried_busStep s T L⟩

/-- An operation that only changes other fields. -/
theorem traced_quiet {α : Type} {m : Op α} (h : ∀ s, ∃ a t, m s = .ok a t ∧ t.trace = s.trace ∧ Carried s t) :
    Traced P m := fun s =>
  let ⟨a, t, hm, ht, hc⟩ := h s
  ⟨[], by rw [hm]; simpa [endState] using ht, by simp, by rw [hm]; simp [FailsLast], by rw [hm]; exact hc⟩

theorem FailsLast.append {α : Type} {r : EStateM.Result Err State α} {T U : List TraceEntry}
    (hT : ∀ x ∈ T, x.failed = false) (h : FailsLast r U) : FailsLast r (T ++ U) := by
  cases r with
  | ok a s =>
    have h : ∀ x ∈ U, x.failed = false := h
    show ∀ x ∈ T ++ U, x.failed = false
    simp only [List.mem_append]; rintro x (hx | hx); exacts [hT x hx, h x hx]
  | error e s =>
    rcases h with ⟨hU, hne⟩ | ⟨V, b, rfl, hV, hb⟩
    · refine .inl ⟨?_, hne⟩
      simp only [List.mem_append]; rintro x (hx | hx); exacts [hT x hx, hU x hx]
    · refine .inr ⟨T ++ V, b, by rw [List.append_assoc], ?_, hb⟩
      simp only [List.mem_append]; rintro x (hx | hx); exacts [hT x hx, hV x hx]

theorem traced_bind {α β : Type} {m : Op α} {f : α → Op β} (hm : Traced P m) (hf : ∀ a, Traced P (f a)) :
    Traced P (m >>= f) := by
  intro s
  obtain ⟨T, he, hP, hF, hC⟩ := hm s
  cases h : m s with
  | ok a s' =>
    rw [h] at he hF hC
    obtain ⟨U, he', hP', hF', hC'⟩ := hf a s'
    refine ⟨T ++ U, ?_, ?_, ?_, ?_⟩
    · rw [op_bind_ok h, he', show s'.trace = _ from he, List.append_assoc]
    · simp only [List.mem_append]; rintro e (hm | hm); exacts [hP e hm, hP' e hm]
    · rw [op_bind_ok h]; exact FailsLast.append hF hF'
    · rw [op_bind_ok h]; exact hC.trans hC'
  | error e s' =>
    rw [h] at he hF hC
    exact ⟨T, by rw [op_bind_error h]; exact he, hP, by rw [op_bind_error h]; exact hF,
      by rw [op_bind_error h]; exact hC⟩

theorem traced_setCrypto (a : Bool) : Traced P (setCrypto a) :=
  traced_quiet fun s => ⟨(), _, rfl, rfl, rfl, rfl, rfl, rfl, List.prefix_refl s.log⟩

theorem carried_installed (c : Cfg) (s : State) (u : Uid) (bcc : Byte) : Carried s (State.installed c s u bcc) := by
  unfold State.installed
  split <;> exact ⟨rfl, rfl, rfl, rfl, List.prefix_refl _⟩

theorem traced_installSession (c : Cfg) (u : Uid) (bcc : Byte) : Traced P (installSession c u bcc) :=
  traced_quiet fun s => ⟨_, _, installSession_eq c u bcc s, by unfold State.installed; split <;> rfl,
    carried_installed c s u bcc⟩

theorem traced_detect (c : Cfg) : Traced (ownEntry c) (detect c) :=
  traced_bind (effects_request (Q := noEntry) c c.reqMode).traced fun _ =>
    traced_bind (effects_getUid (Q := noEntry) c).traced fun u => traced_installSession c u.1 u.2

theorem traced_authenticate (c : Cfg) (h : Handle) (b : Int) (keyMode : Byte) (key : Option Key) :
    Traced (ownEntry c) (authenticate c h b keyMode key) :=
  traced_bind (effects_checkCard (Q := noEntry) h).traced fun _ =>
    traced_bind (effects_checkBlock (Q := noEntry) c b).traced fun _ => traced_bind (traced_setCrypto _) fun _ =>
    traced_bind (effects_authExchange (Q := noEntry) c _ _ _ _).traced fun _ => traced_setCrypto _

/-- An entry of the block's own operations, END_SESSION among them. -/
def mapEntry (c : Cfg) (e : TraceEntry) : Prop := ∀ a, e.addr = some a → a ∈ c.regMap.all

theorem ownEntry_map {c : Cfg} {e : TraceEntry} (h : ownEntry c e) : mapEntry c e := by
  intro a ha
  cases e with
  | read b v =>
    obtain rfl : b = a := by simpa [TraceEntry.addr] using ha
    exact h
  | fail b =>
    obtain rfl : b = a := by simpa [TraceEntry.addr] using ha
    exact h
  | write b v =>
    obtain rfl : b = a := by simpa [TraceEntry.addr] using ha
    simp only [ownEntry, List.mem_cons, List.not_mem_nil, or_false] at h
    simp only [RegMap.all, List.mem_cons, List.not_mem_nil, or_false]
    rcases h with h | h | h | h | h | h | h <;> simp [h]
  | line l => cases ha

theorem Traced.map {c : Cfg} {α : Type} {m : Op α} (h : Traced (ownEntry c) m) : Traced (mapEntry c) m := fun s =>
  let ⟨T, h1, h2, h3⟩ := h s
  ⟨T, h1, fun e he => ownEntry_map (h2 e he), h3⟩

theorem traced_endSession (c : Cfg) : Traced (mapEntry c) (endSession c) := by
  refine traced_bind (effects_clearBits (Q := noEntry) c ?_ ?_ ?_).traced fun _ => traced_setCrypto _
  · intro v a ha; obtain rfl : _ = a := by simpa [TraceEntry.addr] using ha
    simp [RegMap.all]
  · intro v a ha; obtain rfl : _ = a := by simpa [TraceEntry.addr] using ha
    simp [RegMap.all]
  · intro a ha; obtain rfl : _ = a := by simpa [TraceEntry.addr] using ha
    simp [RegMap.all]

theorem traced_dumpBlock (c : Cfg) (h : Handle) (b : Nat) : Traced (ownEntry c) (dumpBlock c h b) :=
  traced_bind (traced_authenticate c h b c.dumpKeyMode none) fun _ => (effects_readBlock c h b).traced

theorem traced_dumpFrom (c : Cfg) (h : Handle) :
    ∀ (bs : List Nat) (out : List (Nat × BlockReport)), Traced (ownEntry c) (dumpFrom c h bs out)
  | [], out => (effects_pure (Q := noEntry) out).traced
  | b :: bs, out => by
    intro s
    obtain ⟨T, he, hP, hF, hC⟩ := traced_dumpBlock c h b s
    have go : ∀ (out' : List (Nat × BlockReport)) (t : State), dumpFrom c h (b :: bs) out s = dumpFrom c h bs out' t →
        t.trace = s.trace ++ T → (∀ x ∈ T, x.failed = false) → Carried s t →
        ∃ T, (endState (dumpFrom c h (b :: bs) out s)).trace = s.trace ++ T ∧ (∀ e ∈ T, ownEntry c e) ∧
          FailsLast (dumpFrom c h (b :: bs) out s) T ∧ Carried s (endState (dumpFrom c h (b :: bs) out s)) := by
      intro out' t h1 h2 h3 h4
      obtain ⟨U, he', hP', hF', hC'⟩ := traced_dumpFrom c h bs out' t
      refine ⟨T ++ U, ?_, ?_, ?_, by rw [h1]; exact h4.trans hC'⟩
      · rw [h1, he', h2, List.append_assoc]
      · simp only [List.mem_append]; rintro e (hm | hm); exacts [hP e hm, hP' e hm]
      · rw [h1]; exact FailsLast.append h3 hF'
    cases hd : dumpBlock c h b s with
    | ok d t =>
      rw [hd] at he hF hC
      exact go _ t (dumpFrom_read hd) he hF hC
    | error e t =>
      rw [hd] at he hF hC
      obtain ⟨cause, m⟩ := e
      have hT : ∀ _ : (∀ a, cause ≠ .transportError a), ∀ x ∈ T, x.failed = false := by
        intro hc
        rcases hF with ⟨h, -⟩ | ⟨_, a, -, -, hb⟩
        · exact h
        · exact absurd hb (hc a)
      by_cases ha : ∃ why, cause = .authenticationFailed why
      · obtain ⟨why, rfl⟩ := ha
        exact go _ t (dumpFrom_authFailed hd) he (hT (by simp)) hC
      · by_cases hr : ∃ r, cause = .readFailed r
        · obtain ⟨r, rfl⟩ := hr
          exact go _ t (dumpFrom_readFailed hd) he (hT (by simp)) hC
        · have := dumpFrom_raised (bs := bs) (out := out) hd (by simpa using ha) (by simpa using hr)
          rw [this]
          exact ⟨T, he, hP, hF, hC⟩

theorem traced_dump (c : Cfg) (h : Handle) : Traced (ownEntry c) (dump c h) :=
  traced_bind (effects_checkCard (Q := noEntry) h).traced fun _ => traced_dumpFrom c h _ _

/-- How a top-level operation ends: its transactions and one result for the caller. -/
theorem topLevel_traced {op : Op ResultValue} {s t : State} (hb : Traced P op) (h : topLevel op s = .next t) :
    ∃ T r, t.trace = s.trace ++ T ∧ (∀ e ∈ T, P e) ∧ t = (endState (op s.locked)).replied r ∧
      FailsLast (op s.locked) T ∧ Ended (op s.locked) r (endState (op s.locked)) ∧
      Carried s.locked (endState (op s.locked)) := by
  obtain ⟨-, rfl⟩ := topLevel_next h
  obtain ⟨T, he, hP, hF, hC⟩ := hb s.locked
  cases hm : op s.locked with
  | ok v u => rw [hm] at he hF hC; exact ⟨T, .ok v, he, hP, rfl, hF, .inl ⟨v, rfl, rfl⟩, hC⟩
  | error e u => rw [hm] at he hF hC; exact ⟨T, .err e, he, hP, rfl, hF, .inr ⟨e, rfl, rfl⟩, hC⟩

/-! ## The crypto mirror -/

@[simp] theorem withCrypto_withCrypto (q : Option Session) (a b : Bool) :
    withCrypto (withCrypto q a) b = withCrypto q b := by cases q <;> rfl

/-- The operation changes at most the bus, the log and the session's crypto mirror (R31). -/
def Mirrored {α : Type} (m : Op α) : Prop :=
  ∀ s : State, ∃ T L q, endState (m s) = State.busStep { s with session := q } T L ∧ (∀ e ∈ L, crcEntry e) ∧
    (q = s.session ∨ q = withCrypto s.session true ∨ q = withCrypto s.session false)

theorem Effects.mirrored {α : Type} {m : Op α} {n : Nat} (h : Effects P crcEntry n m) : Mirrored m := fun s =>
  let ⟨T, L, he, _, _, h2, _⟩ := h s
  ⟨T, L, s.session, he, h2, .inl rfl⟩

theorem mirrored_setCrypto (a : Bool) : Mirrored (setCrypto a) := fun s =>
  ⟨[], [], withCrypto s.session a, by rw [State.busStep_nil]; rfl, by simp, by cases a <;> simp⟩

theorem mirrored_bind {α β : Type} {m : Op α} {f : α → Op β} (hm : Mirrored m) (hf : ∀ a, Mirrored (f a)) :
    Mirrored (m >>= f) := by
  intro s
  obtain ⟨T, L, q, he, hL, hq⟩ := hm s
  cases h : m s with
  | ok a s' =>
    rw [h] at he
    have he : s' = _ := he
    obtain ⟨U, K, p, he', hK, hp⟩ := hf a s'
    refine ⟨T ++ U, L ++ K, p, ?_, ?_, ?_⟩
    · rw [op_bind_ok h, he', he]
      simp [State.busStep, State.ran, Nat.add_assoc]
    · simp only [List.mem_append]; rintro e (hm | hm); exacts [hL e hm, hK e hm]
    · rw [he] at hp
      rcases hq with rfl | rfl | rfl <;> simp at hp ⊢ <;> tauto
  | error e s' =>
    rw [h] at he
    exact ⟨T, L, q, by rw [op_bind_error h]; exact he, hL, hq⟩

theorem mirrored_endSession (c : Cfg) : Mirrored (endSession c) :=
  mirrored_bind (effects_clearBits (P := fun _ => True) c (fun _ => trivial) (fun _ => trivial) trivial).mirrored
    fun _ => mirrored_setCrypto _

theorem mirrored_authenticate (c : Cfg) (h : Handle) (b : Int) (keyMode : Byte) (key : Option Key) :
    Mirrored (authenticate c h b keyMode key) :=
  mirrored_bind (effects_checkCard (P := fun _ => True) h).mirrored fun _ =>
    mirrored_bind (effects_checkBlock (P := fun _ => True) c b).mirrored fun _ =>
    mirrored_bind (mirrored_setCrypto _) fun _ =>
    mirrored_bind (effects_authExchange c _ _ _ _).mirrored fun _ => mirrored_setCrypto _

theorem mirrored_dumpBlock (c : Cfg) (h : Handle) (b : Nat) : Mirrored (dumpBlock c h b) :=
  mirrored_bind (mirrored_authenticate c h b c.dumpKeyMode none) fun _ => (effects_readBlock c h b).mirrored

theorem mirrored_dumpFrom (c : Cfg) (h : Handle) :
    ∀ (bs : List Nat) (out : List (Nat × BlockReport)), Mirrored (dumpFrom c h bs out)
  | [], out => (effects_pure (P := fun _ => True) out).mirrored
  | b :: bs, out => by
    intro s
    obtain ⟨T, L, q, he, hL, hq⟩ := mirrored_dumpBlock c h b s
    have go : ∀ (out' : List (Nat × BlockReport)) (t : State), dumpFrom c h (b :: bs) out s = dumpFrom c h bs out' t →
        t = State.busStep { s with session := q } T L →
        ∃ T L q, endState (dumpFrom c h (b :: bs) out s) = State.busStep { s with session := q } T L ∧
          (∀ e ∈ L, crcEntry e) ∧ (q = s.session ∨ q = withCrypto s.session true ∨ q = withCrypto s.session false) := by
      intro out' t h1 h2
      obtain ⟨U, K, p, he', hK, hp⟩ := mirrored_dumpFrom c h bs out' t
      refine ⟨T ++ U, L ++ K, p, ?_, ?_, ?_⟩
      · rw [h1, he', h2]; simp [State.busStep, State.ran, Nat.add_assoc]
      · simp only [List.mem_append]; rintro e (hm | hm); exacts [hL e hm, hK e hm]
      · rw [h2] at hp
        rcases hq with rfl | rfl | rfl <;> simp at hp ⊢ <;> tauto
    cases hd : dumpBlock c h b s with
    | ok d t => rw [hd] at he; exact go _ t (dumpFrom_read hd) he
    | error e t =>
      rw [hd] at he
      obtain ⟨cause, m⟩ := e
      by_cases ha : ∃ why, cause = .authenticationFailed why
      · obtain ⟨why, rfl⟩ := ha; exact go _ t (dumpFrom_authFailed hd) he
      · by_cases hr : ∃ r, cause = .readFailed r
        · obtain ⟨r, rfl⟩ := hr; exact go _ t (dumpFrom_readFailed hd) he
        · have := dumpFrom_raised (bs := bs) (out := out) hd (by simpa using ha) (by simpa using hr)
          rw [this]
          exact ⟨T, L, q, he, hL, hq⟩

theorem mirrored_dump (c : Cfg) (h : Handle) : Mirrored (dump c h) :=
  mirrored_bind (effects_checkCard (P := fun _ => True) h).mirrored fun _ => mirrored_dumpFrom c h _ _

/-! ## DETECT -/

/-- How DETECT ends: an error leaves all but the history; success may have installed a session (R225). -/
theorem detect_ends (c : Cfg) (s : State) :
    (∃ T e t, detect c s = .error e t ∧ t = s.ran T ∧ FailsLast (detect c s) T ∧ (∀ x ∈ T, ownEntry c x)) ∨
      ∃ T u bcc, detect c s = .ok (s.handleFor u) (State.installed c (s.ran T) u bcc) ∧ bcc = uidBcc u ∧
        (∀ x ∈ T, ownEntry c x ∧ x.failed = false) := by
  obtain ⟨T, L, he, -, hP, hL, hF⟩ := effects_request (Q := noEntry) c c.reqMode s
  obtain rfl : L = [] := List.eq_nil_iff_forall_not_mem.mpr hL
  rw [← State.ran_eq_busStep] at he
  cases hr : request c c.reqMode s with
  | error e t =>
    rw [hr] at he hF
    have hd : detect c s = .error e t := op_bind_error hr
    exact .inl ⟨T, e, t, hd, he, by rw [hd]; exact hF, hP⟩
  | ok r s1 =>
    rw [hr] at he hF
    have he : s1 = s.ran T := he
    have hT : ∀ x ∈ T, x.failed = false := hF
    obtain ⟨U, K, he', -, hP', hK, hF'⟩ := effects_getUid (Q := noEntry) c s1
    obtain rfl : K = [] := List.eq_nil_iff_forall_not_mem.mpr hK
    rw [← State.ran_eq_busStep, he, ← State.ran_append] at he'
    cases hg : getUid c s1 with
    | error e t =>
      rw [hg] at hF'
      have hd : detect c s = .error e t := by
        show (request c c.reqMode >>= fun _ => getUid c >>= fun u => installSession c u.1 u.2) s = _
        rw [op_bind_ok hr, op_bind_error hg]
      rw [← he, hg] at he'
      refine .inl ⟨T ++ U, e, t, hd, he', ?_, ?_⟩
      · rw [hd]; exact FailsLast.append (r := .error e t) hT hF'
      · simp only [List.mem_append]; rintro e (hm | hm); exacts [hP e hm, hP' e hm]
    | ok u s2 =>
      rw [hg] at hF'
      have hU : ∀ x ∈ U, x.failed = false := hF'
      rw [← he, hg] at he'
      have he' : s2 = s.ran (T ++ U) := he'
      refine .inr ⟨T ++ U, u.1, u.2, ?_, ?_, ?_⟩
      · show (request c c.reqMode >>= fun _ => getUid c >>= fun u => installSession c u.1 u.2) s = _
        rw [op_bind_ok hr, op_bind_ok hg, installSession_eq, he']
        rfl
      · obtain ⟨r, s3, -, h2⟩ := op_bind_returns hg
        obtain ⟨_, s4, -, h4⟩ := op_bind_returns h2
        obtain ⟨_, s5, h5, h6⟩ := op_bind_returns h4
        obtain ⟨h7, rfl⟩ := ensure_returns h5
        cases h6
        exact (beq_iff_eq.mp h7).symm
      · simp only [List.mem_append]; rintro e (hm | hm); exacts [⟨hP e hm, hT e hm⟩, ⟨hP' e hm, hU e hm⟩]

end Sys2Proof.Machine
end

