-- ==== Sys2Proof/Laws/Raises.lean ====
section
/-!
SUPPORT. Which errors each operation can raise (spec/60_exceptions.md R350, R352).
-/

namespace Sys2Proof.Machine

/-- Every error the operation raises satisfies `P`. -/
def Raises (P : Err → Prop) {α : Type} (m : Op α) : Prop := ∀ s e t, m s = .error e t → P e

/-- A frame-layer error without a mark (R247, R360). -/
def frameErr (e : Err) : Prop := e.cause.isFrameLayer = true ∧ e.mark = .none

/-- A TransportError without a mark (R362). -/
def transportErr (e : Err) : Prop := ∃ a, e = { cause := .transportError a, mark := .none }

variable {P : Err → Prop}

theorem raises_mono {α : Type} {P' : Err → Prop} {m : Op α} (h : Raises P m) (hP : ∀ e, P e → P' e) : Raises P' m :=
  fun s e t he => hP e (h s e t he)

theorem raises_pure {α : Type} (a : α) : Raises P (pure a : Op α) := fun s e t h => by cases h

theorem raises_ensure {ok : Bool} {e : Cause} (h : P { cause := e, mark := .none }) : Raises P (ensure ok e) :=
  fun _ _ _ he => (ensure_raises he).2.1 ▸ h

theorem raises_bind {α β : Type} {m : Op α} {f : α → Op β} (hm : Raises P m) (hf : ∀ a, Raises P (f a)) :
    Raises P (m >>= f) := fun s e t h => by
  rcases op_bind_raises h with h | ⟨a, s', -, h⟩
  · exact hm _ _ _ h
  · exact hf _ _ _ _ h

theorem raises_regRead (c : Cfg) (a : Addr) : Raises transportErr (regRead c a) := fun s e t h => by
  rcases regRead_cases c a s with ⟨v, h'⟩ | h' <;> rw [h'] at h <;> cases h
  exact ⟨a, rfl⟩

theorem raises_regWrite (c : Cfg) (a : Addr) (v : Byte) : Raises transportErr (regWrite c a v) := fun s e t h => by
  rcases regWrite_cases c a v s with h' | h' <;> rw [h'] at h <;> cases h
  exact ⟨a, rfl⟩

theorem raises_setBits (c : Cfg) (a : Addr) (m : Byte) : Raises transportErr (setBits c a m) :=
  raises_bind (raises_regRead c a) fun _ => raises_regWrite c a _

theorem raises_clearBits (c : Cfg) (a : Addr) (m : Byte) : Raises transportErr (clearBits c a m) :=
  raises_bind (raises_regRead c a) fun _ => raises_regWrite c a _

theorem raises_loadFifo (c : Cfg) : ∀ bs : List Byte, Raises transportErr (loadFifo c bs)
  | [] => raises_pure ()
  | _ :: bs => raises_bind (raises_regWrite c _ _) fun _ => raises_loadFifo c bs

theorem raises_drainFifo (c : Cfg) : ∀ n : Nat, Raises transportErr (drainFifo c n)
  | 0 => raises_pure []
  | n + 1 => raises_bind (raises_regRead c _) fun _ => raises_bind (raises_drainFifo c n) fun _ => raises_pure _

theorem frameErr_of_transport {e : Err} (h : transportErr e) : frameErr e := by
  obtain ⟨a, rfl⟩ := h; exact ⟨rfl, rfl⟩

theorem raises_pollIrq (c : Cfg) (w : Byte) :
    ∀ (budget : Nat) (irq : Byte) (polls : Nat), Raises transportErr (pollIrq c w budget irq polls)
  | 0, _, _ => raises_pure _
  | budget + 1, _, polls => raises_bind (raises_regRead c _) fun irq => by
    split
    · exact raises_pure _
    · exact raises_pollIrq c w budget irq _

theorem raises_sendFrame (c : Cfg) (cmd : ChipCommand) (payload : List Byte) (framing : Nat) :
    Raises transportErr (sendFrame c cmd payload framing) :=
  raises_bind (raises_regWrite c _ _) fun _ => raises_bind (raises_regWrite c _ _) fun _ =>
    raises_bind (raises_clearBits c _ _) fun _ => raises_bind (raises_setBits c _ _) fun _ =>
    raises_bind (raises_regWrite c _ _) fun _ => raises_bind (raises_loadFifo c _) fun _ =>
    raises_bind (raises_regWrite c _ _) fun _ => by
      cases cmd
      case transceive => exact raises_setBits c _ _
      all_goals exact raises_pure ()

/-- TRANSCEIVE raises Timeout, FrameError or TransportError (R156, R158, R362). -/
theorem raises_transceive (c : Cfg) (cmd : ChipCommand) (payload : List Byte) (framing : Nat) :
    Raises frameErr (transceive c cmd payload framing) :=
  raises_bind (raises_mono (raises_sendFrame c cmd payload framing) fun _ => frameErr_of_transport) fun _ =>
    raises_bind (raises_mono (raises_pollIrq c _ _ _ _) fun _ => frameErr_of_transport) fun p =>
    raises_bind (raises_bind (raises_mono (raises_clearBits c _ _) fun _ => frameErr_of_transport) fun _ =>
      raises_bind (raises_ensure ⟨rfl, rfl⟩) fun _ =>
      raises_bind (raises_mono (raises_regRead c _) fun _ => frameErr_of_transport) fun _ =>
      raises_ensure ⟨rfl, rfl⟩) fun _ => by
      refine raises_mono (P := transportErr) ?_ fun _ => frameErr_of_transport
      cases cmd
      case transceive =>
        exact raises_bind (raises_regRead c _) fun _ => raises_bind (raises_regRead c _) fun _ =>
          raises_bind (raises_drainFifo c _) fun _ => raises_pure _
      all_goals exact raises_pure _

theorem raises_pollCrc (c : Cfg) : ∀ budget : Nat, Raises transportErr (pollCrc c budget)
  | 0 => raises_pure _
  | budget + 1 => raises_bind (raises_regRead c _) fun div => by
    split
    · exact raises_pure _
    · exact raises_pollCrc c budget

/-- CRC16 raises only TransportError (R352). -/
theorem raises_crc16 (c : Cfg) (bytes : List Byte) : Raises transportErr (crc16 c bytes) :=
  raises_bind (raises_bind (raises_clearBits c _ _) fun _ => raises_bind (raises_setBits c _ _) fun _ =>
      raises_bind (raises_loadFifo c _) fun _ => raises_regWrite c _ _) fun _ =>
    raises_bind (raises_pollCrc c _) fun done =>
    raises_bind (fun s e t h => by cases done <;> cases h) fun _ =>
    raises_bind (raises_regRead c _) fun _ => raises_bind (raises_regRead c _) fun _ => raises_pure _

theorem raises_withCrc (c : Cfg) (x : List Byte) : Raises transportErr (withCrc c x) :=
  raises_bind (raises_crc16 c x) fun _ => raises_pure _

theorem raises_framed {β : Type} (c : Cfg) (x : List Byte) {f : Response → Op β} (hP : ∀ e, frameErr e → P e)
    (hf : ∀ r, Raises P (f r)) : Raises P (withCrc c x >>= fun fr => transceive c .transceive fr 0 >>= f) :=
  raises_bind (raises_mono (raises_withCrc c x) fun _ h => hP _ (frameErr_of_transport h)) fun _ =>
    raises_bind (raises_mono (raises_transceive c _ _ _) hP) hf

/-- The errors detect folding turns into "absent" (R322). -/
def absentErr (e : Err) : Prop :=
  (∃ r, e = { cause := .noTagPresent r, mark := .none }) ∨ ∃ bs, e = { cause := .uidChecksumError bs, mark := .none }

theorem raises_request (c : Cfg) (mode : Byte) : Raises (fun e => frameErr e ∨ absentErr e) (request c mode) :=
  raises_bind (raises_mono (raises_transceive c _ _ _) fun _ => .inl) fun r =>
    raises_bind (raises_ensure (.inr (.inl ⟨r, rfl⟩))) fun _ => raises_pure _

theorem raises_getUid (c : Cfg) : Raises (fun e => frameErr e ∨ absentErr e) (getUid c) :=
  raises_bind (raises_mono (raises_transceive c _ _ _) fun _ => .inl) fun r =>
    raises_bind (raises_ensure (.inr (.inl ⟨r, rfl⟩))) fun _ =>
    raises_bind (raises_ensure (.inr (.inr ⟨r.bytes, rfl⟩))) fun _ => raises_pure _

/-- DETECT raises a frame-layer error, NoTagPresent or UidChecksumError (R225). -/
theorem raises_detect (c : Cfg) : Raises (fun e => frameErr e ∨ absentErr e) (detect c) :=
  raises_bind (raises_request c _) fun _ => raises_bind (raises_getUid c) fun u => fun s e t h => by
    rw [installSession_eq] at h; cases h

theorem raises_endSession (c : Cfg) : Raises transportErr (endSession c) :=
  raises_bind (raises_clearBits c _ _) fun _ => fun s e t h => by cases h

/-- The argument errors (R361). -/
def argErr (e : Err) : Prop := ∃ why, e = { cause := .invalidArgument why, mark := .none }

theorem raises_checkCard (h : Handle) : Raises argErr (checkCard h) := fun s e t he => by
  unfold checkCard at he
  split at he
  · cases he
  · cases he; exact ⟨_, rfl⟩

theorem raises_checkBlock (c : Cfg) (b : Int) : Raises argErr (checkBlock c b) :=
  raises_bind (raises_ensure ⟨_, rfl⟩) fun _ => raises_pure _

theorem raises_authExchange (c : Cfg) (keyMode b : Byte) (k : Key) (u : Uid) :
    Raises (fun e => frameErr e ∨ ∃ why, e = { cause := .authenticationFailed why, mark := .none })
      (authExchange c keyMode b k u) :=
  raises_bind (raises_mono (raises_transceive c _ _ _) fun _ => .inl) fun _ =>
    raises_bind (raises_ensure (.inr ⟨_, rfl⟩)) fun _ =>
    raises_bind (raises_mono (raises_regRead c _) fun _ h => .inl (frameErr_of_transport h)) fun _ =>
    raises_ensure (.inr ⟨_, rfl⟩)

theorem raises_readExchange (c : Cfg) (b : Byte) :
    Raises (fun e => frameErr e ∨ ∃ r, e = { cause := .readFailed r, mark := .none }) (readExchange c b) :=
  raises_framed c _ (fun _ => .inl) fun r => raises_bind (raises_ensure (.inr ⟨r, rfl⟩)) fun _ => raises_pure _

theorem raises_writePhase (c : Cfg) (phase : WritePhase) (body : List Byte) :
    Raises (fun e => frameErr e ∨ ∃ r, e = { cause := .writeFailed phase r, mark := .none })
      (writePhase c phase body) :=
  raises_framed c _ (fun _ => .inl) fun r => raises_ensure (.inr ⟨r, rfl⟩)

end Sys2Proof.Machine
end

