-- ==== Sys2Proof/Laws/Dump.lean ====
section
/-!
SUPPORT. How AUTHENTICATE and the sweep of DUMP end, whatever the environment answers (spec/45_card_accessors.md R290,
R291).
-/

namespace Sys2Proof.Machine

/-- Past its argument checks AUTHENTICATE raises a frame-layer error or AuthenticationFailed (R235). -/
theorem raises_authenticate {c : Cfg} {h : Handle} {b : Int} {m : Byte} {k : Option Key} {q : Session} {e : Err}
    {s t : State} (hq : s.holds h q) (hb : 0 ≤ b ∧ b < c.blockCount) (hr : authenticate c h b m k s = .error e t) :
    frameErr e ∨ ∃ why, e = { cause := .authenticationFailed why, mark := .none } := by
  have hr : (checkCard h >>= fun q => checkBlock c b >>= fun blk => setCrypto false >>= fun _ =>
    authExchange c m blk (k.getD q.key) q.uid >>= fun _ => setCrypto true) s = .error e t := hr
  rw [op_bind_ok (checkCard_held hq), op_bind_ok (checkBlock_ok hb)] at hr
  rcases op_bind_raises hr with h5 | ⟨_, s2, h5, h6⟩
  · cases h5
  · rcases op_bind_raises h6 with h7 | ⟨_, s3, h7, h8⟩
    · exact raises_authExchange _ _ _ _ _ _ _ _ h7
    · cases h8

/-- Mirror writes keep a handle valid (R32). -/
theorem holds_mirror {h : Handle} {q : Session} {p : Option Session} {s : State} (T : List TraceEntry) (L : List LogEntry)
    (hq : s.holds h q) (hp : p = s.session ∨ p = withCrypto s.session true ∨ p = withCrypto s.session false) :
    ∃ q2, (State.busStep { s with session := p } T L).holds h q2 := by
  rcases hp with rfl | rfl | rfl
  · exact ⟨q, hq⟩
  · exact ⟨{ q with cryptoActive := true }, by simp [withCrypto, hq.1], hq.2.1, hq.2.2⟩
  · exact ⟨{ q with cryptoActive := false }, by simp [withCrypto, hq.1], hq.2.1, hq.2.2⟩

/-- One block of the sweep raises a frame-layer error, AuthenticationFailed or ReadFailed. -/
theorem raises_dumpBlock {c : Cfg} {h : Handle} {b : Nat} {q : Session} {e : Err} {s t : State} (hq : s.holds h q)
    (hb : b < c.blockCount) (hr : dumpBlock c h b s = .error e t) :
    frameErr e ∨ (∃ why, e = { cause := .authenticationFailed why, mark := .none }) ∨
      (∃ r, e = { cause := .readFailed r, mark := .none }) := by
  have hbb : (0 : Int) ≤ (b : Int) ∧ (b : Int) < c.blockCount := by omega
  rcases op_bind_raises (show (authenticate c h b c.dumpKeyMode none >>= fun _ => readBlock c h b) s = .error e t from hr)
    with h1 | ⟨_, s1, h1, h2⟩
  · rcases raises_authenticate hq hbb h1 with h | h
    · exact .inl h
    · exact .inr (.inl h)
  · obtain ⟨T, L, p, he, -, hp⟩ := mirrored_authenticate c h b c.dumpKeyMode none s
    rw [h1] at he
    obtain ⟨q2, hq2⟩ := holds_mirror T L hq hp
    rw [← show s1 = _ from he] at hq2
    rw [readBlock_held hq2 hbb] at h2
    rcases raises_readExchange _ _ _ _ _ h2 with h | h
    · exact .inl h
    · exact .inr (.inr h)

/-- The sweep keeps the handle valid. -/
theorem dumpBlock_holds {c : Cfg} {h : Handle} {b : Nat} {s : State} {q : Session} (hq : s.holds h q) :
    ∃ q2, (endState (dumpBlock c h b s)).holds h q2 := by
  obtain ⟨T, L, p, he, -, hp⟩ := mirrored_dumpBlock c h b s
  rw [he]
  exact holds_mirror T L hq hp

/-- How the sweep ends (R290, R291): an entry for every block in order, or a frame-layer error with those gathered. -/
theorem dumpFrom_ends {c : Cfg} {h : Handle} :
    ∀ (bs : List Nat) (out : List (Nat × BlockReport)) (s : State) (q : Session), s.holds h q →
      (∀ b ∈ bs, b < c.blockCount) →
      (∃ more t, dumpFrom c h bs out s = .ok (out ++ more) t ∧ more.map (·.1) = bs) ∨
      (∃ e more t, dumpFrom c h bs out s = .error { cause := e, mark := .dump (out ++ more) } t ∧
        e.isFrameLayer = true ∧ more.map (·.1) <+: bs ∧ more.length < bs.length) := by
  intro bs
  induction bs with
  | nil => intro out s q hq hb; exact .inl ⟨[], s, by simp [dumpFrom], rfl⟩
  | cons b bs ih =>
    intro out s q hq hb
    have go : ∀ r t, dumpFrom c h (b :: bs) out s = dumpFrom c h bs (out ++ [(b, r)]) t → (∃ q2, t.holds h q2) →
        (∃ more t, dumpFrom c h (b :: bs) out s = .ok (out ++ more) t ∧ more.map (·.1) = b :: bs) ∨
        (∃ e more t, dumpFrom c h (b :: bs) out s = .error { cause := e, mark := .dump (out ++ more) } t ∧
          e.isFrameLayer = true ∧ more.map (·.1) <+: b :: bs ∧ more.length < (b :: bs).length) := by
      intro r t h1 ⟨q2, h2⟩
      rw [h1]
      rcases ih (out ++ [(b, r)]) t q2 h2 (fun x hx => hb x (by simp [hx])) with ⟨o, t', h3, h4⟩ | ⟨e, o, t', h3, h4, h5, h6⟩
      · exact .inl ⟨(b, r) :: o, t', by rw [h3]; simp, by simp [h4]⟩
      · exact .inr ⟨e, (b, r) :: o, t', by rw [h3]; simp, h4, by simpa using h5, by simp; exact h6⟩
    have hh := dumpBlock_holds (c := c) (b := b) hq
    cases hd : dumpBlock c h b s with
    | ok d t => rw [hd] at hh; exact go _ t (dumpFrom_read hd) hh
    | error e t =>
      rw [hd] at hh
      rcases raises_dumpBlock hq (hb b (by simp)) hd with hf | ⟨why, rfl⟩ | ⟨r, rfl⟩
      · refine .inr ⟨e.cause, [], t, ?_, hf.1, by simp, by simp⟩
        rw [dumpFrom_raised hd
          (by intro w hw; have h1 := hf.1; rw [hw] at h1; cases h1)
          (by intro w hw; have h1 := hf.1; rw [hw] at h1; cases h1)]
        simp
      · exact go _ t (dumpFrom_authFailed hd) hh
      · exact go _ t (dumpFrom_readFailed hd) hh

end Sys2Proof.Machine
end

