-- ==== Sys2Proof/Laws/Monitor.lean ====
section
/-!
SUPPORT. INIT and the presence monitor: detect folding, one cycle given its answers, everything a cycle can do, and the
worker's sleep (spec/46_presence_monitor.md).
-/

namespace Sys2Proof.Machine

/-! ## INIT -/

/-- An entry of INIT_SEQUENCE is a transaction on a register of the map. -/
def InitStep.addr : InitStep → Addr
  | .write a _ | .setBits a _ => a

theorem effects_performInit (c : Cfg) : ∀ steps : List InitStep, (∀ t ∈ steps, InitStep.addr t ∈ c.regMap.all) →
    Effects (mapEntry c) noEntry (2 * steps.length) (performInit c steps)
  | [], _ => effects_pure ()
  | t :: ts, h => by
    refine effects_mono (effects_bind (n := 2) (k := 2 * ts.length) ?_ fun _ => effects_performInit c ts fun u hu =>
      h u (by simp [hu])) (by rw [List.length_cons]; omega)
    have ha := h t (by simp)
    cases t with
    | write a v =>
      refine effects_mono (effects_regWrite c ?_ ?_) (by omega) <;>
        (intro b hb; obtain rfl : a = b := by simpa [TraceEntry.addr] using hb); exacts [ha, ha]
    | setBits a m =>
      refine effects_setBits c ?_ ?_ ?_
      · intro v b hb; obtain rfl : a = b := by simpa [TraceEntry.addr] using hb
        exact ha
      · intro v b hb; obtain rfl : a = b := by simpa [TraceEntry.addr] using hb
        exact ha
      · intro b hb; obtain rfl : a = b := by simpa [TraceEntry.addr] using hb
        exact ha

theorem raises_performInit (c : Cfg) : ∀ steps : List InitStep, Raises transportErr (performInit c steps)
  | [] => raises_pure ()
  | t :: ts => raises_bind (by cases t; exacts [raises_regWrite c _ _, raises_setBits c _ _]) fun _ =>
      raises_performInit c ts

/-- The state in which INIT performs its sequence: the line is asserted (R311). -/
abbrev State.lineUp (s : State) : State := { s with line := true, trace := s.trace ++ [.line true] }

/-- How INIT's sequence ends (R311): `initialised` is set exactly when every transaction happened. -/
theorem initialise_ends (s : State) :
    (∃ T, initialise Config.cfg s = .ok () { s.lineUp.ran T with initialised := true } ∧
      (∀ e ∈ T, mapEntry Config.cfg e ∧ e.failed = false)) ∨
    (∃ T e, initialise Config.cfg s = .error e (s.lineUp.ran T) ∧ transportErr e ∧
      (∀ x ∈ T, mapEntry Config.cfg x) ∧ FailsLast (initialise Config.cfg s) T) := by
  obtain ⟨T, L, he, -, hP, hL, hF⟩ :=
    effects_performInit Config.cfg Config.cfg.initSequence (by decide) s.lineUp
  obtain rfl : L = [] := List.eq_nil_iff_forall_not_mem.mpr hL
  rw [← State.ran_eq_busStep] at he
  have hline : setLine s = .ok () s.lineUp := rfl
  cases h : performInit Config.cfg Config.cfg.initSequence s.lineUp with
  | ok v t =>
    rw [h] at he hF
    have he : t = s.lineUp.ran T := he
    have hT : ∀ x ∈ T, x.failed = false := hF
    refine .inl ⟨T, ?_, fun e hm => ⟨hP e hm, hT e hm⟩⟩
    show (setLine >>= fun _ => performInit _ _ >>= fun _ => setInitialised) s = _
    rw [op_bind_ok hline, op_bind_ok h, he]
    rfl
  | error e t =>
    rw [h] at he hF
    have he : t = s.lineUp.ran T := he
    have hi : initialise Config.cfg s = .error e t := by
      show (setLine >>= fun _ => performInit _ _ >>= fun _ => setInitialised) s = _
      rw [op_bind_ok hline, op_bind_error h]
    exact .inr ⟨T, e, by rw [hi, he], raises_performInit _ _ _ _ _ h, hP, by rw [hi]; exact hF⟩

/-! ## Installed sessions -/

@[simp] theorem installed_monitor (c : Cfg) (s : State) (u : Uid) (bcc : Byte) :
    (State.installed c s u bcc).monitor = s.monitor := by unfold State.installed; split <;> rfl

@[simp] theorem installed_events (c : Cfg) (s : State) (u : Uid) (bcc : Byte) :
    (State.installed c s u bcc).events = s.events := by unfold State.installed; split <;> rfl

@[simp] theorem installed_trace (c : Cfg) (s : State) (u : Uid) (bcc : Byte) :
    (State.installed c s u bcc).trace = s.trace := by unfold State.installed; split <;> rfl

@[simp] theorem installed_log (c : Cfg) (s : State) (u : Uid) (bcc : Byte) :
    (State.installed c s u bcc).log = s.log := by unfold State.installed; split <;> rfl

@[simp] theorem installed_results (c : Cfg) (s : State) (u : Uid) (bcc : Byte) :
    (State.installed c s u bcc).results = s.results := by unfold State.installed; split <;> rfl

@[simp] theorem installed_labels (c : Cfg) (s : State) (u : Uid) (bcc : Byte) :
    (State.installed c s u bcc).labels = s.labels := by unfold State.installed; split <;> rfl

@[simp] theorem installed_line (c : Cfg) (s : State) (u : Uid) (bcc : Byte) :
    (State.installed c s u bcc).line = s.line := by unfold State.installed; split <;> rfl

@[simp] theorem installed_initialised (c : Cfg) (s : State) (u : Uid) (bcc : Byte) :
    (State.installed c s u bcc).initialised = s.initialised := by unfold State.installed; split <;> rfl

@[simp] theorem installed_lock (c : Cfg) (s : State) (u : Uid) (bcc : Byte) :
    (State.installed c s u bcc).lock = s.lock := by unfold State.installed; split <;> rfl

@[simp] theorem installed_agent (c : Cfg) (s : State) (u : Uid) (bcc : Byte) :
    (State.installed c s u bcc).agent = s.agent := by unfold State.installed; split <;> rfl

@[simp] theorem installed_port (c : Cfg) (s : State) (u : Uid) (bcc : Byte) :
    (State.installed c s u bcc).port = s.port := by unfold State.installed; split <;> rfl

@[simp] theorem installed_env (c : Cfg) (s : State) (u : Uid) (bcc : Byte) :
    (State.installed c s u bcc).env = s.env := by unfold State.installed; split <;> rfl

@[simp] theorem installed_choice (c : Cfg) (s : State) (u : Uid) (bcc : Byte) :
    (State.installed c s u bcc).choice = s.choice := by unfold State.installed; split <;> rfl

/-- The session after installation: the old one where its UID is the same, else a new one (R226). -/
theorem installed_cases (c : Cfg) (s : State) (u : Uid) (bcc : Byte) :
    ((∃ q, s.session = some q ∧ q.uid = u) ∧ State.installed c s u bcc = s) ∨
    ((∀ q, s.session = some q → q.uid ≠ u) ∧ State.installed c s u bcc =
      { s with
        gen := s.gen + 1
        session := some { uid := u, bcc := bcc, key := c.defaultKey, cryptoActive := false, gen := s.gen + 1 } }) := by
  unfold State.installed
  cases hq : s.session.filter fun q => q.uid == u with
  | some q =>
    rw [Option.filter_eq_some_iff] at hq
    exact .inl ⟨⟨q, hq.1, by simpa using hq.2⟩, rfl⟩
  | none =>
    refine .inr ⟨fun q h => ?_, rfl⟩
    rw [h] at hq
    simpa [Option.filter] using hq

/-- Installation does not look at the bus. -/
theorem installed_ran (c : Cfg) (s : State) (T : List TraceEntry) (u : Uid) (bcc : Byte) :
    State.installed c (s.ran T) u bcc = (State.installed c s u bcc).ran T := by
  unfold State.installed
  rw [show (s.ran T).session = s.session from rfl]
  cases s.session.filter fun q => q.uid == u <;> rfl

/-- Installation does not look at the lock. -/
theorem installed_locked (c : Cfg) (s : State) (a : Option Agent) (u : Uid) (bcc : Byte) :
    State.installed c { s with lock := a } u bcc = { State.installed c s u bcc with lock := a } := by
  unfold State.installed
  cases s.session.filter fun q => q.uid == u <;> rfl

/-! ## Detect folding and the transitions -/

/-- Detect folding (R322): a frame-layer error stays, no card is "absent", and a card may have been installed. -/
theorem foldDetect_ends (c : Cfg) (s : State) :
    (∃ T e, foldDetect c s = .error e (s.ran T) ∧ frameErr e ∧ FailsLast (foldDetect c s) T ∧ ∀ x ∈ T, ownEntry c x) ∨
    (∃ T, foldDetect c s = .ok none (s.ran T) ∧ ∀ x ∈ T, ownEntry c x ∧ x.failed = false) ∨
    (∃ T u bcc, foldDetect c s = .ok (some (s.handleFor u)) (State.installed c (s.ran T) u bcc) ∧ bcc = uidBcc u ∧
      ∀ x ∈ T, ownEntry c x ∧ x.failed = false) := by
  rcases detect_ends c s with ⟨T, e, t, hd, rfl, hF, hP⟩ | ⟨T, u, bcc, hd, hb, hP⟩
  · rcases raises_detect c _ _ _ hd with he | ⟨r, rfl⟩ | ⟨bs, rfl⟩
    · have hf : foldDetect c s = .error e (s.ran T) := by
        obtain ⟨cause, m⟩ := e
        obtain ⟨he, -⟩ := he
        unfold foldDetect
        rw [hd]
        cases cause <;> simp_all [Cause.isFrameLayer]
      exact .inl ⟨T, e, hf, he, by rw [hd] at hF; rw [hf]; exact hF, hP⟩
    · refine .inr (.inl ⟨T, by simp [foldDetect, hd], fun x hx => ⟨hP x hx, ?_⟩⟩)
      rw [hd] at hF
      rcases hF with ⟨h, -⟩ | ⟨_, a, -, -, hb⟩
      · exact h x hx
      · cases hb
    · refine .inr (.inl ⟨T, by simp [foldDetect, hd], fun x hx => ⟨hP x hx, ?_⟩⟩)
      rw [hd] at hF
      rcases hF with ⟨h, -⟩ | ⟨_, a, -, -, hb⟩
      · exact h x hx
      · cases hb
  · exact .inr (.inr ⟨T, u, bcc, by simp [foldDetect, hd], hb, hP⟩)

/-- An arrival before its END_SESSION: the event is emitted and the state taken (R321, D32). -/
abbrev State.arrivedAt (s : State) (u : Uid) : State :=
  { s.emit (.arrived u) with monitor := { (s.emit (.arrived u)).monitor with mstate := .cardPresent u } }

/-- A removal (R321 c). -/
abbrev State.departed (s : State) (u : Uid) : State :=
  { s.emit (.removed u) with
    monitor := { (s.emit (.removed u)).monitor with mstate := .noCard }
    session := none
    gen := if s.session.isSome then s.gen + 1 else s.gen }

theorem depart_eq (c : Cfg) (u : Uid) (s : State) : depart c u s = .ok c.longIntervalMs (s.departed u) := by
  show (announce (.removed u) .noCard >>= fun _ => dropSession >>= fun _ => pure c.longIntervalMs) s = _
  rw [op_bind_ok (show announce (.removed u) .noCard s = .ok () _ from rfl)]
  refine (op_bind_ok rfl).trans ?_
  cases hs : s.session <;> simp [State.emit, hs]

/-- An arrival: the event, then END_SESSION, which may fail (R321 a, b; log 16). -/
theorem arrive_ends (c : Cfg) (h : Handle) (s : State) :
    (∃ T, arrive c h s = .ok c.arrivalSleepMs
        { (s.arrivedAt h.uid).ran T with session := withCrypto s.session false } ∧
        ∀ x ∈ T, mapEntry c x ∧ x.failed = false) ∨
    (∃ T a, arrive c h s = .error { cause := .transportError a, mark := .none } ((s.arrivedAt h.uid).ran T) ∧
      FailsLast (arrive c h s) T ∧ ∀ x ∈ T, mapEntry c x) := by
  have hann : announce (.arrived h.uid) (.cardPresent h.uid) s = .ok () (s.arrivedAt h.uid) := rfl
  have hmap : c.regMap.status2 ∈ c.regMap.all := by simp [RegMap.all]
  obtain ⟨T, L, he, -, hP, hL, hF⟩ := effects_clearBits (P := mapEntry c) (Q := noEntry) c (a := c.regMap.status2)
    (m := c.bits.cryptoOn)
    (fun v a ha => by obtain rfl : _ = a := by simpa [TraceEntry.addr] using ha
                      exact hmap)
    (fun v a ha => by obtain rfl : _ = a := by simpa [TraceEntry.addr] using ha
                      exact hmap)
    (fun a ha => by obtain rfl : _ = a := by simpa [TraceEntry.addr] using ha
                    exact hmap) (s.arrivedAt h.uid)
  obtain rfl : L = [] := List.eq_nil_iff_forall_not_mem.mpr hL
  rw [← State.ran_eq_busStep] at he
  cases hc : clearBits c c.regMap.status2 c.bits.cryptoOn (s.arrivedAt h.uid) with
  | ok v t =>
    rw [hc] at he hF
    have he : t = (s.arrivedAt h.uid).ran T := he
    have hT : ∀ x ∈ T, x.failed = false := hF
    have hE : endSession c (s.arrivedAt h.uid) = .ok () { t with session := withCrypto t.session false } := by
      show (clearBits c _ _ >>= fun _ => setCrypto false) _ = _
      rw [op_bind_ok hc]
      rfl
    refine .inl ⟨T, ?_, fun x hx => ⟨hP x hx, hT x hx⟩⟩
    show (announce _ _ >>= fun _ => endSession c >>= fun _ => pure _) s = _
    rw [op_bind_ok hann, op_bind_ok hE, he]
    rfl
  | error e t =>
    rw [hc] at he hF
    have ht : t = (s.arrivedAt h.uid).ran T := he
    obtain ⟨a, rfl⟩ := raises_clearBits c _ _ _ _ _ hc
    have hE : endSession c (s.arrivedAt h.uid) = .error { cause := .transportError a, mark := .none } t := by
      show (clearBits c _ _ >>= fun _ => setCrypto false) _ = _
      rw [op_bind_error hc]
    have ha : arrive c h s = .error { cause := .transportError a, mark := .none } ((s.arrivedAt h.uid).ran T) := by
      show (announce _ _ >>= fun _ => endSession c >>= fun _ => pure _) s = _
      rw [op_bind_ok hann, op_bind_error hE, ht]
    exact .inr ⟨T, a, ha, by rw [ha]; exact hF, hP⟩

theorem arrive_answered {c : Cfg} {h : Handle} {v : Byte} {s : State} (ha : s.Answers (endSessionTrace c v)) :
    arrive c h s = .ok c.arrivalSleepMs
      { (s.arrivedAt h.uid).ran (endSessionTrace c v) with session := withCrypto s.session false } := by
  have hann : announce (.arrived h.uid) (.cardPresent h.uid) s = .ok () (s.arrivedAt h.uid) := rfl
  have ha' : (s.arrivedAt h.uid).Answers (endSessionTrace c v) := State.answers_congr rfl rfl rfl ha
  show (announce _ _ >>= fun _ => endSession c >>= fun _ => pure _) s = _
  rw [op_bind_ok hann, op_bind_ok (endSession_answered ha')]
  rfl

/-- An arrival whose END_SESSION fails, in its read or in its write (R321 a, R133; log 16). -/
theorem arrive_failed {c : Cfg} (hc : c.transportMayFail = true) {h : Handle} {v : Byte} {F : List TraceEntry} {s : State}
    (hF : F = [.fail c.regMap.status2] ∨ F = [.read c.regMap.status2 v, .fail c.regMap.status2]) (ha : s.Answers F) :
    arrive c h s = .error { cause := .transportError c.regMap.status2, mark := .none } ((s.arrivedAt h.uid).ran F) := by
  have ha' : (s.arrivedAt h.uid).Answers F := State.answers_congr rfl rfl rfl ha
  show (announce _ _ >>= fun _ => (clearBits c _ _ >>= fun _ => setCrypto false) >>= fun _ => pure _) s = _
  rw [op_bind_ok (show announce (.arrived h.uid) (.cardPresent h.uid) s = .ok () (s.arrivedAt h.uid) from rfl)]
  rcases hF with rfl | rfl
  · exact op_bind_error (op_bind_error (clearBits_readFailed hc ha'))
  · exact op_bind_error (op_bind_error (clearBits_writeFailed hc ha'))

/-! ## One cycle -/

/-- Everything the bus work of a cycle can do (R320 to R324): an unexpected error; no card; a removal; the same card; an
arrival whose END_SESSION ends, or fails. -/
theorem pollCard_ends (c : Cfg) (present : Option Uid) (s : State) : ∃ T, (∀ x ∈ T, mapEntry c x) ∧ (
    (∃ e, pollCard c present s = .error e (s.ran T) ∧ frameErr e) ∨
    (present = none ∧ pollCard c present s = .ok c.shortIntervalMs (s.ran T)) ∨
    (∃ u, present = some u ∧ pollCard c present s = .ok c.longIntervalMs ((s.ran T).departed u)) ∨
    (∃ u bcc, present = some u ∧ bcc = uidBcc u ∧
      pollCard c present s = .ok c.shortIntervalMs (State.installed c (s.ran T) u bcc)) ∨
    (∃ U u bcc, (∀ x ∈ U, mapEntry c x) ∧ present ≠ some u ∧ bcc = uidBcc u ∧
      (pollCard c present s = .ok c.arrivalSleepMs
        { ((State.installed c (s.ran T) u bcc).arrivedAt u).ran U with
          session := withCrypto (State.installed c (s.ran T) u bcc).session false } ∨
       ∃ a, pollCard c present s = .error { cause := .transportError a, mark := .none }
        (((State.installed c (s.ran T) u bcc).arrivedAt u).ran U)))) := by
  have hp : pollCard c present s = (foldDetect c >>= fun card => transition c present card) s := rfl
  rcases foldDetect_ends c s with ⟨T, e, hf, he, -, hT⟩ | ⟨T, hf, hT⟩ | ⟨T, u, bcc, hf, hb, hT⟩
  · exact ⟨T, fun x hx => ownEntry_map (hT x hx), .inl ⟨e, by rw [hp, op_bind_error hf], he⟩⟩
  · refine ⟨T, fun x hx => ownEntry_map (hT x hx).1, ?_⟩
    rw [op_bind_ok hf] at hp
    cases present with
    | none => exact .inr (.inl ⟨rfl, hp⟩)
    | some u => exact .inr (.inr (.inl ⟨u, rfl, hp.trans (depart_eq c u _)⟩))
  · refine ⟨T, fun x hx => ownEntry_map (hT x hx).1, ?_⟩
    rw [op_bind_ok hf] at hp
    by_cases hu : present = some u
    · subst hu
      refine .inr (.inr (.inr (.inl ⟨u, bcc, rfl, hb, hp.trans ?_⟩)))
      simp [transition]
    · have ht : transition c present (some (s.handleFor u)) = arrive c (s.handleFor u) := by
        cases present with
        | none => rfl
        | some w =>
          have : u ≠ w := fun h => hu (by rw [h])
          simp [transition, this]
      rw [ht] at hp
      refine .inr (.inr (.inr (.inr ?_)))
      rcases arrive_ends c (s.handleFor u) (State.installed c (s.ran T) u bcc) with ⟨U, ha, hU⟩ | ⟨U, a, ha, -, hU⟩
      · rw [handleFor_uid] at ha
        exact ⟨U, u, bcc, fun x hx => (hU x hx).1, hu, hb, .inl (hp.trans ha)⟩
      · rw [handleFor_uid] at ha
        exact ⟨U, u, bcc, hU, hu, hb, .inr ⟨a, hp.trans ha⟩⟩

/-- A transaction that fails in the bus work of a cycle is its last, and the cycle's error is the transport's (R362). -/
theorem pollCard_failsLast (c : Cfg) (present : Option Uid) (s : State) :
    ∃ T, (endState (pollCard c present s)).trace = s.trace ++ T ∧ FailsLast (pollCard c present s) T := by
  have hp : pollCard c present s = (foldDetect c >>= fun card => transition c present card) s := rfl
  rcases foldDetect_ends c s with ⟨T, e, hf, -, hF, -⟩ | ⟨T, hf, hT⟩ | ⟨T, u, bcc, hf, -, hT⟩
  · rw [op_bind_error hf] at hp
    exact ⟨T, by rw [hp]; rfl, by rw [hf] at hF; rw [hp]; exact hF⟩
  · rw [op_bind_ok hf] at hp
    have hT : ∀ x ∈ T, x.failed = false := fun x hx => (hT x hx).2
    cases present with
    | none => exact ⟨T, by rw [hp]; rfl, by rw [hp]; exact hT⟩
    | some u =>
      have hp := hp.trans (depart_eq c u _)
      exact ⟨T, by rw [hp]; rfl, by rw [hp]; exact hT⟩
  · rw [op_bind_ok hf] at hp
    have hT : ∀ x ∈ T, x.failed = false := fun x hx => (hT x hx).2
    have quiet : transition c present (some (s.handleFor u)) = pure c.shortIntervalMs ∨
        transition c present (some (s.handleFor u)) = arrive c (s.handleFor u) := by
      cases present with
      | none => exact .inr rfl
      | some w => by_cases h : u = w <;> simp [transition, h]
    rcases quiet with ht | ht <;> rw [ht] at hp
    · exact ⟨T, by rw [hp]; simp [endState], by rw [hp]; exact hT⟩
    · rcases arrive_ends c (s.handleFor u) (State.installed c (s.ran T) u bcc) with ⟨U, ha, hU⟩ | ⟨U, a, ha, hF, -⟩
      · refine ⟨T ++ U, by rw [hp, ha]; simp [endState], ?_⟩
        rw [hp, ha]
        exact FailsLast.append hT fun x hx => (hU x hx).2
      · refine ⟨T ++ U, by rw [hp, ha]; simp [endState], ?_⟩
        rw [hp]
        exact FailsLast.append hT hF

/-- MONITOR_CYCLE of a ready worker in a presence state is the cycle (R320). -/
theorem execMonitorCycle_ready {s : State} {present : Option Uid} (h : s.CycleReady)
    (hm : s.monitor.mstate.watching = some present) :
    execMonitorCycle s = .next (runCycle Config.cfg present s).acknowledge := by
  simp [execMonitorCycle, whenInitialised, cycle, h.agent_eq, h.initialised_eq, h.worker_eq, h.stop_eq, h.lock_eq, hm]

/-- A MONITOR_CYCLE that answers a next state was the worker's own: it saw the stop flag, or it ran the cycle. -/
theorem execMonitorCycle_next {s t : State} (h : execMonitorCycle s = .next t) :
    s.agent = .worker ∧ s.initialised = true ∧ s.monitor.worker = .polling ∧
      ((s.monitor.stopFlag = true ∧ t = ({ s with monitor := s.monitor.ended } : State).acknowledge) ∨
        ∃ present, s.CycleReady ∧ s.monitor.mstate.watching = some present ∧
          t = (runCycle Config.cfg present s).acknowledge) := by
  unfold execMonitorCycle whenInitialised at h
  split at h
  swap
  · cases h
  rename_i ha
  split at h
  swap
  · cases h
  rename_i hi
  split at h
  swap
  · cases h
  rename_i hw
  refine ⟨ha, hi, hw, ?_⟩
  unfold cycle at h
  split at h
  · rename_i hs; injection h with h; exact .inl ⟨hs, h.symm⟩
  · rename_i hs
    split at h
    · cases h
    · rename_i present hp
      split at h
      · cases h
      · rename_i hl
        injection h with h
        exact .inr ⟨present, ⟨ha, hi, hw, Bool.eq_false_iff.mpr hs, hl⟩, hp, h.symm⟩

/-- A cycle whose bus work returned (R320). -/
theorem runCycle_ok {c : Cfg} {present : Option Uid} {ms : Nat} {s t : State}
    (h : pollCard c present s.locked = .ok ms t) :
    runCycle c present s = { t with lock := none, monitor := { t.monitor with worker := .sleeping ms } } := by
  simp [runCycle, h]

/-- A cycle whose bus work raised, under the default policy (R324). -/
theorem runCycle_error {present : Option Uid} {e : Err} {s t : State}
    (h : pollCard Config.cfg present s.locked = .error e t) :
    runCycle Config.cfg present s =
      { t with
        lock := none
        log := t.log ++ [.monitorError e.cause.kind]
        monitor := { t.monitor with mstate := .faulted e.cause.kind, worker := .none } } := by
  rw [runCycle, h]
  rfl

/-- The bus work of a cycle whose detect is answered (R320). -/
theorem pollCard_answered {c : Cfg} {p : Probe} {present : Option Uid} {s : State} (hp : p.completes c = true)
    (h : s.Answers (p.trace c)) :
    pollCard c present s =
      match p.card c with
      | some u => transition c present (some (s.handleFor u.1)) (State.installed c (s.ran (p.trace c)) u.1 u.2)
      | none => transition c present none (s.ran (p.trace c)) := by
  have h1 := foldDetect_answered hp h
  cases hc : p.card c with
  | none => rw [hc] at h1; exact op_bind_ok h1
  | some u => rw [hc] at h1; exact op_bind_ok h1

/-! ## Any cycle -/

/-- What a cycle does to the histories: transactions on the register map, a result is left to MONITOR_CYCLE, the lock is
released (R320, R366). -/
theorem runCycle_ends (present : Option Uid) (s : State) :
    ∃ T, (runCycle Config.cfg present s).trace = s.trace ++ T ∧ (∀ x ∈ T, mapEntry Config.cfg x) ∧
      (runCycle Config.cfg present s).results = s.results ∧ (runCycle Config.cfg present s).agent = s.agent ∧
      (runCycle Config.cfg present s).labels = s.labels ∧ s.log <+: (runCycle Config.cfg present s).log ∧
      s.events <+: (runCycle Config.cfg present s).events ∧ (runCycle Config.cfg present s).lock = none := by
  obtain ⟨T, hT, h⟩ := pollCard_ends Config.cfg present s.locked
  rcases h with ⟨e, h, -⟩ | ⟨-, h⟩ | ⟨u, -, h⟩ | ⟨u, bcc, -, -, h⟩ | ⟨U, u, bcc, hU, -, -, h | ⟨a, h⟩⟩
  · rw [runCycle_error h]
    exact ⟨T, rfl, hT, rfl, rfl, rfl, List.prefix_append _ _, List.prefix_refl _, rfl⟩
  · rw [runCycle_ok h]
    exact ⟨T, rfl, hT, rfl, rfl, rfl, List.prefix_refl _, List.prefix_refl _, rfl⟩
  · rw [runCycle_ok h]
    exact ⟨T, rfl, hT, rfl, rfl, rfl, List.prefix_refl _, List.prefix_append _ _, rfl⟩
  · rw [runCycle_ok h]
    exact ⟨T, by simp, hT, by simp, by simp, by simp, by simp, by simp, rfl⟩
  · rw [runCycle_ok h]
    refine ⟨T ++ U, by simp, ?_, by simp, by simp, by simp, by simp, by simp, rfl⟩
    simp only [List.mem_append]; rintro e (hm | hm); exacts [hT e hm, hU e hm]
  · rw [runCycle_error h]
    refine ⟨T ++ U, by simp, ?_, by simp, by simp, by simp, by simp, by simp, rfl⟩
    simp only [List.mem_append]; rintro e (hm | hm); exacts [hT e hm, hU e hm]

/-! ## Sleep -/

theorem sleepSlice_awake {c : Cfg} {s : State} (h : s.monitor.worker = .sleeping 0) :
    sleepSlice c s = { s with monitor := { s.monitor with worker := .polling } } := by
  simp [sleepSlice, h]

theorem sleepSlice_stopped {c : Cfg} {ms : Nat} {s : State} (h : s.monitor.worker = .sleeping ms) (hms : 0 < ms)
    (hs : s.monitor.stopFlag = true) : sleepSlice c s = { s with monitor := s.monitor.ended } := by
  cases ms with
  | zero => omega
  | succ n => simp [sleepSlice, h, hs]

theorem sleepSlice_slept {c : Cfg} {ms : Nat} {s : State} (h : s.monitor.worker = .sleeping ms) (hms : 0 < ms)
    (hs : s.monitor.stopFlag = false) :
    sleepSlice c s =
      { s with
        labels := s.labels ++ [min c.sleepSliceMs ms]
        monitor := { s.monitor with worker := .sleeping (ms - min c.sleepSliceMs ms) } } := by
  cases ms with
  | zero => omega
  | succ n => simp [sleepSlice, h, hs]

end Sys2Proof.Machine
end

