-- ==== Sys2Proof/Laws/Instructions.lean ====
section
/-!
SUPPORT. Every instruction as a top-level operation: which operation its meaning runs, and what that operation may do to
the bus, the log and the session.
-/

namespace Sys2Proof.Machine

/-- What a transaction of instruction `i` may be: any register for the RegisterBus requests, else one of the map. -/
def instrEntry (i : Instr) (e : TraceEntry) : Prop := i.rawRegister = false → mapEntry Config.cfg e

theorem Effects.instr {α : Type} {m : Op α} {n : Nat} {i : Instr} {Q : LogEntry → Prop}
    (h : Effects (ownEntry Config.cfg) Q n m) : Effects (instrEntry i) Q n m :=
  h.weaken (fun _ he _ => ownEntry_map he) (fun _ h => h) (Nat.le_refl n)

theorem Traced.instr {α : Type} {m : Op α} {i : Instr} (h : Traced (mapEntry Config.cfg) m) : Traced (instrEntry i) m :=
  fun s => let ⟨T, h1, h2, h3⟩ := h s
  ⟨T, h1, fun e he _ => h2 e he, h3⟩

/-- An operation that uses the bus, with its result. -/
theorem effects_map {P : TraceEntry → Prop} {Q : LogEntry → Prop} {α β : Type} {n : Nat} {m : Op α} {f : α → β}
    (h : Effects P Q n m) : Effects P Q n (m >>= fun a => pure (f a)) := effects_bind (k := 0) h fun _ => effects_pure _

theorem traced_map {P : TraceEntry → Prop} {α β : Type} {m : Op α} {f : α → β} (h : Traced P m) :
    Traced P (m >>= fun a => pure (f a)) := traced_bind h fun _ => (effects_pure (Q := noEntry) _).traced

theorem mirrored_map {α β : Type} {m : Op α} {f : α → β} (h : Mirrored m) : Mirrored (m >>= fun a => pure (f a)) :=
  mirrored_bind h fun _ => (effects_pure (P := fun _ => True) _).mirrored

/-- A RegisterBus request: its address check, then an operation on the register. -/
theorem effects_raw {i : Instr} {Q : LogEntry → Prop} {α : Type} {a : Int} {n : Nat} {f : Addr → Op α}
    (hf : ∀ r, Effects (fun _ => True) Q n (f r)) (hi : i.rawRegister = true) :
    Effects (instrEntry i) Q (0 + n) (checkAddr a >>= f) :=
  effects_bind (effects_checkAddr a) fun r =>
    (hf r).weaken (fun _ _ h => by rw [hi] at h; cases h) (fun _ h => h) (Nat.le_refl n)

/-- Every bus-only instruction that answers a next state is a top-level operation that only uses the bus. -/
theorem exec_busOnly {i : Instr} {s t : State} (hb : i.busOnly = true) (h : exec i s = .next t) :
    ∃ (n : Nat) (op : Op ResultValue), Effects (instrEntry i) crcEntry n op ∧ topLevel op s = .next t := by
  cases i
  case regRead a =>
    exact ⟨_, _, effects_raw (fun r => effects_map (effects_regRead _ (fun _ => trivial) trivial)) rfl, h⟩
  case regWrite a v =>
    exact ⟨_, _, effects_raw (fun r => effects_map (effects_regWrite _ trivial trivial)) rfl, h⟩
  case setBits a m =>
    exact ⟨_, _, effects_raw (fun r =>
      effects_map (effects_setBits _ (fun _ => trivial) (fun _ => trivial) trivial)) rfl, h⟩
  case clearBits a m =>
    exact ⟨_, _, effects_raw (fun r =>
      effects_map (effects_clearBits _ (fun _ => trivial) (fun _ => trivial) trivial)) rfl, h⟩
  case transceive cmd payload framing =>
    exact ⟨_, _, (effects_bind (effects_checkPayload _ _) fun _ => effects_map (effects_transceive _ cmd payload framing)).instr,
      (cardOperation_topLevel (whenTyped_next h).2).2⟩
  case crc16 bytes =>
    exact ⟨_, _, (effects_bind (effects_checkPayload _ _) fun _ => effects_map (effects_crc16 _ bytes)).instr,
      (cardOperation_topLevel h).2⟩
  case request mode => exact ⟨_, _, (effects_map (effects_request _ mode)).instr, (cardOperation_topLevel h).2⟩
  case getUid => exact ⟨_, _, (effects_map (effects_getUid _)).instr, (cardOperation_topLevel h).2⟩
  case select hd => exact ⟨_, _, (effects_map (effects_select _ hd)).instr, (cardOperation_topLevel h).2⟩
  case readBlock hd b => exact ⟨_, _, (effects_map (effects_readBlock _ hd b)).instr, (cardOperation_topLevel h).2⟩
  case writeBlock hd b d => exact ⟨_, _, (effects_map (effects_writeBlock _ hd b d)).instr, (cardOperation_topLevel h).2⟩
  case readStr hd b => exact ⟨_, _, (effects_map (effects_readStr _ hd b)).instr, (cardOperation_topLevel h).2⟩
  case writeStr hd b str => exact ⟨_, _, (effects_map (effects_writeStr _ hd b str)).instr, (cardOperation_topLevel h).2⟩
  case readInt32 hd b off sg =>
    exact ⟨_, _, (effects_map (effects_readInt32 _ hd b off sg)).instr, (cardOperation_topLevel h).2⟩
  case writeInt32 hd b off v =>
    exact ⟨_, _, (effects_map (effects_writeInt32 _ hd b off v)).instr, (cardOperation_topLevel h).2⟩
  case cmdIdle => exact ⟨_, _, (effects_writeCommand _ _).instr, h⟩
  case cmdCalcCRC => exact ⟨_, _, (effects_writeCommand _ _).instr, h⟩
  case cmdTransceive => exact ⟨_, _, (effects_writeCommand _ _).instr, h⟩
  case cmdAuthent => exact ⟨_, _, (effects_writeCommand _ _).instr, h⟩
  case frameReqa => exact ⟨_, _, (effects_map (effects_request _ _)).instr, (cardOperation_topLevel h).2⟩
  case frameWupa => exact ⟨_, _, (effects_map (effects_request _ _)).instr, (cardOperation_topLevel h).2⟩
  case frameAnticoll => exact ⟨_, _, (effects_map (effects_getUid _)).instr, (cardOperation_topLevel h).2⟩
  case frameSelect u bcc =>
    exact ⟨_, _, (effects_map (effects_selectExchange _ u bcc)).instr, (cardOperation_topLevel h).2⟩
  case frameAuthA b k u =>
    exact ⟨_, _, (effects_bind (effects_checkBlock _ _) fun blk => effects_map (effects_authExchange _ _ blk k u)).instr,
      (cardOperation_topLevel h).2⟩
  case frameAuthB b k u =>
    exact ⟨_, _, (effects_bind (effects_checkBlock _ _) fun blk => effects_map (effects_authExchange _ _ blk k u)).instr,
      (cardOperation_topLevel h).2⟩
  case frameRead b =>
    exact ⟨_, _, (effects_bind (effects_checkBlock _ _) fun blk => effects_map (effects_readExchange _ blk)).instr,
      (cardOperation_topLevel h).2⟩
  case frameWrite b d =>
    exact ⟨_, _, (effects_bind (effects_checkBlock _ _) fun blk => effects_bind (effects_checkData _ d) fun _ =>
      effects_map (effects_writeExchange _ blk d)).instr, (cardOperation_topLevel h).2⟩
  case reqa => exact ⟨_, _, (effects_map (effects_request _ _)).instr, (cardOperation_topLevel h).2⟩
  case wupa => exact ⟨_, _, (effects_map (effects_request _ _)).instr, (cardOperation_topLevel h).2⟩
  case cardRead hd b => exact ⟨_, _, (effects_map (effects_readBlock _ hd b)).instr, (cardOperation_topLevel h).2⟩
  case cardWrite hd b d => exact ⟨_, _, (effects_map (effects_writeBlock _ hd b d)).instr, (cardOperation_topLevel h).2⟩
  all_goals cases hb

/-- The instructions that write the crypto mirror are top-level operations that change nothing else (R31). -/
theorem exec_mirrored {i : Instr} {s t : State} (hm : i.mirrorsCrypto = true) (h : exec i s = .next t) :
    ∃ op : Op ResultValue, Mirrored op ∧ Traced (mapEntry Config.cfg) op ∧ topLevel op s = .next t := by
  cases i
  case authenticate hd b m k =>
    exact ⟨_, mirrored_map (mirrored_authenticate _ hd b m k), traced_map (traced_authenticate _ hd b m k).map,
      (cardOperation_topLevel h).2⟩
  case endSession hd =>
    exact ⟨_, mirrored_map (mirrored_endSession _), traced_map (traced_endSession _), (cardOperation_topLevel h).2⟩
  case dump hd =>
    exact ⟨_, mirrored_map (mirrored_dump _ hd), traced_map (traced_dump _ hd).map, (cardOperation_topLevel h).2⟩
  case authA hd b =>
    exact ⟨_, mirrored_map (mirrored_authenticate _ hd b _ none), traced_map (traced_authenticate _ hd b _ none).map,
      (cardOperation_topLevel h).2⟩
  case authB hd b =>
    exact ⟨_, mirrored_map (mirrored_authenticate _ hd b _ none), traced_map (traced_authenticate _ hd b _ none).map,
      (cardOperation_topLevel h).2⟩
  all_goals cases hm

theorem traced_initialise : Traced (mapEntry Config.cfg) (initialise Config.cfg) := by
  refine traced_bind (fun s => ⟨[.line true], rfl, by simp [mapEntry, TraceEntry.addr], by
    intro e he; obtain rfl : e = .line true := by simpa using he
    rfl, rfl, rfl, rfl, rfl, List.prefix_refl s.log⟩) fun _ =>
    traced_bind (effects_performInit Config.cfg _ (by decide)).traced fun _ =>
    traced_quiet fun s => ⟨(), _, rfl, rfl, rfl, rfl, rfl, rfl, List.prefix_refl s.log⟩

/-- Every instruction but MONITOR_CYCLE either is a top-level operation, or leaves history, session, counter and log as they
are and succeeds. -/
theorem exec_traced {i : Instr} {s t : State} (hc : i ≠ .monitorCycle) (h : exec i s = .next t) :
    (∃ op : Op ResultValue, Traced (instrEntry i) op ∧ topLevel op s = .next t) ∨
      ∃ m, t = ({ s with monitor := m } : State).acknowledge := by
  by_cases hb : i.busOnly = true
  · obtain ⟨n, op, he, ht⟩ := exec_busOnly hb h
    exact .inl ⟨op, he.traced, ht⟩
  by_cases hm : i.mirrorsCrypto = true
  · obtain ⟨op, -, he, ht⟩ := exec_mirrored hm h
    exact .inl ⟨op, he.instr, ht⟩
  cases i
  case detect => exact .inl ⟨_, (traced_map (traced_detect _).map).instr, (cardOperation_topLevel h).2⟩
  case init =>
    have h : (if s.initialised then .refused .alreadyInitialised else topLevel _ s : Outcome) = .next t := h
    split at h
    · cases h
    · exact .inl ⟨_, (traced_map traced_initialise).instr, h⟩
  case monitorStart =>
    have h : (if s.initialised then if s.monitor.worker = .none then _ else _ else _ : Outcome) = .next t := h
    split at h
    · split at h
      · injection h with h; exact .inr ⟨_, h.symm⟩
      · cases h
    · cases h
  case monitorStop => injection h with h; exact .inr ⟨_, h.symm⟩
  case subscribe n => injection h with h; exact .inr ⟨_, h.symm⟩
  case monitorCycle => exact absurd rfl hc
  all_goals first | exact absurd rfl hb | exact absurd rfl hm

/-! ## Every next state of exec and of step -/

/-- The next states an instruction can give. -/
inductive Did (s : State) : State → Prop where
  /-- A bus-only instruction, or a DETECT that failed. -/
  | bus (T : List TraceEntry) (L : List LogEntry) (r : Result) : Did s ((s.busStep T L).replied r)
  /-- AUTHENTICATE, END_SESSION, DUMP. -/
  | mirror (T : List TraceEntry) (L : List LogEntry) (r : Result) (q : Option Session)
      (hq : q = s.session ∨ q = withCrypto s.session true ∨ q = withCrypto s.session false) :
      Did s ((State.busStep { s with session := q } T L).replied r)
  /-- A DETECT that found a card. -/
  | detected (T : List TraceEntry) (u : Uid) (bcc : Byte) (r : Result) (hi : s.initialised = true)
      (hb : bcc = uidBcc u) : Did s ((State.installed Config.cfg (s.ran T) u bcc).replied r)
  /-- INIT. -/
  | booted (T : List TraceEntry) (done : Bool) (r : Result) (hi : s.initialised = false) :
      Did s (State.replied { s.lineUp.ran T with initialised := done } r)
  /-- MONITOR_START. -/
  | started (hi : s.initialised = true) (hw : s.monitor.worker = .none) :
      Did s ({ s with monitor := s.monitor.started } : State).acknowledge
  /-- MONITOR_STOP. -/
  | flagged : Did s ({ s with monitor := { s.monitor with stopFlag := true } } : State).acknowledge
  /-- SUBSCRIBE. -/
  | subscribed (n : Nat) :
      Did s ({ s with monitor := { s.monitor with subscribers := addSubscriber s.monitor.subscribers n } } :
        State).acknowledge
  /-- MONITOR_CYCLE that found the stop flag. -/
  | ended (hi : s.initialised = true) (hw : s.monitor.worker = .polling) :
      Did s ({ s with monitor := s.monitor.ended } : State).acknowledge
  /-- MONITOR_CYCLE. -/
  | cycled (present : Option Uid) (hr : s.CycleReady) (hp : s.monitor.mstate.watching = some present) :
      Did s (runCycle Config.cfg present s).acknowledge

/-- What every instruction that answers a next state did. -/
theorem exec_did {i : Instr} {s t : State} (h : exec i s = .next t) : Did s t := by
  by_cases hb : i.busOnly = true
  · obtain ⟨n, op, he, ht⟩ := exec_busOnly hb h
    obtain ⟨T, L, r, rfl, -⟩ := topLevel_ends he ht
    exact .bus T L r
  by_cases hm : i.mirrorsCrypto = true
  · obtain ⟨op, he, -, ht⟩ := exec_mirrored hm h
    obtain ⟨-, rfl⟩ := topLevel_next ht
    obtain ⟨T, L, q, h1, -, h3⟩ := he s.locked
    obtain ⟨r, hr⟩ := finish_eq (op s.locked)
    rw [hr, h1]
    exact .mirror T L r q h3
  cases i
  case detect =>
    obtain ⟨hi, h⟩ := cardOperation_topLevel h
    obtain ⟨-, rfl⟩ := topLevel_next h
    show Did s (finish ((detect Config.cfg >>= fun h => pure (.card h)) s.locked))
    rcases detect_ends Config.cfg s.locked with ⟨T, e, t, hd, rfl, -⟩ | ⟨T, u, bcc, hd, hb, -⟩
    · rw [op_bind_error hd, finish_error, State.ran_eq_busStep]
      exact .bus T [] (.err e)
    · rw [op_bind_ok hd]
      have := Did.detected (s := s) T u bcc (.ok (.card (s.locked.handleFor u))) hi hb
      have he : (State.installed Config.cfg (s.locked.ran T) u bcc).replied (.ok (.card (s.locked.handleFor u))) =
          (State.installed Config.cfg (s.ran T) u bcc).replied (.ok (.card (s.locked.handleFor u))) := by
        unfold State.installed
        cases hs : s.session.filter fun q => q.uid == u <;> simp [hs, State.replied, State.ran]
      rw [← he] at this
      exact this
  case init =>
    have h : (if s.initialised then .refused .alreadyInitialised else
      topLevel (initialise Config.cfg >>= fun _ => pure .unit) s : Outcome) = .next t := h
    split at h
    · cases h
    · rename_i hi
      have hi : s.initialised = false := Bool.eq_false_iff.mpr hi
      obtain ⟨-, rfl⟩ := topLevel_next h
      rcases initialise_ends s.locked with ⟨T, hd, -⟩ | ⟨T, e, hd, -⟩
      · rw [op_bind_ok hd]
        exact .booted T true (.ok .unit) hi
      · rw [op_bind_error hd]
        have := Did.booted (s := s) T s.initialised (.err e) hi
        exact this
  case monitorStart =>
    have h : (if s.initialised then if s.monitor.worker = .none then
      .next ({ s with monitor := s.monitor.started } : State).acknowledge else .refused .workerRunning
      else .refused .notInitialised : Outcome) = .next t := h
    split at h
    · rename_i hi
      split at h
      · rename_i hw; injection h with h; subst h; exact .started hi hw
      · cases h
    · cases h
  case monitorStop => injection h with h; subst h; exact .flagged
  case subscribe n => injection h with h; subst h; exact .subscribed n
  case monitorCycle =>
    obtain ⟨-, hi, hw, ⟨-, rfl⟩ | ⟨present, hr, hp, rfl⟩⟩ := execMonitorCycle_next h
    · exact .ended hi hw
    · exact .cycled present hr hp
  all_goals first | exact absurd rfl hb | exact absurd rfl hm

/-- What every step that answers a next state did: an instruction run for some caller, a sleep slice, or nothing (R13). -/
theorem step_next {s t : State} (h : step s = .next t) :
    (∃ i rest a, exec i { s with port := rest, agent := a } = .next t) ∨
      (∃ rest ms, s.monitor.worker = .sleeping ms ∧ t = sleepSlice Config.cfg { s with port := rest }) ∨
      (∃ rest, t = { s with port := rest }) := by
  have worker : ∀ rest, (match workerTurn { s with port := rest } with
      | .run i s' => exec i s'
      | .slice s' => .next (sleepSlice Config.cfg s')
      | .idle s' => .next s'
      | .invalid why => .refused (.undecodable why) : Outcome) = .next t →
      (∃ i rest a, exec i { s with port := rest, agent := a } = .next t) ∨
      (∃ rest ms, s.monitor.worker = .sleeping ms ∧ t = sleepSlice Config.cfg { s with port := rest }) ∨
      (∃ rest, t = { s with port := rest }) := by
    intro rest h
    cases hw : s.monitor.worker with
    | none =>
      simp only [workerTurn, hw] at h
      injection h with h; exact .inr (.inr ⟨rest, h.symm⟩)
    | polling =>
      simp only [workerTurn, hw] at h
      exact .inl ⟨_, rest, .worker, h⟩
    | sleeping ms =>
      simp only [workerTurn, hw] at h
      injection h with h; exact .inr (.inl ⟨rest, ms, rfl, h.symm⟩)
  unfold step at h
  cases hp : s.port with
  | nil =>
    simp only [fetch, hp] at h
    exact worker s.port h
  | cons m rest =>
    cases m with
    | worker =>
      simp only [fetch, hp] at h
      exact worker rest h
    | host n req =>
      simp only [fetch, hp] at h
      cases hd : decode req with
      | ok i => rw [hd] at h; exact .inl ⟨i, rest, .host n, h⟩
      | error why => rw [hd] at h; cases h

end Sys2Proof.Machine
end

