-- ==== Sys2Proof/Laws/Opening.lean ====
section
/-!
SUPPORT. An error of the frame an instruction opens with is the instruction's result (spec/60_exceptions.md R360): what
`State.opening` says of each instruction, and one lemma for all of them.
-/

namespace Sys2Proof.Machine

/-- A block that `blockIn` accepts is in range. -/
theorem blockIn_some {b : Int} {v : Byte} (h : blockIn b = some v) :
    (0 ≤ b ∧ b < Config.cfg.blockCount) ∧ v = blockByte b := by
  unfold blockIn at h
  split at h
  · rename_i hb; cases h; exact ⟨hb, rfl⟩
  · cases h

theorem readOpening_some {s : State} {h : Handle} {b : Int} {f : Opening} (ho : s.readOpening h b = some f) :
    ∃ q, s.holds h q ∧ (0 ≤ b ∧ b < Config.cfg.blockCount) ∧ f = .read (blockByte b) := by
  obtain ⟨q, hq, hb⟩ := Option.bind_eq_some_iff.mp ho
  obtain ⟨v, hv, rfl⟩ := Option.map_eq_some_iff.mp hb
  obtain ⟨hr, rfl⟩ := blockIn_some hv
  exact ⟨q, sessionOf_some.mp hq, hr, rfl⟩

theorem authOpening_some {s : State} {h : Handle} {b : Int} {mode : Byte} {key : Option Key} {f : Opening}
    (ho : s.authOpening h b mode key = some f) :
    ∃ q, s.holds h q ∧ (0 ≤ b ∧ b < Config.cfg.blockCount) ∧ f = .auth mode (blockByte b) (key.getD q.key) q.uid := by
  obtain ⟨q, hq, hb⟩ := Option.bind_eq_some_iff.mp ho
  obtain ⟨v, hv, rfl⟩ := Option.map_eq_some_iff.mp hb
  obtain ⟨hr, rfl⟩ := blockIn_some hv
  exact ⟨q, sessionOf_some.mp hq, hr, rfl⟩

/-- A framed exchange whose exchange raises. -/
theorem framed_raises {β : Type} {c : Cfg} {body : List Byte} {x : CrcRun} {s t : State} {e : Err} {f : Response → Op β}
    (hx : x.polledOk c = true) (h : s.Answers (x.trace c body))
    (ht : transceive c .transceive (x.frame body) 0 (s.busStep (x.trace c body) (x.logged body)) = .error e t) :
    (withCrc c body >>= fun fr => transceive c .transceive fr 0 >>= f) s = .error e t := by
  rw [op_bind_ok (withCrc_answered hx h), op_bind_error ht]

/-- An authentication past its checks whose exchange raises: the mirror has been cleared (R236). -/
theorem authenticate_raises {c : Cfg} {h : Handle} {b : Int} {mode : Byte} {key : Option Key} {q : Session} {s t : State}
    {e : Err} (hq : s.holds h q) (hb : 0 ≤ b ∧ b < c.blockCount)
    (ht : transceive c .authent (authPayload mode (blockByte b) (key.getD q.key) q.uid) 0
      { s with session := withCrypto s.session false } = .error e t) :
    authenticate c h b mode key s = .error e t := by
  show (checkCard h >>= fun q => checkBlock c b >>= fun blk => setCrypto false >>= fun _ =>
    authExchange c mode blk (key.getD q.key) q.uid >>= fun _ => setCrypto true) s = _
  rw [op_bind_ok (checkCard_held hq), op_bind_ok (checkBlock_ok hb), op_bind_ok (rfl : setCrypto false s = .ok () _)]
  exact op_bind_error (op_bind_error ht)

/-- What the operation of an instruction does when the frame it opens with raises `e` and leaves `t`: it raises the same
error and leaves the same state. -/
theorem opening_raises {i : Instr} {f : Opening} {crc : CrcRun} {s t : State} {e : Err} (ho : s.opening i = some f)
    (hi : s.initialised = true) (hl : s.lock = none) (hp : f.polledOk Config.cfg crc = true)
    (ha : s.Answers (f.before Config.cfg crc))
    (ht : transceive Config.cfg f.cmd (f.frame crc) f.framing
      (State.busStep { s.locked with session := s.openingSession i } (f.before Config.cfg crc) (f.logged crc)) =
        .error e t) :
    exec i s = .next (t.replied (.err e)) := by
  have ha : s.locked.Answers (f.before Config.cfg crc) := State.answers_congr rfl rfl rfl ha
  have plain : ∀ {cmd : ChipCommand} {body : List Byte} {framing : Nat}, f = ⟨cmd, body, framing, false⟩ →
      transceive Config.cfg cmd body framing { s.locked with session := s.openingSession i } = .error e t := by
    rintro _ _ _ rfl
    simpa [Opening.frame, Opening.before, Opening.logged, State.busStep_nil] using ht
  have framed : ∀ {β : Type} {body : List Byte} {g : Response → Op β}, f = ⟨.transceive, body, 0, true⟩ →
      i.mirrorsCrypto = false →
      (withCrc Config.cfg body >>= fun fr => transceive Config.cfg .transceive fr 0 >>= g) s.locked = .error e t := by
    rintro β body g rfl hm
    refine framed_raises (x := crc) (by simpa [Opening.polledOk] using hp) (by simpa [Opening.before] using ha) ?_
    simpa [Opening.frame, Opening.before, Opening.logged, State.openingSession, hm] using ht
  have read : ∀ {blk : Byte}, f = .read blk → i.mirrorsCrypto = false →
      readExchange Config.cfg blk s.locked = .error e t := fun h hm => framed h hm
  have held : ∀ {h : Handle} {b : Int}, s.readOpening h b = some f → i.mirrorsCrypto = false →
      readBlock Config.cfg h b s.locked = .error e t := by
    intro h b hr hm
    obtain ⟨q, hq, hb, rfl⟩ := readOpening_some hr
    exact (readBlock_held (s := s.locked) hq hb).trans (read rfl hm)
  have auth : ∀ {h : Handle} {b : Int} {mode : Byte} {key : Option Key}, s.authOpening h b mode key = some f →
      i.mirrorsCrypto = true → authenticate Config.cfg h b mode key s.locked = .error e t := by
    intro h b mode key hr hm
    obtain ⟨q, hq, hb, rfl⟩ := authOpening_some hr
    refine authenticate_raises (s := s.locked) hq hb ((congrArg _ ?_).trans (plain rfl))
    simp [State.openingSession, hm]
  have byte : ∀ {b v : Byte}, blockIn (b.toNat : Int) = some v → v = b ∧
      ∀ u : State, checkBlock Config.cfg b.toNat u = .ok b u := by
    intro b v hv
    obtain ⟨hb, rfl⟩ := blockIn_some hv
    exact ⟨blockByte_toNat b, fun u => checkBlock_byte (by exact_mod_cast hb.2)⟩
  have done : ∀ {op : Op ResultValue}, op s.locked = .error e t → cardOperation op s = .next (t.replied (.err e)) :=
    fun h => cardOperation_raised hi hl h
  cases i
  case request mode => cases ho; exact done (op_bind_error (op_bind_error (plain rfl)))
  case reqa => cases ho; exact done (op_bind_error (op_bind_error (plain rfl)))
  case wupa => cases ho; exact done (op_bind_error (op_bind_error (plain rfl)))
  case frameReqa => cases ho; exact done (op_bind_error (op_bind_error (plain rfl)))
  case frameWupa => cases ho; exact done (op_bind_error (op_bind_error (plain rfl)))
  case detect => cases ho; exact done (op_bind_error (op_bind_error (op_bind_error (plain rfl))))
  case getUid => cases ho; exact done (op_bind_error (op_bind_error (plain rfl)))
  case frameAnticoll => cases ho; exact done (op_bind_error (op_bind_error (plain rfl)))
  case select h =>
    obtain ⟨q, hq, rfl⟩ := Option.map_eq_some_iff.mp ho
    exact done (op_bind_error ((op_bind_ok (checkCard_held (s := s.locked) (sessionOf_some.mp hq))).trans
      (framed rfl rfl)))
  case frameSelect u bcc => cases ho; exact done (op_bind_error (framed rfl rfl))
  case authenticate h b mode key => exact done (op_bind_error (auth ho rfl))
  case authA h b => exact done (op_bind_error (auth ho rfl))
  case authB h b => exact done (op_bind_error (auth ho rfl))
  case frameAuthA b k u =>
    obtain ⟨v, hv, rfl⟩ := Option.map_eq_some_iff.mp ho
    obtain ⟨rfl, hc⟩ := byte hv
    exact done ((op_bind_ok (hc _)).trans (op_bind_error (op_bind_error (plain rfl))))
  case frameAuthB b k u =>
    obtain ⟨v, hv, rfl⟩ := Option.map_eq_some_iff.mp ho
    obtain ⟨rfl, hc⟩ := byte hv
    exact done ((op_bind_ok (hc _)).trans (op_bind_error (op_bind_error (plain rfl))))
  case readBlock h b => exact done (op_bind_error (held ho rfl))
  case cardRead h b => exact done (op_bind_error (held ho rfl))
  case readStr h b => exact done (op_bind_error (op_bind_error (held ho rfl)))
  case frameRead b =>
    obtain ⟨v, hv, rfl⟩ := Option.map_eq_some_iff.mp ho
    obtain ⟨rfl, hc⟩ := byte hv
    exact done ((op_bind_ok (hc _)).trans (op_bind_error (read rfl rfl)))
  case readInt32 h b off sg =>
    have ho : (if 0 ≤ off ∧ off ≤ 12 then s.readOpening h b else none) = some f := ho
    split at ho
    · rename_i hoff
      obtain ⟨q, hq, hb, hf⟩ := readOpening_some ho
      exact done (op_bind_error ((readInt32_held (s := s.locked) hq hb hoff).trans (op_bind_error (read hf rfl))))
    · cases ho
  case writeInt32 h b off v =>
    have ho : (if (0 ≤ off ∧ off ≤ 12) ∧ -2147483648 ≤ v ∧ v < 4294967296 then s.readOpening h b else none) = some f := ho
    split at ho
    · rename_i hoff
      obtain ⟨q, hq, hb, hf⟩ := readOpening_some ho
      exact done (op_bind_error ((writeInt32_held (s := s.locked) hq hb hoff.1 hoff.2).trans
        (op_bind_error (read hf rfl))))
    · cases ho
  all_goals cases ho

end Sys2Proof.Machine
end

