-- ==== Sys2Proof/Laws/PerInstr.lean ====
section
/-!
SUPPORT. The per-instruction family CoreWf: the core instruction a request stands for (spec/30_encoding.md R92, R93).
-/

namespace Sys2Proof.Laws

/-- The core of an instruction is a core instruction, has the same request, and is well formed when the instruction is. -/
def CoreWf.Statement (i : Instr) : Prop :=
  i.core.core = i.core ∧ encode i = encode i.core ∧ (i.wf = true → i.core.wf = true)

theorem CoreWf.regRead (a : Int) : CoreWf.Statement (.regRead a) := ⟨rfl, rfl, id⟩
theorem CoreWf.regWrite (a : Int) (v : Byte) : CoreWf.Statement (.regWrite a v) := ⟨rfl, rfl, id⟩
theorem CoreWf.setBits (a : Int) (m : Byte) : CoreWf.Statement (.setBits a m) := ⟨rfl, rfl, id⟩
theorem CoreWf.clearBits (a : Int) (m : Byte) : CoreWf.Statement (.clearBits a m) := ⟨rfl, rfl, id⟩
theorem CoreWf.transceive (cmd : ChipCommand) (payload : List Byte) (framing : Nat) : CoreWf.Statement (.transceive cmd payload framing) := ⟨rfl, rfl, id⟩
theorem CoreWf.crc16 (bytes : List Byte) : CoreWf.Statement (.crc16 bytes) := ⟨rfl, rfl, id⟩
theorem CoreWf.request (mode : Byte) : CoreWf.Statement (.request mode) := ⟨rfl, rfl, id⟩
theorem CoreWf.getUid : CoreWf.Statement (.getUid) := ⟨rfl, rfl, id⟩
theorem CoreWf.detect : CoreWf.Statement (.detect) := ⟨rfl, rfl, id⟩
theorem CoreWf.select (h : Handle) : CoreWf.Statement (.select h) := ⟨rfl, rfl, id⟩
theorem CoreWf.authenticate (h : Handle) (b : Int) (keyMode : Byte) (key : Option Key) : CoreWf.Statement (.authenticate h b keyMode key) := ⟨rfl, rfl, id⟩
theorem CoreWf.readBlock (h : Handle) (b : Int) : CoreWf.Statement (.readBlock h b) := ⟨rfl, rfl, id⟩
theorem CoreWf.writeBlock (h : Handle) (b : Int) (data : List Byte) : CoreWf.Statement (.writeBlock h b data) := ⟨rfl, rfl, id⟩
theorem CoreWf.endSession (h : Handle) : CoreWf.Statement (.endSession h) := ⟨rfl, rfl, id⟩
theorem CoreWf.readStr (h : Handle) (b : Int) : CoreWf.Statement (.readStr h b) := ⟨rfl, rfl, id⟩
theorem CoreWf.writeStr (h : Handle) (b : Int) (str : List Byte) : CoreWf.Statement (.writeStr h b str) := ⟨rfl, rfl, id⟩
theorem CoreWf.readInt32 (h : Handle) (b off : Int) (signed : Bool) : CoreWf.Statement (.readInt32 h b off signed) := ⟨rfl, rfl, id⟩
theorem CoreWf.writeInt32 (h : Handle) (b off v : Int) : CoreWf.Statement (.writeInt32 h b off v) := ⟨rfl, rfl, id⟩
theorem CoreWf.dump (h : Handle) : CoreWf.Statement (.dump h) := ⟨rfl, rfl, id⟩
theorem CoreWf.init : CoreWf.Statement (.init) := ⟨rfl, rfl, id⟩
theorem CoreWf.monitorStart : CoreWf.Statement (.monitorStart) := ⟨rfl, rfl, id⟩
theorem CoreWf.monitorCycle : CoreWf.Statement (.monitorCycle) := ⟨rfl, rfl, id⟩
theorem CoreWf.monitorStop : CoreWf.Statement (.monitorStop) := ⟨rfl, rfl, id⟩
theorem CoreWf.subscribe (consumer : Nat) : CoreWf.Statement (.subscribe consumer) := ⟨rfl, rfl, id⟩
theorem CoreWf.cmdIdle : CoreWf.Statement (.cmdIdle) := ⟨rfl, rfl, id⟩
theorem CoreWf.cmdCalcCRC : CoreWf.Statement (.cmdCalcCRC) := ⟨rfl, rfl, id⟩
theorem CoreWf.cmdTransceive : CoreWf.Statement (.cmdTransceive) := ⟨rfl, rfl, id⟩
theorem CoreWf.cmdAuthent : CoreWf.Statement (.cmdAuthent) := ⟨rfl, rfl, id⟩
theorem CoreWf.frameReqa : CoreWf.Statement (.frameReqa) := ⟨rfl, rfl, id⟩
theorem CoreWf.frameWupa : CoreWf.Statement (.frameWupa) := ⟨rfl, rfl, id⟩
theorem CoreWf.frameAnticoll : CoreWf.Statement (.frameAnticoll) := ⟨rfl, rfl, id⟩
theorem CoreWf.frameSelect (uid : Uid) (bcc : Byte) : CoreWf.Statement (.frameSelect uid bcc) := ⟨rfl, rfl, id⟩
theorem CoreWf.frameAuthA (b : Byte) (key : Key) (uid : Uid) : CoreWf.Statement (.frameAuthA b key uid) := ⟨rfl, rfl, id⟩
theorem CoreWf.frameAuthB (b : Byte) (key : Key) (uid : Uid) : CoreWf.Statement (.frameAuthB b key uid) := ⟨rfl, rfl, id⟩
theorem CoreWf.frameRead (b : Byte) : CoreWf.Statement (.frameRead b) := ⟨rfl, rfl, id⟩
theorem CoreWf.frameWrite (b : Byte) (data : List Byte) : CoreWf.Statement (.frameWrite b data) := ⟨rfl, rfl, id⟩
theorem CoreWf.reqa : CoreWf.Statement (.reqa) := ⟨rfl, rfl, id⟩
theorem CoreWf.wupa : CoreWf.Statement (.wupa) := ⟨rfl, rfl, id⟩
theorem CoreWf.authA (h : Handle) (b : Int) : CoreWf.Statement (.authA h b) := ⟨rfl, rfl, id⟩
theorem CoreWf.authB (h : Handle) (b : Int) : CoreWf.Statement (.authB h b) := ⟨rfl, rfl, id⟩
theorem CoreWf.cardRead (h : Handle) (b : Int) : CoreWf.Statement (.cardRead h b) := ⟨rfl, rfl, id⟩
theorem CoreWf.cardWrite (h : Handle) (b : Int) (data : List Byte) : CoreWf.Statement (.cardWrite h b data) := ⟨rfl, rfl, id⟩

end Sys2Proof.Laws
end

