-- ==== Sys2Proof/Tests/Slice0.lean ====
section
/-!
SUPPORT. The model's own tests: well-formedness, decoding, one step of each instruction on the vectors of
spec/95_test_vectors.md, and for each statement a state and operands that meet its hypotheses.
-/

namespace Sys2Proof.Tests

open Sys2Proof Sys2Proof.Machine

/-! ## Helpers -/

/-- `R(a, v)`. -/
def rd (a v : Nat) : TraceEntry := .read (BitVec.ofNat 6 a) (BitVec.ofNat 8 v)

/-- `W(a, v)`. -/
def wr (a v : Nat) : TraceEntry := .write (BitVec.ofNat 6 a) (BitVec.ofNat 8 v)

/-- Bytes from naturals. -/
def bs (l : List Nat) : List Byte := l.map (BitVec.ofNat 8)

/-- The draw that makes a transaction happen as a history entry says. -/
def answerOf : TraceEntry → Answer
  | .read _ v => { fails := false, value := v }
  | .write _ _ => { fails := false, value := 0#8 }
  | .fail _ => { fails := true, value := 0#8 }
  | .line _ => { fails := false, value := 0#8 }

/-- Card A of the vectors. -/
def uidA : Uid := ⟨0xDE#8, 0xAD#8, 0xBE#8, 0xEF#8⟩

/-- Card B of the vectors. -/
def uidB : Uid := ⟨0x12#8, 0x34#8, 0x56#8, 0x78#8⟩

/-- The handle of the vectors. -/
def hA : Handle := ⟨uidA, 1⟩

/-- A handle of no session. -/
def hOld : Handle := ⟨uidB, 1⟩

/-- The all-ones key. -/
def keyFF : Key := ⟨0xFF#8, 0xFF#8, 0xFF#8, 0xFF#8, 0xFF#8, 0xFF#8⟩

/-- The session of the vectors. -/
def sessionA (active : Bool) : Session := { uid := uidA, bcc := 0x22#8, key := keyFF, cryptoActive := active, gen := 1 }

/-- A state right after construction whose environment answers `T`. -/
def cold (T : List TraceEntry) : State := { State.reset with env := T.map answerOf }

/-- An initialised state without a session whose environment answers `T`. -/
def warm (T : List TraceEntry) : State := { cold T with line := true, initialised := true }

/-- An initialised state with the session of the vectors whose environment answers `T`. -/
def ready (T : List TraceEntry) : State := { warm T with session := some (sessionA true), gen := 1 }

/-- The next state, if there is one. -/
def nextOf : Outcome → Option State
  | .next t => some t
  | .fault _ => none
  | .refused _ => none

/-- The refusal, if there is one. -/
def refusalOf : Outcome → Option Refusal
  | .next _ => none
  | .fault _ => none
  | .refused why => some why

/-- From a state whose environment answers `T`, the instruction performs exactly `T` and ends with one result. -/
def performs (i : Instr) (s : State) (T : List TraceEntry) (r : Result) : Bool :=
  match nextOf (exec i s) with
  | some t => t.trace == T && t.env == [] && t.results == [{ caller := s.agent, result := r }] && t.lock == none
  | none => false

/-- A field of the next state. -/
def after {α : Type} (i : Instr) (s : State) (f : State → α) : Option α := (nextOf (exec i s)).map f

/-! ## Well-formedness (spec/30_encoding.md R91, R92, R110): a term each check refuses -/

theorem test_wf_transceive_cmd : Instr.wf (.transceive .idle [] 0) = false ∧ Instr.wf (.transceive .calcCRC [] 0) = false := by
  decide
theorem test_wf_transceive_framing : Instr.wf (.transceive .transceive [] 8) = false ∧
    Instr.wf (.transceive .transceive [] 7) = true ∧ Instr.wf (.transceive .authent [] 0) = true := by decide
theorem test_wf_checked_when_run : Instr.wf (.readBlock hA 64) = true ∧ Instr.wf (.regRead (-1)) = true ∧
    Instr.wf (.writeInt32 hA 0 13 4294967296) = true ∧ Instr.wf (.frameRead 64#8) = true ∧
    Instr.wf (.frameWrite 255#8 []) = true := by decide
theorem test_config_valid : Config.cfg.valid = true := by decide

/-! ## Decoding, from the encodings of spec/30_encoding.md R91, R93, R96, R97, R110 and the requests of
spec/95_test_vectors.md Part 3 -/

/-- What a request decodes to. -/
def reads (r : Request) : Option Instr := (decode r).toOption

theorem test_decode_register : reads (.host 0x01#8 [.int 0x3F]) = some (.regRead 0x3F) ∧
    reads (.host 0x02#8 [.int 0x01, .int 0xFF]) = some (.regWrite 0x01 0xFF#8) ∧
    reads (.host 0x03#8 [.int 0x0A, .int 0x80]) = some (.setBits 0x0A 0x80#8) ∧
    reads (.host 0x04#8 [.int 0x08, .int 0x08]) = some (.clearBits 0x08 0x08#8) := by decide
theorem test_decode_frame_requests :
    reads (.host 0x10#8 [.cmd .authent, .bytes [0x60#8], .int 0]) = some (.transceive .authent [0x60#8] 0) ∧
    reads (.host 0x11#8 [.bytes []]) = some (.crc16 []) ∧ reads (.host 0x20#8 [.int 0x52]) = some (.request 0x52#8) := by
  decide
theorem test_decode_card : reads (.host 0x21#8 []) = some .getUid ∧ reads (.host 0x22#8 []) = some .detect ∧
    reads (.host 0x23#8 [.card hA]) = some (.select hA) ∧
    reads (.host 0x24#8 [.card hA, .int 4, .int 0x61, .bytes (bs [0xA0, 0xA1, 0xA2, 0xA3, 0xA4, 0xA5])]) =
      some (.authenticate hA 4 0x61#8 (some ⟨0xA0#8, 0xA1#8, 0xA2#8, 0xA3#8, 0xA4#8, 0xA5#8⟩)) ∧
    reads (.host 0x25#8 [.card hA, .int 64]) = some (.readBlock hA 64) ∧
    reads (.host 0x26#8 [.card hA, .int 4, .bytes [1#8]]) = some (.writeBlock hA 4 [1#8]) ∧
    reads (.host 0x27#8 [.card hA]) = some (.endSession hA) := by decide
theorem test_decode_accessors : reads (.host 0x30#8 [.card hA, .int 4]) = some (.readStr hA 4) ∧
    reads (.host 0x31#8 [.card hA, .int 4, .bytes [0x41#8]]) = some (.writeStr hA 4 [0x41#8]) ∧
    reads (.host 0x32#8 [.card hA, .int 8, .int 4, .bool true]) = some (.readInt32 hA 8 4 true) ∧
    reads (.host 0x33#8 [.card hA, .int 8, .int 4, .int (-2)]) = some (.writeInt32 hA 8 4 (-2)) ∧
    reads (.host 0x34#8 [.card hA]) = some (.dump hA) := by decide
theorem test_decode_monitor : reads (.host 0x40#8 []) = some .init ∧ reads (.host 0x41#8 []) = some .monitorStart ∧
    reads (.host 0x42#8 []) = some .monitorCycle ∧ reads (.host 0x43#8 []) = some .monitorStop ∧
    reads (.host 0x44#8 [.consumer 1]) = some (.subscribe 1) := by decide
theorem test_decode_chip_commands : reads (.chipCommand 0x00#8) = some .cmdIdle ∧
    reads (.chipCommand 0x03#8) = some .cmdCalcCRC ∧ reads (.chipCommand 0x0C#8) = some .cmdTransceive ∧
    reads (.chipCommand 0x0E#8) = some .cmdAuthent ∧ reads (.chipCommand 0x0F#8) = none := by decide
theorem test_decode_card_frames : reads (.cardFrame [0x26#8]) = some .frameReqa ∧
    reads (.cardFrame [0x52#8]) = some .frameWupa ∧ reads (.cardFrame (bs [0x93, 0x20])) = some .frameAnticoll ∧
    reads (.cardFrame (bs [0x93, 0x70, 0xDE, 0xAD, 0xBE, 0xEF, 0x22])) = some (.frameSelect uidA 0x22#8) ∧
    reads (.cardFrame (bs [0x60, 4, 0xFF, 0xFF, 0xFF, 0xFF, 0xFF, 0xFF, 0xDE, 0xAD, 0xBE, 0xEF])) =
      some (.frameAuthA 4#8 keyFF uidA) ∧
    reads (.cardFrame (bs [0x61, 63, 0xFF, 0xFF, 0xFF, 0xFF, 0xFF, 0xFF, 0xDE, 0xAD, 0xBE, 0xEF])) =
      some (.frameAuthB 63#8 keyFF uidA) ∧
    reads (.cardFrame (bs [0x30, 4])) = some (.frameRead 4#8) ∧
    reads (.cardFrame (bs [0xA0, 4, 0, 1, 2, 3, 4, 5, 6, 7, 8, 9, 10, 11, 12, 13, 14, 15])) =
      some (.frameWrite 4#8 (bs [0, 1, 2, 3, 4, 5, 6, 7, 8, 9, 10, 11, 12, 13, 14, 15])) := by decide
-- a block byte out of range, and data of no, five and ten bytes (the lengths of other frames), are checked when run (log 8)
theorem test_decode_frame_values : reads (.cardFrame (bs [0x30, 64])) = some (.frameRead 64#8) ∧
    reads (.cardFrame (bs [0xA0, 4])) = some (.frameWrite 4#8 []) ∧
    reads (.cardFrame (bs [0xA0, 255, 1, 2, 3, 4, 5])) = some (.frameWrite 255#8 (bs [1, 2, 3, 4, 5])) ∧
    reads (.cardFrame (bs [0xA0, 0, 1, 2, 3, 4, 5, 6, 7, 8, 9, 10])) =
      some (.frameWrite 0#8 (bs [1, 2, 3, 4, 5, 6, 7, 8, 9, 10])) := by decide
theorem test_encode_pseudo : encode .reqa = .host 0x20#8 [.int 0x26] ∧ encode .wupa = .host 0x20#8 [.int 0x52] ∧
    encode (.authA hA 8) = .host 0x24#8 [.card hA, .int 8, .int 0x60] ∧
    encode (.authB hA 8) = .host 0x24#8 [.card hA, .int 8, .int 0x61] ∧
    encode (.cardRead hA 4) = .host 0x25#8 [.card hA, .int 4] ∧
    encode (.cardWrite hA 4 [1#8]) = .host 0x26#8 [.card hA, .int 4, .bytes [1#8]] := by decide
theorem test_decode_refuses : reads (.host 0x50#8 []) = none ∧ reads (.host 0x00#8 []) = none ∧
    reads (.host 0x10#8 [.cmd .calcCRC, .bytes [], .int 0]) = none ∧
    reads (.host 0x10#8 [.cmd .transceive, .bytes [], .int 8]) = none ∧ reads (.host 0x22#8 [.int 0]) = none ∧
    reads (.cardFrame (bs [0x30])) = none ∧ reads (.cardFrame (bs [0xA0])) = none ∧
    reads (.cardFrame (bs [0x60, 4, 0])) = none := by decide

/-! ## Words of spec/opcode_table.json -/

theorem test_table_word : decodeTableWord 8 0x22 = some .detect ∧ decodeTableWord 8 0x0C = some .cmdTransceive ∧
    decodeTableWord 8 0x52 = some .frameWupa ∧ decodeTableWord 16 0x9320 = some .frameAnticoll := by decide
theorem test_table_word_zeros : decodeTableWord 8 0x60 = some (.frameAuthA 0#8 ⟨0#8, 0#8, 0#8, 0#8, 0#8, 0#8⟩ ⟨0#8, 0#8, 0#8, 0#8⟩) ∧
    decodeTableWord 16 0x9370 = some (.frameSelect ⟨0#8, 0#8, 0#8, 0#8⟩ 0#8) ∧ decodeTableWord 8 0xFF = none := by decide
theorem test_fetch_word : after .detect (cold []) (fun t => t.results) = none ∧
    (nextOf (step ((cold [rd 0 0x5A]).withFetchWord 8 0x01))).map (fun t => t.results) =
      some [{ caller := .host 0, result := .ok (.byte 0x5A#8) }] := by decide +kernel

/-! ## One step of each instruction, on the traces and results of spec/95_test_vectors.md -/

/-- `ok(value)`. -/
abbrev ok (v : ResultValue) : Result := .ok v

/-- The Response of REF's request answer. -/
def atqa : Response := { status := .ok, bytes := bs [4, 0], bits := 16 }

/-- A Transceive exchange of the vectors with framing `f`, payload `p`, last poll `irq`, and the answers of FIFOLEVEL, CONTROL
and FIFODATA; `i0` is the value of IRQ and `l0` that of FIFOLEVEL before it (section 3). -/
def vectorExchange (f : Nat) (p : List Nat) (i0 l0 irq level control : Nat) (answer : List Nat) : List TraceEntry :=
  [wr 0x0D f, wr 0x02 0xF7, rd 0x04 i0, wr 0x04 (i0 % 128), rd 0x0A l0, wr 0x0A (l0 + 128), wr 0x01 0x00] ++
  p.map (wr 0x09) ++
  [wr 0x01 0x0C, rd 0x0D f, wr 0x0D (f + 128), rd 0x04 irq, rd 0x0D (f + 128), wr 0x0D f, rd 0x06 0x00, rd 0x0A level,
   rd 0x0C control] ++ answer.map (rd 0x09)

/-- A CRC16 of the vectors: the input, the result, the value of DIVIRQ before. -/
def vectorCrc (p : List Nat) (lo hi div l0 : Nat) : List TraceEntry :=
  [rd 0x05 div, wr 0x05 0x00, rd 0x0A l0, wr 0x0A (l0 + 128)] ++ p.map (wr 0x09) ++
  [wr 0x01 0x03, rd 0x05 0x04, rd 0x22 lo, rd 0x21 hi]

/-- An Authent exchange of the vectors with the status register's answer (program P1, step 4). -/
def vectorAuth (p : List Nat) (irq status2 : Nat) : List TraceEntry :=
  [wr 0x0D 0x00, wr 0x02 0x92, rd 0x04 0x70, wr 0x04 0x70, rd 0x0A 0x00, wr 0x0A 0x80, wr 0x01 0x00] ++ p.map (wr 0x09) ++
  [wr 0x01 0x0E, rd 0x04 irq, rd 0x0D 0x00, wr 0x0D 0x00, rd 0x06 0x00, rd 0x08 status2]

/-- The bytes 00 01 .. 0F. -/
def count16 : List Nat := [0, 1, 2, 3, 4, 5, 6, 7, 8, 9, 10, 11, 12, 13, 14, 15]

/-- Program P1, step 2, part 1: the request. -/
def vectorRequest : List TraceEntry := vectorExchange 7 [0x26] 0 0 0x70 2 0 [4, 0]

/-- Program P1, step 2, part 2: the anti-collision. -/
def vectorAnticoll : List TraceEntry := vectorExchange 0 [0x93, 0x20] 0x70 0 0x70 5 0 [0xDE, 0xAD, 0xBE, 0xEF, 0x22]

/-- Program P1, step 3. -/
def vectorSelect : List TraceEntry :=
  vectorCrc [0x93, 0x70, 0xDE, 0xAD, 0xBE, 0xEF, 0x22] 0xB9 0x9C 0 0 ++
  vectorExchange 0 [0x93, 0x70, 0xDE, 0xAD, 0xBE, 0xEF, 0x22, 0xB9, 0x9C] 0x70 7 0x70 3 0 [0x08, 0xB6, 0xDD]

/-- The read of block 4 (program P1, step 5), with the FIFO level, CONTROL and bytes answered. -/
def vectorRead (level control : Nat) (answer : List Nat) : List TraceEntry :=
  vectorCrc [0x30, 0x04] 0x26 0xEE 4 0 ++ vectorExchange 0 [0x30, 0x04, 0x26, 0xEE] 0x10 2 0x70 level control answer

/-- The write of block 4 (section 2.4): both frames, with the two acknowledge bytes. -/
def vectorWrite (data : List Nat) (lo hi ack1 ack2 : Nat) : List TraceEntry :=
  vectorCrc [0xA0, 0x04] 0x7B 0xF7 4 0 ++ vectorExchange 0 [0xA0, 0x04, 0x7B, 0xF7] 0x10 2 0x70 1 4 [ack1] ++
  vectorCrc data lo hi 4 0 ++ vectorExchange 0 (data ++ [lo, hi]) 0x70 16 0x70 1 4 [ack2]

-- Section 2.1
theorem test_regRead : performs (.regRead 0x3F) (cold [rd 0x3F 0x5A]) [rd 0x3F 0x5A] (ok (.byte 0x5A#8)) = true ∧
    performs (.regRead 0x09) (cold [.fail 0x09#6]) [.fail 0x09#6] (raised (.transportError 0x09#6)) = true := by decide +kernel
theorem test_regWrite : performs (.regWrite 0x00 0xFF#8) (cold [wr 0 0xFF]) [wr 0 0xFF] (ok .unit) = true ∧
    performs (.regWrite 0x40 0#8) (cold []) [] (raised (.invalidArgument .regAddress)) = true := by decide +kernel
theorem test_setBits : performs (.setBits 0x0A 0x80#8) (cold [rd 0x0A 5, wr 0x0A 0x85]) [rd 0x0A 5, wr 0x0A 0x85] (ok .unit)
      = true ∧
    performs (.setBits 0x14 3#8) (cold [rd 0x14 0x80, .fail 0x14#6]) [rd 0x14 0x80, .fail 0x14#6]
      (raised (.transportError 0x14#6)) = true := by decide +kernel
theorem test_clearBits : performs (.clearBits 0x04 0x80#8) (cold [rd 4 0xE4, wr 4 0x64]) [rd 4 0xE4, wr 4 0x64] (ok .unit)
      = true ∧
    performs (.clearBits 0x08 0xFF#8) (cold [rd 8 0x5A, wr 8 0]) [rd 8 0x5A, wr 8 0] (ok .unit) = true := by decide +kernel

-- Section 2.2: T7 (the FIFO is read although the status is NoTag) and T9
theorem test_transceive_notag :
    performs (.transceive .transceive (bs [0x26]) 7) (ready (vectorExchange 7 [0x26] 1 0 0x41 0 0 [0]))
      (vectorExchange 7 [0x26] 1 0 0x41 0 0 [0])
      (ok (.response { status := .noTag, bytes := [0#8], bits := 8 })) = true := by decide +kernel
theorem test_transceive_authent :
    performs (.transceive .authent (bs [0x60]) 0) (ready ((vectorAuth [0x60] 0x10 0).dropLast))
      ((vectorAuth [0x60] 0x10 0).dropLast) (ok (.response { status := .ok, bytes := [], bits := 0 })) = true := by
  decide +kernel

-- Table T-bits: level, last bits, bits, bytes drained
theorem test_bits : bitCount 0 5 = 8 ∧ bitCount 1 4 = 4 ∧ bitCount 2 7 = 15 ∧ bitCount 5 0 = 40 ∧ bitCount 18 2 = 138 ∧
    bitCount 255 7 = 2039 ∧ drainCount Config.cfg 0 = 1 ∧ drainCount Config.cfg 17 = 16 ∧ drainCount Config.cfg 5 = 5 := by
  decide
-- Table T-poll: completion and status
theorem test_poll : ([0x00, 0x01, 0x02, 0x10, 0x20, 0x40, 0x41, 0x80, 0xFF] : List Nat).map (fun v =>
      (irqDone Config.cfg 0x30#8 (BitVec.ofNat 8 v), irqDone Config.cfg 0x10#8 (BitVec.ofNat 8 v))) =
    [(false, false), (true, true), (false, false), (true, true), (true, false), (false, false), (true, true),
     (false, false), (true, true)] ∧
    frameStatus Config.cfg 0x77#8 0x41#8 = .noTag ∧ frameStatus Config.cfg 0x12#8 0x41#8 = .ok := by decide
-- Table T-err
theorem test_err : (bs [0x00, 0x01, 0x02, 0x04, 0x08, 0x10, 0xE4, 0x24, 0xFF]).map (frameFailed Config.cfg) =
    [false, true, true, false, true, true, false, false, true] := by decide

-- Section 2.3: C1 and table T-crc
theorem test_crc16 : performs (.crc16 (bs [0x30, 0])) (ready (vectorCrc [0x30, 0] 0x02 0xA8 0 0)) (vectorCrc [0x30, 0] 0x02 0xA8 0 0)
    (ok (.crc 0x02#8 0xA8#8)) = true := by decide +kernel
theorem test_crcA : crcA (bs [0x93, 0x70, 0xDE, 0xAD, 0xBE, 0xEF, 0x22]) = (0xB9#8, 0x9C#8) ∧
    crcA (bs count16) = (0x77#8, 0xF5#8) ∧ crcA [0x08#8] = (0xB6#8, 0xDD#8) := by decide +kernel

-- Section 2.4
theorem test_request : performs (.request 0x26#8) (warm vectorRequest) vectorRequest (ok (.response atqa)) = true ∧
    performs (.request 0x26#8) (warm (vectorExchange 7 [0x26] 0 0 0x70 2 7 [4, 0])) (vectorExchange 7 [0x26] 0 0 0x70 2 7 [4, 0])
      (raised (.noTagPresent { atqa with bits := 15 })) = true := by decide +kernel
theorem test_getUid : performs .getUid (warm vectorAnticoll) vectorAnticoll (ok (.uid uidA 0x22#8)) = true ∧
    performs .getUid (warm (vectorExchange 0 [0x93, 0x20] 0x70 0 0x70 5 0 [0xDE, 0xAD, 0xBE, 0xEE, 0x22]))
      (vectorExchange 0 [0x93, 0x20] 0x70 0 0x70 5 0 [0xDE, 0xAD, 0xBE, 0xEE, 0x22])
      (raised (.uidChecksumError (bs [0xDE, 0xAD, 0xBE, 0xEE, 0x22]))) = true := by decide +kernel
theorem test_detect_installs : performs .detect (warm (vectorRequest ++ vectorAnticoll)) (vectorRequest ++ vectorAnticoll)
      (ok (.card hA)) = true ∧
    after .detect (warm (vectorRequest ++ vectorAnticoll)) (fun t => (t.session, t.gen)) = some (some (sessionA false), 1) := by
  decide +kernel
theorem test_detect_keeps : after .detect (ready (vectorRequest ++ vectorAnticoll)) (fun t => (t.session, t.gen)) =
    some (some (sessionA true), 1) := by decide +kernel
theorem test_select : performs (.select hA) (ready vectorSelect) vectorSelect (ok (.byte 0x08#8)) = true ∧
    performs (.select hOld) (ready []) [] (raised (.invalidArgument .staleCard)) = true := by decide +kernel
theorem test_authenticate :
    performs (.authenticate hA 4 0x60#8 none)
      (ready (vectorAuth [0x60, 4, 0xFF, 0xFF, 0xFF, 0xFF, 0xFF, 0xFF, 0xDE, 0xAD, 0xBE, 0xEF] 0x10 0x08))
      (vectorAuth [0x60, 4, 0xFF, 0xFF, 0xFF, 0xFF, 0xFF, 0xFF, 0xDE, 0xAD, 0xBE, 0xEF] 0x10 0x08) (ok .unit) = true := by
  decide +kernel
theorem test_authenticate_wrong_key :
    after (.authenticate hA 4 0x60#8 (some ⟨0#8, 0#8, 0#8, 0#8, 0#8, 0#8⟩))
      (ready (vectorAuth [0x60, 4, 0, 0, 0, 0, 0, 0, 0xDE, 0xAD, 0xBE, 0xEF] 0x01 0x00))
      (fun t => (t.trace, t.session, t.results)) =
    some (vectorAuth [0x60, 4, 0, 0, 0, 0, 0, 0, 0xDE, 0xAD, 0xBE, 0xEF] 0x01 0x00, some (sessionA false),
      [{ caller := .host 0, result := raised (.authenticationFailed .notActive) }]) := by decide +kernel
theorem test_readBlock : performs (.readBlock hA 4) (ready (vectorRead 0x12 0 count16)) (vectorRead 0x12 0 count16)
      (ok (.bytes (bs count16))) = true ∧
    performs (.readBlock hA 4) (ready (vectorRead 1 4 [4])) (vectorRead 1 4 [4])
      (raised (.readFailed { status := .ok, bytes := [4#8], bits := 4 })) = true := by decide +kernel
theorem test_readBlock_boundary : performs (.readBlock hA 64) (ready []) [] (raised (.invalidArgument .blockRange)) = true ∧
    performs (.readBlock hA (-1)) (ready []) [] (raised (.invalidArgument .blockRange)) = true := by decide +kernel
theorem test_writeBlock : performs (.writeBlock hA 4 (bs count16)) (ready (vectorWrite count16 0x77 0xF5 0x0A 0x0A))
      (vectorWrite count16 0x77 0xF5 0x0A 0x0A) (ok .unit) = true ∧
    performs (.writeBlock hA 4 (bs count16)) (ready (vectorWrite count16 0x77 0xF5 0x1A 0x01))
      (vectorWrite count16 0x77 0xF5 0x1A 0x01)
      (raised (.writeFailed .phase2Partial { status := .ok, bytes := [1#8], bits := 4 })) = true := by decide +kernel
theorem test_writeBlock_partial : (after (.writeBlock hA 4 (bs count16))
      (ready ((vectorWrite count16 0x77 0xF5 0x0A 0x0A).take 35 ++ [.fail 0x09#6])) (fun t => (t.trace.length, t.results))) =
    some (36, [{ caller := .host 0, result := .err { cause := .transportError 0x09#6, mark := .write true } }]) := by
  decide +kernel
theorem test_endSession : performs (.endSession hOld) (ready [rd 8 0x0F, wr 8 7]) [rd 8 0x0F, wr 8 7] (ok .unit) = true ∧
    after (.endSession hOld) (ready [rd 8 0x0F, wr 8 7]) (fun t => t.session) = some (some (sessionA false)) := by
  decide +kernel

-- Section 2.5
theorem test_readStr : performs (.readStr hA 4) (ready (vectorRead 0x12 0 [0x41, 0, 0x42, 0, 0, 0, 0, 0, 0, 0, 0, 0, 0, 0, 0, 0]))
    (vectorRead 0x12 0 [0x41, 0, 0x42, 0, 0, 0, 0, 0, 0, 0, 0, 0, 0, 0, 0, 0]) (ok (.bytes (bs [0x41, 0, 0x42]))) = true := by
  decide +kernel
theorem test_writeStr : performs (.writeStr hA 4 (bs [0x48, 0x45, 0x4C, 0x4C, 0x4F]))
    (ready (vectorWrite [0x48, 0x45, 0x4C, 0x4C, 0x4F, 0, 0, 0, 0, 0, 0, 0, 0, 0, 0, 0] 0xFC 0xAC 0x0A 0x0A))
    (vectorWrite [0x48, 0x45, 0x4C, 0x4C, 0x4F, 0, 0, 0, 0, 0, 0, 0, 0, 0, 0, 0] 0xFC 0xAC 0x0A 0x0A) (ok .unit) = true := by
  decide +kernel
theorem test_readInt32 : performs (.readInt32 hA 4 3 false) (ready (vectorRead 0x12 0 count16)) (vectorRead 0x12 0 count16)
      (ok (.int 50595078)) = true ∧
    performs (.readInt32 hA 4 4 true) (ready (vectorRead 0x12 0 [0, 0, 0, 0, 0xFF, 0xFF, 0xFF, 0xFE, 0, 0, 0, 0, 0, 0, 0, 0]))
      (vectorRead 0x12 0 [0, 0, 0, 0, 0xFF, 0xFF, 0xFF, 0xFE, 0, 0, 0, 0, 0, 0, 0, 0]) (ok (.int (-2))) = true := by
  decide +kernel
theorem test_writeInt32 : performs (.writeInt32 hA 4 4 0x11223344)
    (ready (vectorRead 0x12 0 count16 ++
      vectorWrite [0, 1, 2, 3, 0x11, 0x22, 0x33, 0x44, 8, 9, 10, 11, 12, 13, 14, 15] 0xD8 0xF0 0x0A 0x0A))
    (vectorRead 0x12 0 count16 ++
      vectorWrite [0, 1, 2, 3, 0x11, 0x22, 0x33, 0x44, 8, 9, 10, 11, 12, 13, 14, 15] 0xD8 0xF0 0x0A 0x0A) (ok .unit) = true := by
  decide +kernel
theorem test_int_conversion : ([0, 42, -1, 2147483647, -2147483648, 4294967295, 0x11223344] : List Int).map bytes32 =
    [bs [0, 0, 0, 0], bs [0, 0, 0, 0x2A], bs [0xFF, 0xFF, 0xFF, 0xFF], bs [0x7F, 0xFF, 0xFF, 0xFF], bs [0x80, 0, 0, 0],
     bs [0xFF, 0xFF, 0xFF, 0xFF], bs [0x11, 0x22, 0x33, 0x44]] ∧
    toSigned 2147483648 = -2147483648 ∧ toSigned 2147483647 = 2147483647 ∧ uidInt uidA = 3735928559 := by decide
theorem test_strings : strip (bs [0x41, 0, 0x42, 0, 0]) = bs [0x41, 0, 0x42] ∧ strip (List.replicate 16 0#8) = [] ∧
    pad16 Config.cfg (bs [0x41]) = 0x41#8 :: List.replicate 15 0#8 ∧
    (pad16 Config.cfg (List.replicate 17 0x41#8)) = List.replicate 16 0x41#8 := by decide
-- DUMP whose first Authent exchange the transport fails, and a stale handle
theorem test_dump : (after (.dump hA) (ready [.fail 0x0D#6]) (fun t => t.results)) =
      some [{ caller := .host 0, result := .err { cause := .transportError 0x0D#6, mark := .dump [] } }] ∧
    performs (.dump hOld) (ready []) [] (raised (.invalidArgument .staleCard)) = true := by decide +kernel

-- Section 2.6
theorem test_init : after .init (cold ([wr 1 0x0F, wr 0x2A 0x8D, wr 0x2B 0x3E, wr 0x2D 0x1E, wr 0x2C 0, wr 0x15 0x40,
      wr 0x11 0x3D, rd 0x14 0x80, wr 0x14 0x83])) (fun t => (t.trace, t.initialised, t.line)) =
    some ([.line true, wr 1 0x0F, wr 0x2A 0x8D, wr 0x2B 0x3E, wr 0x2D 0x1E, wr 0x2C 0, wr 0x15 0x40, wr 0x11 0x3D,
      rd 0x14 0x80, wr 0x14 0x83], true, true) := by decide +kernel
theorem test_init_fails : after .init (cold [wr 1 0x0F, .fail 0x2A#6]) (fun t => (t.trace, t.initialised, t.line)) =
    some ([.line true, wr 1 0x0F, .fail 0x2A#6], false, true) := by decide +kernel
theorem test_monitorStart : after .monitorStart (warm []) (fun t => t.monitor) =
      some { mstate := .noCard, stopFlag := false, subscribers := [], worker := .polling } ∧
    refusalOf (exec .monitorStart (cold [])) = some .notInitialised := by decide +kernel
theorem test_monitorStop : after .monitorStop (cold []) (fun t => t.monitor.stopFlag) = some true := by decide +kernel
theorem test_subscribe : after (.subscribe 1) (cold []) (fun t => t.monitor.subscribers) =
      some [{ consumer := 1, inbox := [] }] ∧
    ((nextOf (exec (.subscribe 1) (cold []))).bind fun t => after (.subscribe 1) t fun u => u.monitor.subscribers.length) =
      some 1 := by decide +kernel

-- Section 3: the chip commands, the card frames and the pseudo-requests
theorem test_chip_commands : performs .cmdIdle (cold [wr 1 0]) [wr 1 0] (ok .unit) = true ∧
    performs .cmdCalcCRC (cold [wr 1 3]) [wr 1 3] (ok .unit) = true ∧
    performs .cmdTransceive (cold [wr 1 0x0C]) [wr 1 0x0C] (ok .unit) = true ∧
    performs .cmdAuthent (cold [wr 1 0x0E]) [wr 1 0x0E] (ok .unit) = true := by decide +kernel
theorem test_card_frames : performs .frameReqa (warm vectorRequest) vectorRequest (ok (.response atqa)) = true ∧
    performs .frameAnticoll (warm vectorAnticoll) vectorAnticoll (ok (.uid uidA 0x22#8)) = true ∧
    performs (.frameSelect uidA 0x22#8) (warm vectorSelect) vectorSelect (ok (.byte 0x08#8)) = true ∧
    performs (.frameRead 4#8) (warm (vectorRead 0x12 0 count16)) (vectorRead 0x12 0 count16) (ok (.bytes (bs count16))) = true := by
  decide +kernel
theorem test_frameWupa : performs .frameWupa (warm (vectorExchange 7 [0x52] 0 0 0x70 2 0 [4, 0]))
    (vectorExchange 7 [0x52] 0 0 0x70 2 0 [4, 0]) (ok (.response atqa)) = true := by decide +kernel
theorem test_frameAuth :
    performs (.frameAuthA 4#8 keyFF uidA)
      (warm (vectorAuth [0x60, 4, 0xFF, 0xFF, 0xFF, 0xFF, 0xFF, 0xFF, 0xDE, 0xAD, 0xBE, 0xEF] 0x10 0x08))
      (vectorAuth [0x60, 4, 0xFF, 0xFF, 0xFF, 0xFF, 0xFF, 0xFF, 0xDE, 0xAD, 0xBE, 0xEF] 0x10 0x08) (ok .unit) = true ∧
    performs (.frameAuthB 4#8 keyFF uidA)
      (warm (vectorAuth [0x61, 4, 0xFF, 0xFF, 0xFF, 0xFF, 0xFF, 0xFF, 0xDE, 0xAD, 0xBE, 0xEF] 0x10 0x08))
      (vectorAuth [0x61, 4, 0xFF, 0xFF, 0xFF, 0xFF, 0xFF, 0xFF, 0xDE, 0xAD, 0xBE, 0xEF] 0x10 0x08) (ok .unit) = true := by
  decide +kernel
theorem test_frameWrite : performs (.frameWrite 4#8 (bs count16)) (warm (vectorWrite count16 0x77 0xF5 0x0A 0x0A))
    (vectorWrite count16 0x77 0xF5 0x0A 0x0A) (ok .unit) = true := by decide +kernel
theorem test_frame_checks : performs (.frameRead 64#8) (warm []) [] (raised (.invalidArgument .blockRange)) = true ∧
    performs (.frameAuthB 255#8 keyFF uidA) (warm []) [] (raised (.invalidArgument .blockRange)) = true ∧
    performs (.frameWrite 64#8 []) (warm []) [] (raised (.invalidArgument .blockRange)) = true ∧
    performs (.frameWrite 63#8 (bs [1])) (warm []) [] (raised (.invalidArgument .dataLength)) = true := by decide +kernel
theorem test_pseudo : performs .reqa (warm vectorRequest) vectorRequest (ok (.response atqa)) = true ∧
    performs .wupa (warm (vectorExchange 7 [0x52] 0 0 0x70 2 0 [4, 0])) (vectorExchange 7 [0x52] 0 0 0x70 2 0 [4, 0])
      (ok (.response atqa)) = true ∧
    performs (.cardRead hA 4) (ready (vectorRead 0x12 0 count16)) (vectorRead 0x12 0 count16) (ok (.bytes (bs count16))) = true ∧
    performs (.cardWrite hA 4 (bs count16)) (ready (vectorWrite count16 0x77 0xF5 0x0A 0x0A))
      (vectorWrite count16 0x77 0xF5 0x0A 0x0A) (ok .unit) = true := by decide +kernel
theorem test_pseudo_auth :
    performs (.authA hA 4) (ready (vectorAuth [0x60, 4, 0xFF, 0xFF, 0xFF, 0xFF, 0xFF, 0xFF, 0xDE, 0xAD, 0xBE, 0xEF] 0x10 0x08))
      (vectorAuth [0x60, 4, 0xFF, 0xFF, 0xFF, 0xFF, 0xFF, 0xFF, 0xDE, 0xAD, 0xBE, 0xEF] 0x10 0x08) (ok .unit) = true ∧
    performs (.authB hA 4) (ready (vectorAuth [0x61, 4, 0xFF, 0xFF, 0xFF, 0xFF, 0xFF, 0xFF, 0xDE, 0xAD, 0xBE, 0xEF] 0x10 0x08))
      (vectorAuth [0x61, 4, 0xFF, 0xFF, 0xFF, 0xFF, 0xFF, 0xFF, 0xDE, 0xAD, 0xBE, 0xEF] 0x10 0x08) (ok .unit) = true := by
  decide +kernel
-- Section 2.7: the codes
theorem test_codes : ([.timeout, .frameError, .noTagPresent, .uidChecksumError, .selectFailed, .authenticationFailed, .readFailed,
    .writeFailedPhase1, .writeFailedPhase2Partial, .invalidArgument, .transportError] : List Kind).map Kind.code =
    [1, 2, 3, 4, 5, 6, 7, 8, 9, 10, 11] := by decide

/-! ## The monitor (section 2.6 and program P3) -/

/-- A worker that polls in a presence state, whose environment answers `T`. -/
def polling (m : MState) (q : Option Session) (g : Nat) (T : List TraceEntry) : State :=
  { warm T with
    session := q
    gen := g
    agent := .worker
    monitor := { mstate := m, stopFlag := false, subscribers := [{ consumer := 1, inbox := [] }], worker := .polling } }

/-- The request exchange of an empty field. -/
def vectorEmpty : List TraceEntry := vectorExchange 7 [0x26] 0x41 0 0x41 0 0 [0]

theorem test_cycle_arrival :
    after .monitorCycle (polling .noCard none 0 (vectorRequest ++ vectorAnticoll ++ [rd 8 0, wr 8 0]))
      (fun t => (t.trace, t.events, t.monitor)) =
    some (vectorRequest ++ vectorAnticoll ++ [rd 8 0, wr 8 0], [.arrived uidA],
      { mstate := .cardPresent uidA, stopFlag := false,
        subscribers := [{ consumer := 1, inbox := [.arrived uidA] }], worker := .sleeping 0 }) := by decide +kernel
theorem test_cycle_removal :
    after .monitorCycle (polling (.cardPresent uidA) (some (sessionA true)) 1 vectorEmpty)
      (fun t => (t.trace, t.events, t.session, t.gen)) = some (vectorEmpty, [.removed uidA], none, 2) ∧
    after .monitorCycle (polling (.cardPresent uidA) (some (sessionA true)) 1 vectorEmpty) (fun t => t.monitor) =
      some { mstate := .noCard, stopFlag := false,
             subscribers := [{ consumer := 1, inbox := [.removed uidA] }], worker := .sleeping 3000 } := by
  decide +kernel
/-- The state after a run of the machine. -/
def runs (k : Nat) (s : State) : Option State :=
  match Host.Core.run core k s with
  | .next t => some t
  | .fault _ => none
  | .refused _ => none
theorem test_sleep : (runs 3 { warm [] with monitor :=
      { mstate := .noCard, stopFlag := false, subscribers := [], worker := .sleeping 250 } }).map (fun t =>
      (t.labels, t.monitor.worker)) = some ([100, 100, 50], .sleeping 0) := by decide +kernel

/-! ## Helpers of the witnesses -/

/-- No history entry of a list is a LINE entry. -/
def onBus (T : List TraceEntry) : Bool := T.all fun e => e.addr.isSome

theorem answersFrom_map (T : List TraceEntry) (h : onBus T = true) (tr : List TraceEntry) (c : Nat) :
    answersFrom (T.map answerOf) tr c T = true := by
  induction T generalizing tr c with
  | nil => rfl
  | cons e T ih =>
    simp only [onBus, List.all_cons, Bool.and_eq_true] at h
    have ih' := ih h.2 (tr ++ [e]) (c + 1)
    cases e <;> simp_all [answersFrom, drawFrom, entryAnswered, answerOf, TraceEntry.addr]

theorem answers_of_env (s : State) (T : List TraceEntry) (he : s.env = T.map answerOf) (h : onBus T = true) : s.Answers T := by
  rw [State.Answers, he]
  exact answersFrom_map T h _ _

theorem nextOf_some {o : Outcome} {P : State → Bool} (h : (nextOf o).any P = true) : ∃ t, o = .next t ∧ P t = true := by
  cases o <;> simp_all [nextOf]

@[simp] theorem onBus_nil : onBus [] = true := rfl

@[simp] theorem onBus_cons (e : TraceEntry) (T : List TraceEntry) : onBus (e :: T) = (e.addr.isSome && onBus T) := rfl

@[simp] theorem onBus_append (T U : List TraceEntry) : onBus (T ++ U) = (onBus T && onBus U) := List.all_append ..

@[simp] theorem onBus_exchange (x : Exchange) (c : Cfg) (cmd : ChipCommand) (p : List Byte) (f : Nat) :
    onBus (x.trace c cmd p f) = true := by
  cases cmd <;>
  simp [Exchange.trace, Exchange.sent, Exchange.checked, Exchange.collected, pollTrace, clearTrace, setTrace, onBus,
    TraceEntry.addr]
@[simp] theorem onBus_timeout (x : Exchange) (c : Cfg) (cmd : ChipCommand) (p : List Byte) (f : Nat) (polls : List Byte) :
    onBus (x.timeoutTrace c cmd p f polls) = true := by
  cases cmd <;>
  simp [Exchange.timeoutTrace, Exchange.sent, pollTrace, clearTrace, setTrace, onBus,
    TraceEntry.addr]
@[simp] theorem onBus_error (x : Exchange) (c : Cfg) (cmd : ChipCommand) (p : List Byte) (f : Nat) :
    onBus (x.errorTrace c cmd p f) = true := by
  cases cmd <;>
  simp [Exchange.errorTrace, Exchange.sent, Exchange.checked, pollTrace, clearTrace, setTrace, onBus, TraceEntry.addr]
@[simp] theorem onBus_crc (x : CrcRun) (c : Cfg) (p : List Byte) : onBus (x.trace c p) = true := by
  cases x
  simp [CrcRun.trace, clearTrace, setTrace, onBus, TraceEntry.addr]
@[simp] theorem onBus_framed (x : Framed) (c : Cfg) (p : List Byte) : onBus (x.trace c p) = true := by
  simp [Framed.trace, onBus_append, onBus_crc, onBus_exchange]
@[simp] theorem onBus_block (x : BlockRun) (c : Cfg) (b : Nat) (q : Session) : onBus (x.trace c b q) = true := by
  rw [BlockRun.trace, onBus_append, onBus_exchange, Bool.true_and]
  split
  · exact onBus_framed _ _ _
  · rfl
@[simp] theorem onBus_sweep (c : Cfg) (q : Session) (runs : List BlockRun) (b : Nat) : onBus (sweepTrace c q b runs) = true := by
  induction runs generalizing b with
  | nil => rfl
  | cons x xs ih => rw [sweepTrace, onBus_append, onBus_block, ih, Bool.true_and]

/-! ## Sample answers of the environment -/

/-- An exchange answered with whole bytes, after one poll that showed no completion. -/
def sample (level control : Byte) (answer : List Byte) : Exchange :=
  { irq0 := 0#8, level0 := 0#8, framing0 := 7#8, waits := [0x40#8], irq := 0x30#8, framing1 := 0x87#8, errv := 0#8,
    level := level, control := control, bytes := answer }

/-- The request answer of 16 bits. -/
def sampleAtqa : Exchange := sample 2#8 0#8 (bs [4, 0])

/-- No card: the NoTag bit, a level of 0. -/
def sampleEmpty : Exchange := { sample 0#8 0#8 [0#8] with irq := 0x41#8 }

/-- The anti-collision answer of card A, and of card B. -/
def sampleUidA : Exchange := sample 5#8 0#8 (bs [0xDE, 0xAD, 0xBE, 0xEF, 0x22])
def sampleUidB : Exchange := sample 5#8 0#8 (bs [0x12, 0x34, 0x56, 0x78, 0x08])

/-- A CRC16 that finishes with the given result. -/
def sampleCrc (lo hi : Byte) : CrcRun := { div0 := 0#8, level0 := 0#8, waits := [0#8], done := some 4#8, lo := lo, hi := hi }

/-- A CRC16 that never shows the done bit. -/
def sampleCrcLost : CrcRun :=
  { div0 := 0#8, level0 := 0#8, waits := List.replicate 255 0#8, done := none, lo := 1#8, hi := 2#8 }

/-- A framed exchange with the given answer. -/
def framed (level control : Byte) (answer : List Byte) : Framed := { crc := sampleCrc 0x26#8 0xEE#8, exchange := sample level control answer }

/-- A block answered, an acknowledge, a refusal, a SAK. -/
def sampleBlock (d : List Nat) : Framed := framed 18#8 0#8 (bs d)
def sampleAck : Framed := framed 1#8 4#8 [0x0A#8]
def sampleNak : Framed := framed 1#8 4#8 [0x04#8]
def sampleSak : Framed := framed 3#8 0#8 (bs [0x08, 0xB6, 0xDD])

/-- Probes that find card A, card B, nothing. -/
def probeA : Probe := { req := sampleAtqa, anti := some sampleUidA }
def probeB : Probe := { req := sampleAtqa, anti := some sampleUidB }
def probeNone : Probe := { req := sampleEmpty, anti := none }

@[simp] theorem onBus_probe (p : Probe) (c : Cfg) : onBus (p.trace c) = true := by
  rw [Probe.trace, onBus_append, onBus_exchange, Bool.true_and]
  split
  · exact onBus_exchange _ _ _ _ _
  · rfl

/-- The environment of a state replaced: it answers `T`. -/
def answering (s : State) (T : List TraceEntry) : State := { s with env := T.map answerOf }

theorem answering_answers (s : State) (T : List TraceEntry) (h : onBus T = true) : (answering s T).Answers T :=
  answers_of_env _ _ rfl h

theorem ready_answers (T : List TraceEntry) (h : onBus T = true) : (ready T).Answers T := answers_of_env _ _ rfl h

theorem warm_answers (T : List TraceEntry) (h : onBus T = true) : (warm T).Answers T := answers_of_env _ _ rfl h

theorem ready_inv (T : List TraceEntry) : (ready T).Inv where
  lock_free := rfl
  line_high _ := rfl
  cold h := by cases h
  session_fits := by
    rintro q ⟨⟩
    exact ⟨rfl, Nat.le_refl 1, by decide, by decide⟩
  worker_active := ⟨fun h => absurd rfl h, fun h => by cases h⟩
  present := by rintro u ⟨⟩
  fault_logged := by rintro k ⟨⟩
  consumers_nodup := List.nodup_nil
  inbox_suffix := by rintro q ⟨⟩

theorem ready_holds (T : List TraceEntry) : (ready T).holds hA (sessionA true) := ⟨rfl, rfl, rfl⟩

/-! ## Witnesses: for each statement a state and operands that meet its hypotheses -/

/-- The transactions an instruction performs, its next state with them and its result. -/
theorem next_of_performs {i : Instr} {s : State} {T : List TraceEntry} {r : Result} (h : performs i s T r = true) :
    ∃ t, exec i s = .next t ∧ t.trace = T ∧ t.results = [{ caller := s.agent, result := r }] := by
  unfold performs at h
  cases he : exec i s with
  | next t =>
    simp only [he, nextOf, Bool.and_eq_true, beq_iff_eq] at h
    exact ⟨t, rfl, h.1.1.1, h.1.2⟩
  | fault _ => simp [he, nextOf] at h
  | refused _ => simp [he, nextOf] at h

/-- A request of host caller 0 pending. -/
def asked (s : State) (req : Request) : State := { s with port := [.host 0 req] }

theorem witness_StepKeepsInvariant : ∃ s t : State, s.Inv ∧ step s = .next t :=
  ⟨asked (ready [rd 0 1]) (.host 0x01#8 [.int 0]), _, { ready_inv [rd 0 1] with }, rfl⟩

theorem witness_DecodeEncode : Instr.wf (.frameWrite 255#8 []) = true ∧ Instr.wf (.authB hA 64) = true := by
  decide

theorem witness_EncodeDecode : decode (.cardFrame (bs [0x30, 255])) = .ok (.frameRead 255#8) ∧
    decode (.host 0x10#8 [.cmd .authent, .bytes [], .int 7]) = .ok (.transceive .authent [] 7) := ⟨rfl, rfl⟩

theorem witness_IllegalRequests_op : ∃ s : State, s.port = [.host 0 (.host 0x05#8 [])] ∧
    0x05#8 ∉ [0x01#8, 0x02#8, 0x03#8, 0x04#8, 0x10#8, 0x11#8, 0x20#8, 0x21#8, 0x22#8, 0x23#8, 0x24#8, 0x25#8, 0x26#8, 0x27#8,
      0x30#8, 0x31#8, 0x32#8, 0x33#8, 0x34#8, 0x40#8, 0x41#8, 0x42#8, 0x43#8, 0x44#8] :=
  ⟨asked (cold []) (.host 0x05#8 []), rfl, by decide⟩
theorem witness_IllegalRequests_count : ∃ s : State,
    s.port = [.host 0 (.host HostOp.authenticate.code [.card hA, .int 0])] ∧ 2 ∉ HostOp.authenticate.arities :=
  ⟨asked (cold []) (.host 0x24#8 [.card hA, .int 0]), rfl, by decide⟩
theorem witness_IllegalRequests_typed :
    (∃ s : State, s.port = [.host 0 (.host 0x10#8 [.cmd .transceive, .bytes [], .int 8])] ∧ (8 : Int) ≤ 8) ∧
    (∃ s : State, s.port = [.host 0 (.host 0x10#8 [.cmd .authent, .bytes [], .int (-1)])] ∧ (-1 : Int) < 0) ∧
    (∃ s : State, s.port = [.host 0 (.host 0x02#8 [.int 0, .int 256])] ∧ (256 : Int) ≤ 256) :=
  ⟨⟨asked (cold []) (.host 0x10#8 [.cmd .transceive, .bytes [], .int 8]), rfl, by decide⟩,
   ⟨asked (cold []) (.host 0x10#8 [.cmd .authent, .bytes [], .int (-1)]), rfl, by decide⟩,
   ⟨asked (cold []) (.host 0x02#8 [.int 0, .int 256]), rfl, by decide⟩⟩
theorem witness_IllegalRequests_cycle : ∃ s : State, s.port = [.host 0 (.host 0x42#8 [])] :=
  ⟨asked (cold []) (.host 0x42#8 []), rfl⟩

theorem witness_StepRunsDecoded : ∃ s : State, s.port = [.host 0 (.host 0x22#8 [])] ∧
    decode (.host 0x22#8 []) = .ok .detect := ⟨asked (warm []) (.host 0x22#8 []), rfl, rfl⟩
theorem witness_StepRunsDecoded_worker :
    (∃ s : State, s.port = [] ∧ s.monitor.worker = .polling) ∧
    (∃ s : State, s.port = [] ∧ s.monitor.worker = .sleeping 0) ∧
    (∃ s : State, s.port = [.worker] ∧ s.monitor.worker = .none) :=
  ⟨⟨polling .noCard none 0 [], rfl, rfl⟩,
   ⟨{ warm [] with monitor := { mstate := .noCard, stopFlag := false, subscribers := [], worker := .sleeping 0 } }, rfl, rfl⟩,
   ⟨{ warm [] with port := [.worker] }, rfl, rfl⟩⟩

theorem witness_Refusals : ∃ s : State, Instr.wf .detect = true ∧ beforeInit .detect = false ∧ s.initialised = false :=
  ⟨cold [], rfl, rfl, rfl⟩
theorem witness_Refusals_cycle : ∃ s : State, beforeInit .monitorCycle = false ∧ s.initialised = false ∧ s.agent = .worker :=
  ⟨{ cold [] with agent := .worker }, rfl, rfl, rfl⟩
theorem witness_Refusals_before : beforeInit .cmdIdle = true ∧ beforeInit .init = true := ⟨rfl, rfl⟩
theorem witness_Refusals_warm : (∃ s : State, s.initialised = true ∧ s.monitor.worker ≠ .none) ∧
    (∃ s : State, s.agent = .host 0) := ⟨⟨polling .noCard none 0 [], rfl, by decide⟩, ⟨cold [], rfl⟩⟩

theorem witness_RequestsEnd : (ready []).Inv := ready_inv []
theorem witness_StepNeverFaults : State.Inv (asked (ready []) (.host 0x22#8 [])) := { ready_inv [] with }

theorem witness_TransportFailureEnds : ∃ t, exec .getUid (ready [wr 0x0D 0, .fail 0x02#6]) = .next t ∧
    t.trace = (ready [wr 0x0D 0, .fail 0x02#6]).trace ++ [wr 0x0D 0, .fail 0x02#6] ∧
    .fail 0x02#6 ∈ [wr 0x0D 0, .fail 0x02#6] := by
  obtain ⟨t, h1, h2, -⟩ := next_of_performs (i := .getUid) (s := ready [wr 0x0D 0, .fail 0x02#6])
    (T := [wr 0x0D 0, .fail 0x02#6]) (r := raised (.transportError 0x02#6)) (by decide +kernel)
  exact ⟨t, h1, h2, by decide⟩

theorem witness_OwnRegistersOnly : ∃ t, Instr.rawRegister .getUid = false ∧ exec .getUid (ready vectorAnticoll) = .next t ∧
    t.trace = (ready vectorAnticoll).trace ++ vectorAnticoll ∧ (rd 0x04 0x70) ∈ vectorAnticoll ∧
    (rd 0x04 0x70).addr = some 0x04#6 := by
  obtain ⟨t, h1, h2, -⟩ := next_of_performs (i := .getUid) (s := ready vectorAnticoll) (T := vectorAnticoll)
    (r := ok (.uid uidA 0x22#8)) (by decide +kernel)
  exact ⟨t, rfl, h1, h2, by decide, rfl⟩

theorem witness_HistoriesGrow : ∃ t, step (asked (ready [rd 0 1]) (.host 0x01#8 [.int 0])) = .next t := ⟨_, rfl⟩

theorem witness_StaleForever : ∃ t, step (asked (ready [rd 0 1]) (.host 0x01#8 [.int 0])) = .next t ∧
    hOld.gen ≤ (asked (ready [rd 0 1]) (.host 0x01#8 [.int 0])).gen ∧
    (asked (ready [rd 0 1]) (.host 0x01#8 [.int 0])).sessionOf hOld = none := ⟨_, rfl, Nat.le_refl 1, rfl⟩

theorem witness_BusOnlyFrame : ∃ t, Instr.busOnly (.select hA) = true ∧ exec (.select hA) (ready vectorSelect) = .next t := by
  obtain ⟨t, h, -⟩ := next_of_performs test_select.1
  exact ⟨t, rfl, h⟩
theorem witness_MirrorFrame : ∃ s t, Instr.mirrorsCrypto (.endSession hA) = true ∧ exec (.endSession hA) s = .next t :=
  ⟨ready [rd 8 0, wr 8 0], _, rfl, rfl⟩

theorem witness_RegisterAccess : ∃ s : State, s.lock = none ∧ (0 : Int) ≤ 63 ∧ (63 : Int) ≤ 63 ∧
    s.Answers [.read (BitVec.ofNat 6 (63 : Int).toNat) 0x5A#8] := ⟨ready [rd 63 0x5A], rfl, by decide, by decide, ready_answers _ rfl⟩
theorem witness_RegisterAccess_write : ∃ s : State, s.lock = none ∧ (0 : Int) ≤ 0 ∧ (0 : Int) ≤ 63 ∧
    s.Answers [.write (BitVec.ofNat 6 (0 : Int).toNat) 0xFF#8] := ⟨ready [wr 0 0xFF], rfl, by decide, by decide, ready_answers _ rfl⟩
theorem witness_RegisterAccess_range : ∃ s : State, s.lock = none ∧ (63 : Int) < 64 ∧ (-1 : Int) < 0 :=
  ⟨cold [], rfl, by decide, by decide⟩
theorem witness_RegisterAccess_fails : ∃ s : State, s.lock = none ∧ (0 : Int) ≤ 9 ∧ (9 : Int) ≤ 63 ∧
    s.Answers [.fail (BitVec.ofNat 6 (9 : Int).toNat)] := ⟨ready [.fail 9#6], rfl, by decide, by decide, ready_answers _ rfl⟩

theorem witness_BitUpdates_set : ∃ s : State, s.lock = none ∧ (0 : Int) ≤ 63 ∧ (63 : Int) ≤ 63 ∧
    s.Answers [.read (BitVec.ofNat 6 (63 : Int).toNat) 5#8, .write (BitVec.ofNat 6 (63 : Int).toNat) (5#8 ||| 0x80#8)] :=
  ⟨ready [rd 63 5, wr 63 0x85], rfl, by decide, by decide, ready_answers _ rfl⟩
theorem witness_BitUpdates_clear : ∃ s : State, s.lock = none ∧ (0 : Int) ≤ 0 ∧ (0 : Int) ≤ 63 ∧
    s.Answers [.read (BitVec.ofNat 6 (0 : Int).toNat) 0xE4#8, .write (BitVec.ofNat 6 (0 : Int).toNat) (0xE4#8 &&& ~~~0x80#8)] :=
  ⟨ready [rd 0 0xE4, wr 0 0x64], rfl, by decide, by decide, ready_answers _ rfl⟩
theorem witness_BitUpdates_range : ∃ s : State, s.lock = none ∧ (63 : Int) < 64 ∧ (-1 : Int) < 0 :=
  ⟨cold [], rfl, by decide, by decide⟩
theorem witness_BitUpdates_fails :
    (∃ s : State, s.lock = none ∧ s.Answers [.fail (BitVec.ofNat 6 (20 : Int).toNat)]) ∧
    (∃ s : State, s.lock = none ∧
      s.Answers [.read (BitVec.ofNat 6 (20 : Int).toNat) 0x80#8, .fail (BitVec.ofNat 6 (20 : Int).toNat)]) :=
  ⟨⟨ready [.fail 20#6], rfl, ready_answers _ rfl⟩, ⟨ready [rd 20 0x80, .fail 20#6], rfl, ready_answers _ rfl⟩⟩

theorem witness_ChipCommands : ∃ s : State, s.lock = none ∧ s.Answers [.write 0x01#6 0x0E#8] ∧
    (Instr.cmdAuthent, 0x0E#8) ∈
      [(Instr.cmdIdle, 0x00#8), (.cmdCalcCRC, 0x03#8), (.cmdTransceive, 0x0C#8), (.cmdAuthent, 0x0E#8)] :=
  ⟨ready [wr 1 0x0E], rfl, ready_answers _ rfl, by decide⟩

theorem witness_TransceiveResult : ∃ s : State, s.initialised = true ∧ s.lock = none ∧
    sampleAtqa.completes Config.cfg .transceive = true ∧ s.Answers (sampleAtqa.trace Config.cfg .transceive [0x26#8] 7) :=
  ⟨ready ((sampleAtqa.trace Config.cfg .transceive [0x26#8] 7)), rfl, rfl, by decide, ready_answers _ (onBus_exchange ..)⟩
theorem witness_TransceiveResult_authent : ∃ s : State, s.initialised = true ∧ s.lock = none ∧
    (List.replicate 64 0#8).length ≤ 64 ∧ sampleAtqa.completes Config.cfg .authent = true ∧
    s.Answers (sampleAtqa.trace Config.cfg .authent (List.replicate 64 0#8) 0) :=
  ⟨ready ((sampleAtqa.trace Config.cfg .authent (List.replicate 64 0#8) 0)), rfl, rfl, by decide, by decide,
   ready_answers _ (onBus_exchange ..)⟩

theorem noneDone_replicate (cmd : ChipCommand) (n : Nat) : noneDone Config.cfg cmd (List.replicate n 0#8) = true := by
  rw [noneDone, List.all_eq_true]
  intro v hv
  rw [List.eq_of_mem_replicate hv]
  cases cmd <;> rfl

theorem witness_TransceiveTimeout : ∃ (polls : List Byte) (s : State), s.initialised = true ∧ s.lock = none ∧
    polls.length = 2000 ∧ noneDone Config.cfg .transceive polls = true ∧
    s.Answers (sampleAtqa.timeoutTrace Config.cfg .transceive [0x26#8] 7 polls) :=
  ⟨List.replicate 2000 0#8, ready (sampleAtqa.timeoutTrace Config.cfg .transceive [0x26#8] 7 (List.replicate 2000 0#8)), rfl,
   rfl, List.length_replicate, noneDone_replicate _ _, ready_answers _ (onBus_timeout ..)⟩

theorem witness_TransceiveTimeout_plain : ∃ (f : Opening) (crc : CrcRun) (polls : List Byte) (s : State),
    s.opening (.authenticate hA 63 0x60#8 none) = some f ∧ s.initialised = true ∧ s.lock = none ∧
    f.polledOk Config.cfg crc = true ∧ polls.length = 2000 ∧ noneDone Config.cfg f.cmd polls = true ∧
    s.Answers (f.before Config.cfg crc ++ sampleAtqa.timeoutTrace Config.cfg f.cmd (f.frame crc) f.framing polls) :=
  ⟨.auth 0x60#8 63#8 keyFF uidA, sampleCrc 0#8 0#8, List.replicate 2000 0#8, ready _, rfl, rfl, rfl, rfl, List.length_replicate,
   noneDone_replicate _ _, ready_answers _ (by rw [onBus_append, onBus_timeout]; rfl)⟩
theorem witness_TransceiveTimeout_framed : ∃ (f : Opening) (polls : List Byte) (s : State),
    s.opening (.writeInt32 hA 63 12 (-2147483648)) = some f ∧ s.initialised = true ∧ s.lock = none ∧
    f.polledOk Config.cfg (sampleCrc 0#8 0#8) = true ∧ polls.length = 2000 ∧ noneDone Config.cfg f.cmd polls = true ∧
    s.Answers (f.before Config.cfg (sampleCrc 0#8 0#8) ++
      sampleAtqa.timeoutTrace Config.cfg f.cmd (f.frame (sampleCrc 0#8 0#8)) f.framing polls) :=
  ⟨.read 63#8, List.replicate 2000 0#8, ready _, rfl, rfl, rfl, by decide, List.length_replicate, noneDone_replicate _ _,
   ready_answers _ (by rw [onBus_append, onBus_timeout, Opening.before]; simp [Opening.read])⟩
theorem witness_TransceiveTimeout_detect : ∃ (polls : List Byte) (s : State), s.initialised = true ∧ s.lock = none ∧
    sampleAtqa.completes Config.cfg .transceive = true ∧ (sampleAtqa.response Config.cfg .transceive).status = .ok ∧
    (sampleAtqa.response Config.cfg .transceive).bits = 16 ∧ polls.length = 2000 ∧
    noneDone Config.cfg .transceive polls = true ∧
    s.Answers (sampleAtqa.trace Config.cfg .transceive [0x26#8] 7 ++
      sampleAtqa.timeoutTrace Config.cfg .transceive [0x93#8, 0x20#8] 0 polls) :=
  ⟨List.replicate 2000 0#8, ready _, rfl, rfl, by decide, rfl, rfl, List.length_replicate, noneDone_replicate _ _,
   ready_answers _ (by rw [onBus_append, onBus_exchange, onBus_timeout]; rfl)⟩

/-- An exchange with a value of the error register. -/
def sampleErr (v : Byte) : Exchange := { sampleAtqa with errv := v }

theorem witness_TransceiveFrameError : ∃ s : State, s.initialised = true ∧ s.lock = none ∧
    (sampleErr 0x08#8).polledOk Config.cfg .transceive = true ∧ (sampleErr 0x08#8).errv &&& 0x1B#8 ≠ 0#8 ∧
    s.Answers ((sampleErr 0x08#8).errorTrace Config.cfg .transceive [0x26#8] 7) :=
  ⟨ready ((sampleErr 0x08#8).errorTrace Config.cfg .transceive [0x26#8] 7), rfl, rfl, by decide, by decide,
   ready_answers _ (by decide)⟩
theorem witness_TransceiveFrameError_ignored : ∃ s : State, s.initialised = true ∧ s.lock = none ∧
    (sampleErr 0xE4#8).polledOk Config.cfg .transceive = true ∧ (sampleErr 0xE4#8).errv &&& 0x1B#8 = 0#8 ∧
    (sampleErr 0xE4#8).bytes.length = drainCount Config.cfg (sampleErr 0xE4#8).level.toNat ∧
    s.Answers ((sampleErr 0xE4#8).trace Config.cfg .transceive [0x26#8] 7) :=
  ⟨ready ((sampleErr 0xE4#8).trace Config.cfg .transceive [0x26#8] 7), rfl, rfl, by decide, by decide, by decide,
   ready_answers _ (onBus_exchange ..)⟩

theorem witness_TransceiveFrameError_plain : ∃ (f : Opening) (crc : CrcRun) (s : State),
    s.opening (.frameAuthB 63#8 keyFF uidA) = some f ∧ s.initialised = true ∧ s.lock = none ∧
    f.polledOk Config.cfg crc = true ∧ (sampleErr 0x01#8).polledOk Config.cfg f.cmd = true ∧
    (sampleErr 0x01#8).errv &&& 0x1B#8 ≠ 0#8 ∧
    s.Answers (f.before Config.cfg crc ++ (sampleErr 0x01#8).errorTrace Config.cfg f.cmd (f.frame crc) f.framing) :=
  ⟨.auth 0x61#8 63#8 keyFF uidA, sampleCrc 0#8 0#8, ready _, rfl, rfl, rfl, rfl, by decide, by decide,
   ready_answers _ (by rw [onBus_append, onBus_error]; rfl)⟩
theorem witness_TransceiveFrameError_framed : ∃ (f : Opening) (s : State), s.opening (.select hA) = some f ∧
    s.initialised = true ∧ s.lock = none ∧ f.polledOk Config.cfg (sampleCrc 0#8 0#8) = true ∧
    (sampleErr 0x10#8).polledOk Config.cfg f.cmd = true ∧ (sampleErr 0x10#8).errv &&& 0x1B#8 ≠ 0#8 ∧
    s.Answers (f.before Config.cfg (sampleCrc 0#8 0#8) ++
      (sampleErr 0x10#8).errorTrace Config.cfg f.cmd (f.frame (sampleCrc 0#8 0#8)) f.framing) :=
  ⟨.select uidA 0x22#8, ready _, rfl, rfl, rfl, by decide, by decide, by decide,
   ready_answers _ (by rw [onBus_append, onBus_error, Opening.before]; simp [Opening.select])⟩
theorem witness_TransceiveFrameError_detect : ∃ s : State, s.initialised = true ∧ s.lock = none ∧
    sampleAtqa.completes Config.cfg .transceive = true ∧ (sampleAtqa.response Config.cfg .transceive).status = .ok ∧
    (sampleAtqa.response Config.cfg .transceive).bits = 16 ∧ (sampleErr 0x02#8).polledOk Config.cfg .transceive = true ∧
    (sampleErr 0x02#8).errv &&& 0x1B#8 ≠ 0#8 ∧
    s.Answers (sampleAtqa.trace Config.cfg .transceive [0x26#8] 7 ++
      (sampleErr 0x02#8).errorTrace Config.cfg .transceive [0x93#8, 0x20#8] 0) :=
  ⟨ready _, rfl, rfl, by decide, rfl, rfl, by decide, by decide,
   ready_answers _ (by rw [onBus_append, onBus_exchange, onBus_error]; rfl)⟩

/-- A TRANSCEIVE of the sample exchange, as a host request. -/
theorem transceive_runs (x : Exchange) (hx : performs (.transceive .transceive [0x26#8] 7)
      (ready (x.trace Config.cfg .transceive [0x26#8] 7)) (x.trace Config.cfg .transceive [0x26#8] 7)
      (ok (.response (x.response Config.cfg .transceive))) = true) :
    ∃ s t, exec (.transceive .transceive [0x26#8] 7) s = .next t ∧
      t.results = s.results ++ [{ caller := s.agent, result := .ok (.response (x.response Config.cfg .transceive)) }] := by
  obtain ⟨t, h1, -, h3⟩ := next_of_performs hx
  exact ⟨_, t, h1, h3⟩

theorem witness_TransceiveCounts : ∃ s t, exec (.transceive .transceive [0x26#8] 7) s = .next t := by
  obtain ⟨s, t, h, -⟩ := transceive_runs sampleAtqa (by decide +kernel)
  exact ⟨s, t, h⟩

theorem witness_ResponseShape : ∃ s t, exec (.transceive .transceive [0x26#8] 7) s = .next t ∧
    t.results = s.results ++ [{ caller := s.agent, result := .ok (.response { status := .ok, bytes := bs [4, 0], bits := 16 }) }]
    ∧ ¬zeroLevel 2#8 ∧ ¬partialFinalByte Config.cfg 0#8 := by
  obtain ⟨s, t, h1, h2⟩ := transceive_runs sampleAtqa (by decide +kernel)
  exact ⟨s, t, h1, h2, by simp [zeroLevel], by simp [partialFinalByte]⟩
theorem witness_ResponseShape_zero : ∃ s t, exec (.transceive .transceive [0x26#8] 7) s = .next t ∧
    t.results = s.results ++ [{ caller := s.agent, result := .ok (.response { status := .noTag, bytes := [0#8], bits := 8 }) }]
    ∧ zeroLevel 0#8 := by
  obtain ⟨s, t, h1, h2⟩ := transceive_runs sampleEmpty (by decide +kernel)
  exact ⟨s, t, h1, h2, rfl⟩
theorem witness_ResponseShape_partial : ∃ s t, exec (.transceive .transceive [0x26#8] 7) s = .next t ∧
    t.results = s.results ++ [{ caller := s.agent, result := .ok (.response { status := .ok, bytes := [0x0A#8], bits := 4 }) }]
    ∧ partialFinalByte Config.cfg 4#8 := by
  obtain ⟨s, t, h1, h2⟩ := transceive_runs (sample 1#8 4#8 [0x0A#8]) (by decide +kernel)
  exact ⟨s, t, h1, h2, by simp [partialFinalByte]; decide⟩

theorem witness_ResponseLengths : (∃ n k, k ≤ 7 ∧ bitCount n k = 4) ∧
    ∃ s t, exec (.transceive .transceive [0x26#8] 7) s = .next t ∧
      t.results = s.results ++ [{ caller := s.agent, result := .ok (.response (sampleUidA.response Config.cfg .transceive)) }] ∧
      (sampleUidA.response Config.cfg .transceive).bits = 40 := by
  obtain ⟨s, t, h1, h2⟩ := transceive_runs sampleUidA (by decide +kernel)
  exact ⟨⟨1, 4, by decide, rfl⟩, s, t, h1, h2, rfl⟩

theorem witness_ResponseStatus : ∃ s t, exec (.transceive .authent [] 0) s = .next t ∧
    t.results = s.results ++ [{ caller := s.agent, result := .ok (.response { status := .ok, bytes := [], bits := 0 }) }] := by
  obtain ⟨t, h1, -, h3⟩ := next_of_performs (i := .transceive .authent [] 0)
    (s := ready (sampleAtqa.trace Config.cfg .authent [] 0)) (T := sampleAtqa.trace Config.cfg .authent [] 0)
    (r := ok (.response { status := .ok, bytes := [], bits := 0 })) (by decide +kernel)
  exact ⟨_, t, h1, h3⟩

theorem witness_CrcResult : ∃ s : State, s.initialised = true ∧ s.lock = none ∧ (List.replicate 64 0#8).length ≤ 64 ∧
    (sampleCrc 1#8 2#8).waits.all (fun v => (v &&& 0x04#8) == 0#8) = true ∧
    (∀ v, (sampleCrc 1#8 2#8).done = some v → v &&& 0x04#8 ≠ 0#8 ∧ (sampleCrc 1#8 2#8).waits.length < 255) ∧
    s.Answers ((sampleCrc 1#8 2#8).trace Config.cfg (List.replicate 64 0#8)) :=
  ⟨ready _, rfl, rfl, by decide, by decide, by rintro v ⟨⟩; decide, ready_answers _ (by simp)⟩
theorem witness_CrcResult_exhausted : ∃ s : State, s.initialised = true ∧ s.lock = none ∧
    sampleCrcLost.waits.all (fun v => (v &&& 0x04#8) == 0#8) = true ∧ sampleCrcLost.done = none ∧
    sampleCrcLost.waits.length = 255 ∧ s.Answers (sampleCrcLost.trace Config.cfg []) :=
  ⟨ready _, rfl, rfl, by decide +kernel, rfl, List.length_replicate, ready_answers _ (onBus_crc ..)⟩

theorem witness_CrcEnds : (∃ s t, exec (.crc16 (bs [0x30, 0])) s = .next t) ∧
    ∃ s t, exec (.crc16 (List.replicate 65 0#8)) s = .next t ∧ 64 < (List.replicate 65 0#8).length ∧
      t.results = s.results ++ [{ caller := s.agent, result := raised (.invalidArgument .payloadLength) }] := by
  obtain ⟨t, h1, -⟩ := next_of_performs test_crc16
  obtain ⟨u, h2, -, h3⟩ := next_of_performs (i := .crc16 (List.replicate 65 0#8)) (s := ready []) (T := [])
    (r := raised (.invalidArgument .payloadLength)) (by decide +kernel)
  exact ⟨⟨_, t, h1⟩, _, u, h2, by decide, h3⟩

theorem witness_CrcA : ∃ s : State, s.initialised = true ∧ s.lock = none ∧ (sampleCrc 0x02#8 0xA8#8).polledOk Config.cfg = true ∧
    (sampleCrc 0x02#8 0xA8#8).finished ∧ (sampleCrc 0x02#8 0xA8#8).isCrcA [0x30#8, 0x00#8] ∧
    s.Answers ((sampleCrc 0x02#8 0xA8#8).trace Config.cfg [0x30#8, 0x00#8]) :=
  ⟨ready _, rfl, rfl, by decide, rfl, by unfold CrcRun.isCrcA; decide +kernel, ready_answers _ (by simp)⟩

theorem witness_RequestResult : ∃ s : State, Instr.requestMode .wupa = some 0x52#8 ∧ s.initialised = true ∧ s.lock = none ∧
    sampleAtqa.completes Config.cfg .transceive = true ∧ s.Answers (sampleAtqa.trace Config.cfg .transceive [0x52#8] 7) ∧
    (sampleAtqa.response Config.cfg .transceive).status = .ok ∧ (sampleAtqa.response Config.cfg .transceive).bits = 16 :=
  ⟨ready _, rfl, rfl, rfl, by decide, ready_answers _ (by simp), rfl, rfl⟩
theorem witness_RequestResult_none : ∃ s : State, s.initialised = true ∧ s.lock = none ∧
    sampleEmpty.completes Config.cfg .transceive = true ∧ s.Answers (sampleEmpty.trace Config.cfg .transceive [0x26#8] 7) ∧
    (sampleEmpty.response Config.cfg .transceive).status = .noTag :=
  ⟨ready _, rfl, rfl, by decide, ready_answers _ (by simp), rfl⟩

theorem witness_GetUidResult : ∃ s : State, s.initialised = true ∧ s.lock = none ∧
    sampleUidA.completes Config.cfg .transceive = true ∧
    s.Answers (sampleUidA.trace Config.cfg .transceive [0x93#8, 0x20#8] 0) ∧
    (sampleUidA.response Config.cfg .transceive).status = .ok ∧ (sampleUidA.response Config.cfg .transceive).bits = 40 ∧
    sampleUidA.bytes = [0xDE#8, 0xAD#8, 0xBE#8, 0xEF#8, 0x22#8] :=
  ⟨ready _, rfl, rfl, by decide, ready_answers _ (by simp), rfl, rfl, rfl⟩
theorem witness_GetUidResult_length : ∃ s : State, s.initialised = true ∧ s.lock = none ∧
    sampleAtqa.completes Config.cfg .transceive = true ∧
    s.Answers (sampleAtqa.trace Config.cfg .transceive [0x93#8, 0x20#8] 0) ∧
    (sampleAtqa.response Config.cfg .transceive).bits ≠ 40 :=
  ⟨ready _, rfl, rfl, by decide, ready_answers _ (by simp), by decide⟩

/-- Card A's anti-collision answer with its last byte corrupted (S1). -/
def sampleCorrupt : Exchange := sample 5#8 0#8 (bs [0xDE, 0xAD, 0xBE, 0xEF, 0x23])

theorem witness_UidChecksumLaw : ∃ s : State, s.initialised = true ∧ s.lock = none ∧
    sampleCorrupt.completes Config.cfg .transceive = true ∧ (sampleCorrupt.response Config.cfg .transceive).status = .ok ∧
    (sampleCorrupt.response Config.cfg .transceive).bits = 40 ∧
    sampleCorrupt.bytes = (uidA.toList ++ [uidA.u0 ^^^ uidA.u1 ^^^ uidA.u2 ^^^ uidA.u3]).set 4 0x23#8 ∧
    (uidA.toList ++ [uidA.u0 ^^^ uidA.u1 ^^^ uidA.u2 ^^^ uidA.u3])[4]? ≠ some 0x23#8 ∧
    s.Answers (sampleCorrupt.trace Config.cfg .transceive [0x93#8, 0x20#8] 0) :=
  ⟨ready _, rfl, rfl, by decide, rfl, rfl, rfl, by decide, ready_answers _ (by simp)⟩

theorem witness_DetectResult_same : ∃ s : State, s.initialised = true ∧ s.lock = none ∧ probeA.completes Config.cfg = true ∧
    s.Answers (probeA.trace Config.cfg) ∧ probeA.card Config.cfg = some (uidA, 0x22#8) ∧ s.session = some (sessionA true) ∧
    (sessionA true).uid = uidA :=
  ⟨ready _, rfl, rfl, by decide, ready_answers _ (by simp), by decide, rfl, rfl⟩
theorem witness_DetectResult_other : ∃ s : State, s.initialised = true ∧ s.lock = none ∧ probeB.completes Config.cfg = true ∧
    s.Answers (probeB.trace Config.cfg) ∧ probeB.card Config.cfg = some (uidB, 0x08#8) ∧
    ∀ q, s.session = some q → q.uid ≠ uidB :=
  ⟨ready _, rfl, rfl, by decide, ready_answers _ (by simp), by decide, by rintro q ⟨⟩; decide⟩
theorem witness_DetectResult_none : ∃ s : State, s.initialised = true ∧ s.lock = none ∧ probeNone.completes Config.cfg = true ∧
    s.Answers (probeNone.trace Config.cfg) ∧ probeNone.card Config.cfg = none :=
  ⟨ready _, rfl, rfl, by decide, ready_answers _ (by simp), rfl⟩

theorem witness_DetectAndCycleFrame : (∃ s t, exec .detect s = .next t) ∧
    ∃ s t, exec .monitorCycle s = .next t ∧ t.events = s.events ++ [.arrived uidA] := by
  obtain ⟨t, h, -⟩ := next_of_performs test_detect_installs.1
  obtain ⟨u, h1, h2⟩ := nextOf_some
    (o := exec .monitorCycle (polling .noCard none 0 (vectorRequest ++ vectorAnticoll ++ [rd 8 0, wr 8 0])))
    (P := fun u => u.events == [.arrived uidA]) (by decide +kernel)
  exact ⟨⟨_, t, h⟩, _, u, h1, by rw [beq_iff_eq] at h2; exact h2⟩

theorem witness_SelectResult : ∃ s : State, s.holds hA (sessionA true) ∧ (sessionA true).uid = uidA ∧ s.initialised = true ∧
    s.lock = none ∧ sampleSak.completes Config.cfg = true ∧
    s.Answers (sampleSak.trace Config.cfg [0x93#8, 0x70#8, uidA.u0, uidA.u1, uidA.u2, uidA.u3, 0x22#8]) ∧
    (sampleSak.response Config.cfg).bits = 24 :=
  ⟨ready _, ready_holds _, rfl, rfl, rfl, by decide, ready_answers _ (by simp), rfl⟩
theorem witness_SelectResult_refused : sampleNak.completes Config.cfg = true ∧ (sampleNak.response Config.cfg).bits ≠ 24 := by
  decide

theorem witness_AuthenticateResult_open : ∃ s : State, s.initialised = true ∧ s.lock = none ∧ s.holds hA (sessionA true) ∧
    (0 : Int) ≤ 63 ∧ (63 : Int) < 64 ∧ sampleAtqa.completes Config.cfg .authent = true ∧
    s.Answers (sampleAtqa.trace Config.cfg .authent
      ([0x60#8, blockByte 63] ++ ((none : Option Key).getD keyFF).toList ++ uidA.toList) 0 ++ [.read 0x08#6 0x08#8]) ∧
    windowOpen Config.cfg 0x08#8 :=
  ⟨ready _, rfl, rfl, ready_holds _, by decide, by decide, by decide, ready_answers _ (by simp [TraceEntry.addr]), by rfl⟩
theorem witness_AuthenticateResult_closed : ∃ s : State, s.initialised = true ∧ s.lock = none ∧ s.holds hA (sessionA true) ∧
    (0 : Int) ≤ 0 ∧ (0 : Int) < 64 ∧ sampleAtqa.completes Config.cfg .authent = true ∧
    s.Answers (sampleAtqa.trace Config.cfg .authent
      ([0x61#8, blockByte 0] ++ ((some keyFF).getD keyFF).toList ++ uidA.toList) 0 ++ [.read 0x08#6 0xF7#8]) ∧
    ¬windowOpen Config.cfg 0xF7#8 :=
  ⟨ready _, rfl, rfl, ready_holds _, by decide, by decide, by decide, ready_answers _ (by simp [TraceEntry.addr]), by
    unfold windowOpen; decide⟩
theorem witness_AuthenticateResult_frame : ∃ s : State, (63#8).toNat < 64 ∧ s.initialised = true ∧ s.lock = none ∧
    sampleAtqa.completes Config.cfg .authent = true ∧
    s.Answers (sampleAtqa.trace Config.cfg .authent ([0x61#8, 63#8] ++ keyFF.toList ++ uidA.toList) 0 ++
      [.read 0x08#6 0x08#8]) :=
  ⟨ready _, by decide, rfl, rfl, by decide, ready_answers _ (by simp [TraceEntry.addr])⟩

theorem witness_AuthenticateMirror : ∃ s t, exec (.authenticate hA 4 0x60#8 none) s = .next t ∧ s.holds hA (sessionA true) := by
  obtain ⟨t, h, -⟩ := next_of_performs test_authenticate
  exact ⟨_, t, h, ready_holds _⟩
theorem witness_AuthenticateMirror_argument : ∃ s t, exec (.authenticate hA 64 0x60#8 none) s = .next t ∧
    t.results = s.results ++ [{ caller := s.agent, result := raised (.invalidArgument .blockRange) }] := by
  obtain ⟨t, h1, -, h3⟩ := next_of_performs (i := .authenticate hA 64 0x60#8 none) (s := ready []) (T := [])
    (r := raised (.invalidArgument .blockRange)) (by decide +kernel)
  exact ⟨_, t, h1, h3⟩

theorem witness_ReadBlockResult : ∃ s : State, s.holds hA (sessionA true) ∧ (63 : Int) < 64 ∧ (63#8).toNat < 64 ∧
    63#8 = blockByte 63 ∧ s.initialised = true ∧ s.lock = none ∧ (sampleBlock count16).completes Config.cfg = true ∧
    s.Answers ((sampleBlock count16).trace Config.cfg [0x30#8, 63#8]) ∧
    (sampleBlock count16).exchange.bytes.length = 16 ∧ ((sampleBlock count16).response Config.cfg).status = .ok :=
  ⟨ready _, ready_holds _, by decide, by decide, rfl, rfl, rfl, by decide, ready_answers _ (by simp), rfl, rfl⟩
theorem witness_ReadBlockResult_failed : sampleNak.completes Config.cfg = true ∧ sampleNak.exchange.bytes.length ≠ 16 := by decide

/-- The vectors' state without an open window. -/
def closed (T : List TraceEntry) : State := { ready T with session := some (sessionA false) }

theorem witness_AccessControl : ∃ s : State, s.initialised = true ∧ s.lock = none ∧ s.holds hA (sessionA false) ∧
    (sessionA false).cryptoActive = false ∧ sampleNak.completes Config.cfg = true ∧
    sampleNak.readControlled Config.cfg (sessionA false).cryptoActive ∧
    s.Answers (sampleNak.trace Config.cfg [0x30#8, blockByte 0]) :=
  ⟨closed (sampleNak.trace Config.cfg [0x30#8, blockByte 0]), rfl, rfl, ⟨rfl, rfl, rfl⟩, rfl, by decide,
   by unfold Framed.readControlled; decide, answers_of_env _ _ rfl (by simp)⟩
theorem witness_AccessControl_write : ∃ s : State, s.initialised = true ∧ s.lock = none ∧ s.holds hA (sessionA false) ∧
    (bs count16).length = 16 ∧ sampleNak.writeControlled Config.cfg (sessionA false).cryptoActive ∧
    s.Answers (sampleNak.trace Config.cfg [0xA0#8, blockByte 63]) :=
  ⟨closed (sampleNak.trace Config.cfg [0xA0#8, blockByte 63]), rfl, rfl, ⟨rfl, rfl, rfl⟩, rfl,
   by unfold Framed.writeControlled; decide, answers_of_env _ _ rfl (by simp)⟩

theorem witness_WriteBlockResult : ∃ s : State, s.holds hA (sessionA true) ∧ 4#8 = blockByte 4 ∧ (bs count16).length = 16 ∧
    s.initialised = true ∧ s.lock = none ∧ sampleAck.completes Config.cfg = true ∧
    ackOk Config.cfg (sampleAck.response Config.cfg) = true ∧
    s.Answers (sampleAck.trace Config.cfg [0xA0#8, 4#8] ++ sampleAck.trace Config.cfg (bs count16)) :=
  ⟨ready _, ready_holds _, rfl, rfl, rfl, rfl, by decide, by decide, ready_answers _ (by simp)⟩
theorem witness_WriteBlockResult_refused : ∃ s : State, s.holds hA (sessionA true) ∧ s.initialised = true ∧ s.lock = none ∧
    sampleNak.completes Config.cfg = true ∧ ackOk Config.cfg (sampleNak.response Config.cfg) = false ∧
    s.Answers (sampleNak.trace Config.cfg [0xA0#8, 4#8]) :=
  ⟨ready _, ready_holds _, rfl, rfl, by decide, by decide, ready_answers _ (by simp)⟩

theorem witness_WritePartialMark : ∃ s t e, exec (.writeBlock hA 4 (bs count16)) s = .next t ∧
    t.results = s.results ++ [{ caller := s.agent, result := .err e }] ∧ e.cause.isFrameLayer = true ∧
    e.mark = .write true := by
  obtain ⟨t, h1, -, h3⟩ := next_of_performs (i := .writeBlock hA 4 (bs count16))
    (s := ready ((vectorWrite count16 0x77 0xF5 0x0A 0x0A).take 35 ++ [.fail 0x09#6]))
    (T := (vectorWrite count16 0x77 0xF5 0x0A 0x0A).take 35 ++ [.fail 0x09#6])
    (r := .err { cause := .transportError 0x09#6, mark := .write true }) (by decide +kernel)
  exact ⟨_, t, _, h1, h3, rfl, rfl⟩
theorem witness_WritePartialMark_first : ∃ s t e, exec (.writeBlock hA 4 (bs count16)) s = .next t ∧
    t.results = s.results ++ [{ caller := s.agent, result := .err e }] ∧ e.cause.isFrameLayer = true ∧
    e.mark = .write false := by
  obtain ⟨t, h1, -, h3⟩ := next_of_performs (i := .writeBlock hA 4 (bs count16)) (s := ready [.fail 0x05#6])
    (T := [.fail 0x05#6]) (r := .err { cause := .transportError 0x05#6, mark := .write false }) (by decide +kernel)
  exact ⟨_, t, _, h1, h3, rfl, rfl⟩

theorem witness_EndSession : (∃ s : State, s.initialised = true ∧ s.lock = none ∧
      s.Answers [.read 0x08#6 0x0F#8, .write 0x08#6 (0x0F#8 &&& ~~~0x08#8)]) ∧
    (∃ s : State, s.initialised = true ∧ s.lock = none ∧ s.Answers [.fail 0x08#6]) ∧
    (∃ s : State, s.initialised = true ∧ s.lock = none ∧ s.Answers [.read 0x08#6 0x0F#8, .fail 0x08#6]) :=
  ⟨⟨ready [rd 8 0x0F, wr 8 7], rfl, rfl, ready_answers _ rfl⟩, ⟨ready [.fail 8#6], rfl, rfl, ready_answers _ rfl⟩,
   ⟨ready [rd 8 0x0F, .fail 8#6], rfl, rfl, ready_answers _ rfl⟩⟩

theorem witness_HandleAndBlockChecks : ∃ s : State, Instr.checkedHandle (.dump hOld) = some hOld ∧
    Instr.checkedHandle (.cardWrite hA (-1) []) = some hA ∧ s.initialised = true ∧ s.lock = none ∧ s.sessionOf hOld = none ∧
    s.sessionOf hA ≠ none ∧ Instr.checkedBlock (.cardWrite hA (-1) []) = some (-1) ∧ (-1 : Int) < 0 :=
  ⟨ready [], rfl, rfl, rfl, rfl, rfl, by decide, rfl, by decide⟩

theorem witness_OperandChecks : ∃ s : State, s.initialised = true ∧ s.lock = none ∧ s.sessionOf hA ≠ none ∧
    ((-1 : Int) < 0 ∧ (12 : Int) < 13) ∧ ((0 : Int) ≤ 12 ∧ (12 : Int) ≤ 12 ∧ (-2147483649 : Int) < -2147483648 ∧ (4294967296 : Int) ≤ 4294967296) ∧
    (List.replicate 15 0#8).length ≠ 16 ∧ 64 < (List.replicate 65 0#8).length :=
  ⟨ready [], rfl, rfl, by decide, by decide, by decide, by decide, by decide⟩

theorem witness_OperandChecks_frame : (ready []).initialised = true ∧ (ready []).lock = none ∧ 64 ≤ (64#8).toNat ∧
    (63#8).toNat < 64 ∧ (List.replicate 17 0#8 : List Byte).length ≠ 16 := by decide

/-- A block whose string has an inner zero. -/
def stringBlock : List Nat := [0x41, 0, 0x42, 0, 0, 0, 0, 0, 0, 0, 0, 0, 0, 0, 0, 0]

theorem witness_StringAccess_read : ∃ s : State, s.initialised = true ∧ s.lock = none ∧ s.holds hA (sessionA true) ∧
    (sampleBlock stringBlock).completes Config.cfg = true ∧
    s.Answers ((sampleBlock stringBlock).trace Config.cfg [0x30#8, blockByte 63]) ∧
    ((sampleBlock stringBlock).response Config.cfg).status = .ok ∧ (sampleBlock stringBlock).exchange.bytes.length = 16 :=
  ⟨ready _, rfl, rfl, ready_holds _, by decide, ready_answers _ (by simp), rfl, rfl⟩
theorem witness_StringAccess_write : ∃ (data : List Byte) (s : State), s.initialised = true ∧ s.lock = none ∧
    s.holds hA (sessionA true) ∧ data = bs [0x41, 0, 0x42] ++ List.replicate (16 - 3) 0x00#8 ∧
    sampleAck.completes Config.cfg = true ∧ ackOk Config.cfg (sampleAck.response Config.cfg) = true ∧
    s.Answers (sampleAck.trace Config.cfg [0xA0#8, blockByte 0] ++ sampleAck.trace Config.cfg data) :=
  ⟨_, ready _, rfl, rfl, ready_holds _, rfl, by decide, by decide, ready_answers _ (by simp)⟩
theorem witness_StringAccess_readFailed : ∃ s : State, s.initialised = true ∧ s.lock = none ∧ s.holds hA (sessionA true) ∧
    sampleNak.completes Config.cfg = true ∧ sampleNak.exchange.bytes.length ≠ 16 ∧
    s.Answers (sampleNak.trace Config.cfg [0x30#8, blockByte 0]) :=
  ⟨ready _, rfl, rfl, ready_holds _, by decide, by decide, ready_answers _ (by simp)⟩
theorem witness_StringAccess_writeFailed :
    (∃ s : State, s.holds hA (sessionA true) ∧ sampleNak.completes Config.cfg = true ∧
      ackOk Config.cfg (sampleNak.response Config.cfg) = false ∧
      s.Answers (sampleNak.trace Config.cfg [0xA0#8, blockByte 0])) ∧
    (∃ s : State, s.holds hA (sessionA true) ∧ ackOk Config.cfg (sampleAck.response Config.cfg) = true ∧
      ackOk Config.cfg (sampleNak.response Config.cfg) = false ∧
      s.Answers (sampleAck.trace Config.cfg [0xA0#8, blockByte 0] ++ sampleNak.trace Config.cfg (bs count16))) :=
  ⟨⟨ready _, ready_holds _, by decide, by decide, ready_answers _ (by simp)⟩,
   ⟨ready _, ready_holds _, by decide, by decide, ready_answers _ (by simp)⟩⟩
theorem witness_StringAccess_long : ∃ (data : List Byte) (s : State), s.initialised = true ∧ s.lock = none ∧
    s.holds hA (sessionA true) ∧ 16 < (List.replicate 17 0x41#8).length ∧ data = (List.replicate 17 0x41#8).take 16 ∧
    s.Answers (sampleAck.trace Config.cfg [0xA0#8, blockByte 0] ++ sampleAck.trace Config.cfg data) :=
  ⟨_, ready _, rfl, rfl, ready_holds _, by decide, rfl, ready_answers _ (by simp)⟩

/-- An instruction performs a prefix of what the environment answers and leaves the rest of the answers. -/
theorem next_leaving {i : Instr} {T : List TraceEntry} {s : State} {r : Result}
    (h : (nextOf (exec i s)).any (fun t => t.env == T.map answerOf && t.results == [{ caller := s.agent, result := r }]) = true)
    (hT : onBus T = true) :
    ∃ t, exec i s = .next t ∧ t.results = [{ caller := s.agent, result := r }] ∧ t.Answers T := by
  obtain ⟨t, h1, h2⟩ := nextOf_some h
  rw [Bool.and_eq_true, beq_iff_eq, beq_iff_eq] at h2
  exact ⟨t, h1, h2.2, answers_of_env t T h2.1 hT⟩

theorem witness_StringRoundTrip : ∃ s t, exec (.writeStr hA 4 (bs [0x41, 0, 0x42])) s = .next t ∧
    t.results = s.results ++ [{ caller := s.agent, result := .ok .unit }] ∧
    (sampleBlock stringBlock).completes Config.cfg = true ∧ ((sampleBlock stringBlock).response Config.cfg).status = .ok ∧
    (sampleBlock stringBlock).readsBack (pad16 Config.cfg (bs [0x41, 0, 0x42])) ∧
    t.Answers ((sampleBlock stringBlock).trace Config.cfg [0x30#8, blockByte 4]) := by
  obtain ⟨t, h1, h2, h3⟩ := next_leaving (i := .writeStr hA 4 (bs [0x41, 0, 0x42])) (r := ok .unit)
    (T := (sampleBlock stringBlock).trace Config.cfg [0x30#8, blockByte 4])
    (s := ready (vectorWrite stringBlock 0 0 0x0A 0x0A ++ (sampleBlock stringBlock).trace Config.cfg [0x30#8, blockByte 4]))
    (by decide +kernel) (by simp)
  exact ⟨_, t, h1, h2, by decide, rfl, rfl, h3⟩

theorem witness_IntAccess_read : ∃ s : State, s.initialised = true ∧ s.lock = none ∧ s.holds hA (sessionA true) ∧
    (sampleBlock count16).completes Config.cfg = true ∧ ((sampleBlock count16).response Config.cfg).status = .ok ∧
    (sampleBlock count16).exchange.bytes.length = 16 ∧
    ((sampleBlock count16).exchange.bytes.drop 12).take 4 = [0x0C#8, 0x0D#8, 0x0E#8, 0x0F#8] ∧
    s.Answers ((sampleBlock count16).trace Config.cfg [0x30#8, blockByte 4]) :=
  ⟨ready _, rfl, rfl, ready_holds _, by decide, rfl, rfl, rfl, ready_answers _ (by simp)⟩
theorem witness_IntAccess_write : ∃ (data : List Byte) (s : State), s.initialised = true ∧ s.lock = none ∧
    s.holds hA (sessionA true) ∧ (sampleBlock count16).completes Config.cfg = true ∧
    ((0xFF#8).toNat * 16777216 + (0xFF#8).toNat * 65536 + (0xFF#8).toNat * 256 + (0xFE#8).toNat : Int) = (-2) % 4294967296 ∧
    data = (sampleBlock count16).exchange.bytes.take 4 ++ [0xFF#8, 0xFF#8, 0xFF#8, 0xFE#8] ++
      (sampleBlock count16).exchange.bytes.drop (4 + 4) ∧
    sampleAck.completes Config.cfg = true ∧ ackOk Config.cfg (sampleAck.response Config.cfg) = true ∧
    s.Answers ((sampleBlock count16).trace Config.cfg [0x30#8, blockByte 4] ++
      (sampleAck.trace Config.cfg [0xA0#8, blockByte 4] ++ sampleAck.trace Config.cfg data)) :=
  ⟨_, ready _, rfl, rfl, ready_holds _, by decide, by decide, rfl, by decide, by decide, ready_answers _ (by simp)⟩

theorem witness_IntAccess_readFailed : ∃ s : State, s.initialised = true ∧ s.lock = none ∧ s.holds hA (sessionA true) ∧
    -2147483648 ≤ (4294967295 : Int) ∧ (4294967295 : Int) < 4294967296 ∧ sampleNak.completes Config.cfg = true ∧
    sampleNak.exchange.bytes.length ≠ 16 ∧ s.Answers (sampleNak.trace Config.cfg [0x30#8, blockByte 4]) :=
  ⟨ready _, rfl, rfl, ready_holds _, by decide, by decide, by decide, by decide, ready_answers _ (by simp)⟩
theorem witness_IntAccess_writeFailed :
    (∃ s : State, s.holds hA (sessionA true) ∧ sampleNak.completes Config.cfg = true ∧
      ackOk Config.cfg (sampleNak.response Config.cfg) = false ∧
      s.Answers ((sampleBlock count16).trace Config.cfg [0x30#8, blockByte 4] ++
        sampleNak.trace Config.cfg [0xA0#8, blockByte 4])) ∧
    (∃ (data : List Byte) (s : State), s.holds hA (sessionA true) ∧
      data = (sampleBlock count16).exchange.bytes.take 12 ++ [0x80#8, 0#8, 0#8, 0#8] ++
        (sampleBlock count16).exchange.bytes.drop (12 + 4) ∧
      ((0x80#8).toNat * 16777216 + (0#8).toNat * 65536 + (0#8).toNat * 256 + (0#8).toNat : Int) =
        (-2147483648) % 4294967296 ∧
      s.Answers ((sampleBlock count16).trace Config.cfg [0x30#8, blockByte 4] ++
        (sampleAck.trace Config.cfg [0xA0#8, blockByte 4] ++ sampleNak.trace Config.cfg data))) :=
  ⟨⟨ready _, ready_holds _, by decide, by decide, ready_answers _ (by simp)⟩,
   ⟨_, ready _, ready_holds _, rfl, by decide, ready_answers _ (by simp)⟩⟩

/-- The block of S4 after WRITE_INT32 of -2 at offset 4 into zeros. -/
def intBlock : List Nat := [0, 0, 0, 0, 0xFF, 0xFF, 0xFF, 0xFE, 0, 0, 0, 0, 0, 0, 0, 0]

theorem witness_IntRoundTrip : ∃ s t, exec (.writeInt32 hA 4 4 (-2)) s = .next t ∧
    t.results = s.results ++ [{ caller := s.agent, result := .ok .unit }] ∧ (sampleBlock intBlock).completes Config.cfg = true ∧
    ((sampleBlock intBlock).response Config.cfg).status = .ok ∧
    (sampleBlock intBlock).readsBack (spliceAt (List.replicate 16 0#8) 4 (bytes32 (-2))) ∧
    t.Answers ((sampleBlock intBlock).trace Config.cfg [0x30#8, blockByte 4]) ∧
    (-2147483648 ≤ (-2 : Int) ∧ (-2 : Int) < 2147483648) := by
  obtain ⟨t, h1, h2, h3⟩ := next_leaving (i := .writeInt32 hA 4 4 (-2)) (r := ok .unit)
    (T := (sampleBlock intBlock).trace Config.cfg [0x30#8, blockByte 4])
    (s := ready (vectorRead 0x12 0 (List.replicate 16 0) ++ vectorWrite intBlock 0x6C 0x07 0x0A 0x0A ++
      (sampleBlock intBlock).trace Config.cfg [0x30#8, blockByte 4]))
    (by decide +kernel) (by simp)
  exact ⟨_, t, h1, h2, by decide, rfl, rfl, h3, by decide⟩

/-- One block of DUMP, read; and one that the card refuses to authenticate. -/
def sampleRun (status2 : Byte) : BlockRun := { auth := sampleAtqa, status2 := status2, read := sampleBlock count16 }

theorem witness_DumpResult : ∃ (runs : List BlockRun) (last : BlockRun) (s : State), s.initialised = true ∧ s.lock = none ∧
    s.holds hA (sessionA true) ∧ runs.length = 64 ∧ runs.getLast? = some last ∧
    (∀ x ∈ runs, x.completes Config.cfg = true) ∧ s.Answers (sweepTrace Config.cfg (sessionA true) 0 runs) := by
  refine ⟨sampleRun 0x00#8 :: List.replicate 63 (sampleRun 0x08#8), sampleRun 0x08#8, ready _, rfl, rfl, ready_holds _, by simp,
    by simp [List.getLast?_cons], ?_, ready_answers _ (by simp)⟩
  intro x hx
  simp only [List.mem_cons, List.mem_replicate] at hx
  obtain rfl | ⟨-, rfl⟩ := hx <;> decide

theorem witness_DumpEnds : ∃ s t, exec (.dump hA) s = .next t := by
  obtain ⟨t, h, -⟩ := nextOf_some (o := exec (.dump hA) (ready [.fail 0x0D#6])) (P := fun _ => true) (by decide +kernel)
  exact ⟨_, t, h⟩

/-- The sequence of INIT (D36), with the value read from TXCONTROL. -/
def initTrace (v : Byte) : List TraceEntry :=
  [.write 0x01#6 0x0F#8, .write 0x2A#6 0x8D#8, .write 0x2B#6 0x3E#8, .write 0x2D#6 0x1E#8, .write 0x2C#6 0x00#8,
   .write 0x15#6 0x40#8, .write 0x11#6 0x3D#8, .read 0x14#6 v, .write 0x14#6 (v ||| 0x03#8)]

theorem witness_Init : ∃ s : State, s.initialised = false ∧ s.lock = none ∧
    State.Answers { s with line := true, trace := s.trace ++ [.line true] } (initTrace 0x80#8) :=
  ⟨cold (initTrace 0x80#8), rfl, rfl, answers_of_env _ _ rfl rfl⟩
theorem witness_Init_ends : ∃ s t, exec .init s = .next t := by
  obtain ⟨t, h, -⟩ := nextOf_some (o := exec .init (cold [wr 1 0x0F, .fail 0x2A#6])) (P := fun _ => true) (by decide +kernel)
  exact ⟨_, t, h⟩

theorem witness_MonitorControl : ∃ s : State, s.initialised = true ∧ s.monitor.worker = .none := ⟨warm [], rfl, rfl⟩

/-- A polling worker's state with the stop flag set. -/
def stopping : State :=
  { polling .noCard none 0 [] with
    monitor := { mstate := .noCard, stopFlag := true, subscribers := [], worker := .polling } }

theorem witness_MonitorControl_stop : ∃ s : State, s.agent = .worker ∧ s.initialised = true ∧ s.monitor.worker = .polling ∧
    s.monitor.stopFlag = true := ⟨stopping, rfl, rfl, rfl, rfl⟩

theorem polling_ready (m : MState) (q : Option Session) (g : Nat) (T : List TraceEntry) : (polling m q g T).CycleReady :=
  ⟨rfl, rfl, rfl, rfl, rfl⟩

theorem polling_answers (m : MState) (q : Option Session) (g : Nat) (T : List TraceEntry) (h : onBus T = true) :
    (polling m q g T).Answers T := answers_of_env _ _ rfl h

theorem witness_CycleWithoutEvent : ∃ s : State, s.CycleReady ∧ probeNone.completes Config.cfg = true ∧
    s.Answers (probeNone.trace Config.cfg) ∧ s.monitor.mstate = .noCard ∧ probeNone.card Config.cfg = none :=
  ⟨_, polling_ready .noCard none 0 _, by decide, polling_answers _ _ _ _ (by simp), rfl, rfl⟩
theorem witness_CycleWithoutEvent_present : ∃ s : State, s.CycleReady ∧ probeA.completes Config.cfg = true ∧
    s.Answers (probeA.trace Config.cfg) ∧ s.monitor.mstate = .cardPresent uidA ∧
    probeA.card Config.cfg = some (uidA, 0x22#8) ∧ s.session = some (sessionA true) ∧ (sessionA true).uid = uidA :=
  ⟨_, polling_ready (.cardPresent uidA) (some (sessionA true)) 1 _, by decide, polling_answers _ _ _ _ (by simp), rfl,
   by decide, rfl, rfl⟩

theorem witness_CycleEvents_arrival : ∃ s : State, s.CycleReady ∧ probeA.completes Config.cfg = true ∧
    probeA.card Config.cfg = some (uidA, 0x22#8) ∧ s.monitor.mstate = .noCard ∧
    s.Answers (probeA.trace Config.cfg ++ [.read 0x08#6 0x0F#8, .write 0x08#6 (0x0F#8 &&& ~~~0x08#8)]) :=
  ⟨_, polling_ready .noCard none 0 _, by decide, by decide, rfl, polling_answers _ _ _ _ (by simp [TraceEntry.addr])⟩
theorem witness_CycleEvents_replaced : ∃ s : State, s.CycleReady ∧ probeB.completes Config.cfg = true ∧
    probeB.card Config.cfg = some (uidB, 0x08#8) ∧ (∃ w, s.monitor.mstate = .cardPresent w ∧ w ≠ uidB) ∧
    s.Answers (probeB.trace Config.cfg ++ [.read 0x08#6 0x0F#8, .write 0x08#6 (0x0F#8 &&& ~~~0x08#8)]) :=
  ⟨_, polling_ready (.cardPresent uidA) (some (sessionA true)) 1 _, by decide, by decide, ⟨uidA, rfl, by decide⟩,
   polling_answers _ _ _ _ (by simp [TraceEntry.addr])⟩
theorem witness_CycleEvents_removal : ∃ s : State, s.CycleReady ∧ probeNone.completes Config.cfg = true ∧
    probeNone.card Config.cfg = none ∧ s.monitor.mstate = .cardPresent uidA ∧ s.Answers (probeNone.trace Config.cfg) :=
  ⟨_, polling_ready (.cardPresent uidA) (some (sessionA true)) 1 _, by decide, rfl, rfl, polling_answers _ _ _ _ (by simp)⟩

theorem witness_CycleFault : ∃ s t, s.CycleReady ∧ s.monitor.mstate.active ∧ exec .monitorCycle s = .next t ∧
    t.monitor.worker = .none ∧ s.Answers [.fail 0x0D#6] := by
  obtain ⟨t, h1, h2⟩ := nextOf_some (o := exec .monitorCycle (polling .noCard none 0 [.fail 0x0D#6]))
    (P := fun t => t.monitor.worker == .none) (by decide +kernel)
  exact ⟨_, t, polling_ready .noCard none 0 _, rfl, h1, by simpa using h2, polling_answers _ _ _ _ rfl⟩
theorem witness_CycleFault_timeout : ∃ (polls : List Byte) (s : State), s.CycleReady ∧ s.monitor.mstate.active ∧
    polls.length = 2000 ∧ noneDone Config.cfg .transceive polls = true ∧
    s.Answers (sampleAtqa.timeoutTrace Config.cfg .transceive [0x26#8] 7 polls) :=
  ⟨List.replicate 2000 0#8, _, polling_ready (.cardPresent uidA) (some (sessionA true)) 1 _, rfl, List.length_replicate,
   noneDone_replicate _ _, polling_answers _ _ _ _ (onBus_timeout ..)⟩
theorem witness_CycleFault_frame : ∃ s : State, s.CycleReady ∧ s.monitor.mstate.active ∧
    (sampleErr 0x08#8).polledOk Config.cfg .transceive = true ∧ (sampleErr 0x08#8).errv &&& 0x1B#8 ≠ 0#8 ∧
    s.Answers ((sampleErr 0x08#8).errorTrace Config.cfg .transceive [0x26#8] 7) :=
  ⟨_, polling_ready .noCard none 0 _, rfl, by decide, by decide, polling_answers _ _ _ _ (by decide)⟩

theorem witness_CycleFault_failed : ∃ s t, s.CycleReady ∧ exec .monitorCycle s = .next t ∧
    t.trace = s.trace ++ (vectorRequest ++ [.fail 0x0D#6]) ∧ .fail 0x0D#6 ∈ vectorRequest ++ [.fail 0x0D#6] := by
  obtain ⟨t, h1, h2⟩ := nextOf_some
    (o := exec .monitorCycle (polling (.cardPresent uidA) (some (sessionA true)) 1 (vectorRequest ++ [.fail 0x0D#6])))
    (P := fun t => t.trace == vectorRequest ++ [.fail 0x0D#6]) (by decide +kernel)
  exact ⟨_, t, polling_ready .., h1, by rw [beq_iff_eq] at h2; exact h2, by decide⟩
theorem witness_CycleFault_detect : ∃ s : State, s.CycleReady ∧ s.monitor.mstate.active ∧
    (Cause.transportError 0x0D#6).isFrameLayer = true ∧
    exec .detect s = .next ((s.ran [.fail 0x0D#6]).replied (raised (.transportError 0x0D#6))) :=
  ⟨polling .noCard none 0 [.fail 0x0D#6], polling_ready .., rfl, rfl, rfl⟩
theorem witness_CycleFault_anticoll :
    (∃ (polls : List Byte) (s : State), s.CycleReady ∧ s.monitor.mstate.active ∧
      sampleAtqa.completes Config.cfg .transceive = true ∧ (sampleAtqa.response Config.cfg .transceive).status = .ok ∧
      (sampleAtqa.response Config.cfg .transceive).bits = 16 ∧ polls.length = 2000 ∧
      noneDone Config.cfg .transceive polls = true ∧
      s.Answers (sampleAtqa.trace Config.cfg .transceive [0x26#8] 7 ++
        sampleAtqa.timeoutTrace Config.cfg .transceive [0x93#8, 0x20#8] 0 polls)) ∧
    (∃ s : State, s.CycleReady ∧ s.monitor.mstate.active ∧ (sampleErr 0x08#8).polledOk Config.cfg .transceive = true ∧
      (sampleErr 0x08#8).errv &&& 0x1B#8 ≠ 0#8 ∧
      s.Answers (sampleAtqa.trace Config.cfg .transceive [0x26#8] 7 ++
        (sampleErr 0x08#8).errorTrace Config.cfg .transceive [0x93#8, 0x20#8] 0)) :=
  ⟨⟨List.replicate 2000 0#8, _, polling_ready (.cardPresent uidA) (some (sessionA true)) 1 _, rfl, by decide, rfl, rfl,
     List.length_replicate, noneDone_replicate _ _,
     polling_answers _ _ _ _ (by rw [onBus_append, onBus_exchange, onBus_timeout]; rfl)⟩,
   ⟨_, polling_ready .noCard none 0 _, rfl, by decide, by decide,
     polling_answers _ _ _ _ (by rw [onBus_append, onBus_exchange, onBus_error]; rfl)⟩⟩
theorem witness_CycleFault_endSession :
    (∃ s : State, s.CycleReady ∧ probeA.completes Config.cfg = true ∧ probeA.card Config.cfg = some (uidA, 0x22#8) ∧
      s.monitor.mstate = .noCard ∧ s.Answers (probeA.trace Config.cfg ++ [.fail 0x08#6])) ∧
    (∃ s : State, s.CycleReady ∧ probeB.completes Config.cfg = true ∧ probeB.card Config.cfg = some (uidB, 0x08#8) ∧
      (∃ w, s.monitor.mstate = .cardPresent w ∧ w ≠ uidB) ∧
      s.Answers (probeB.trace Config.cfg ++ [.read 0x08#6 0x0F#8, .fail 0x08#6])) :=
  ⟨⟨_, polling_ready .noCard none 0 _, by decide, by decide, rfl, polling_answers _ _ _ _ (by simp [TraceEntry.addr])⟩,
   ⟨_, polling_ready (.cardPresent uidA) (some (sessionA true)) 1 _, by decide, by decide, ⟨uidA, rfl, by decide⟩,
     polling_answers _ _ _ _ (by simp [TraceEntry.addr])⟩⟩

theorem polling_inv (T : List TraceEntry) : (polling .noCard none 0 T).Inv where
  lock_free := rfl
  line_high _ := rfl
  cold h := by cases h
  session_fits := by rintro q ⟨⟩
  worker_active := ⟨fun _ => rfl, fun _ h => by cases h⟩
  present := by rintro u ⟨⟩
  fault_logged := by rintro k ⟨⟩
  consumers_nodup := List.nodup_singleton 1
  inbox_suffix q hq := by
    rw [List.mem_singleton.mp hq]
    exact List.nil_suffix

theorem witness_EventsOfAStep : ∃ s t : State, s.Inv ∧ step s = .next t ∧ t.events = s.events ++ [.arrived uidA] := by
  obtain ⟨t, h1, h2⟩ := nextOf_some
    (o := step (polling .noCard none 0 (vectorRequest ++ vectorAnticoll ++ [rd 8 0, wr 8 0])))
    (P := fun t => t.events == [.arrived uidA]) (by decide +kernel)
  exact ⟨_, t, polling_inv _, h1, by rw [beq_iff_eq] at h2; exact h2⟩

/-- A sleeping worker. -/
def asleep (ms : Nat) (stop : Bool) : State :=
  { warm [] with monitor := { mstate := .noCard, stopFlag := stop, subscribers := [], worker := .sleeping ms } }

theorem witness_Sleep : (asleep 0 false).port = [] ∧ (asleep 0 false).monitor.worker = .sleeping 0 ∧
    (asleep 1 true).port = [] ∧ (asleep 1 true).monitor.worker = .sleeping 1 ∧ (asleep 1 true).monitor.stopFlag = true ∧
    (asleep 101 false).port = [] ∧ (asleep 101 false).monitor.worker = .sleeping 101 ∧
    (asleep 101 false).monitor.stopFlag = false := ⟨rfl, rfl, rfl, rfl, rfl, rfl, rfl, rfl⟩

theorem witness_StopLatency : ∃ s : State, s.Inv ∧ s.port = [] ∧ s.monitor.worker ≠ .none ∧ s.monitor.stopFlag = true :=
  ⟨stopping, { polling_inv [] with
      consumers_nodup := List.nodup_nil
      inbox_suffix := by rintro q ⟨⟩ }, rfl, by decide, rfl⟩

/-! ## The scenario (S6, program P3) -/

/-- The session of card B in the scenario. -/
def sessionB : Session := { uid := uidB, bcc := 0x08#8, key := keyFF, cryptoActive := false, gen := 2 }

/-- What each cycle of the scenario finds. -/
def scenarioProbe : Fin 6 → Probe := ![probeNone, probeA, probeA, probeB, probeNone, probeNone]

/-- The state in which each cycle of the scenario starts. -/
def scenarioAwake : Fin 6 → State :=
  ![polling .noCard none 0 (probeNone.trace Config.cfg),
    polling .noCard none 0 (probeA.trace Config.cfg ++ endSessionTrace Config.cfg 0#8),
    { polling (.cardPresent uidA) (some (sessionA false)) 1 (probeA.trace Config.cfg) with events := [.arrived uidA] },
    { polling (.cardPresent uidA) (some (sessionA false)) 1 (probeB.trace Config.cfg ++ endSessionTrace Config.cfg 0#8) with
      events := [.arrived uidA] },
    { polling (.cardPresent uidB) (some sessionB) 2 (probeNone.trace Config.cfg) with
      events := [.arrived uidA, .arrived uidB] },
    { polling .noCard none 3 (probeNone.trace Config.cfg) with events := [.arrived uidA, .arrived uidB, .removed uidB] }]

/-- The state each cycle of the scenario leaves. -/
def scenarioAfter (k : Fin 6) : State := (nextOf (exec .monitorCycle (scenarioAwake k))).getD State.reset

theorem scenario_ready (k : Fin 6) : (scenarioAwake k).CycleReady := by fin_cases k <;> exact ⟨rfl, rfl, rfl, rfl, rfl⟩

theorem scenario_completes (k : Fin 6) : (scenarioProbe k).completes Config.cfg = true := by revert k; decide

theorem scenario_runs (k : Fin 6) : exec .monitorCycle (scenarioAwake k) = .next (scenarioAfter k) := by
  have h : (nextOf (exec .monitorCycle (scenarioAwake k))).any (fun _ => true) = true := by revert k; decide +kernel
  obtain ⟨t, ht, -⟩ := nextOf_some h
  rw [scenarioAfter, ht]
  rfl

theorem scenario_linked (k : Fin 5) :
    (scenarioAwake k.succ).monitor.mstate = (scenarioAfter k.castSucc).monitor.mstate ∧
    (scenarioAwake k.succ).session = (scenarioAfter k.castSucc).session ∧
    (scenarioAwake k.succ).events = (scenarioAfter k.castSucc).events := by
  revert k
  decide +kernel

theorem witness_Scenario : ∃ (A B : Uid) (bccA bccB : Byte) (p : Fin 6 → Probe) (vA vB : Byte) (awake after : Fin 6 → State),
    A ≠ B ∧
    (∀ k, (awake k).CycleReady ∧ (p k).completes Config.cfg = true ∧ exec .monitorCycle (awake k) = .next (after k)) ∧
    (∀ k : Fin 5, (awake k.succ).monitor.mstate = (after k.castSucc).monitor.mstate ∧
      (awake k.succ).session = (after k.castSucc).session ∧ (awake k.succ).events = (after k.castSucc).events) ∧
    (awake 0).monitor.mstate = .noCard ∧
    ((p 0).card Config.cfg = none ∧ (p 1).card Config.cfg = some (A, bccA) ∧ (p 2).card Config.cfg = some (A, bccA) ∧
      (p 3).card Config.cfg = some (B, bccB) ∧ (p 4).card Config.cfg = none ∧ (p 5).card Config.cfg = none) ∧
    (awake 0).Answers ((p 0).trace Config.cfg) ∧
    (awake 1).Answers ((p 1).trace Config.cfg ++ endSessionTrace Config.cfg vA) ∧
    (awake 2).Answers ((p 2).trace Config.cfg) ∧
    (awake 3).Answers ((p 3).trace Config.cfg ++ endSessionTrace Config.cfg vB) ∧
    (awake 4).Answers ((p 4).trace Config.cfg) ∧ (awake 5).Answers ((p 5).trace Config.cfg) := by
  have he : onBus (endSessionTrace Config.cfg 0#8) = true := rfl
  exact ⟨uidA, uidB, 0x22#8, 0x08#8, scenarioProbe, 0#8, 0#8, scenarioAwake, scenarioAfter, by decide,
    fun k => ⟨scenario_ready k, scenario_completes k, scenario_runs k⟩, scenario_linked, rfl, by decide,
    answers_of_env _ _ rfl (onBus_probe _ _), answers_of_env _ _ rfl (by rw [onBus_append, onBus_probe, he]; rfl),
    answers_of_env _ _ rfl (onBus_probe _ _), answers_of_env _ _ rfl (by rw [onBus_append, onBus_probe, he]; rfl),
    answers_of_env _ _ rfl (onBus_probe _ _), answers_of_env _ _ rfl (onBus_probe _ _)⟩

end Sys2Proof.Tests
end

section
/-!
SUPPORT. What a poll cycle and a sleep slice leave, case by case, in terms of the state they began in
(spec/46_presence_monitor.md R320 to R324, R330).
-/

namespace Sys2Proof.Machine

/-- The end of a cycle whose bus work returned: the lock is released and the worker sleeps (R320). -/
abbrev State.resting (s : State) (ms : Nat) : State :=
  { s with lock := none, monitor := { s.monitor with worker := .sleeping ms } }

/-- The end of a cycle whose bus work raised, policy `halt`: the lock is released, the error logged, the worker ended
(R324). -/
abbrev State.cycleFaulted (s : State) (k : Kind) : State :=
  { s with
    lock := none
    log := s.log ++ [.monitorError k]
    monitor := { s.monitor with mstate := .faulted k, worker := .none } }

/-- The crypto mirror written (R31). -/
abbrev State.mirrored (s : State) (active : Bool) : State := { s with session := withCrypto s.session active }

/-- The states a cycle can leave. -/
inductive CycleLeft (c : Cfg) (s : State) : Option Uid → State → Prop where
  /-- Detect met an unexpected error (R324). -/
  | detectFailed (present : Option Uid) (T : List TraceEntry) (k : Kind) : CycleLeft c s present ((s.ran T).cycleFaulted k)
  /-- No card before, no card now (R323 a). -/
  | stillAbsent (T : List TraceEntry) : CycleLeft c s none ((s.ran T).resting c.shortIntervalMs)
  /-- The card is gone (R321 c). -/
  | removed (T : List TraceEntry) (u : Uid) :
      CycleLeft c s (some u) (((s.ran T).departed u).resting c.longIntervalMs)
  /-- The same card (R323 b). -/
  | stillPresent (T : List TraceEntry) (u : Uid) (bcc : Byte) (hb : bcc = uidBcc u) :
      CycleLeft c s (some u) ((State.installed c (s.ran T) u bcc).resting c.shortIntervalMs)
  /-- A new card, its session ended (R321 a, b). -/
  | arrived (present : Option Uid) (T U : List TraceEntry) (u : Uid) (bcc : Byte) (hne : present ≠ some u)
      (hb : bcc = uidBcc u) :
      CycleLeft c s present
        (((((State.installed c (s.ran T) u bcc).arrivedAt u).ran U).mirrored false).resting c.arrivalSleepMs)
  /-- A new card whose END_SESSION failed (log 16). -/
  | arrivalFailed (present : Option Uid) (T U : List TraceEntry) (u : Uid) (bcc : Byte) (hne : present ≠ some u)
      (hb : bcc = uidBcc u) (k : Kind) :
      CycleLeft c s present ((((State.installed c (s.ran T) u bcc).arrivedAt u).ran U).cycleFaulted k)

/-- Every cycle leaves one of these states: the lock it took is gone from each. -/
theorem runCycle_left (present : Option Uid) (s : State) :
    CycleLeft Config.cfg s present (runCycle Config.cfg present s) := by
  have unlock : ∀ (T : List TraceEntry) (u : Uid) (bcc : Byte), State.installed Config.cfg (s.locked.ran T) u bcc =
      { State.installed Config.cfg (s.ran T) u bcc with lock := some s.agent } := fun T u bcc =>
    installed_locked Config.cfg (s.ran T) (some s.agent) u bcc
  obtain ⟨T, -, h⟩ := pollCard_ends Config.cfg present s.locked
  rcases h with ⟨e, h, -⟩ | ⟨rfl, h⟩ | ⟨u, rfl, h⟩ | ⟨u, bcc, rfl, hb, h⟩ | ⟨U, u, bcc, -, hne, hb, h | ⟨a, h⟩⟩
  · rw [runCycle_error h]; exact .detectFailed present T e.cause.kind
  · rw [runCycle_ok h]; exact .stillAbsent T
  · rw [runCycle_ok h]; exact .removed T u
  · rw [runCycle_ok h, unlock]; exact .stillPresent T u bcc hb
  · rw [runCycle_ok h, unlock]; exact .arrived present T U u bcc hne hb
  · rw [runCycle_error h, unlock]; exact .arrivalFailed present T U u bcc hne hb .transportError

/-- A step of a sleeping worker wakes it, ends it, or sleeps one slice (R330). -/
theorem sleepSlice_cases (c : Cfg) {s : State} {ms : Nat} (hw : s.monitor.worker = .sleeping ms) :
    sleepSlice c s = { s with monitor := { s.monitor with worker := .polling } } ∨
    sleepSlice c s = { s with monitor := s.monitor.ended } ∨
    ∃ d left, sleepSlice c s =
      { s with labels := s.labels ++ [d], monitor := { s.monitor with worker := .sleeping left } } := by
  rcases Nat.eq_zero_or_pos ms with rfl | hms
  · exact .inl (sleepSlice_awake hw)
  · cases hs : s.monitor.stopFlag with
    | true => exact .inr (.inl (sleepSlice_stopped hw hms hs))
    | false => exact .inr (.inr ⟨_, _, sleepSlice_slept hw hms hs⟩)

end Sys2Proof.Machine
end

section
/-!
SUPPORT. Which changes of the state keep the invariant: one rule for each change a step is made of.
-/

namespace Sys2Proof.Machine.State.Inv

variable {s : State} (h : s.Inv)
include h

/-! ## Changes that touch neither session nor monitor -/

theorem ran (T : List TraceEntry) : (s.ran T).Inv := { h with }

/-- A longer log still holds the fault (R324). -/
theorem busStep (T : List TraceEntry) (L : List LogEntry) : (s.busStep T L).Inv :=
  { h with fault_logged := fun k hk => List.mem_append_left L (h.fault_logged k hk) }

theorem replied (r : Result) : (s.replied r).Inv := { h with lock_free := rfl }

theorem acknowledge : s.acknowledge.Inv := { h with }

/-! ## The session -/

/-- The crypto mirror is no part of what the invariant says of a session (R31). -/
theorem mirrored (active : Bool) : (s.mirrored active).Inv :=
  { h with
    cold := fun hi => by
      obtain ⟨hq, hrest⟩ := h.cold hi
      exact ⟨by simp [withCrypto, hq], hrest⟩
    session_fits := fun q hq => by
      obtain ⟨p, hp, rfl⟩ := Option.map_eq_some_iff.mp hq
      exact { h.session_fits p hp with }
    present := fun u hu => by
      obtain ⟨hq, hlast⟩ := h.present u hu
      exact ⟨by simpa [withCrypto] using hq, hlast⟩ }

/-- A card whose checksum byte is right is installed with a fitting session (R226). -/
theorem installed (hi : s.initialised = true) {u : Uid} {bcc : Byte} (hb : bcc = uidBcc u) :
    (State.installed Config.cfg s u bcc).Inv := by
  rcases installed_cases Config.cfg s u bcc with ⟨-, heq⟩ | ⟨-, heq⟩ <;> rw [heq]
  · exact h
  · exact { h with
      cold := fun hf => absurd (hi.symm.trans hf) Bool.noConfusion
      session_fits := by
        rintro q ⟨⟩
        exact ⟨rfl, Nat.le_add_left 1 s.gen, hb, rfl⟩
      present := fun v hv => ⟨rfl, (h.present v hv).2⟩ }

/-! ## INIT -/

theorem lineUp : s.lineUp.Inv := { h with line_high := fun _ => rfl }

/-- INIT of a cold controller, whether its sequence was completed or not (R311). -/
theorem booted (hi : s.initialised = false) (T : List TraceEntry) (done : Bool) :
    State.Inv { s.lineUp.ran T with initialised := done } :=
  { h.lineUp.ran T with
    line_high := fun _ => rfl
    cold := fun _ => h.cold hi }

/-! ## The worker and the presence state -/

/-- Only an initialised controller has a worker (R22). -/
theorem initialised_of_worker (hw : s.monitor.worker ≠ .none) : s.initialised = true := by
  by_contra hi
  obtain ⟨-, -, hnone, -⟩ := h.cold (Bool.eq_false_iff.mpr hi)
  exact hw hnone

/-- MONITOR_START (R315). -/
theorem started (hi : s.initialised = true) : State.Inv { s with monitor := s.monitor.started } :=
  { h with
    cold := fun hf => absurd (hi.symm.trans hf) Bool.noConfusion
    worker_active := ⟨fun _ => rfl, fun _ => by simp⟩
    present := by rintro u ⟨⟩
    fault_logged := by rintro k ⟨⟩ }

/-- The worker ends on the stop flag (R325, R330). -/
theorem ended (hw : s.monitor.worker ≠ .none) : State.Inv { s with monitor := s.monitor.ended } :=
  { h with
    cold := fun hf => absurd ((h.initialised_of_worker hw).symm.trans hf) Bool.noConfusion
    worker_active := ⟨fun hn => absurd rfl hn, by rintro ⟨⟩⟩
    present := by rintro u ⟨⟩
    fault_logged := by rintro k ⟨⟩ }

/-- A running worker goes from one phase to another (R320, R330). -/
theorem rephased (hw : s.monitor.worker ≠ .none) {w : Worker} (hn : w ≠ .none) :
    State.Inv { s with monitor := { s.monitor with worker := w } } :=
  { h with
    cold := fun hf => absurd ((h.initialised_of_worker hw).symm.trans hf) Bool.noConfusion
    worker_active := ⟨fun _ => h.worker_active.mp hw, fun _ => hn⟩ }

/-- One step of a sleeping worker (R330). -/
theorem afterSlice {ms : Nat} (hw : s.monitor.worker = .sleeping ms) : (sleepSlice Config.cfg s).Inv := by
  have running : s.monitor.worker ≠ .none := by simp [hw]
  rcases sleepSlice_cases Config.cfg hw with heq | heq | ⟨d, left, heq⟩ <;> rw [heq]
  · exact h.rephased running (by simp)
  · exact h.ended running
  · exact { h.rephased running (w := .sleeping left) (by simp) with }

/-! ## Consumers and events -/

/-- SUBSCRIBE (R335): a new consumer is not listed yet, and its inbox is empty. -/
theorem subscribed (n : Nat) :
    State.Inv { s with monitor := { s.monitor with subscribers := addSubscriber s.monitor.subscribers n } } := by
  cases hn : s.monitor.subscribers.any fun q => q.consumer == n with
  | true =>
    have known : addSubscriber s.monitor.subscribers n = s.monitor.subscribers := by simp [addSubscriber, hn]
    rw [known]
    exact { h with }
  | false =>
    have new : addSubscriber s.monitor.subscribers n = s.monitor.subscribers ++ [{ consumer := n, inbox := [] }] := by
      simp [addSubscriber, hn]
    rw [new]
    exact { h with
      consumers_nodup := by
        have fresh : n ∉ s.monitor.subscribers.map (·.consumer) := by simpa using hn
        simpa using h.consumers_nodup.concat fresh
      inbox_suffix := fun q hq => by
        rcases List.mem_append.mp hq with hq | hq
        · exact h.inbox_suffix q hq
        · rw [List.mem_singleton.mp hq]
          exact List.nil_suffix }

/-- Delivery keeps the consumers (R335). -/
theorem emit_consumers (ev : Event) : ((s.emit ev).monitor.subscribers.map (·.consumer)).Nodup := by
  simpa [Function.comp_def] using h.consumers_nodup

/-- An event is appended to the event list and to every inbox alike (R335). -/
theorem emit_inbox (ev : Event) : ∀ q ∈ (s.emit ev).monitor.subscribers, q.inbox <:+ (s.emit ev).events := by
  intro q hq
  obtain ⟨p, hp, rfl⟩ := List.mem_map.mp hq
  obtain ⟨before, heq⟩ := h.inbox_suffix p hp
  exact ⟨before, by rw [State.emit_events, ← heq, List.append_assoc]⟩

/-- An arrival announced by a running worker, its card installed (R321 a). -/
theorem arrivedAt (hw : s.monitor.worker ≠ .none) (hq : s.session.isSome = true) (u : Uid) : (s.arrivedAt u).Inv :=
  { h with
    cold := fun hf => absurd ((h.initialised_of_worker hw).symm.trans hf) Bool.noConfusion
    worker_active := ⟨fun _ => rfl, fun _ => hw⟩
    present := by
      rintro v ⟨⟩
      exact ⟨hq, List.getLast?_concat⟩
    fault_logged := by rintro k ⟨⟩
    consumers_nodup := h.emit_consumers (.arrived u)
    inbox_suffix := h.emit_inbox (.arrived u) }

/-- A removal announced by a running worker (R321 c). -/
theorem departed (hw : s.monitor.worker ≠ .none) (u : Uid) : (s.departed u).Inv :=
  { h with
    cold := fun hf => absurd ((h.initialised_of_worker hw).symm.trans hf) Bool.noConfusion
    session_fits := by rintro q ⟨⟩
    worker_active := ⟨fun _ => rfl, fun _ => hw⟩
    present := by rintro v ⟨⟩
    fault_logged := by rintro k ⟨⟩
    consumers_nodup := h.emit_consumers (.removed u)
    inbox_suffix := h.emit_inbox (.removed u) }

/-! ## The end of a cycle -/

theorem resting (hw : s.monitor.worker ≠ .none) (ms : Nat) : (s.resting ms).Inv :=
  { h.rephased hw (w := .sleeping ms) (by simp) with lock_free := rfl }

/-- The error is logged as the presence state takes it (R324). -/
theorem cycleFaulted (hw : s.monitor.worker ≠ .none) (k : Kind) : (s.cycleFaulted k).Inv :=
  { h with
    lock_free := rfl
    cold := fun hf => absurd ((h.initialised_of_worker hw).symm.trans hf) Bool.noConfusion
    worker_active := ⟨fun hn => absurd rfl hn, by rintro ⟨⟩⟩
    present := by rintro u ⟨⟩
    fault_logged := by
      rintro k' ⟨⟩
      exact List.mem_append_right _ (List.mem_singleton.mpr rfl) }

end Sys2Proof.Machine.State.Inv

namespace Sys2Proof.Machine

/-- After installation there is a session (R226). -/
theorem installed_session_isSome (c : Cfg) (s : State) (u : Uid) (bcc : Byte) :
    (State.installed c s u bcc).session.isSome = true := by
  obtain ⟨q, ⟨hq, -, -⟩, -⟩ := installed_holds c s u bcc
  simp [hq]

/-- A cycle of a running worker keeps the invariant (R320 to R324). -/
theorem CycleLeft.keepsInv {s t : State} {present : Option Uid} (hc : CycleLeft Config.cfg s present t) (h : s.Inv)
    (hw : s.monitor.worker ≠ .none) : t.Inv := by
  have hi : s.initialised = true := h.initialised_of_worker hw
  have cardInstalled : ∀ T u bcc, bcc = uidBcc u → (State.installed Config.cfg (s.ran T) u bcc).Inv := fun T u bcc hb =>
    (h.ran T).installed hi hb
  have stillRuns : ∀ T u bcc, (State.installed Config.cfg (s.ran T) u bcc).monitor.worker ≠ .none := fun T u bcc => by
    simpa using hw
  have announced : ∀ T u bcc, bcc = uidBcc u → ((State.installed Config.cfg (s.ran T) u bcc).arrivedAt u).Inv :=
    fun T u bcc hb => (cardInstalled T u bcc hb).arrivedAt (stillRuns T u bcc) (installed_session_isSome _ _ u bcc) u
  cases hc with
  | detectFailed _ T k => exact (h.ran T).cycleFaulted hw k
  | stillAbsent T => exact (h.ran T).resting hw _
  | removed T u => exact ((h.ran T).departed hw u).resting hw _
  | stillPresent T u bcc hb => exact (cardInstalled T u bcc hb).resting (stillRuns T u bcc) _
  | arrived _ T U u bcc _ hb => exact (((announced T u bcc hb).ran U).mirrored false).resting (stillRuns T u bcc) _
  | arrivalFailed _ T U u bcc _ hb k => exact ((announced T u bcc hb).ran U).cycleFaulted (stillRuns T u bcc) k

/-- Every instruction keeps the invariant. -/
theorem Did.keepsInv {s t : State} (hd : Did s t) (h : s.Inv) : t.Inv := by
  cases hd with
  | bus T L r => exact (h.busStep T L).replied r
  | mirror T L r q hq =>
    rcases hq with rfl | rfl | rfl
    · exact (h.busStep T L).replied r
    · exact ((h.mirrored true).busStep T L).replied r
    · exact ((h.mirrored false).busStep T L).replied r
  | detected T u bcc r hi hb => exact ((h.ran T).installed hi hb).replied r
  | booted T done r hi => exact (h.booted hi T done).replied r
  | started hi _ => exact (h.started hi).acknowledge
  | flagged => exact { h with }
  | subscribed n => exact (h.subscribed n).acknowledge
  | ended _ hw => exact (h.ended (by simp [hw])).acknowledge
  | cycled present hr _ => exact ((runCycle_left present s).keepsInv h (by simp [hr.worker_eq])).acknowledge

/-- Settles O3: a step is an instruction, a sleep slice or nothing, and each change these make keeps the invariant. -/
theorem stepKeepsInvariant : Obligations.StepKeepsInvariant := by
  intro s t h hstep
  rcases step_next hstep with ⟨i, rest, a, hexec⟩ | ⟨rest, ms, hw, rfl⟩ | ⟨rest, rfl⟩
  · exact (exec_did hexec).keepsInv { h with }
  · exact State.Inv.afterSlice (s := { s with port := rest }) { h with } hw
  · exact { h with }

/-- Settles O2: nothing has run, so every clause is about an absent session, worker, fault or consumer. -/
theorem resetInvariant : Obligations.ResetInvariant where
  lock_free := rfl
  line_high := by rintro ⟨⟩
  cold _ := ⟨rfl, rfl, rfl, rfl, rfl⟩
  session_fits := by rintro q ⟨⟩
  worker_active := ⟨fun hn => absurd rfl hn, by rintro ⟨⟩⟩
  present := by rintro u ⟨⟩
  fault_logged := by rintro k ⟨⟩
  consumers_nodup := List.nodup_nil
  inbox_suffix := by rintro q ⟨⟩

end Sys2Proof.Machine
end

section
/-!
SUPPORT. The histories (spec/10_state.md R36 to R38): each change a step is made of extends them.
-/

namespace Sys2Proof.Machine

theorem Continues.refl (s : State) : Continues s s :=
  ⟨List.prefix_refl _, List.prefix_refl _, List.prefix_refl _, List.prefix_refl _, List.prefix_refl _⟩

theorem Continues.trans {s t u : State} (h : Continues s t) (k : Continues t u) : Continues s u :=
  ⟨h.trace.trans k.trace, h.events.trans k.events, h.log.trans k.log, h.results.trans k.results, h.labels.trans k.labels⟩

theorem continues_busStep (s : State) (T : List TraceEntry) (L : List LogEntry) : Continues s (s.busStep T L) :=
  { Continues.refl s with trace := List.prefix_append _ _, log := List.prefix_append _ _ }

theorem continues_replied (s : State) (r : Result) : Continues s (s.replied r) :=
  { Continues.refl s with results := List.prefix_append _ _ }

theorem continues_acknowledge (s : State) : Continues s s.acknowledge :=
  { Continues.refl s with results := List.prefix_append _ _ }

/-- A DETECT that found a card: its transactions, and a session, which is no history. -/
theorem continues_installed (s : State) (T : List TraceEntry) (u : Uid) (bcc : Byte) :
    Continues s (State.installed Config.cfg (s.ran T) u bcc) where
  trace := by simp
  events := by simp
  log := by simp
  results := by simp
  labels := by simp

theorem continues_runCycle (present : Option Uid) (s : State) : Continues s (runCycle Config.cfg present s) := by
  obtain ⟨T, htrace, -, hresults, -, hlabels, hlog, hevents, -⟩ := runCycle_ends present s
  exact ⟨htrace ▸ List.prefix_append _ _, hevents, hlog, hresults ▸ List.prefix_refl _, hlabels ▸ List.prefix_refl _⟩

/-- A slice may add a label (R330). -/
theorem continues_sleepSlice (s : State) {ms : Nat} (hw : s.monitor.worker = .sleeping ms) :
    Continues s (sleepSlice Config.cfg s) := by
  rcases sleepSlice_cases Config.cfg hw with heq | heq | ⟨d, left, heq⟩ <;> rw [heq]
  · exact { Continues.refl s with }
  · exact { Continues.refl s with }
  · exact { Continues.refl s with labels := List.prefix_append _ _ }

/-- Every instruction extends the histories. -/
theorem Did.continues {s t : State} (hd : Did s t) : Continues s t := by
  cases hd with
  | bus T L r => exact (continues_busStep s T L).trans (continues_replied _ r)
  | mirror T L r q _ => exact { (continues_busStep s T L).trans (continues_replied _ r) with }
  | detected T u bcc r _ _ => exact (continues_installed s T u bcc).trans (continues_replied _ r)
  | booted T done r _ =>
    have lineUp : Continues s s.lineUp := { Continues.refl s with trace := List.prefix_append _ _ }
    exact { (lineUp.trans (continues_busStep s.lineUp T [])).trans (continues_replied _ r) with log := List.prefix_refl _ }
  | cycled present _ _ => exact (continues_runCycle present s).trans (continues_acknowledge _)
  | started _ _ | flagged | subscribed _ | ended _ _ => exact { continues_acknowledge s with }

/-- Settles O14: a step is an instruction, a sleep slice or nothing, and each of them extends the histories. -/
theorem historiesGrow : Obligations.HistoriesGrow := by
  intro s t hstep
  rcases step_next hstep with ⟨i, rest, a, hexec⟩ | ⟨rest, ms, hw, rfl⟩ | ⟨rest, rfl⟩
  · exact { (exec_did hexec).continues with }
  · exact { continues_sleepSlice { s with port := rest } hw with }
  · exact { Continues.refl s with }

end Sys2Proof.Machine
end

section
/-!
SUPPORT. Generations (spec/10_state.md R32): a session is one that was there before, or it is of a later generation than any
before it. Hence a handle that is not valid stays so.
-/

namespace Sys2Proof.Machine

/-- The counter does not fall, and a session of `t` has the UID and generation of the session of `s`, or a generation that
`s` has not reached. -/
structure Ages (s t : State) : Prop where
  gen_le : s.gen ≤ t.gen
  kept_or_new : ∀ q, t.session = some q → (∃ p, s.session = some p ∧ p.uid = q.uid ∧ p.gen = q.gen) ∨ s.gen < q.gen

theorem Ages.refl (s : State) : Ages s s := ⟨Nat.le_refl _, fun q hq => .inl ⟨q, hq, rfl, rfl⟩⟩

theorem Ages.trans {s t u : State} (h : Ages s t) (k : Ages t u) : Ages s u where
  gen_le := h.gen_le.trans k.gen_le
  kept_or_new q hq := by
    rcases k.kept_or_new q hq with ⟨p, hp, huid, hgen⟩ | hnew
    · rw [← huid, ← hgen]
      exact h.kept_or_new p hp
    · exact .inr (h.gen_le.trans_lt hnew)

/-- What ages keeps a stale handle stale, if its generation had been reached (R32). -/
theorem Ages.stale {s t : State} (ha : Ages s t) {h : Handle} (hgen : h.gen ≤ s.gen) (hs : s.sessionOf h = none) :
    t.sessionOf h = none := by
  refine Option.eq_none_iff_forall_ne_some.mpr fun q hq => ?_
  obtain ⟨hq, huid, hqgen⟩ := sessionOf_some.mp hq
  rcases ha.kept_or_new q hq with ⟨p, hp, hpuid, hpgen⟩ | hnew
  · have : s.sessionOf h = some p := sessionOf_some.mpr ⟨hp, hpuid.trans huid, hpgen.trans hqgen⟩
    rw [hs] at this
    cases this
  · omega

/-- The crypto mirror is no part of a session's name (R31, R32). -/
theorem ages_mirrored (s : State) (active : Bool) : Ages s (s.mirrored active) where
  gen_le := Nat.le_refl _
  kept_or_new q hq := by
    obtain ⟨p, hp, rfl⟩ := Option.map_eq_some_iff.mp hq
    exact .inl ⟨p, hp, rfl, rfl⟩

/-- Installation keeps the session or takes the next generation (R226). -/
theorem ages_installed (c : Cfg) (s : State) (u : Uid) (bcc : Byte) : Ages s (State.installed c s u bcc) := by
  rcases installed_cases c s u bcc with ⟨-, heq⟩ | ⟨-, heq⟩ <;> rw [heq]
  · exact Ages.refl s
  · refine ⟨Nat.le_succ _, ?_⟩
    rintro q ⟨⟩
    exact .inr (Nat.lt_succ_self _)

/-- A removal leaves no session (R321 c). -/
theorem ages_departed (s : State) (u : Uid) : Ages s (s.departed u) where
  gen_le := by
    show s.gen ≤ if s.session.isSome then s.gen + 1 else s.gen
    split <;> omega
  kept_or_new := by rintro q ⟨⟩

theorem CycleLeft.ages {c : Cfg} {s t : State} {present : Option Uid} (hc : CycleLeft c s present t) : Ages s t := by
  have cardInstalled : ∀ T u bcc, Ages s (State.installed c (s.ran T) u bcc) := fun T u bcc =>
    { ages_installed c (s.ran T) u bcc with }
  cases hc with
  | detectFailed _ _ _ | stillAbsent _ => exact { Ages.refl s with }
  | removed T u => exact { ages_departed (s.ran T) u with }
  | stillPresent T u bcc _ => exact { cardInstalled T u bcc with }
  | arrived _ T U u bcc _ _ =>
    exact { (cardInstalled T u bcc).trans (ages_mirrored (State.installed c (s.ran T) u bcc) false) with }
  | arrivalFailed _ T U u bcc _ _ _ => exact { cardInstalled T u bcc with }

theorem Did.ages {s t : State} (hd : Did s t) : Ages s t := by
  cases hd with
  | mirror T L r q hq =>
    rcases hq with rfl | rfl | rfl
    · exact { Ages.refl s with }
    · exact { ages_mirrored s true with }
    · exact { ages_mirrored s false with }
  | detected T u bcc r _ _ => exact { ages_installed Config.cfg (s.ran T) u bcc with }
  | cycled present _ _ => exact { (runCycle_left present s).ages with }
  | bus _ _ _ | booted _ _ _ _ | started _ _ | flagged | subscribed _ | ended _ _ => exact { Ages.refl s with }

theorem ages_sleepSlice (s : State) {ms : Nat} (hw : s.monitor.worker = .sleeping ms) :
    Ages s (sleepSlice Config.cfg s) := by
  rcases sleepSlice_cases Config.cfg hw with heq | heq | ⟨d, left, heq⟩ <;> rw [heq] <;> exact { Ages.refl s with }

/-- Settles O15: only DETECT and a poll cycle replace the session, and a new session takes a generation of its own. -/
theorem staleForever : Obligations.StaleForever := by
  intro s t h hstep hgen hs
  have ages : Ages s t := by
    rcases step_next hstep with ⟨i, rest, a, hexec⟩ | ⟨rest, ms, hw, rfl⟩ | ⟨rest, rfl⟩
    · exact { (exec_did hexec).ages with }
    · exact { ages_sleepSlice { s with port := rest } hw with }
    · exact { Ages.refl s with }
  exact ⟨ages.stale hgen hs, hgen.trans ages.gen_le⟩

end Sys2Proof.Machine
end

section
/-!
SUPPORT. The frames of the instructions that use the bus only and of those that write the crypto mirror beside it.
-/

namespace Sys2Proof.Machine

/-- Settles O16: such an instruction is a top-level operation whose only effects are transactions and CRC log entries. -/
theorem busOnlyFrame : Obligations.BusOnlyFrame := by
  intro i s t hbus hexec
  obtain ⟨n, op, heffects, hop⟩ := exec_busOnly hbus hexec
  obtain ⟨T, L, r, ht, -, -, hL, -⟩ := topLevel_ends heffects hop
  exact ⟨T, L, r, ht, hL⟩

/-- Settles O17: such an instruction is a top-level operation that changes nothing but bus, log and mirror. -/
theorem mirrorFrame : Obligations.MirrorFrame := by
  intro i s t hmirrors hexec
  obtain ⟨op, hmirrored, -, hop⟩ := exec_mirrored hmirrors hexec
  obtain ⟨-, rfl⟩ := topLevel_next hop
  obtain ⟨T, L, q, hend, hL, hq⟩ := hmirrored s.locked
  obtain ⟨r, hfinish⟩ := finish_eq (op s.locked)
  exact ⟨T, L, r, q, by rw [hfinish, hend]; rfl, hL, hq⟩

end Sys2Proof.Machine
end

section
/-!
SUPPORT. The history of every instruction and the registers it reaches (spec/20_memory.md R62, R75), and CRC16 as a request
with the environment's CRC_A (spec/20_memory.md R72, R73, spec/43_crc_engine.md R195).
-/

namespace Sys2Proof.Machine

/-- Every instruction adds its own transactions to the history, whatever the environment answers. -/
theorem exec_instrEntries {i : Instr} {s t : State} (h : exec i s = .next t) :
    ∃ T, t.trace = s.trace ++ T ∧ ∀ e ∈ T, instrEntry i e := by
  by_cases hc : i = .monitorCycle
  · subst hc
    obtain ⟨-, -, -, ⟨-, rfl⟩ | ⟨present, -, -, rfl⟩⟩ := execMonitorCycle_next h
    · exact ⟨[], by simp, by simp⟩
    · obtain ⟨T, htrace, hmap, -⟩ := runCycle_ends present s
      exact ⟨T, by simpa using htrace, fun e he _ => hmap e he⟩
  · rcases exec_traced hc h with ⟨op, htraced, hop⟩ | ⟨m, rfl⟩
    · obtain ⟨T, -, htrace, hentry, -⟩ := topLevel_traced htraced hop
      exact ⟨T, htrace, hentry⟩
    · exact ⟨[], by simp, by simp⟩

/-- Settles O13: the history fixes an instruction's transactions, and those of an own operation name registers of the map. -/
theorem ownRegistersOnly : Obligations.OwnRegistersOnly := by
  intro i s t T hraw hexec htrace e he
  obtain ⟨U, hU, hentry⟩ := exec_instrEntries hexec
  obtain rfl : T = U := List.append_cancel_left (htrace.symm.trans hU)
  exact hentry e he hraw

/-- CRC16 as a request, its answers given: it returns the two result bytes, whatever they are (R190, R193). -/
theorem exec_crc16_answered {bytes : List Byte} {x : CrcRun} {s : State} (hp : bytes.length ≤ 64)
    (hi : s.initialised = true) (hl : s.lock = none) (hx : x.polledOk Config.cfg = true)
    (h : s.Answers (x.trace Config.cfg bytes)) :
    exec (.crc16 bytes) s =
      .next ((s.busStep (x.trace Config.cfg bytes) (x.logged bytes)).replied (.ok (.crc x.lo x.hi))) := by
  have hlocked : s.locked.Answers (x.trace Config.cfg bytes) := h
  show execCrc16 bytes s = _
  rw [execCrc16_ready hp hi hl, op_bind_ok (crc16_answered hx hlocked), op_pure, finish_ok, replied_busStep_locked]

/-- Under E4 no exhausted budget is logged (R193). -/
theorem CrcRun.finished.logged {x : CrcRun} (hf : x.finished) (bytes : List Byte) : x.logged bytes = [] := by
  obtain ⟨v, hv⟩ := Option.isSome_iff_exists.mp hf
  simp [CrcRun.logged, hv]

/-- Settles O30: the four checks compute, and a calculation whose answers are given returns the bytes that E5 says are CRC_A. -/
theorem crcA_correct : Obligations.CrcA := by
  refine ⟨by decide +kernel, by decide +kernel, by decide +kernel, by decide +kernel, ?_⟩
  intro bytes x s hp hi hl hx hfinished hcrc h
  have hbytes : (x.lo, x.hi) = crcA bytes := hcrc
  rw [exec_crc16_answered hp hi hl hx h, hfinished.logged, ← State.ran_eq_busStep, ← hbytes]

end Sys2Proof.Machine
end

section
/-!
SUPPORT. What the decoder's parts accept and what they make of it (spec/30_encoding.md R90 to R92, R96, R97, R110).
-/

namespace Sys2Proof

/-! ## Operand values -/

theorem u8OfInt_eq_none {z : Int} (h : z < 0 ∨ 256 ≤ z) : u8OfInt z = none := if_neg (by omega)

theorem framingOfInt_of_le {f : Nat} (h : f ≤ 7) : framingOfInt f = some f := if_pos (by omega)

theorem framingOfInt_eq_none {z : Int} (h : z < 0 ∨ 8 ≤ z) : framingOfInt z = none := if_neg (by omega)

/-- A `framing` operand is the number it gives, and in range. -/
theorem framingOfInt_some {z : Int} {f : Nat} (h : framingOfInt z = some f) : f ≤ 7 ∧ z = f := by
  obtain ⟨hz, hf⟩ := Option.ite_none_right_eq_some.mp h
  cases hf
  omega

theorem frameCommand_of_isFrame {cmd : ChipCommand} (h : cmd.isFrame = true) : frameCommand cmd = some cmd := if_pos h

/-- A `cmd` operand is a frame command, and the command it gives. -/
theorem frameCommand_some {cmd cmd' : ChipCommand} (h : frameCommand cmd = some cmd') :
    cmd'.isFrame = true ∧ cmd = cmd' := by
  obtain ⟨hframe, hcmd⟩ := Option.ite_none_right_eq_some.mp h
  cases hcmd
  exact ⟨hframe, rfl⟩

theorem Instr.transceive_wf_iff {cmd : ChipCommand} {payload : List Byte} {framing : Nat} :
    Instr.wf (.transceive cmd payload framing) = true ↔ cmd.isFrame = true ∧ framing ≤ 7 := by
  simp [Instr.wf, framingOk]

/-! ## The three formats of a request -/

theorem decode_host_ok {op : Byte} {operands : List Operand} {i : Instr} :
    decode (.host op operands) = .ok i ↔ ∃ o, HostOp.ofCode op = some o ∧ decodeHost o operands = some i := by
  cases hop : HostOp.ofCode op with
  | none => simp [decode, hop]
  | some o => cases hi : decodeHost o operands <;> simp [decode, hop, hi]

theorem decode_chipCommand_ok {code : Byte} {i : Instr} :
    decode (.chipCommand code) = .ok i ↔ decodeChipCommand code = some i := by
  cases hi : decodeChipCommand code <;> simp [decode, hi]

theorem decode_cardFrame_ok {body : List Byte} {i : Instr} :
    decode (.cardFrame body) = .ok i ↔ decodeFrame body = some i := by
  cases hi : decodeFrame body <;> simp [decode, hi]

theorem decode_hostRequest {o : HostOp} {operands : List Operand} {i : Instr} (h : decodeHost o operands = some i) :
    decode (hostRequest o operands) = .ok i :=
  decode_host_ok.mpr ⟨o, HostOp.ofCode_code o, h⟩

theorem decode_host_reserved {op : Byte} {operands : List Operand} (h : HostOp.ofCode op = none) :
    decode (.host op operands) = .error (.reservedOp op) := by
  simp [decode, h]

theorem decode_host_illTyped {o : HostOp} {operands : List Operand} (h : decodeHost o operands = none) :
    decode (.host o.code operands) = .error (.illTypedOperands o.code) := by
  simp [decode, h]

/-- An `op` that is the code of no row of R91 is reserved. -/
theorem HostOp.ofCode_eq_none {op : Byte} (h : op ∉ HostOp.all.map HostOp.code) : HostOp.ofCode op = none := by
  refine List.find?_eq_none.mpr fun o ho hcode => h ?_
  exact List.mem_map.mpr ⟨o, ho, by simpa using hcode⟩

/-- Operands that decode are as many as the operation takes (R91). -/
theorem decodeHost_arity {o : HostOp} {operands : List Operand} {i : Instr} (h : decodeHost o operands = some i) :
    operands.length ∈ o.arities := by
  unfold decodeHost at h
  split at h
  -- The last pattern, which gives no instruction.
  case h_26 => cases h
  all_goals simp [HostOp.arities]

/-! ## Decoding an encoded instruction -/

theorem decodeHost_authOperands (h : Handle) (b : Int) (mode : Byte) (key : Option Key) :
    decodeHost .authenticate (authOperands h b mode key) = some (.authenticate h b mode key) := by
  cases key <;> simp [authOperands, decodeHost, Operand.ofByte]

theorem decodeHost_transceive {cmd : ChipCommand} {payload : List Byte} {framing : Nat} (hc : cmd.isFrame = true)
    (hf : framing ≤ 7) :
    decodeHost .transceive [.cmd cmd, .bytes payload, .int framing] = some (.transceive cmd payload framing) := by
  simp [decodeHost, frameCommand_of_isFrame hc, framingOfInt_of_le hf]

/-- The code WRITE begins no frame of one length, so a write frame whose data has such a length is no other frame. -/
theorem decodeFixedFrame_write (b : Byte) (data : List Byte) :
    decodeFixedFrame (Config.cfg.cardCmd.write :: b :: data) = none := by
  unfold decodeFixedFrame
  split
  case h_1 heq => cases heq
  case h_2 heq => cases heq; rfl
  case h_3 heq => cases heq; rfl
  case h_4 heq => cases heq; rfl
  case h_5 => rfl

theorem decodeFrame_write (b : Byte) (data : List Byte) :
    decodeFrame (Config.cfg.cardCmd.write :: b :: data) = some (.frameWrite b data) := by
  rw [decodeFrame, decodeFixedFrame_write]
  rfl

/-! ## Encoding a decoded instruction -/

/-- The instruction has operands of the types of R91, is no pseudo-request, and the request is the one that asks for it. -/
structure Instr.AskedBy (i : Instr) (r : Request) : Prop where
  wf : i.wf = true
  core : i.core = i
  encode : encode i = r

theorem decodeHost_askedBy {o : HostOp} {operands : List Operand} {i : Instr} (h : decodeHost o operands = some i) :
    i.AskedBy (hostRequest o operands) := by
  unfold decodeHost at h
  split at h
  -- REG_WRITE, SET_BITS, CLEAR_BITS, REQUEST, and AUTHENTICATE without a key: one operand is a byte.
  case h_2 | h_3 | h_4 | h_7 | h_11 =>
    obtain ⟨v, hv, rfl⟩ := Option.map_eq_some_iff.mp h
    obtain rfl := eq_toNat_of_u8OfInt hv
    exact ⟨rfl, rfl, rfl⟩
  -- TRANSCEIVE.
  case h_5 =>
    obtain ⟨cmd', hcmd, h⟩ := Option.bind_eq_some_iff.mp h
    obtain ⟨framing, hf, rfl⟩ := Option.map_eq_some_iff.mp h
    obtain ⟨hframe, rfl⟩ := frameCommand_some hcmd
    obtain ⟨hle, rfl⟩ := framingOfInt_some hf
    exact ⟨Instr.transceive_wf_iff.mpr ⟨hframe, hle⟩, rfl, rfl⟩
  -- AUTHENTICATE with a key.
  case h_12 =>
    obtain ⟨v, hv, h⟩ := Option.bind_eq_some_iff.mp h
    obtain ⟨k, hk, rfl⟩ := Option.map_eq_some_iff.mp h
    obtain rfl := eq_toNat_of_u8OfInt hv
    obtain rfl := eq_toList_of_keyOfBytes hk
    exact ⟨rfl, rfl, rfl⟩
  -- The last pattern, which gives no instruction.
  case h_26 => cases h
  all_goals cases h; exact ⟨rfl, rfl, rfl⟩

theorem decodeChipCommand_askedBy {code : Byte} {i : Instr} (h : decodeChipCommand code = some i) :
    i.AskedBy (.chipCommand code) := by
  unfold decodeChipCommand at h
  split_ifs at h with hidle hcrc htransceive hauthent
  all_goals cases h; subst code; exact ⟨rfl, rfl, rfl⟩

theorem decodeRequestFrame_askedBy {mode : Byte} {i : Instr} (h : decodeRequestFrame mode = some i) :
    i.AskedBy (.cardFrame [mode]) := by
  unfold decodeRequestFrame at h
  split_ifs at h with hreqa hwupa
  all_goals cases h; subst mode; exact ⟨rfl, rfl, rfl⟩

theorem decodeShortFrame_askedBy {x b : Byte} {i : Instr} (h : decodeShortFrame x b = some i) :
    i.AskedBy (.cardFrame [x, b]) := by
  unfold decodeShortFrame at h
  split_ifs at h with hanticoll hread
  · cases h; rw [hanticoll]; exact ⟨rfl, rfl, rfl⟩
  · cases h; subst x; exact ⟨rfl, rfl, rfl⟩

theorem decodeSelectFrame_askedBy {x nvb bcc : Byte} {u : Uid} {i : Instr} (h : decodeSelectFrame x nvb u bcc = some i) :
    i.AskedBy (.cardFrame ([x, nvb] ++ u.toList ++ [bcc])) := by
  obtain ⟨⟨rfl, rfl⟩, hi⟩ := Option.ite_none_right_eq_some.mp h
  cases hi
  exact ⟨rfl, rfl, rfl⟩

theorem decodeAuthFrame_askedBy {x b : Byte} {k : Key} {u : Uid} {i : Instr} (h : decodeAuthFrame x b k u = some i) :
    i.AskedBy (.cardFrame ([x, b] ++ k.toList ++ u.toList)) := by
  unfold decodeAuthFrame at h
  split_ifs at h with hA hB
  all_goals cases h; subst x; exact ⟨rfl, rfl, rfl⟩

theorem decodeWriteFrame_askedBy {body : List Byte} {i : Instr} (h : decodeWriteFrame body = some i) :
    i.AskedBy (.cardFrame body) := by
  unfold decodeWriteFrame at h
  split at h
  · obtain ⟨rfl, hi⟩ := Option.ite_none_right_eq_some.mp h
    cases hi
    exact ⟨rfl, rfl, rfl⟩
  · cases h

theorem decodeFixedFrame_askedBy {body : List Byte} {i : Instr} (h : decodeFixedFrame body = some i) :
    i.AskedBy (.cardFrame body) := by
  unfold decodeFixedFrame at h
  split at h
  · exact decodeRequestFrame_askedBy h
  · exact decodeShortFrame_askedBy h
  · exact decodeSelectFrame_askedBy h
  · exact decodeAuthFrame_askedBy h
  · cases h

theorem decodeFrame_askedBy {body : List Byte} {i : Instr} (h : decodeFrame body = some i) :
    i.AskedBy (.cardFrame body) := by
  rcases Option.or_eq_some_iff.mp h with hfixed | ⟨-, hwrite⟩
  · exact decodeFixedFrame_askedBy hfixed
  · exact decodeWriteFrame_askedBy hwrite

theorem decode_askedBy {r : Request} {i : Instr} (h : decode r = .ok i) : i.AskedBy r := by
  cases r with
  | host op operands =>
    obtain ⟨o, hop, hi⟩ := decode_host_ok.mp h
    rw [← HostOp.code_of_ofCode hop]
    exact decodeHost_askedBy hi
  | chipCommand code => exact decodeChipCommand_askedBy (decode_chipCommand_ok.mp h)
  | cardFrame body => exact decodeFrame_askedBy (decode_cardFrame_ok.mp h)

end Sys2Proof
end

section
/-!
SUPPORT. Decoding and encoding are inverse, and the tables' own requests (spec/30_encoding.md R90 to R93, R96, R97, R110).
-/

namespace Sys2Proof

/-- Settles O4: what takes a byte, a frame command or an optional key decodes by its operands' lemmas, a write frame is no
frame of one length, and every other request computes. -/
theorem decodeEncode : Obligations.DecodeEncode := by
  intro i hwf
  cases i
  case regWrite | setBits | clearBits | request => exact decode_hostRequest (by simp [decodeHost, Operand.ofByte, Instr.core])
  case transceive cmd payload framing =>
    obtain ⟨hc, hf⟩ := Instr.transceive_wf_iff.mp hwf
    exact decode_hostRequest (decodeHost_transceive hc hf)
  case authenticate h b mode key => exact decode_hostRequest (decodeHost_authOperands h b mode key)
  case authA h b => exact decode_hostRequest (decodeHost_authOperands h b _ none)
  case authB h b => exact decode_hostRequest (decodeHost_authOperands h b _ none)
  case frameWrite b data => exact decode_cardFrame_ok.mpr (decodeFrame_write b data)
  all_goals rfl

/-- Settles O5: each part of the decoder gives an instruction asked for by exactly the bytes or operands it read. -/
theorem encodeDecode : Obligations.EncodeDecode := by
  intro r i hdecode
  obtain ⟨hwf, hcore, hencode⟩ := decode_askedBy hdecode
  exact ⟨hwf, hcore, hencode⟩

/-- Settles O6: each request is the one `encode` writes for its instruction, so it decodes to it. -/
theorem specWordsDecode : Obligations.SpecWordsDecode :=
  ⟨decodeEncode (.regWrite 0x0D 0x87#8) rfl, decodeEncode (.transceive .transceive [0x26#8] 7) rfl,
    decodeEncode (.crc16 [0x30#8, 0x00#8]) rfl, decodeEncode (.authenticate _ 4 0x60#8 none) rfl,
    decodeEncode (.writeInt32 _ 4 12 (-1)) rfl, decodeEncode (.subscribe 5) rfl, decodeEncode .cmdTransceive rfl,
    decodeEncode .frameAnticoll rfl, decodeEncode (.frameSelect ⟨0xDE#8, 0xAD#8, 0xBE#8, 0xEF#8⟩ 0x22#8) rfl,
    decodeEncode (.frameAuthB 0x04#8 ⟨1#8, 2#8, 3#8, 4#8, 5#8, 6#8⟩ ⟨0xDE#8, 0xAD#8, 0xBE#8, 0xEF#8⟩) rfl⟩

end Sys2Proof
end

section
/-!
SUPPORT. A step whose first move is a request of the host, or a turn of the worker (spec/30_encoding.md R90, R92, R115,
spec/70_reset_and_hazards.md R401).
-/

namespace Sys2Proof.Machine

theorem step_host_ok {s : State} {n : Nat} {req : Request} {rest : List Move} {i : Instr}
    (hport : s.port = .host n req :: rest) (h : decode req = .ok i) :
    step s = exec i { s with port := rest, agent := .host n } := by
  simp [step, fetch, hport, h]

theorem step_host_error {s : State} {n : Nat} {req : Request} {rest : List Move} {why : DecodeError}
    (hport : s.port = .host n req :: rest) (h : decode req = .error why) : step s = .refused (.undecodable why) := by
  simp [step, fetch, hport, h]

/-- With no move left, or with a turn of the worker first, the step is the worker's. -/
theorem fetch_worker {s : State} {rest : List Move} (hport : (s.port = [] ∧ rest = []) ∨ s.port = .worker :: rest) :
    fetch s = workerTurn { s with port := rest } := by
  rcases hport with ⟨hnil, rfl⟩ | hturn
  · simp only [fetch, hnil]
    rw [← hnil]
  · simp only [fetch, hturn]

/-- Operands that do not decode are refused (R92). -/
theorem step_host_illTyped {s : State} {n : Nat} {o : HostOp} {operands : List Operand} {rest : List Move}
    (hport : s.port = .host n (.host o.code operands) :: rest) (h : decodeHost o operands = none) :
    step s = .refused (.undecodable (.illTypedOperands o.code)) :=
  step_host_error hport (decode_host_illTyped h)

/-- Settles O8: a step takes the port's first move, or the worker's turn. -/
theorem stepRunsDecoded : Obligations.StepRunsDecoded := by
  refine ⟨fun s n req rest i hport hdecode => step_host_ok hport hdecode, fun s rest hport => ?_⟩
  have hfetch := fetch_worker hport
  refine ⟨fun hw => ?_, fun ms hw => ?_, fun hw => ?_⟩ <;> simp only [step, hfetch, workerTurn, hw]

/-- Settles O7: such a request does not decode, but MONITOR_CYCLE does and is refused for its caller, and READ_BLOCK with any
block does. -/
theorem illegalRequests : Obligations.IllegalRequests := by
  refine ⟨fun s n op operands rest hport hop => ?_, fun s n o operands rest hport hcount => ?_,
    fun s n cmd payload framing rest hport hbad => ?_, fun s n a v op rest hop hport hv => ?_,
    fun s n rest hport => ?_, fun h b => ?_⟩
  · exact step_host_error hport (decode_host_reserved (HostOp.ofCode_eq_none hop))
  · refine step_host_illTyped hport (Option.eq_none_iff_forall_ne_some.mpr fun i hi => ?_)
    exact hcount (decodeHost_arity hi)
  · refine step_host_illTyped (o := .transceive) hport ?_
    rcases hbad with rfl | rfl | hframing
    · rfl
    · rfl
    · simp [decodeHost, framingOfInt_eq_none hframing]
  · have hnone := u8OfInt_eq_none hv
    rcases hop with rfl | rfl | rfl
    · exact step_host_illTyped (o := .regWrite) hport (by simp [decodeHost, hnone])
    · exact step_host_illTyped (o := .setBits) hport (by simp [decodeHost, hnone])
    · exact step_host_illTyped (o := .clearBits) hport (by simp [decodeHost, hnone])
  · exact step_host_ok hport (i := .monitorCycle) rfl
  · exact decodeEncode (.readBlock h b) rfl

end Sys2Proof.Machine
end

section
/-!
SUPPORT. The chip commands as requests (spec/30_encoding.md R96).
-/

namespace Sys2Proof.Machine

theorem writeCommand_answered {c : Cfg} {cmd : ChipCommand} {s : State}
    (h : s.Answers [.write c.regMap.cmd (c.chipCode cmd)]) :
    writeCommand c cmd s = .ok .unit (s.ran [.write c.regMap.cmd (c.chipCode cmd)]) :=
  op_bind_ok (regWrite_answered h)

/-- A command write as a request, its transaction answered. -/
theorem topLevel_writeCommand {c : Cfg} {cmd : ChipCommand} {s : State} (hl : s.lock = none)
    (h : s.Answers [.write c.regMap.cmd (c.chipCode cmd)]) :
    topLevel (writeCommand c cmd) s =
      .next ((s.ran [.write c.regMap.cmd (c.chipCode cmd)]).replied (.ok .unit)) := by
  have hlocked : s.locked.Answers [.write c.regMap.cmd (c.chipCode cmd)] := h
  rw [topLevel_free hl, writeCommand_answered hlocked, finish_ok, replied_ran_locked]

/-- Settles O20: the four commands share one write, of the code of `Config.cfg`. -/
theorem chipCommands : Obligations.ChipCommands := by
  intro i code s hrow hl h
  simp only [List.mem_cons, Prod.mk.injEq, List.not_mem_nil, or_false] at hrow
  rcases hrow with ⟨rfl, rfl⟩ | ⟨rfl, rfl⟩ | ⟨rfl, rfl⟩ | ⟨rfl, rfl⟩
  · exact topLevel_writeCommand (c := Config.cfg) (cmd := .idle) hl h
  · exact topLevel_writeCommand (c := Config.cfg) (cmd := .calcCRC) hl h
  · exact topLevel_writeCommand (c := Config.cfg) (cmd := .transceive) hl h
  · exact topLevel_writeCommand (c := Config.cfg) (cmd := .authent) hl h

end Sys2Proof.Machine
end

section
/-!
SUPPORT. REG_READ, REG_WRITE, SET_BITS and CLEAR_BITS as requests: one address check, then the bus operation on the register it
names (spec/41_register_bus.md R130 to R133).
-/

namespace Sys2Proof.Machine

/-! ## A request that checks its register address first -/

/-- An address out of range ends the request before any transaction (R130, R361). -/
theorem topLevel_checkAddr_rejected {op : Addr → Op ResultValue} {a : Int} {s : State} (hl : s.lock = none)
    (ha : a < 0 ∨ 63 < a) :
    topLevel (checkAddr a >>= op) s = .next (s.replied (raised (.invalidArgument .regAddress))) := by
  have hbad : ¬(0 ≤ a ∧ a ≤ 63) := by omega
  rw [topLevel_free hl, op_bind_error (checkAddr_bad hbad)]
  rfl

theorem topLevel_checkAddr_returned {op : Addr → Op ResultValue} {a : Int} {v : ResultValue} {T : List TraceEntry} {s : State}
    (hl : s.lock = none) (ha : 0 ≤ a ∧ a ≤ 63) (h : op (BitVec.ofNat 6 a.toNat) s.locked = .ok v (s.locked.ran T)) :
    topLevel (checkAddr a >>= op) s = .next ((s.ran T).replied (.ok v)) := by
  rw [topLevel_free hl, op_bind_ok (checkAddr_ok ha), h, finish_ok, replied_ran_locked]

theorem topLevel_checkAddr_raised {op : Addr → Op ResultValue} {a : Int} {e : Cause} {T : List TraceEntry} {s : State}
    (hl : s.lock = none) (ha : 0 ≤ a ∧ a ≤ 63)
    (h : op (BitVec.ofNat 6 a.toNat) s.locked = .error { cause := e, mark := .none } (s.locked.ran T)) :
    topLevel (checkAddr a >>= op) s = .next ((s.ran T).replied (raised e)) := by
  rw [topLevel_free hl, op_bind_ok (checkAddr_ok ha), h, finish_error, replied_ran_locked, raised]

/-! ## The four requests have that shape -/

theorem exec_regRead (a : Int) (s : State) :
    exec (.regRead a) s = topLevel (checkAddr a >>= fun r => regRead Config.cfg r >>= fun v => pure (.byte v)) s := rfl

theorem exec_regWrite (a : Int) (v : Byte) (s : State) :
    exec (.regWrite a v) s = topLevel (checkAddr a >>= fun r => regWrite Config.cfg r v >>= fun _ => pure .unit) s := rfl

theorem exec_setBits (a : Int) (m : Byte) (s : State) :
    exec (.setBits a m) s = topLevel (checkAddr a >>= fun r => setBits Config.cfg r m >>= fun _ => pure .unit) s := rfl

theorem exec_clearBits (a : Int) (m : Byte) (s : State) :
    exec (.clearBits a m) s = topLevel (checkAddr a >>= fun r => clearBits Config.cfg r m >>= fun _ => pure .unit) s := rfl

/-- The environment's answers do not depend on who holds the lock. -/
theorem State.Answers.locked {s : State} {T : List TraceEntry} (h : s.Answers T) : s.locked.Answers T :=
  State.answers_congr rfl rfl rfl h

/-! ## The obligations -/

/-- Settles O18: past the address check the request is its one transaction, answered or failed. -/
theorem registerAccess : Obligations.RegisterAccess := by
  refine ⟨fun a s v hl h0 h63 h => ?_, fun a s v hl h0 h63 h => ?_, fun a s v i hi hl ha => ?_,
    fun a s v i hi hl h0 h63 h => ?_⟩
  · rw [exec_regRead]
    exact topLevel_checkAddr_returned hl ⟨h0, h63⟩ (op_bind_ok (regRead_answered h.locked))
  · rw [exec_regWrite]
    exact topLevel_checkAddr_returned hl ⟨h0, h63⟩ (op_bind_ok (regWrite_answered h.locked))
  · rcases hi with rfl | rfl
    · rw [exec_regRead]
      exact topLevel_checkAddr_rejected hl ha
    · rw [exec_regWrite]
      exact topLevel_checkAddr_rejected hl ha
  · rcases hi with rfl | rfl
    · rw [exec_regRead]
      exact topLevel_checkAddr_raised hl ⟨h0, h63⟩ (op_bind_error (regRead_failed rfl h.locked))
    · rw [exec_regWrite]
      exact topLevel_checkAddr_raised hl ⟨h0, h63⟩ (op_bind_error (regWrite_failed rfl h.locked))

/-- Settles O19: past the address check the request is a read and the write of the updated byte; the first of them to fail is
its last. -/
theorem bitUpdates : Obligations.BitUpdates := by
  refine ⟨fun a s v m hl h0 h63 h => ?_, fun a s v m hl h0 h63 h => ?_, fun a s m i hi hl ha => ?_,
    fun a s m i hi hl h0 h63 h => ?_, fun a s v m i hi hl h0 h63 h => ?_⟩
  · rw [exec_setBits]
    exact topLevel_checkAddr_returned hl ⟨h0, h63⟩ (op_bind_ok (setBits_answered h.locked))
  · rw [exec_clearBits]
    exact topLevel_checkAddr_returned hl ⟨h0, h63⟩ (op_bind_ok (clearBits_answered h.locked))
  · rcases hi with rfl | rfl
    · rw [exec_setBits]
      exact topLevel_checkAddr_rejected hl ha
    · rw [exec_clearBits]
      exact topLevel_checkAddr_rejected hl ha
  · rcases hi with rfl | rfl
    · rw [exec_setBits]
      exact topLevel_checkAddr_raised hl ⟨h0, h63⟩ (op_bind_error (setBits_readFailed rfl h.locked))
    · rw [exec_clearBits]
      exact topLevel_checkAddr_raised hl ⟨h0, h63⟩ (op_bind_error (clearBits_readFailed rfl h.locked))
  · rcases hi with rfl | rfl
    · rw [exec_setBits]
      exact topLevel_checkAddr_raised hl ⟨h0, h63⟩ (op_bind_error (setBits_writeFailed rfl h.locked))
    · rw [exec_clearBits]
      exact topLevel_checkAddr_raised hl ⟨h0, h63⟩ (op_bind_error (clearBits_writeFailed rfl h.locked))

end Sys2Proof.Machine
end

section
/-!
SUPPORT. TRANSCEIVE as a request: past its checks it ends as its exchange does, and so does an instruction whose frame raises
(spec/42_frame_transceiver.md R150 to R161, spec/60_exceptions.md R360).
-/

namespace Sys2Proof.Machine

/-! ## The request, its exchange given -/

section
variable {cmd : ChipCommand} {payload : List Byte} {framing : Nat} {T : List TraceEntry} {s : State}

theorem exec_transceive_returned {r : Response} (hc : cmd = .transceive ∨ cmd = .authent) (hf : framing ≤ 7)
    (hp : payload.length ≤ 64) (hi : s.initialised = true) (hl : s.lock = none)
    (h : transceive Config.cfg cmd payload framing s.locked = .ok r (s.locked.ran T)) :
    exec (.transceive cmd payload framing) s = .next ((s.ran T).replied (.ok (.response r))) := by
  show execTransceive cmd payload framing s = _
  rw [execTransceive_ready hc hf hp hi hl, op_bind_ok h, op_pure, finish_ok, replied_ran_locked]

theorem exec_transceive_raised {e : Cause} (hc : cmd = .transceive ∨ cmd = .authent) (hf : framing ≤ 7)
    (hp : payload.length ≤ 64) (hi : s.initialised = true) (hl : s.lock = none)
    (h : transceive Config.cfg cmd payload framing s.locked = .error { cause := e, mark := .none } (s.locked.ran T)) :
    exec (.transceive cmd payload framing) s = .next ((s.ran T).replied (raised e)) := by
  show execTransceive cmd payload framing s = _
  rw [execTransceive_ready hc hf hp hi hl, op_bind_error h, finish_error, replied_ran_locked, raised]

end

/-! ## A frame that raises inside another instruction -/

/-- Wherever the environment answers `T`, this frame performs `T` and raises `e`. -/
def FrameRaises (cmd : ChipCommand) (payload : List Byte) (framing : Nat) (T : List TraceEntry) (e : Cause) : Prop :=
  ∀ u : State, u.Answers T →
    transceive Config.cfg cmd payload framing u = .error { cause := e, mark := .none } (u.ran T)

/-- A frame whose poll budget is used up (R156). -/
theorem frameRaises_timeout {cmd : ChipCommand} {polls : List Byte} (hn : polls.length = Config.cfg.trxBudget)
    (hd : noneDone Config.cfg cmd polls = true) (x : Exchange) (payload : List Byte) (framing : Nat) :
    FrameRaises cmd payload framing (x.timeoutTrace Config.cfg cmd payload framing polls)
      (.timeout (polls.getLastD 0#8) Config.cfg.trxBudget) := fun _ h =>
  transceive_timeout hd hn h

theorem frameFailed_iff (v : Byte) : frameFailed Config.cfg v = true ↔ v &&& 0x1B#8 ≠ 0#8 := bne_iff_ne

/-- A frame whose error register shows a bit of the mask (R158). -/
theorem frameRaises_frameError {cmd : ChipCommand} {x : Exchange} (hp : x.polledOk Config.cfg cmd = true)
    (he : x.errv &&& 0x1B#8 ≠ 0#8) (payload : List Byte) (framing : Nat) :
    FrameRaises cmd payload framing (x.errorTrace Config.cfg cmd payload framing) (.frameError x.errv) := fun _ h =>
  transceive_frameError hp ((frameFailed_iff x.errv).mpr he) h

/-- What the frame an instruction opens with raises is its result, and nothing is done after it (R360). -/
theorem exec_opening_raised {i : Instr} {f : Opening} {crc : CrcRun} {T : List TraceEntry} {e : Cause} {s : State}
    (ho : s.opening i = some f) (hi : s.initialised = true) (hl : s.lock = none) (hp : f.polledOk Config.cfg crc = true)
    (ha : s.Answers (f.before Config.cfg crc ++ T)) (hraise : FrameRaises f.cmd (f.frame crc) f.framing T e) :
    exec i s = .next (State.replied
      (State.busStep { s with session := s.openingSession i } (f.before Config.cfg crc ++ T) (f.logged crc)) (raised e)) := by
  obtain ⟨hbefore, hT⟩ := (State.answers_append s _ T).mp ha
  rw [opening_raises ho hi hl hp hbefore (hraise _ (State.answers_congr rfl rfl rfl hT)), State.busStep_ran]
  rfl

/-- What the anti-collision frame of DETECT raises is DETECT's result (R225, R360). -/
theorem exec_detect_anticoll_raised {req : Exchange} {T : List TraceEntry} {e : Cause} {s : State}
    (hi : s.initialised = true) (hl : s.lock = none) (hreq : req.completes Config.cfg .transceive = true)
    (hstatus : (req.response Config.cfg .transceive).status = .ok) (hbits : (req.response Config.cfg .transceive).bits = 16)
    (ha : s.Answers (req.trace Config.cfg .transceive [0x26#8] 7 ++ T))
    (hraise : FrameRaises .transceive [0x93#8, 0x20#8] 0 T e) :
    exec .detect s =
      .next (State.replied (s.ran (req.trace Config.cfg .transceive [0x26#8] 7 ++ T)) (raised e)) := by
  obtain ⟨hfirst, hsecond⟩ := (State.answers_append s.locked _ T).mp ha.locked
  have answered : okBits 16 (req.response Config.cfg .transceive) = true := by simp [okBits, hstatus, hbits]
  have hrequest := (request_answered (mode := Config.cfg.reqMode) hreq hfirst).trans (if_pos answered)
  have hanticoll := hraise _ hsecond
  rw [← State.ran_append] at hanticoll
  have hdetect : detect Config.cfg s.locked = .error { cause := e, mark := .none }
      (s.locked.ran (req.trace Config.cfg .transceive [0x26#8] 7 ++ T)) :=
    (op_bind_ok hrequest).trans (op_bind_error (op_bind_error hanticoll))
  exact (cardOperation_raised hi hl (op_bind_error hdetect)).trans rfl

/-! ## The obligations -/

/-- Settles O21: past the request's checks the exchange is the one the environment answers. -/
theorem transceiveResult : Obligations.TransceiveResult := by
  intro cmd payload framing x s hc hf hp hi hl hx h
  exact exec_transceive_returned hc hf hp hi hl (transceive_answered hx h.locked)

/-- Settles O22: the frame raises Timeout wherever it is sent, and what it raises surfaces from TRANSCEIVE, from an
instruction it opens, and from DETECT. -/
theorem transceiveTimeout : Obligations.TransceiveTimeout := by
  refine ⟨fun cmd payload framing x polls s hc hf hp hi hl hn hd h => ?_,
    fun i f crc x polls s ho hi hl hp hn hd h => ?_, fun req x polls s hi hl hreq hstatus hbits hn hd h => ?_⟩
  · exact exec_transceive_raised hc hf hp hi hl (frameRaises_timeout hn hd x payload framing _ h.locked)
  · exact exec_opening_raised ho hi hl hp h (frameRaises_timeout hn hd x _ _)
  · exact exec_detect_anticoll_raised hi hl hreq hstatus hbits h (frameRaises_timeout hn hd x _ _)

/-- Settles O23: as for O22 where a bit of the mask is set; where none is, the exchange completes and TRANSCEIVE returns its
Response. -/
theorem transceiveFrameError : Obligations.TransceiveFrameError := by
  refine ⟨fun cmd payload framing x s hc hf hp hi hl hpoll => ⟨fun he h => ?_, fun he hbytes h => ?_⟩,
    fun i f crc x s ho hi hl hp hpoll he h => ?_, fun req x s hi hl hreq hstatus hbits hpoll he h => ?_⟩
  · exact exec_transceive_raised hc hf hp hi hl (frameRaises_frameError hpoll he payload framing _ h.locked)
  · have noError : frameFailed Config.cfg x.errv = false :=
      Bool.eq_false_iff.mpr fun hfail => (frameFailed_iff x.errv).mp hfail he
    have drained : (cmd != .transceive || decide (x.bytes.length = drainCount Config.cfg x.level.toNat)) = true := by
      simpa [or_iff_not_imp_left] using hbytes
    have completes : x.completes Config.cfg cmd = true := by simp [Exchange.completes, hpoll, noError, drained]
    exact exec_transceive_returned hc hf hp hi hl (transceive_answered completes h.locked)
  · exact exec_opening_raised ho hi hl hp h (frameRaises_frameError hpoll he _ _)
  · exact exec_detect_anticoll_raised hi hl hreq hstatus hbits h (frameRaises_frameError hpoll he _ _)

end Sys2Proof.Machine
end

section
/-!
SUPPORT. How many transactions an exchange has (spec/42_frame_transceiver.md R166).
-/

namespace Sys2Proof.Machine

variable (x : Exchange) (c : Cfg) (payload : List Byte) (framing : Nat)

/-! ## The parts of an exchange -/

@[simp] theorem clearTrace_length (a : Addr) (v m : Byte) : (clearTrace a v m).length = 2 := rfl

@[simp] theorem setTrace_length (a : Addr) (v m : Byte) : (setTrace a v m).length = 2 := rfl

@[simp] theorem pollTrace_length (values : List Byte) : (pollTrace c values).length = values.length :=
  List.length_map _

/-- Only Transceive starts send (R154). -/
theorem Exchange.sent_length (cmd : ChipCommand) :
    (x.sent c cmd payload framing).length = 8 + payload.length + if cmd = .transceive then 2 else 0 := by
  unfold Exchange.sent
  split
  · simp
    omega
  · simp
    omega

@[simp] theorem Exchange.checked_length : (x.checked c).length = 3 := rfl

/-- Only Transceive reads a response (R161). -/
theorem Exchange.collected_length (cmd : ChipCommand) :
    (x.collected c cmd).length = if cmd = .transceive then 2 + x.bytes.length else 0 := by
  unfold Exchange.collected
  split
  · simp
    omega
  · rfl

/-! ## The three ends of an exchange -/

theorem Exchange.errorTrace_length (cmd : ChipCommand) :
    (x.errorTrace c cmd payload framing).length =
      (x.sent c cmd payload framing).length + (x.waits.length + 1) + 3 := by
  simp [Exchange.errorTrace, Nat.add_assoc]

theorem Exchange.trace_length (cmd : ChipCommand) :
    (x.trace c cmd payload framing).length =
      (x.errorTrace c cmd payload framing).length + (x.collected c cmd).length :=
  List.length_append

theorem Exchange.timeoutTrace_length (cmd : ChipCommand) (polls : List Byte) :
    (x.timeoutTrace c cmd payload framing polls).length =
      (x.sent c cmd payload framing).length + polls.length + 2 := by
  simp [Exchange.timeoutTrace, Nat.add_assoc]

/-- Settles O24: the counts are sums over an exchange's parts, and the bound holds of every end of the request. -/
theorem transceiveCounts : Obligations.TransceiveCounts := by
  refine ⟨fun payload framing x polls => ?_, fun cmd payload framing s t hexec => ?_⟩
  · simp only [Exchange.trace_length, Exchange.errorTrace_length, Exchange.timeoutTrace_length,
      Exchange.sent_length, Exchange.collected_length, reduceCtorEq, if_true, if_false]
    omega
  · obtain ⟨-, T, r, hT, rfl, -⟩ := execTransceive_ends hexec
    exact ⟨T, rfl, hT⟩

end Sys2Proof.Machine
end

section
/-!
SUPPORT. The Response of TRANSCEIVE as a request, whatever the environment answers (spec/42_frame_transceiver.md R160 to R165).
-/

namespace Sys2Proof.Machine

/-- A request that answered a Response ran a completed exchange, and the Response is the exchange's (R150). -/
theorem exec_transceive_response {cmd : ChipCommand} {payload : List Byte} {framing : Nat} {r : Response} {s t : State}
    (hexec : exec (.transceive cmd payload framing) s = .next t)
    (hresult : t.results = s.results ++ [{ caller := s.agent, result := .ok (.response r) }]) :
    ∃ x : Exchange, x.completes Config.cfg cmd = true ∧ r = x.response Config.cfg cmd ∧
      t.trace = s.trace ++ x.trace Config.cfg cmd payload framing := by
  obtain ⟨-, T, r', -, rfl, hresponse⟩ := execTransceive_ends hexec
  obtain rfl : r' = .ok (.response r) := by simpa using hresult
  obtain ⟨x, hx, hr, rfl⟩ := hresponse r rfl
  exact ⟨x, hx, hr, rfl⟩

/-- A completed Transceive drains as many bytes as the clamp says (R164). -/
theorem Exchange.bytes_length_of_completes {x : Exchange} {c : Cfg} (hx : x.completes c .transceive = true) :
    x.bytes.length = drainCount c x.level.toNat := by
  simp only [Exchange.completes, Bool.and_eq_true] at hx
  simpa using hx.2

/-! ## The bit count, case by case (R165) -/

theorem bitCount_zero (k : Nat) : bitCount 0 k = 8 := rfl

theorem bitCount_whole {n : Nat} (hn : n ≠ 0) : bitCount n 0 = n * 8 := by simp [bitCount, hn]

theorem bitCount_partial {n k : Nat} (hn : n ≠ 0) (hk : k ≠ 0) : bitCount n k = (n - 1) * 8 + k := by
  simp [bitCount, hn, hk]

/-- Settles O25: the Response is that of a completed exchange, whose last reads are level, last-byte count and drain. -/
theorem responseShape : Obligations.ResponseShape := by
  intro payload framing r s t hexec hresult
  obtain ⟨x, hx, rfl, htrace⟩ := exec_transceive_response hexec hresult
  have drained : x.bytes.length = min (max x.level.toNat 1) Config.cfg.maxLen := Exchange.bytes_length_of_completes hx
  refine ⟨x.errorTrace Config.cfg .transceive payload framing, x.level, x.control, ?_, drained, fun hzero => ?_,
    fun hlevel hwhole => ?_, fun hlevel hpartial => ?_⟩
  · rw [htrace, List.append_assoc, List.append_assoc]
    rfl
  · have level : x.level.toNat = 0 := congrArg BitVec.toNat hzero
    refine ⟨drained.trans (by rw [level]; rfl), ?_⟩
    show bitCount x.level.toNat _ = 8
    rw [level, bitCount_zero]
  · have lastBits : x.control &&& Config.cfg.bits.rxLastBits = 0#8 := not_not.mp hwhole
    show bitCount x.level.toNat (x.control &&& Config.cfg.bits.rxLastBits).toNat = _
    rw [lastBits]
    exact bitCount_whole (BitVec.toNat_ne.mp hlevel)
  · exact bitCount_partial (BitVec.toNat_ne.mp hlevel) (BitVec.toNat_ne.mp hpartial)

/-! ## The status -/

theorem frameStatus_eq_noTag (c : Cfg) (irqEn irq : Byte) :
    frameStatus c irqEn irq = .noTag ↔ irq &&& irqEn &&& c.bits.irqNoTag ≠ 0#8 := by
  simp [frameStatus, anyBit]

/-- Settles O27: the status is R160's mask test, which the mask of Authent never passes. -/
theorem responseStatus : Obligations.ResponseStatus := by
  refine ⟨fun x => frameStatus_eq_noTag Config.cfg 0x77#8 x.irq, fun payload framing r s t hexec hresult => ?_⟩
  obtain ⟨x, -, rfl, -⟩ := exec_transceive_response hexec hresult
  show ({ status := x.status Config.cfg .authent, bytes := [], bits := 0 } : Response) = _
  rw [authent_status]

end Sys2Proof.Machine
end

section
/-!
SUPPORT. CRC16 as a request: its transactions, its result and its log entry (spec/43_crc_engine.md R191 to R194).
-/

namespace Sys2Proof.Machine

/-- The done bit is seen exactly where it is set in the register's byte (R192). -/
theorem crcDone_iff (c : Cfg) (div : Byte) : crcDone c div = true ↔ div &&& c.bits.divCrc ≠ 0#8 := bne_iff_ne

theorem not_crcDone (c : Cfg) (div : Byte) : (!crcDone c div) = (div &&& c.bits.divCrc == 0#8) := Bool.not_not _

/-- A poll without the done bit until one within the budget, or to the budget's end, is a poll of R192. -/
theorem CrcRun.polledOk_of_bits {x : CrcRun} {c : Cfg}
    (hwaits : x.waits.all (fun v => (v &&& c.bits.divCrc) == 0#8) = true)
    (hseen : ∀ v, x.done = some v → v &&& c.bits.divCrc ≠ 0#8 ∧ x.waits.length < c.crcBudget)
    (hlost : x.done = none → x.waits.length = c.crcBudget) : x.polledOk c = true := by
  simp only [CrcRun.polledOk, not_crcDone, hwaits, Bool.true_and]
  cases hdone : x.done with
  | some v =>
    obtain ⟨hbit, hbudget⟩ := hseen v hdone
    simp [(crcDone_iff c v).mpr hbit, hbudget]
  | none => simp [hlost hdone]

/-- The log entry is that of an exhausted budget (R193). -/
theorem CrcRun.logged_eq_ite (x : CrcRun) (bytes : List Byte) :
    x.logged bytes = if x.done = none then [.crcBudgetExhausted bytes] else [] := by
  cases hdone : x.done <;> simp [CrcRun.logged, hdone]

/-- Settles O28: the bits polled make a poll of R192, whose request returns the two result bytes and logs R193's entry. -/
theorem crcResult : Obligations.CrcResult := by
  intro bytes x s hlength hi hl hwaits hseen hlost hanswers
  have hpolled : x.polledOk Config.cfg = true := CrcRun.polledOk_of_bits hwaits hseen hlost
  rw [exec_crc16_answered hlength hi hl hpolled hanswers, CrcRun.logged_eq_ite]

end Sys2Proof.Machine
end

section
/-!
SUPPORT. Card operations as requests: a body that is one operation and its result, and the argument checks that end one before
any transaction (spec/44_protocol_controller.md R210, R211).
-/

namespace Sys2Proof.Machine

/-! ## A request whose body is one operation and its result -/

/-- Only what the body does under the lock matters. -/
theorem cardOperation_congr {op op' : Op ResultValue} {s : State} (h : op s.locked = op' s.locked) :
    cardOperation op s = cardOperation op' s := by
  simp only [cardOperation, topLevel, h]

theorem cardOperation_completed {α : Type} {m : Op α} {f : α → ResultValue} {a : α} {s t : State}
    (hi : s.initialised = true) (hl : s.lock = none) (h : m s.locked = .ok a t) :
    cardOperation (m >>= fun a => pure (f a)) s = .next (t.replied (.ok (f a))) :=
  cardOperation_returned hi hl (op_bind_ok h)

theorem cardOperation_failed {α : Type} {m : Op α} {f : α → ResultValue} {e : Cause} {s t : State}
    (hi : s.initialised = true) (hl : s.lock = none) (h : m s.locked = .error { cause := e, mark := .none } t) :
    cardOperation (m >>= fun a => pure (f a)) s = .next (t.replied (raised e)) :=
  cardOperation_raised hi hl (op_bind_error h)

/-- An operation that ends by one check `P` is a request whose result that check decides. -/
theorem cardOperation_judged {α : Type} {m : Op α} {f : α → ResultValue} {a : α} {e : Cause} {P Q : Prop} [Decidable P]
    [Decidable Q] {s t : State} (hPQ : P ↔ Q) (hi : s.initialised = true) (hl : s.lock = none)
    (h : m s.locked = if P then .ok a t else .error { cause := e, mark := .none } t) :
    cardOperation (m >>= fun a => pure (f a)) s = .next (t.replied (if Q then .ok (f a) else raised e)) := by
  by_cases hP : P
  · rw [if_pos hP] at h
    rw [if_pos (hPQ.mp hP)]
    exact cardOperation_completed hi hl h
  · rw [if_neg hP] at h
    rw [if_neg (mt hPQ.mpr hP)]
    exact cardOperation_failed hi hl h

/-! ## Argument checks that fail -/

/-- The operation ends in `s` with InvalidArgument, before any transaction (R361). -/
def Rejects (reason : ArgReason) {α : Type} (m : Op α) (s : State) : Prop :=
  m s = .error { cause := .invalidArgument reason, mark := .none } s

theorem Rejects.bind {reason : ArgReason} {α β : Type} {m : Op α} {f : α → Op β} {s : State} (h : Rejects reason m s) :
    Rejects reason (m >>= f) s := op_bind_error h

theorem rejects_checkCard {h : Handle} {s : State} (hs : s.sessionOf h = none) : Rejects .staleCard (checkCard h) s :=
  checkCard_stale hs

/-- With a valid handle the block is checked next (R210). -/
theorem rejects_checkBlock {β : Type} {h : Handle} {b : Int} {f : Session → Byte → Op β} {s : State}
    (hs : s.sessionOf h ≠ none) (hb : b < 0 ∨ 64 ≤ b) :
    Rejects .blockRange (checkCard h >>= fun q => checkBlock Config.cfg b >>= f q) s := by
  obtain ⟨q, hq⟩ := Option.ne_none_iff_exists'.mp hs
  have hbad : ¬(0 ≤ b ∧ b < (64 : Nat)) := by omega
  exact (op_bind_ok (checkCard_held (sessionOf_some.mp hq))).trans (op_bind_error (checkBlock_bad hbad))

/-- An instruction with a handle that is not valid ends before any transaction (R211). -/
theorem exec_staleCard {i : Instr} {h : Handle} {s : State} (hh : i.checkedHandle = some h) (hi : s.initialised = true)
    (hl : s.lock = none) (hs : s.sessionOf h = none) :
    exec i s = .next (s.replied (raised (.invalidArgument .staleCard))) := by
  have hcard : Rejects .staleCard (checkCard h) s.locked := rejects_checkCard hs
  cases i <;> cases hh
  case readStr b => exact cardOperation_rejected hi hl hcard.bind.bind.bind
  all_goals exact cardOperation_rejected hi hl hcard.bind.bind

/-- An instruction with a valid handle and a block out of range ends before any transaction (R210). -/
theorem exec_blockRange {i : Instr} {h : Handle} {b : Int} {s : State} (hh : i.checkedHandle = some h)
    (hb : i.checkedBlock = some b) (hi : s.initialised = true) (hl : s.lock = none) (hs : s.sessionOf h ≠ none)
    (hbad : b < 0 ∨ 64 ≤ b) : exec i s = .next (s.replied (raised (.invalidArgument .blockRange))) := by
  cases i <;> cases hh <;> cases hb
  case readStr => exact cardOperation_rejected hi hl (rejects_checkBlock (s := s.locked) hs hbad).bind.bind
  all_goals exact cardOperation_rejected hi hl (rejects_checkBlock (s := s.locked) hs hbad).bind

/-- Settles O44: the instructions with a handle check it first, and those with a block check that next. -/
theorem handleAndBlockChecks : Obligations.HandleAndBlockChecks := by
  intro i h s hh hi hl
  exact ⟨exec_staleCard hh hi hl, fun b hs hb hbad => exec_blockRange hh hb hi hl hs hbad⟩

end Sys2Proof.Machine
end

section
/-!
SUPPORT. Response lengths: the bit counts the protocol checks fix the byte count (spec/44_protocol_controller.md R214).
-/

namespace Sys2Proof.Machine

/-- Two or more whole bytes: no other level and last-byte count give their bit count. -/
theorem bitCount_eq_whole_iff {n k m : Nat} (hk : k ≤ 7) (hm : 2 ≤ m) : bitCount n k = m * 8 ↔ n = m ∧ k = 0 := by
  unfold bitCount
  split_ifs <;> omega

theorem bitCount_eq_four_iff {n k : Nat} (hk : k ≤ 7) : bitCount n k = 4 ↔ n = 1 ∧ k = 4 := by
  unfold bitCount
  split_ifs <;> omega

/-- The family's mask leaves at most 7 bits (R101). -/
theorem lastBits_le (control : Byte) : (control &&& Config.cfg.bits.rxLastBits).toNat ≤ 7 := by
  rw [BitVec.toNat_and]
  exact Nat.and_le_right

/-- Settles O26: bits and bytes of a Response come from one FIFO level and one last-byte count. -/
theorem responseLengths : Obligations.ResponseLengths := by
  refine ⟨fun n k hk => ⟨bitCount_eq_whole_iff (m := 2) hk (by omega), bitCount_eq_whole_iff (m := 3) hk (by omega),
    bitCount_eq_whole_iff (m := 5) hk (by omega), bitCount_eq_four_iff hk⟩,
    fun payload framing r s t hexec hresult => ?_⟩
  obtain ⟨x, hx, rfl, -⟩ := exec_transceive_response hexec hresult
  have hk := lastBits_le x.control
  have bytes : ∀ {n : Nat}, x.level.toNat = n → (x.response Config.cfg .transceive).bytes.length = min (max n 1) 16 := by
    rintro _ rfl
    exact Exchange.bytes_length_of_completes hx
  exact ⟨fun h => bytes ((bitCount_eq_whole_iff (m := 2) hk (by omega)).mp h).1,
    fun h => bytes ((bitCount_eq_whole_iff (m := 3) hk (by omega)).mp h).1,
    fun h => bytes ((bitCount_eq_whole_iff (m := 5) hk (by omega)).mp h).1,
    fun h => bytes ((bitCount_eq_four_iff hk).mp h).1⟩

end Sys2Proof.Machine
end

section
/-!
SUPPORT. REQUEST, GET_UID and DETECT as requests (spec/44_protocol_controller.md R215 to R226).
-/

namespace Sys2Proof.Machine

theorem okBits_iff (n : Nat) (r : Response) : okBits n r = true ↔ r.status = .ok ∧ r.bits = n := by
  simp [okBits]

/-! ## REQUEST -/

/-- The instructions that send the request frame are that exchange (R215, R93, R110). -/
theorem exec_requestMode {i : Instr} {mode : Byte} (hm : i.requestMode = some mode) (s : State) :
    exec i s = cardOperation (request Config.cfg mode >>= fun r => pure (.response r)) s := by
  cases i
  case request | reqa | wupa | frameReqa | frameWupa => cases hm; rfl
  all_goals cases hm

/-- Settles O31: the exchange is judged by its status and its 16 bits. -/
theorem requestResult : Obligations.RequestResult := by
  intro i mode x s hm hi hl hx h
  rw [exec_requestMode hm]
  exact (cardOperation_judged (okBits_iff 16 _) hi hl (request_answered hx h.locked)).trans rfl

/-! ## GET_UID -/

/-- GET_UID and CARD.ANTICOLL are the anti-collision exchange (R220, R110). -/
theorem exec_anticoll {i : Instr} (hi : i = .getUid ∨ i = .frameAnticoll) (s : State) :
    exec i s = cardOperation (getUid Config.cfg >>= fun u => pure (.uid u.1 u.2)) s := by
  rcases hi with rfl | rfl <;> rfl

/-- An anti-collision response of another length is no card, whatever its bytes (R220). -/
theorem exec_anticoll_noTag {i : Instr} {x : Exchange} {s : State} (hanti : i = .getUid ∨ i = .frameAnticoll)
    (hi : s.initialised = true) (hl : s.lock = none) (hx : x.completes Config.cfg .transceive = true)
    (h : s.Answers (x.trace Config.cfg .transceive [0x93#8, 0x20#8] 0))
    (hbits : okBits 40 (x.response Config.cfg .transceive) = false) :
    exec i s = .next ((s.ran (x.trace Config.cfg .transceive [0x93#8, 0x20#8] 0)).replied
      (raised (.noTagPresent (x.response Config.cfg .transceive)))) := by
  rw [exec_anticoll hanti]
  exact (cardOperation_failed hi hl
    ((getUid_answered hx h.locked).trans (if_neg (Bool.eq_false_iff.mp hbits)))).trans rfl

/-- An anti-collision response of 40 bits is judged by its checksum (R220). -/
theorem exec_anticoll_judged {i : Instr} {x : Exchange} {s : State} (hanti : i = .getUid ∨ i = .frameAnticoll)
    (hi : s.initialised = true) (hl : s.lock = none) (hx : x.completes Config.cfg .transceive = true)
    (h : s.Answers (x.trace Config.cfg .transceive [0x93#8, 0x20#8] 0))
    (hbits : okBits 40 (x.response Config.cfg .transceive) = true) :
    exec i s = .next ((s.ran (x.trace Config.cfg .transceive [0x93#8, 0x20#8] 0)).replied
      (if uidBcc (uidOf x.bytes) = byteAt x.bytes 4 then .ok (.uid (uidOf x.bytes) (byteAt x.bytes 4))
       else raised (.uidChecksumError x.bytes))) := by
  rw [exec_anticoll hanti]
  exact (cardOperation_judged (f := fun u => .uid u.1 u.2) Iff.rfl hi hl
    ((getUid_answered hx h.locked).trans (if_pos hbits))).trans rfl

/-- Settles O32: the length is judged first, then the checksum of the five bytes. -/
theorem getUidResult : Obligations.GetUidResult := by
  intro i x s hanti hi hl hx h
  refine ⟨fun hbad => ?_, fun u0 u1 u2 u3 bcc hstatus hbits hbytes => ?_⟩
  · refine exec_anticoll_noTag hanti hi hl hx h (Bool.eq_false_iff.mpr fun hok => ?_)
    obtain ⟨hstatus, hbits⟩ := (okBits_iff 40 _).mp hok
    rcases hbad with hnoTag | hlength
    · cases hstatus.symm.trans hnoTag
    · exact hlength hbits
  · rw [exec_anticoll_judged hanti hi hl hx h ((okBits_iff 40 _).mpr ⟨hstatus, hbits⟩), hbytes]
    rfl

/-- No valid UID response stays valid when one of its five bytes is changed (R221): the XOR changes with each byte. -/
theorem uidBcc_corrupted {u : Uid} {k : Nat} {v : Byte} (hk : k < 5)
    (hv : (u.toList ++ [uidBcc u])[k]? ≠ some v) :
    uidBcc (uidOf ((u.toList ++ [uidBcc u]).set k v)) ≠ byteAt ((u.toList ++ [uidBcc u]).set k v) 4 := by
  obtain ⟨u0, u1, u2, u3⟩ := u
  interval_cases k <;> simpa [Uid.toList, uidOf, uidBcc, byteAt, eq_comm] using hv

/-- Settles O33: the corrupted response has 40 bits and fails the checksum. -/
theorem uidChecksumLaw : Obligations.UidChecksumLaw := by
  intro x s u k v hi hl hx hstatus hbits hk hbytes hv h
  rw [exec_anticoll_judged (.inl rfl) hi hl hx h ((okBits_iff 40 _).mpr ⟨hstatus, hbits⟩), if_neg]
  rw [hbytes]
  exact uidBcc_corrupted hk hv

end Sys2Proof.Machine
end

section
/-!
SUPPORT. DETECT as a request, and the frames of DETECT and MONITOR_CYCLE (spec/44_protocol_controller.md R225, R226,
spec/46_presence_monitor.md R320, R335).
-/

namespace Sys2Proof.Machine

/-! ## The session and handle DETECT leaves -/

section
variable {s : State} {u : Uid}

/-- The card of the session keeps it. -/
theorem installed_of_same {q : Session} (c : Cfg) (bcc : Byte) (hq : s.session = some q) (hu : q.uid = u) :
    State.installed c s u bcc = s ∧ s.handleFor u = { uid := q.uid, gen := q.gen } := by
  simp [State.installed, State.handleFor, hq, hu, Option.filter]

/-- Another card, or the first, takes a session of the next generation. -/
theorem installed_of_other (c : Cfg) (bcc : Byte) (hne : ∀ q, s.session = some q → q.uid ≠ u) :
    State.installed c s u bcc =
      { s with
        gen := s.gen + 1
        session := some { uid := u, bcc := bcc, key := c.defaultKey, cryptoActive := false, gen := s.gen + 1 } } ∧
      s.handleFor u = { uid := u, gen := s.gen + 1 } := by
  have hnone : (s.session.filter fun q => q.uid == u) = none := by
    refine Option.eq_none_iff_forall_ne_some.mpr fun q hq => ?_
    obtain ⟨hq, hu⟩ := Option.filter_eq_some_iff.mp hq
    exact hne q hq (beq_iff_eq.mp hu)
  simp [State.installed, State.handleFor, hnone]

end

/-- Installation changes session and counter only. -/
theorem installed_eq_update (c : Cfg) (s : State) (u : Uid) (bcc : Byte) :
    State.installed c s u bcc =
      { s with session := (State.installed c s u bcc).session, gen := (State.installed c s u bcc).gen } := by
  rcases installed_cases c s u bcc with ⟨-, heq⟩ | ⟨-, heq⟩ <;> rw [heq]

/-- A handle of another UID than the session's is not valid (R32). -/
theorem sessionOf_of_other {t : State} {h : Handle} {q : Session} (hq : t.session = some q) (hu : h.uid ≠ q.uid) :
    t.sessionOf h = none := by
  refine Option.eq_none_iff_forall_ne_some.mpr fun p hp => ?_
  obtain ⟨hsession, huid, -⟩ := sessionOf_some.mp hp
  obtain rfl : p = q := Option.some.inj (hsession.symm.trans hq)
  exact hu huid.symm

/-! ## DETECT, its probe given -/

theorem exec_detect_found {p : Probe} {u : Uid} {bcc : Byte} {s : State} (hi : s.initialised = true) (hl : s.lock = none)
    (hp : p.completes Config.cfg = true) (h : s.Answers (p.trace Config.cfg)) (hcard : p.card Config.cfg = some (u, bcc)) :
    exec .detect s = .next ((State.installed Config.cfg (s.ran (p.trace Config.cfg)) u bcc).replied
      (.ok (.card ((s.ran (p.trace Config.cfg)).handleFor u)))) := by
  have hdetect := detect_answered hp h.locked
  simp only [hcard] at hdetect
  refine (cardOperation_completed (f := .card) hi hl hdetect).trans ?_
  rw [show s.locked.ran (p.trace Config.cfg) = { s.ran (p.trace Config.cfg) with lock := some s.agent } from rfl,
    installed_locked]
  rfl

theorem exec_detect_missing {p : Probe} {s : State} (hi : s.initialised = true) (hl : s.lock = none)
    (hp : p.completes Config.cfg = true) (h : s.Answers (p.trace Config.cfg)) (hcard : p.card Config.cfg = none) :
    exec .detect s = .next ((s.ran (p.trace Config.cfg)).replied (raised (p.missing Config.cfg))) := by
  have hdetect := detect_answered hp h.locked
  simp only [hcard] at hdetect
  exact (cardOperation_failed (f := .card) hi hl hdetect).trans rfl

/-- Settles O34: a probe that finds a card installs it, which keeps the session of its UID and replaces any other; one that
finds none raises what its failed check raises. -/
theorem detectResult : Obligations.DetectResult := by
  intro p s hi hl hp h
  refine ⟨fun u bcc q hcard hq hu => ?_, fun u bcc hcard hne => ?_,
    fun hcard => ⟨_, exec_detect_missing hi hl hp h hcard, ?_⟩⟩
  · obtain ⟨hinstalled, hhandle⟩ := installed_of_same (s := s.ran (p.trace Config.cfg)) Config.cfg bcc hq hu
    rw [exec_detect_found hi hl hp h hcard, hinstalled, hhandle]
  · obtain ⟨hinstalled, hhandle⟩ := installed_of_other (s := s.ran (p.trace Config.cfg)) Config.cfg bcc hne
    have hexec := exec_detect_found hi hl hp h hcard
    rw [hinstalled, hhandle] at hexec
    refine ⟨hexec, fun h' t ht hu => ?_⟩
    cases hexec.symm.trans ht
    exact sessionOf_of_other rfl hu
  · rcases missing_folded p Config.cfg with ⟨r, hr⟩ | ⟨bs, hbs⟩
    · exact .inl (by rw [hr]; rfl)
    · exact .inr (by rw [hbs]; rfl)

/-! ## DETECT, whatever the environment answers -/

/-- No error of DETECT carries a mark (R350). -/
theorem detect_error_mark {c : Cfg} {e : Err} {s t : State} (h : detect c s = .error e t) : e.mark = .none := by
  rcases raises_detect c _ _ _ h with ⟨-, hmark⟩ | ⟨r, rfl⟩ | ⟨bs, rfl⟩
  · exact hmark
  · rfl
  · rfl

/-- A failed DETECT leaves session and counter; one that succeeds returns the handle of the session it leaves. -/
theorem detect_frame {s t : State} (hexec : exec .detect s = .next t) :
    (∃ T e, t = (s.ran T).replied (raised e)) ∨
    (∃ T q g h, t = State.replied { s.ran T with session := q, gen := g } (.ok (.card h)) ∧ t.sessionOf h = q ∧
      q.isSome = true ∧ ((q = s.session ∧ g = s.gen) ∨ g = s.gen + 1)) := by
  obtain ⟨-, -, rfl⟩ := cardOperation_next hexec
  rcases detect_ends Config.cfg s.locked with ⟨T, e, u, hd, rfl, -⟩ | ⟨T, u, bcc, hd, -⟩
  · obtain ⟨cause, mark⟩ := e
    obtain rfl : mark = .none := detect_error_mark hd
    exact .inl ⟨T, cause, by rw [op_bind_error hd]; rfl⟩
  · obtain ⟨q, hholds, -⟩ := installed_holds Config.cfg (s.locked.ran T) u bcc
    have hsession : (State.installed Config.cfg (s.locked.ran T) u bcc).session = some q := hholds.1
    refine .inr ⟨T, some q, (State.installed Config.cfg (s.locked.ran T) u bcc).gen, s.handleFor u, ?_, ?_, rfl, ?_⟩
    · rw [op_bind_ok hd, op_pure, finish_ok, installed_eq_update, hsession]
      rfl
    · rw [op_bind_ok hd]
      exact sessionOf_some.mpr hholds
    · rcases installed_cases Config.cfg (s.locked.ran T) u bcc with ⟨-, heq⟩ | ⟨-, heq⟩
      · rw [heq] at hsession ⊢
        exact .inl ⟨hsession.symm, rfl⟩
      · rw [heq]
        exact .inr rfl

/-! ## MONITOR_CYCLE -/

/-- What a cycle leaves as it was, and that the events `E` reached the event list and every inbox alike. -/
structure Delivered (E : List Event) (s t : State) : Prop where
  line : t.line = s.line := by simp
  initialised : t.initialised = s.initialised := by simp
  labels : t.labels = s.labels := by simp
  port : t.port = s.port := by simp
  agent : t.agent = s.agent := by simp
  results : t.results = s.results := by simp
  stopFlag : t.monitor.stopFlag = s.monitor.stopFlag := by simp
  events : t.events = s.events ++ E := by simp
  inboxes : t.monitor.subscribers = s.monitor.subscribers.map fun q => { q with inbox := q.inbox ++ E } := by simp

/-- Every cycle delivers at most one event (R321, R335) and releases the lock. -/
theorem CycleLeft.delivered {c : Cfg} {s t : State} {present : Option Uid} (hc : CycleLeft c s present t) :
    t.lock = none ∧ ∃ E : List Event, E.length ≤ 1 ∧ Delivered E s t := by
  cases hc with
  | detectFailed _ T k => exact ⟨rfl, [], Nat.zero_le 1, {}⟩
  | stillAbsent T => exact ⟨rfl, [], Nat.zero_le 1, {}⟩
  | removed T u => exact ⟨rfl, [.removed u], Nat.le_refl 1, {}⟩
  | stillPresent T u bcc _ => exact ⟨rfl, [], Nat.zero_le 1, {}⟩
  | arrived _ T U u bcc _ _ => exact ⟨rfl, [.arrived u], Nat.le_refl 1, {}⟩
  | arrivalFailed _ T U u bcc _ _ k => exact ⟨rfl, [.arrived u], Nat.le_refl 1, {}⟩

/-- A MONITOR_CYCLE ends the worker on the stop flag, or runs the cycle; either way one result is recorded. -/
theorem monitorCycle_delivered {s t : State} (hexec : exec .monitorCycle s = .next t) :
    ∃ u : State, t = u.acknowledge ∧ u.lock = s.lock ∧ ∃ E : List Event, E.length ≤ 1 ∧ Delivered E s u := by
  obtain ⟨-, -, -, ⟨-, rfl⟩ | ⟨present, hready, -, rfl⟩⟩ := execMonitorCycle_next hexec
  · exact ⟨_, rfl, rfl, [], Nat.zero_le 1, {}⟩
  · obtain ⟨hlock, hdelivered⟩ := (runCycle_left present s).delivered
    exact ⟨_, rfl, hlock.trans hready.lock_eq.symm, hdelivered⟩

/-- Settles O35: DETECT by how it ends, MONITOR_CYCLE by what its cycle delivers. -/
theorem detectAndCycleFrame : Obligations.DetectAndCycleFrame := by
  refine ⟨fun s t hexec => detect_frame hexec, fun s t hexec => ?_⟩
  obtain ⟨u, rfl, hlock, E, hE, h⟩ := monitorCycle_delivered hexec
  exact ⟨h.line, h.initialised, hlock, h.labels, h.port, h.agent, h.stopFlag,
    by rw [State.acknowledge_results, h.results, h.agent], E, hE, h.events, h.inboxes⟩

end Sys2Proof.Machine
end

section
/-!
SUPPORT. SELECT, AUTHENTICATE and END_SESSION as requests (spec/44_protocol_controller.md R230 to R236, R250).
-/

namespace Sys2Proof.Machine

/-! ## SELECT -/

/-- CARD.SELECT, and SELECT with a valid handle, are the select exchange of the card named (R230, R110). -/
theorem exec_selects {i : Instr} {u : Uid} {bcc : Byte} {s : State}
    (hsel : i = .frameSelect u bcc ∨ ∃ h q, i = .select h ∧ s.holds h q ∧ q.uid = u ∧ q.bcc = bcc) :
    exec i s = cardOperation (selectExchange Config.cfg u bcc >>= fun sak => pure (.byte sak)) s := by
  rcases hsel with rfl | ⟨h, q, rfl, hq, rfl, rfl⟩
  · rfl
  · exact cardOperation_congr (op_bind_congr (op_bind_ok (checkCard_held (s := s.locked) hq)))

/-- Settles O36: the exchange is judged by its status and its 24 bits. -/
theorem selectResult : Obligations.SelectResult := by
  intro i u bcc x s hsel hi hl hx h
  rw [exec_selects hsel]
  exact (cardOperation_judged (okBits_iff 24 _) hi hl (selectExchange_answered hx h.locked)).trans rfl

/-! ## AUTHENTICATE -/

/-- AUTH_A and AUTH_B are AUTHENTICATE with their key mode and the session's key (R93). -/
theorem exec_authenticates {i : Instr} {h : Handle} {b : Int} {mode : Byte} {key : Option Key}
    (hauth : i = .authenticate h b mode key ∨ (i = .authA h b ∧ mode = 0x60#8 ∧ key = none) ∨
      (i = .authB h b ∧ mode = 0x61#8 ∧ key = none)) (s : State) :
    exec i s = cardOperation (authenticate Config.cfg h b mode key >>= fun _ => pure .unit) s := by
  rcases hauth with rfl | ⟨rfl, rfl, rfl⟩ | ⟨rfl, rfl, rfl⟩ <;> rfl

/-- CARD.AUTH_A and CARD.AUTH_B of a block in range are the authenticate exchange (R110). -/
theorem exec_authFrame {i : Instr} {b mode : Byte} {k : Key} {u : Uid} {s : State}
    (hframe : (i = .frameAuthA b k u ∧ mode = 0x60#8) ∨ (i = .frameAuthB b k u ∧ mode = 0x61#8)) (hb : b.toNat < 64) :
    exec i s = cardOperation (authExchange Config.cfg mode b k u >>= fun _ => pure .unit) s := by
  rcases hframe with ⟨rfl, rfl⟩ | ⟨rfl, rfl⟩ <;> exact cardOperation_congr (op_bind_ok (checkBlock_byte hb))

theorem withCrypto_of_holds {h : Handle} {q : Session} {s : State} (hq : s.holds h q) (active : Bool) :
    withCrypto s.session active = some { q with cryptoActive := active } := by
  rw [hq.1]
  rfl

/-- The crypto bit of a status byte is its bit 3 (R235, R101). -/
theorem cryptoOn_iff (st : Byte) : cryptoOn Config.cfg st = true ↔ st &&& 0x08#8 ≠ 0#8 := bne_iff_ne

/-- Settles O37: past its checks an authentication is one exchange, judged by the crypto bit; one with a handle mirrors it. -/
theorem authenticateResult : Obligations.AuthenticateResult := by
  refine ⟨fun i h b mode key q x st s hauth hi hl hq h0 h64 hx ha => ?_,
    fun i b mode k u x st s hframe hb hi hl hx ha => ?_⟩
  · have hrun := authenticate_answered (c := Config.cfg) (s := s.locked) hq ⟨h0, h64⟩ hx (authent_status x) ha.locked
    rw [exec_authenticates hauth, ← withCrypto_of_holds hq, ← withCrypto_of_holds hq]
    refine ⟨fun hopen => ?_, fun hclosed => ?_⟩
    · exact (cardOperation_completed (f := fun _ => .unit) hi hl (hrun.trans (if_pos hopen))).trans rfl
    · exact (cardOperation_failed hi hl (hrun.trans (if_neg hclosed))).trans rfl
  · rw [exec_authFrame hframe hb]
    exact (cardOperation_judged (f := fun _ => .unit) (cryptoOn_iff st) hi hl
      (authExchange_answered hx (authent_status x) ha.locked)).trans rfl

/-! ## The crypto mirror of AUTHENTICATE, whatever the environment answers -/

/-- Past its checks AUTHENTICATE clears the mirror, runs the exchange and sets the mirror last (R236). -/
theorem authenticate_held {c : Cfg} {h : Handle} {b : Int} {mode : Byte} {key : Option Key} {q : Session} {s : State}
    (hq : s.holds h q) (hb : 0 ≤ b ∧ b < c.blockCount) :
    authenticate c h b mode key s =
      (authExchange c mode (blockByte b) (key.getD q.key) q.uid >>= fun _ => setCrypto true) (s.mirrored false) := by
  show (checkCard h >>= fun q => checkBlock c b >>= fun blk => setCrypto false >>= fun _ =>
    authExchange c mode blk (key.getD q.key) q.uid >>= fun _ => setCrypto true) s = _
  rw [op_bind_ok (checkCard_held hq), op_bind_ok (checkBlock_ok hb)]
  exact op_bind_ok rfl

/-- Of two writes of the mirror the last counts. -/
theorem mirrored_ran_mirrored (s : State) (T : List TraceEntry) (a b : Bool) :
    ((s.mirrored a).ran T).mirrored b = (s.ran T).mirrored b := by
  unfold State.mirrored
  rw [State.ran_session, withCrypto_withCrypto]
  rfl

/-- Past its checks AUTHENTICATE leaves the mirror true where it returns and false where it raises (R236). -/
theorem authenticate_mirrors {c : Cfg} {h : Handle} {b : Int} {mode : Byte} {key : Option Key} {q : Session} {s : State}
    (hq : s.holds h q) (hb : 0 ≤ b ∧ b < c.blockCount) :
    ∃ T, (∀ e ∈ T, ownEntry c e) ∧
      (authenticate c h b mode key s = .ok () ((s.ran T).mirrored true) ∨
        ∃ e, authenticate c h b mode key s = .error e ((s.ran T).mirrored false)) := by
  rw [authenticate_held hq hb]
  obtain ⟨T, L, hend, -, hT, hL, -⟩ :=
    effects_authExchange (Q := noEntry) c mode (blockByte b) (key.getD q.key) q.uid (s.mirrored false)
  obtain rfl : L = [] := List.eq_nil_iff_forall_not_mem.mpr hL
  rw [← State.ran_eq_busStep] at hend
  refine ⟨T, hT, ?_⟩
  cases hrun : authExchange c mode (blockByte b) (key.getD q.key) q.uid (s.mirrored false) with
  | ok _ t =>
    obtain rfl : t = (s.mirrored false).ran T := by rw [← hend, hrun]; rfl
    exact .inl ((op_bind_ok hrun).trans (congrArg (EStateM.Result.ok ()) (mirrored_ran_mirrored s T false true)))
  | error e t =>
    obtain rfl : t = (s.mirrored false).ran T := by rw [← hend, hrun]; rfl
    exact .inr ⟨e, op_bind_error hrun⟩

/-- The block's exchanges do not write STATUS2, which holds the chip's crypto bit (R236). -/
theorem not_ownEntry_write_status2 (v : Byte) : ¬ownEntry Config.cfg (.write Config.cfg.regMap.status2 v) := by
  show Config.cfg.regMap.status2 ∉ _
  decide

/-- Past its checks AUTHENTICATE raises no argument error (R235). -/
theorem authenticate_not_invalidArgument {c : Cfg} {h : Handle} {b : Int} {mode : Byte} {key : Option Key} {q : Session}
    {e : Err} {s t : State} (hq : s.holds h q) (hb : 0 ≤ b ∧ b < c.blockCount)
    (hr : authenticate c h b mode key s = .error e t) (reason : ArgReason) : e.cause ≠ .invalidArgument reason := by
  intro hreason
  rcases raises_authenticate hq hb hr with ⟨hframe, -⟩ | ⟨why, rfl⟩
  · rw [hreason] at hframe
    cases hframe
  · cases hreason

/-- AUTHENTICATE as a request past its checks: the mirror says whether it returned (R236). -/
theorem exec_authenticate_held {h : Handle} {b : Int} {mode : Byte} {key : Option Key} {q : Session} {s t : State}
    (hq : s.holds h q) (hb : 0 ≤ b ∧ b < 64) (hexec : exec (.authenticate h b mode key) s = .next t) :
    ∃ T r, t = ((s.ran T).mirrored (decide (r = .ok .unit))).replied r ∧ (∀ e ∈ T, ownEntry Config.cfg e) ∧
      ∀ reason, r ≠ raised (.invalidArgument reason) := by
  obtain ⟨-, -, rfl⟩ := cardOperation_next hexec
  obtain ⟨T, hT, hrun | ⟨e, hrun⟩⟩ :=
    authenticate_mirrors (c := Config.cfg) (mode := mode) (key := key) (s := s.locked) hq hb
  · exact ⟨T, .ok .unit, by rw [op_bind_ok hrun]; rfl, hT, fun reason => by simp [raised]⟩
  · refine ⟨T, .err e, by rw [op_bind_error hrun]; rfl, hT, ?_⟩
    rintro reason ⟨⟩
    exact authenticate_not_invalidArgument (s := s.locked) hq hb hrun reason rfl

/-- Settles O38: past the checks the mirror says how the operation ended, and a check that fails changes nothing. -/
theorem authenticateMirror : Obligations.AuthenticateMirror := by
  intro h b mode key s t hexec
  refine ⟨fun q hq h0 h64 => ?_, fun reason hresult => ?_⟩
  · obtain ⟨T, r, rfl, hT, -⟩ := exec_authenticate_held hq ⟨h0, h64⟩ hexec
    exact ⟨T, r, rfl, fun v hv => not_ownEntry_write_status2 v (hT _ hv), rfl, withCrypto_of_holds hq _⟩
  · obtain ⟨hi, hl, -⟩ := cardOperation_next hexec
    have rejected : ∀ r, exec (.authenticate h b mode key) s = .next (s.replied r) → t.session = s.session := by
      intro r hr
      cases hexec.symm.trans hr
      rfl
    by_cases hs : s.sessionOf h = none
    · exact rejected _ (exec_staleCard rfl hi hl hs)
    by_cases hb : b < 0 ∨ 64 ≤ b
    · exact rejected _ (exec_blockRange rfl rfl hi hl hs hb)
    obtain ⟨q, hq⟩ := Option.ne_none_iff_exists'.mp hs
    obtain ⟨T, r, rfl, -, hr⟩ := exec_authenticate_held (sessionOf_some.mp hq) (by omega) hexec
    exact absurd (by simpa using hresult) (hr reason)

/-! ## END_SESSION -/

theorem exec_endSession (h : Handle) (s : State) :
    exec (.endSession h) s = cardOperation (endSession Config.cfg >>= fun _ => pure .unit) s := rfl

/-- Settles O43: the operation is CLEAR_BITS on STATUS2 and then the mirror, so a failed transaction leaves the mirror. -/
theorem endSession_correct : Obligations.EndSession := by
  rintro h v _ s hi hl rfl
  rw [exec_endSession]
  refine ⟨fun ha => ?_, fun ha => ?_, fun ha => ?_⟩
  · exact (cardOperation_completed (f := fun _ => .unit) hi hl (endSession_answered (s := s.locked) ha)).trans rfl
  · exact (cardOperation_failed hi hl (op_bind_error (clearBits_readFailed (s := s.locked) rfl ha))).trans rfl
  · exact (cardOperation_failed hi hl (op_bind_error (clearBits_writeFailed (s := s.locked) rfl ha))).trans rfl

end Sys2Proof.Machine
end

section
/-!
SUPPORT. READ_BLOCK and WRITE_BLOCK as requests (spec/44_protocol_controller.md R213, R240 to R247).
-/

namespace Sys2Proof.Machine

/-! ## READ_BLOCK -/

/-- CARD.READ of a block in range, and READ_BLOCK past its checks, are the read exchange (R240, R93, R110). -/
theorem exec_reads {i : Instr} {b : Byte} {s : State}
    (hread : (i = .frameRead b ∧ b.toNat < 64) ∨ ∃ h n q, (i = .readBlock h n ∨ i = .cardRead h n) ∧ s.holds h q ∧
      0 ≤ n ∧ n < 64 ∧ b = blockByte n) :
    exec i s = cardOperation (readExchange Config.cfg b >>= fun d => pure (.bytes d)) s := by
  rcases hread with ⟨rfl, hb⟩ | ⟨h, n, q, hi, hq, h0, h64, rfl⟩
  · exact cardOperation_congr (op_bind_ok (checkBlock_byte hb))
  · have hheld := readBlock_held (c := Config.cfg) (s := s.locked) hq ⟨h0, h64⟩
    rcases hi with rfl | rfl <;> exact cardOperation_congr (op_bind_congr hheld)

theorem readOk_iff (r : Response) : readOk Config.cfg r = true ↔ r.status = .ok ∧ r.bytes.length = 16 := by
  simp [readOk, show Config.cfg.blockSize = 16 from rfl]

/-- Settles O39: the exchange is judged by its status and its 16 bytes. -/
theorem readBlockResult : Obligations.ReadBlockResult := by
  intro i b x s hread hi hl hx h
  rw [exec_reads hread]
  exact (cardOperation_judged (readOk_iff _) hi hl (readExchange_answered hx h.locked)).trans rfl

/-! ## WRITE_BLOCK -/

/-- CARD.WRITE of a block in range, and WRITE_BLOCK past its checks, are the two write frames (R245, R93, R110). -/
theorem exec_writes {i : Instr} {b : Byte} {data : List Byte} {s : State}
    (hwrite : (i = .frameWrite b data ∧ b.toNat < 64) ∨ ∃ h n q, (i = .writeBlock h n data ∨ i = .cardWrite h n data) ∧
      s.holds h q ∧ 0 ≤ n ∧ n < 64 ∧ b = blockByte n) (hdata : data.length = 16) :
    exec i s = cardOperation (writeExchange Config.cfg b data >>= fun _ => pure .unit) s := by
  rcases hwrite with ⟨rfl, hb⟩ | ⟨h, n, q, hi, hq, h0, h64, rfl⟩
  · have hlength : checkData Config.cfg data s.locked = .ok () s.locked := ensure_true (decide_eq_true hdata)
    exact cardOperation_congr ((op_bind_ok (checkBlock_byte hb)).trans (op_bind_ok hlength))
  · have hheld := writeBlock_held (c := Config.cfg) (s := s.locked) hq ⟨h0, h64⟩ hdata
    rcases hi with rfl | rfl <;> exact cardOperation_congr (op_bind_congr hheld)

theorem ackOk_iff (r : Response) :
    ackOk Config.cfg r = true ↔ r.status = .ok ∧ r.bits = 4 ∧ byteAt r.bytes 0 &&& 0x0F#8 = 0x0A#8 := by
  simp [ackOk, and_assoc, show Config.cfg.ackNibble = 0x0A#8 from rfl]

/-- Settles O41: each frame is judged by its own acknowledge, the second sent only after the first's. -/
theorem writeBlockResult : Obligations.WriteBlockResult := by
  intro i b data x y s hwrite hdata hi hl hx
  rw [exec_writes hwrite hdata]
  refine ⟨fun hack hy h => ?_, fun hnack h => ?_⟩
  · exact (cardOperation_judged (f := fun _ => .unit) (ackOk_iff _) hi hl
      (writeExchange_answered hx hack hy h.locked)).trans rfl
  · exact (cardOperation_failed hi hl (writeExchange_refused hx hnack h.locked)).trans rfl

/-! ## Access without a crypto session -/

/-- Settles O40: under E6 the first frame fails its check, which READ_BLOCK and WRITE_BLOCK report. -/
theorem accessControl : Obligations.AccessControl := by
  intro h b q x s hi hl hq hclosed h0 h64 hx
  refine ⟨fun hcontrolled ha => ?_, fun data hdata hcontrolled ha => ?_⟩
  · rw [readBlockResult _ (blockByte b) x s (.inr ⟨h, b, q, .inl rfl, hq, h0, h64, rfl⟩) hi hl hx ha, if_neg]
    exact fun hread => absurd ((readOk_iff _).mpr hread) (by simp [hcontrolled hclosed])
  · exact (writeBlockResult _ (blockByte b) data x x s (.inr ⟨h, b, q, .inl rfl, hq, h0, h64, rfl⟩) hdata hi hl hx).2
      (hcontrolled hclosed) ha

/-! ## The mark of a frame-layer error -/

theorem markWrite_cause (isPartial : Bool) (e : Err) : (e.markWrite isPartial).cause = e.cause := by
  unfold Err.markWrite
  split <;> rfl

theorem markWrite_mark {isPartial : Bool} {e : Err} (hf : e.cause.isFrameLayer = true) :
    (e.markWrite isPartial).mark = .write isPartial := by
  simp [Err.markWrite, hf]

/-- What marking raises is the marked error of what was marked. -/
theorem markingWrite_raises {α : Type} {isPartial : Bool} {m : Op α} {e : Err} {s t : State}
    (h : markingWrite isPartial m s = .error e t) : ∃ e', m s = .error e' t ∧ e = e'.markWrite isPartial := by
  unfold markingWrite at h
  split at h
  · cases h
  · rename_i hm
    cases h
    exact ⟨_, hm, rfl⟩

theorem markingWrite_returns {α : Type} {isPartial : Bool} {m : Op α} {a : α} {s t : State}
    (h : markingWrite isPartial m s = .ok a t) : m s = .ok a t := by
  unfold markingWrite at h
  split at h
  · rename_i hm
    cases h
    exact hm
  · cases h

/-- The environment answers a first write frame that is acknowledged. -/
def State.acksFirstFrame (s : State) (b : Byte) : Prop :=
  ∃ x : Framed, x.completes Config.cfg = true ∧ ackOk Config.cfg (x.response Config.cfg) = true ∧
    s.Answers (x.trace Config.cfg [Config.cfg.cardCmd.write, b])

/-- A frame-layer error of a marked phase carries its mark. -/
theorem markingWrite_frameLayer {α : Type} {isPartial : Bool} {m : Op α} {e : Err} {s t : State}
    (h : markingWrite isPartial m s = .error e t) (hf : e.cause.isFrameLayer = true) : e.mark = .write isPartial := by
  obtain ⟨e', -, rfl⟩ := markingWrite_raises h
  rw [markWrite_cause] at hf
  exact markWrite_mark hf

/-- A frame-layer error of the two write frames is marked partial exactly when the first was acknowledged (R247). -/
theorem writeExchange_frameLayer {b : Byte} {data : List Byte} {e : Err} {s t : State}
    (h : writeExchange Config.cfg b data s = .error e t) (hf : e.cause.isFrameLayer = true) :
    ∃ isPartial, e.mark = .write isPartial ∧ (isPartial = true ↔ s.acksFirstFrame b) := by
  rcases op_bind_raises h with hfirst | ⟨_, s1, hfirst, hsecond⟩
  · refine ⟨false, markingWrite_frameLayer hfirst hf, by simp, ?_⟩
    rintro ⟨x, hx, hack, ha⟩
    obtain ⟨e', hraised, -⟩ := markingWrite_raises hfirst
    cases hraised.symm.trans ((writePhase_answered hx ha).trans (if_pos hack))
  · exact ⟨true, markingWrite_frameLayer hsecond hf, fun _ => by
      obtain ⟨x, hx, ha, hack⟩ := writePhase_returns rfl (markingWrite_returns hfirst)
      exact ⟨x, hx, hack, ha⟩, fun _ => rfl⟩

/-- A frame-layer error of WRITE_BLOCK comes from the write frames: the checks raise argument errors only. -/
theorem writeBlock_frameLayer {c : Cfg} {h : Handle} {b : Int} {data : List Byte} {e : Err} {s t : State}
    (hr : writeBlock c h b data s = .error e t) (hf : e.cause.isFrameLayer = true) :
    writeExchange c (blockByte b) data s = .error e t := by
  have notArgument : ¬argErr e := by
    rintro ⟨why, rfl⟩
    cases hf
  rcases op_bind_raises hr with hcard | ⟨q, s1, hcard, hchecked⟩
  · exact absurd (raises_checkCard h _ _ _ hcard) notArgument
  obtain ⟨-, rfl⟩ := checkCard_returns hcard
  rcases op_bind_raises hchecked with hblock | ⟨blk, s2, hblock, hinRange⟩
  · exact absurd (raises_checkBlock c b _ _ _ hblock) notArgument
  obtain ⟨-, rfl, rfl⟩ := checkBlock_returns hblock
  rcases op_bind_raises hinRange with hdata | ⟨_, s3, hdata, hwrite⟩
  · exact absurd (raises_ensure (P := argErr) ⟨_, rfl⟩ _ _ _ hdata) notArgument
  obtain ⟨-, rfl⟩ := ensure_returns hdata
  exact hwrite

/-- Settles O42: the error is one of the two write frames', which say whether the first had been acknowledged. -/
theorem writePartialMark : Obligations.WritePartialMark := by
  intro h b data e s t hexec hresult hf
  obtain ⟨-, htop⟩ := cardOperation_topLevel hexec
  obtain ⟨T, L, r, rfl, -, -, -, -, hended⟩ := topLevel_ends (effects_map (effects_writeBlock Config.cfg h b data)) htop
  obtain rfl : r = .err e := replied_results_inj hresult
  rcases hended with ⟨v, hok, -⟩ | ⟨e', herr, hrun⟩
  · cases hok
  cases herr
  rcases op_bind_raises hrun with hwrite | ⟨_, u, -, hpure⟩
  · exact writeExchange_frameLayer (s := s.locked) (writeBlock_frameLayer hwrite hf) hf
  · cases hpure

end Sys2Proof.Machine
end

section
/-!
SUPPORT. The argument checks that come after handle and block, and those of frames without a handle
(spec/45_card_accessors.md R271, R273, spec/60_exceptions.md R361).
-/

namespace Sys2Proof.Machine

/-- A check that passes leaves the next one to end the operation. -/
theorem Rejects.after {reason : ArgReason} {α β : Type} {m : Op α} {f : α → Op β} {a : α} {s : State}
    (hm : m s = .ok a s) (hf : Rejects reason (f a) s) : Rejects reason (m >>= f) s :=
  (op_bind_ok hm).trans hf

/-- With a valid handle and a block in range, what follows the two checks decides. -/
theorem Rejects.afterBlock {reason : ArgReason} {β : Type} {h : Handle} {b : Int} {f : Session → Byte → Op β} {s : State}
    (hs : s.sessionOf h ≠ none) (hb : 0 ≤ b ∧ b < 64) (hf : ∀ q blk, Rejects reason (f q blk) s) :
    Rejects reason (checkCard h >>= fun q => checkBlock Config.cfg b >>= f q) s := by
  obtain ⟨q, hq⟩ := Option.ne_none_iff_exists'.mp hs
  exact .after (checkCard_held (sessionOf_some.mp hq)) (.after (checkBlock_ok hb) (hf q _))

theorem rejects_checkOffset {off : Int} {s : State} (ho : off < 0 ∨ 12 < off) :
    Rejects .offsetRange (checkOffset Config.cfg off) s :=
  checkOffset_bad (c := Config.cfg) fun hin : 0 ≤ off ∧ off ≤ 12 => by omega

theorem rejects_checkValue {v : Int} {s : State} (hv : v < -2147483648 ∨ 4294967296 ≤ v) :
    Rejects .valueRange (checkValue v) s :=
  ensure_false (decide_eq_false (by omega))

theorem rejects_checkData {data : List Byte} {s : State} (hd : data.length ≠ 16) :
    Rejects .dataLength (checkData Config.cfg data) s :=
  ensure_false (decide_eq_false hd)

theorem rejects_checkPayload {bytes : List Byte} {s : State} (hp : 64 < bytes.length) :
    Rejects .payloadLength (checkPayload Config.cfg bytes) s :=
  ensure_false (decide_eq_false (Nat.not_le.mpr hp))

/-- The block byte of a card frame is checked as a block is (log 8). -/
theorem rejects_checkBlock_byte {b : Byte} {s : State} (hb : 64 ≤ b.toNat) :
    Rejects .blockRange (checkBlock Config.cfg b.toNat) s :=
  checkBlock_bad (c := Config.cfg) fun hin : (0 : Int) ≤ b.toNat ∧ (b.toNat : Int) < 64 => by omega

/-- TRANSCEIVE and CRC16 check the length of their bytes before anything else (R361). -/
theorem exec_payloadLength {cmd : ChipCommand} {bytes : List Byte} {framing : Nat} {i : Instr} {s : State}
    (hc : cmd = .transceive ∨ cmd = .authent) (hf : framing ≤ 7) (hinstr : i = .transceive cmd bytes framing ∨ i = .crc16 bytes)
    (hi : s.initialised = true) (hl : s.lock = none) (hp : 64 < bytes.length) :
    exec i s = .next (s.replied (raised (.invalidArgument .payloadLength))) := by
  rcases hinstr with rfl | rfl
  · have typed : Instr.wf (.transceive cmd bytes framing) = true :=
      Instr.transceive_wf_iff.mpr ⟨by rcases hc with rfl | rfl <;> rfl, hf⟩
    exact (if_pos typed).trans (cardOperation_rejected hi hl (rejects_checkPayload hp).bind)
  · exact cardOperation_rejected hi hl (rejects_checkPayload hp).bind

/-- Settles O45: each check is the first that fails, and those before it have changed nothing. -/
theorem operandChecks : Obligations.OperandChecks := by
  refine ⟨fun h b off v sg i s hinstr hi hl hs h0 h64 ho => ?_, fun h b off v s hi hl hs h0 h64 ho0 ho12 hv => ?_,
    fun h b data i s hinstr hi hl hs h0 h64 hd => ?_,
    fun cmd bytes framing i s hc hf hinstr hi hl hp => exec_payloadLength hc hf hinstr hi hl hp,
    fun b k u data i s hframe hi hl hb => ?_, fun b data s hi hl hb hd => ?_⟩
  · have rejected : ∀ {β : Type} (f : Nat → Op β), Rejects .offsetRange
        (checkCard h >>= fun _ => checkBlock Config.cfg b >>= fun _ => checkOffset Config.cfg off >>= f) s.locked := fun f =>
      .afterBlock (s := s.locked) hs ⟨h0, h64⟩ fun _ _ => (rejects_checkOffset ho).bind
    rcases hinstr with rfl | rfl <;> exact cardOperation_rejected hi hl (rejected _).bind
  · have offset : checkOffset Config.cfg off s.locked = .ok off.toNat s.locked := checkOffset_ok ⟨ho0, ho12⟩
    exact cardOperation_rejected hi hl <| Rejects.bind <|
      .afterBlock (s := s.locked) hs ⟨h0, h64⟩ fun _ _ => .after offset (rejects_checkValue hv).bind
  · have rejected : Rejects .dataLength (writeBlock Config.cfg h b data) s.locked :=
      .afterBlock (s := s.locked) hs ⟨h0, h64⟩ fun _ _ => (rejects_checkData hd).bind
    rcases hinstr with rfl | rfl <;> exact cardOperation_rejected hi hl rejected.bind
  · rcases hframe with rfl | rfl | rfl | rfl <;> exact cardOperation_rejected hi hl (rejects_checkBlock_byte hb).bind
  · exact cardOperation_rejected hi hl (Rejects.after (checkBlock_byte hb) (rejects_checkData hd).bind)

end Sys2Proof.Machine
end

section
/-!
SUPPORT. A block read whose bytes a request turns into its value, and READ_STR and WRITE_STR as requests
(spec/45_card_accessors.md R272 to R277).
-/

namespace Sys2Proof.Machine

/-! ## Reads whose block is turned into a value -/

/-- The read exchange whose response is a tag's and of 16 bytes returns them (R240). -/
theorem readExchange_fit {b : Byte} {x : Framed} {s : State} (hx : x.completes Config.cfg = true)
    (hstatus : (x.response Config.cfg).status = .ok) (hlength : x.exchange.bytes.length = 16)
    (ha : s.Answers (x.trace Config.cfg [0x30#8, b])) :
    readExchange Config.cfg b s =
      .ok x.exchange.bytes (s.busStep (x.trace Config.cfg [0x30#8, b]) (x.crc.logged [0x30#8, b])) :=
  (readExchange_answered hx ha).trans (if_pos ((readOk_iff _).mpr ⟨hstatus, hlength⟩))

/-- The read exchange whose response is no tag's or of another length raises ReadFailed (R240). -/
theorem readExchange_unfit {b : Byte} {x : Framed} {s : State} (hx : x.completes Config.cfg = true)
    (hbad : (x.response Config.cfg).status = .noTag ∨ x.exchange.bytes.length ≠ 16)
    (ha : s.Answers (x.trace Config.cfg [0x30#8, b])) :
    readExchange Config.cfg b s = .error { cause := .readFailed (x.response Config.cfg), mark := .none }
      (s.busStep (x.trace Config.cfg [0x30#8, b]) (x.crc.logged [0x30#8, b])) := by
  refine (readExchange_answered hx ha).trans (if_neg fun hok => ?_)
  obtain ⟨hstatus, hlength⟩ := (readOk_iff _).mp hok
  rcases hbad with hnoTag | hother
  · cases hstatus.symm.trans hnoTag
  · exact hother hlength

section
variable {i : Instr} {b : Byte} {f : List Byte → ResultValue} {x : Framed} {s : State}
  (hread : exec i s = cardOperation (readExchange Config.cfg b >>= fun d => pure (f d)) s) (hi : s.initialised = true)
  (hl : s.lock = none) (hx : x.completes Config.cfg = true) (ha : s.Answers (x.trace Config.cfg [0x30#8, b]))
include hread hi hl hx ha

theorem exec_read_returned (hstatus : (x.response Config.cfg).status = .ok) (hlength : x.exchange.bytes.length = 16) :
    exec i s = .next ((s.busStep (x.trace Config.cfg [0x30#8, b]) (x.crc.logged [0x30#8, b])).replied
      (.ok (f x.exchange.bytes))) :=
  hread.trans ((cardOperation_completed hi hl (readExchange_fit hx hstatus hlength ha.locked)).trans rfl)

theorem exec_read_failed (hbad : (x.response Config.cfg).status = .noTag ∨ x.exchange.bytes.length ≠ 16) :
    exec i s = .next ((s.busStep (x.trace Config.cfg [0x30#8, b]) (x.crc.logged [0x30#8, b])).replied
      (raised (.readFailed (x.response Config.cfg)))) :=
  hread.trans ((cardOperation_failed hi hl (readExchange_unfit hx hbad ha.locked)).trans rfl)

end

/-! ## Strings -/

/-- READ_STR past its checks is a block read, its value without trailing zeros (R275). -/
theorem exec_readStr_held {h : Handle} {b : Int} {q : Session} {s : State} (hq : s.holds h q) (hb : 0 ≤ b ∧ b < 64) :
    exec (.readStr h b) s =
      cardOperation (readExchange Config.cfg (blockByte b) >>= fun d => pure (.bytes (strip d))) s := by
  show cardOperation ((readBlock Config.cfg h b >>= fun d => pure (strip d)) >>= fun str => pure (.bytes str)) s = _
  simp only [bind_assoc, pure_bind]
  exact cardOperation_congr (op_bind_congr (readBlock_held (s := s.locked) hq hb))

/-- Padding with zeros to 16 bytes, or cutting to 16 (R272). -/
theorem eq_pad16 {str data : List Byte} (hshort : str.length ≤ 16 → data = str ++ List.replicate (16 - str.length) 0x00#8)
    (hlong : 16 < str.length → data = str.take 16) : data = pad16 Config.cfg str := by
  show data = str.take 16 ++ List.replicate (16 - str.length) 0#8
  rcases Nat.lt_or_ge 16 str.length with hl | hl
  · rw [hlong hl, Nat.sub_eq_zero_of_le hl.le, List.replicate_zero, List.append_nil]
  · rw [hshort hl, List.take_of_length_le hl]

/-- WRITE_STR past its checks is the two write frames of the padded string (R276). -/
theorem exec_writeStr_held {h : Handle} {b : Int} {q : Session} {s : State} (hq : s.holds h q) (hb : 0 ≤ b ∧ b < 64)
    (str : List Byte) : exec (.writeStr h b str) s =
      cardOperation (writeExchange Config.cfg (blockByte b) (pad16 Config.cfg str) >>= fun _ => pure .unit) s :=
  exec_writes (i := .writeBlock h b (pad16 Config.cfg str)) (.inr ⟨h, b, q, .inl rfl, hq, hb.1, hb.2, rfl⟩)
    (pad16_length Config.cfg str)

/-- Settles O46: READ_STR is a block read, WRITE_STR the two write frames of the padded string. -/
theorem stringAccess : Obligations.StringAccess := by
  refine ⟨fun h b q x s hi hl hq h0 h64 hx ha => ?_, fun h b q str data x y s hi hl hq h0 h64 hshort hlong hx => ?_⟩
  · have hread := exec_readStr_held hq ⟨h0, h64⟩
    obtain ⟨⟨zeros, hzeros⟩, hlast⟩ := strip_spec x.exchange.bytes
    exact ⟨fun hstatus hlength => ⟨strip _, zeros, exec_read_returned hread hi hl hx ha hstatus hlength, hzeros, hlast⟩,
      exec_read_failed hread hi hl hx ha⟩
  · obtain rfl := eq_pad16 hshort hlong
    rw [exec_writeStr_held hq ⟨h0, h64⟩]
    exact ⟨fun hack hy ha => (cardOperation_judged (f := fun _ => .unit) Iff.rfl hi hl
        (writeExchange_answered hx hack hy ha.locked)).trans rfl,
      fun hnack ha => (cardOperation_failed hi hl (writeExchange_refused hx hnack ha.locked)).trans rfl⟩

/-! ## A request that returned -/

/-- A request whose body only uses the bus and that returned: its operation returned, and but for the bus and the result the
state is as before. -/
theorem cardOperation_bus_returned {α : Type} {P : TraceEntry → Prop} {Q : LogEntry → Prop} {n : Nat} {m : Op α}
    {f : α → ResultValue} {v : ResultValue} {s t : State} (hm : Effects P Q n m)
    (hexec : cardOperation (m >>= fun a => pure (f a)) s = .next t)
    (hresult : t.results = s.results ++ [{ caller := s.agent, result := .ok v }]) :
    s.initialised = true ∧ (∃ T L, t = (s.busStep T L).replied (.ok v)) ∧ ∃ a u, m s.locked = .ok a u := by
  obtain ⟨hi, htop⟩ := cardOperation_topLevel hexec
  obtain ⟨T, L, r, rfl, -, -, -, -, hended⟩ := topLevel_ends (effects_map hm) htop
  obtain rfl := replied_results_inj hresult
  refine ⟨hi, ⟨T, L, rfl⟩, ?_⟩
  rcases hended with ⟨_, -, hrun⟩ | ⟨e, herr, -⟩
  · obtain ⟨a, u, hrun, -⟩ := op_bind_returns hrun
    exact ⟨a, u, hrun⟩
  · cases herr

/-- After a WRITE_STR that returned, its handle and block are still good and the bus is free. -/
theorem exec_writeStr_returned {h : Handle} {b : Int} {str : List Byte} {s t : State}
    (hexec : exec (.writeStr h b str) s = .next t)
    (hresult : t.results = s.results ++ [{ caller := s.agent, result := .ok .unit }]) :
    t.initialised = true ∧ t.lock = none ∧ (∃ q, t.holds h q) ∧ 0 ≤ b ∧ b < 64 := by
  obtain ⟨hi, ⟨T, L, rfl⟩, _, u, hrun⟩ :=
    cardOperation_bus_returned (f := fun _ => .unit) (effects_writeStr Config.cfg h b str) hexec hresult
  obtain ⟨q, hq, hb, -⟩ := writeBlock_returns hrun
  exact ⟨hi, rfl, ⟨q, hq⟩, hb⟩

/-- Settles O47: what is read back is the padded string, which loses its trailing zeros again. -/
theorem stringRoundTrip : Obligations.StringRoundTrip := by
  intro h b str x s t hexec hresult hx hstatus hback ha
  obtain ⟨hi, hl, ⟨q, hq⟩, hb⟩ := exec_writeStr_returned hexec hresult
  have bytes : x.exchange.bytes = pad16 Config.cfg str := hback
  have hread := exec_read_returned (exec_readStr_held hq hb) hi hl hx ha hstatus
    (by rw [bytes]; exact pad16_length Config.cfg str)
  obtain ⟨⟨zeros, hzeros⟩, hlast⟩ := strip_pad16 Config.cfg str
  refine ⟨_, strip (pad16 Config.cfg str), zeros, hread, by rw [bytes]; rfl, hzeros, hlast, fun hshort hend => ?_⟩
  rw [← eq_pad16 (data := str ++ List.replicate (16 - str.length) 0#8) (fun _ => rfl) (fun hlong => by omega)]
  exact strip_append_zeros str _ hend

end Sys2Proof.Machine
end

section
/-!
SUPPORT. READ_INT32 and WRITE_INT32 as requests (spec/45_card_accessors.md R280 to R282).
-/

namespace Sys2Proof.Machine

/-! ## The four bytes of an integer (R273) -/

/-- Four bytes of a block, as a slice and as READ_INT32 assembles them. -/
theorem be32_of_slice {d : List Byte} {off : Nat} {b0 b1 b2 b3 : Byte} (hslice : (d.drop off).take 4 = [b0, b1, b2, b3]) :
    be32 d off = b0.toNat * 16777216 + b1.toNat * 65536 + b2.toNat * 256 + b3.toNat := by
  have byte : ∀ k, k < 4 → byteAt d (off + k) = byteAt [b0, b1, b2, b3] k := fun k hk => by
    rw [← hslice, byteAt, byteAt, List.getD_eq_getElem?_getD, List.getD_eq_getElem?_getD, List.getElem?_take_of_lt hk,
      List.getElem?_drop]
  show be32Bytes (byteAt d (off + 0)) _ _ _ = _
  rw [byte 0 (by omega), byte 1 (by omega), byte 2 (by omega), byte 3 (by omega)]
  rfl

/-- The value of the four bytes, signed by two's complement or not (R273). -/
theorem toSigned_or_self (sg : Bool) (n : Nat) : (if sg = true then toSigned n else (n : Int)) =
    if sg = true ∧ 2147483648 ≤ n then (n : Int) - 4294967296 else (n : Int) := by
  cases sg
  · rfl
  · simp only [toSigned, true_and, if_true]
    rfl

/-- The four bytes whose big-endian number is the value's 32-bit pattern (R273). -/
theorem bytes32_of_sum {v : Int} {b0 b1 b2 b3 : Byte}
    (hsum : (b0.toNat * 16777216 + b1.toNat * 65536 + b2.toNat * 256 + b3.toNat : Int) = v % 4294967296) :
    bytes32 v = [b0, b1, b2, b3] := by
  have pattern : pattern32 v = b0.toNat * 16777216 + b1.toNat * 65536 + b2.toNat * 256 + b3.toNat := by
    unfold pattern32
    omega
  have byte : ∀ (b : Byte) (n : Nat), n % 256 = b.toNat → BitVec.ofNat 8 n = b := fun b n hn =>
    BitVec.eq_of_toNat_eq hn
  have h0 := b0.isLt
  have h1 := b1.isLt
  have h2 := b2.isLt
  have h3 := b3.isLt
  unfold bytes32
  rw [pattern, byte b0 _ (by omega), byte b1 _ (by omega), byte b2 _ (by omega), byte b3 _ (by omega)]

/-- What READ_INT32 makes of the bytes WRITE_INT32 writes: the value, where the reading's range holds it (R282). -/
theorem read_bytes32 {d : List Byte} {off : Nat} {v : Int} {sg : Bool} (ho : off ≤ d.length)
    (hsigned : sg = true → -2147483648 ≤ v ∧ v < 2147483648) (hunsigned : sg = false → 0 ≤ v ∧ v < 4294967296) :
    (if sg then toSigned (be32 (spliceAt d off (bytes32 v)) off) else (be32 (spliceAt d off (bytes32 v)) off : Int)) = v := by
  rw [be32_splice v ho]
  cases sg
  · exact pattern32_unsigned (hunsigned rfl)
  · exact toSigned_pattern32 (hsigned rfl)

/-! ## Past the checks -/

/-- The offsets of R271 are those the configuration allows. -/
theorem offset_allowed {off : Nat} (ho : off ≤ 12) : (0 : Int) ≤ off ∧ (off : Int) ≤ Config.cfg.int32OffsetMax :=
  ⟨Int.natCast_nonneg off, Int.ofNat_le.mpr ho⟩

/-- READ_INT32 past its checks is a block read, its value the four bytes at the offset (R280). -/
theorem exec_readInt32_held {h : Handle} {b : Int} {off : Nat} {q : Session} {s : State} (hq : s.holds h q)
    (hb : 0 ≤ b ∧ b < 64) (ho : off ≤ 12) (sg : Bool) : exec (.readInt32 h b off sg) s =
      cardOperation (readExchange Config.cfg (blockByte b) >>= fun d =>
        pure (.int (if sg then toSigned (be32 d off) else (be32 d off : Int)))) s := by
  have hrun := readInt32_held (sg := sg) (s := s.locked) hq hb (offset_allowed ho)
  refine (cardOperation_congr (op_bind_congr hrun)).trans ?_
  simp only [bind_assoc, pure_bind, Int.toNat_natCast]

/-- Past its checks WRITE_INT32 reads the block and writes it back with four bytes replaced (R281). -/
theorem writeInt32_checked {h : Handle} {b v : Int} {off : Nat} {q : Session} {s : State} (hq : s.holds h q)
    (hb : 0 ≤ b ∧ b < 64) (ho : off ≤ 12) (hv : -2147483648 ≤ v ∧ v < 4294967296) :
    writeInt32 Config.cfg h b off v s = (readExchange Config.cfg (blockByte b) >>= fun d =>
      writeBlock Config.cfg h b (spliceAt d off (bytes32 v))) s :=
  writeInt32_held (c := Config.cfg) hq hb (offset_allowed ho) hv

/-- Past its read WRITE_INT32 is the two write frames of the block with four bytes replaced (R281). -/
theorem writeInt32_read {h : Handle} {b v : Int} {off : Nat} {q : Session} {x : Framed} {s : State} (hq : s.holds h q)
    (hb : 0 ≤ b ∧ b < 64) (ho : off ≤ 12) (hv : -2147483648 ≤ v ∧ v < 4294967296) (hx : x.completes Config.cfg = true)
    (hstatus : (x.response Config.cfg).status = .ok) (hlength : x.exchange.bytes.length = 16)
    (ha : s.Answers (x.trace Config.cfg [0x30#8, blockByte b])) :
    writeInt32 Config.cfg h b off v s =
      writeExchange Config.cfg (blockByte b) (spliceAt x.exchange.bytes off (bytes32 v))
        (s.busStep (x.trace Config.cfg [0x30#8, blockByte b]) (x.crc.logged [0x30#8, blockByte b])) := by
  have fits : (spliceAt x.exchange.bytes off (bytes32 v)).length = Config.cfg.blockSize :=
    (spliceAt_length (by rw [bytes32_length]; omega)).trans hlength
  rw [writeInt32_checked hq hb ho hv, op_bind_ok (readExchange_fit hx hstatus hlength ha)]
  exact writeBlock_held (c := Config.cfg) (q := q) hq hb fits

/-! ## A WRITE_INT32 that returned -/

/-- It passed its checks. -/
theorem writeInt32_returns {c : Cfg} {h : Handle} {b off v : Int} {s t : State}
    (hr : writeInt32 c h b off v s = .ok () t) :
    (∃ q, s.holds h q) ∧ (0 ≤ b ∧ b < c.blockCount) ∧ 0 ≤ off ∧ off ≤ c.int32OffsetMax := by
  obtain ⟨q, s1, hcard, hchecked⟩ := op_bind_returns hr
  obtain ⟨hq, rfl⟩ := checkCard_returns hcard
  obtain ⟨blk, s2, hblock, hinRange⟩ := op_bind_returns hchecked
  obtain ⟨hb, -, rfl⟩ := checkBlock_returns hblock
  obtain ⟨o, s3, hoffset, -⟩ := op_bind_returns hinRange
  refine ⟨⟨q, hq⟩, hb, ?_⟩
  by_contra ho
  cases (checkOffset_bad ho).symm.trans hoffset

/-- After a WRITE_INT32 that returned, its handle, block and offset are still good and the bus is free. -/
theorem exec_writeInt32_returned {h : Handle} {b v : Int} {off : Nat} {s t : State}
    (hexec : exec (.writeInt32 h b off v) s = .next t)
    (hresult : t.results = s.results ++ [{ caller := s.agent, result := .ok .unit }]) :
    t.initialised = true ∧ t.lock = none ∧ (∃ q, t.holds h q) ∧ (0 ≤ b ∧ b < 64) ∧ off ≤ 12 := by
  obtain ⟨hi, ⟨T, L, rfl⟩, _, u, hrun⟩ :=
    cardOperation_bus_returned (f := fun _ => .unit) (effects_writeInt32 Config.cfg h b off v) hexec hresult
  obtain ⟨⟨q, hq⟩, hb, -, ho⟩ := writeInt32_returns hrun
  exact ⟨hi, rfl, ⟨q, hq⟩, hb, by exact_mod_cast ho⟩

/-! ## The obligations -/

/-- Settles O48: both read the block first and end there if that fails; WRITE_INT32 then is the two write frames. -/
theorem intAccess : Obligations.IntAccess := by
  refine ⟨fun h b off sg q b0 b1 b2 b3 x s hi hl hq h0 h64 ho hx hstatus hlength hslice ha => ?_,
    fun h b v off sg q x i s hinstr hi hl hq h0 h64 ho hx hbad ha => ?_,
    fun h b v off q b0 b1 b2 b3 data x y z s hi hl hq h0 h64 ho hv0 hv1 hx hstatus hlength hsum hdata hy => ?_⟩
  · rw [exec_read_returned (f := fun d => .int _) (exec_readInt32_held hq ⟨h0, h64⟩ ho sg) hi hl hx ha hstatus hlength,
      toSigned_or_self, be32_of_slice hslice]
    push_cast
    rfl
  · rcases hinstr with rfl | ⟨rfl, hv⟩
    · exact exec_read_failed (f := fun d => .int _) (exec_readInt32_held hq ⟨h0, h64⟩ ho sg) hi hl hx ha hbad
    · have hread := readExchange_unfit hx hbad ha.locked
      have hrun := (writeInt32_checked (s := s.locked) hq ⟨h0, h64⟩ ho hv).trans (op_bind_error hread)
      exact (cardOperation_failed (f := fun _ => .unit) hi hl hrun).trans rfl
  · obtain rfl : data = spliceAt x.exchange.bytes off (bytes32 v) := by rw [bytes32_of_sum hsum]; exact hdata
    have hrun := fun ha => writeInt32_read (s := s.locked) hq ⟨h0, h64⟩ ho ⟨hv0, hv1⟩ hx hstatus hlength ha
    refine ⟨fun hack hz ha => ?_, fun hnack ha => ?_⟩
    all_goals
      obtain ⟨hfirst, hrest⟩ := (State.answers_append s.locked _ _).mp ha.locked
      rw [← State.busStep_busStep]
    · exact (cardOperation_judged (f := fun _ => .unit) Iff.rfl hi hl
        ((hrun hfirst).trans (writeExchange_answered hy hack hz (State.answers_congr rfl rfl rfl hrest)))).trans rfl
    · exact (cardOperation_failed (f := fun _ => .unit) hi hl
        ((hrun hfirst).trans (writeExchange_refused hy hnack (State.answers_congr rfl rfl rfl hrest)))).trans rfl

/-- Settles O49: the four bytes written are the value's pattern, which its range makes one value. -/
theorem intRoundTrip : Obligations.IntRoundTrip := by
  intro h b v off sg before x s t hexec hresult hx hstatus hbefore hback ha hsigned hunsigned
  obtain ⟨hi, hl, ⟨q, hq⟩, hb, ho⟩ := exec_writeInt32_returned hexec hresult
  have bytes : x.exchange.bytes = spliceAt before off (bytes32 v) := hback
  have hlength : x.exchange.bytes.length = 16 := by
    rw [bytes, spliceAt_length (by rw [bytes32_length]; omega), hbefore]
  refine ⟨_, exec_read_returned (f := fun d => .int _) (exec_readInt32_held hq hb ho sg) hi hl hx ha hstatus hlength, ?_⟩
  rw [bytes, read_bytes32 (by omega) hsigned hunsigned]
  rfl

end Sys2Proof.Machine
end

section
/-!
SUPPORT. DUMP as a request: its answers given, and however it ends (spec/45_card_accessors.md R290, R291).
-/

namespace Sys2Proof.Machine

/-- With a valid handle DUMP is the sweep over all blocks (R290). -/
theorem dump_held {c : Cfg} {h : Handle} {q : Session} {s : State} (hq : s.holds h q) :
    dump c h s = dumpFrom c h (List.range c.blockCount) [] s :=
  op_bind_ok (checkCard_held hq)

/-- Settles O50: the sweep over blocks 0 to 63, its answers given. -/
theorem dumpResult : Obligations.DumpResult := by
  intro h q runs last s hi hl hq hlength hlast hcompletes ha
  have sweep := dumpFrom_answered (c := Config.cfg) runs 0 [] q s.locked last hq (by rw [hlength]; decide) hcompletes hlast
    ha.locked
  rw [hlength, ← List.range_eq_range'] at sweep
  have hrun := (dump_held (c := Config.cfg) (s := s.locked) hq).trans sweep
  exact (cardOperation_completed (f := .dump) hi hl hrun).trans rfl

/-- The blocks of the entries gathered before an error are the first ones, in order. -/
theorem eq_range_of_prefix {bs : List Nat} {n : Nat} (h : bs <+: List.range n) : bs = List.range bs.length := by
  have hle : bs.length ≤ n := by simpa using h.length_le
  exact (List.prefix_iff_eq_take.mp h).trans (by rw [List.take_range, Nat.min_eq_left hle])

/-- How DUMP ends (R290, R291): on a stale handle, with an entry for every block in order, or by a frame-layer error that
carries the entries of the blocks before it. -/
theorem dump_ends (c : Cfg) (h : Handle) (s : State) :
    (∃ u, dump c h s = .error { cause := .invalidArgument .staleCard, mark := .none } u) ∨
    (∃ out u, dump c h s = .ok out u ∧ out.map (·.1) = List.range c.blockCount) ∨
    (∃ e out u, dump c h s = .error { cause := e, mark := .dump out } u ∧ e.isFrameLayer = true ∧
      out.map (·.1) = List.range out.length ∧ out.length < c.blockCount) := by
  cases hs : s.sessionOf h with
  | none => exact .inl ⟨s, op_bind_error (checkCard_stale hs)⟩
  | some q =>
    have hq : s.holds h q := sessionOf_some.mp hs
    rw [dump_held hq]
    rcases dumpFrom_ends (List.range c.blockCount) [] s q hq (fun b hb => List.mem_range.mp hb) with
      ⟨out, u, hrun, hblocks⟩ | ⟨e, out, u, hrun, hframe, hprefix, hlt⟩
    · exact .inr (.inl ⟨out, u, hrun, hblocks⟩)
    · exact .inr (.inr ⟨e, out, u, hrun, hframe, by simpa using eq_range_of_prefix hprefix, by simpa using hlt⟩)

/-- DUMP records no result of its own: the request's is the only one. -/
theorem dump_end_results (c : Cfg) (h : Handle) (s : State) (r : Result) :
    ((endState (dump c h s)).replied r).results = s.results ++ [{ caller := s.agent, result := r }] := by
  obtain ⟨T, L, q, hend, -, -⟩ := mirrored_dump c h s
  rw [hend]
  rfl

/-- Settles O51: the request's result says how its sweep ended. -/
theorem dumpEnds : Obligations.DumpEnds := by
  intro h s t hexec
  obtain ⟨hi, hl, -⟩ := cardOperation_next hexec
  have results := dump_end_results Config.cfg h s.locked
  have returned : ∀ {out u}, dump Config.cfg h s.locked = .ok out u → t = u.replied (.ok (.dump out)) := fun hrun => by
    cases hexec.symm.trans (cardOperation_completed (f := .dump) hi hl hrun)
    rfl
  have ended : ∀ {e u}, dump Config.cfg h s.locked = .error e u → t = u.replied (.err e) := fun hrun => by
    cases hexec.symm.trans (cardOperation_raised hi hl (op_bind_error hrun))
    rfl
  rcases dump_ends Config.cfg h s.locked with ⟨u, hrun⟩ | ⟨out, u, hrun, hblocks⟩ |
    ⟨e, out, u, hrun, hframe, hblocks, hlt⟩ <;> rw [hrun] at results
  · exact ⟨_, ended hrun ▸ results _, .inr (.inl rfl)⟩
  · exact ⟨_, returned hrun ▸ results _, .inl ⟨out, rfl, hblocks⟩⟩
  · exact ⟨_, ended hrun ▸ results _, .inr (.inr ⟨_, out, rfl, hframe, rfl, hblocks, hlt⟩)⟩

end Sys2Proof.Machine
end

section
/-!
SUPPORT. The events of a step (spec/46_presence_monitor.md R321, R335, R336): only a cycle emits, and what a cycle announces
goes with the presence state it leaves.
-/

namespace Sys2Proof.Machine

/-! ## The presence states a cycle runs in -/

theorem MState.watching_none {m : MState} : m.watching = some none ↔ m = .noCard := by
  cases m <;> simp [MState.watching]

theorem MState.watching_some {m : MState} {u : Uid} : m.watching = some (some u) ↔ m = .cardPresent u := by
  cases m <;> simp [MState.watching]

/-- A card other than the one a cycle began with is not the card of CardPresent. -/
theorem MState.ne_cardPresent {m : MState} {present : Option Uid} {u : Uid} (hp : m.watching = some present)
    (hne : present ≠ some u) : m ≠ .cardPresent u := fun hm =>
  hne (Option.some.inj (hp.symm.trans (MState.watching_some.mpr hm)))

/-! ## The kind of the error that ends a worker -/

/-- A frame-layer error is a Timeout, a FrameError or a TransportError (R360). -/
theorem frameErr_kind {e : Err} (he : frameErr e) :
    e.cause.kind = .timeout ∨ e.cause.kind = .frameError ∨ e.cause.kind = .transportError := by
  obtain ⟨cause, mark⟩ := e
  obtain ⟨hcause, -⟩ := he
  cases cause with
  | timeout irq polls => exact .inl rfl
  | frameError errv => exact .inr (.inl rfl)
  | transportError a => exact .inr (.inr rfl)
  | _ => cases hcause

/-- The error that ends the worker in a cycle is of the frame layer (R322, R324), and after an event it is the transport's,
for only END_SESSION is performed then (log 16). -/
theorem runCycle_fault_kind {present : Option Uid} {k : Kind} {s : State}
    (hw : (runCycle Config.cfg present s).monitor.worker = .none)
    (hk : (runCycle Config.cfg present s).monitor.mstate = .faulted k) :
    (k = .timeout ∨ k = .frameError ∨ k = .transportError) ∧
      ((runCycle Config.cfg present s).events ≠ s.events → k = .transportError) := by
  obtain ⟨T, -, h⟩ := pollCard_ends Config.cfg present s.locked
  rcases h with ⟨e, h, he⟩ | ⟨-, h⟩ | ⟨u, -, h⟩ | ⟨u, bcc, -, -, h⟩ | ⟨U, u, bcc, -, -, -, h | ⟨a, h⟩⟩
  · rw [runCycle_error h] at hk ⊢
    cases hk
    exact ⟨frameErr_kind he, fun hne => absurd rfl hne⟩
  · rw [runCycle_ok h] at hw; cases hw
  · rw [runCycle_ok h] at hw; cases hw
  · rw [runCycle_ok h] at hw; cases hw
  · rw [runCycle_ok h] at hw; cases hw
  · rw [runCycle_error h] at hk
    cases hk
    exact ⟨.inr (.inr rfl), fun _ => rfl⟩

/-! ## What may be announced -/

/-- What a step from `s` to `t` may announce: nothing, the arrival of a card not present, or the removal of the card present
(R321, R336; log 16). -/
def Announces (s t : State) : Prop :=
  t.events = s.events ∨
  (∃ u, t.events = s.events ++ [.arrived u] ∧ s.monitor.mstate ≠ .cardPresent u ∧
    (t.monitor.mstate = .cardPresent u ∨ t.monitor.mstate = .faulted .transportError)) ∨
  (∃ u, t.events = s.events ++ [.removed u] ∧ s.monitor.mstate = .cardPresent u ∧
    s.events.getLast? = some (.arrived u) ∧ t.monitor.mstate = .noCard ∧ t.session = none)

/-- What a cycle announces: its errors have the kinds `runCycle_fault_kind` gives. -/
theorem CycleLeft.announces {s t : State} {present : Option Uid} (hc : CycleLeft Config.cfg s present t)
    (hp : s.monitor.mstate.watching = some present) (h : s.Inv)
    (hkind : ∀ k, t.monitor.worker = .none → t.monitor.mstate = .faulted k → t.events ≠ s.events → k = .transportError) :
    Announces s t := by
  cases hc with
  | detectFailed _ T k => exact .inl rfl
  | stillAbsent T => exact .inl rfl
  | removed T u =>
    have hu : s.monitor.mstate = .cardPresent u := MState.watching_some.mp hp
    exact .inr (.inr ⟨u, rfl, hu, (h.present u hu).2, rfl, rfl⟩)
  | stillPresent T u bcc _ => exact .inl (by simp)
  | arrived _ T U u bcc hne _ =>
    exact .inr (.inl ⟨u, by simp, MState.ne_cardPresent hp hne, .inl rfl⟩)
  | arrivalFailed _ T U u bcc hne _ k =>
    obtain rfl : k = .transportError := hkind k rfl rfl (by simp)
    exact .inr (.inl ⟨u, by simp, MState.ne_cardPresent hp hne, .inr rfl⟩)

/-- No instruction but MONITOR_CYCLE announces anything. -/
theorem Did.announces {s t : State} (hd : Did s t) (h : s.Inv) : Announces s t := by
  cases hd with
  | detected T u bcc r _ _ => exact .inl (by simp)
  | cycled present _ hp =>
    exact (runCycle_left present s).announces hp h fun k hw hk => (runCycle_fault_kind hw hk).2
  | bus _ _ _ | mirror _ _ _ _ _ | booted _ _ _ _ | started _ _ | flagged | subscribed _ | ended _ _ => exact .inl rfl

/-- Settles O57: a step is an instruction, a sleep slice or nothing, and only a cycle announces anything. -/
theorem eventsOfAStep : Obligations.EventsOfAStep := by
  intro s t h hstep
  rcases step_next hstep with ⟨i, rest, a, hexec⟩ | ⟨rest, ms, hw, rfl⟩ | ⟨rest, rfl⟩
  · exact (exec_did hexec).announces { h with }
  · rcases sleepSlice_cases (s := { s with port := rest }) Config.cfg hw with heq | heq | ⟨d, left, heq⟩ <;>
      exact .inl (by rw [heq])
  · exact .inl rfl

end Sys2Proof.Machine
end

section
/-!
SUPPORT. Construction, INIT, and the lifecycle requests of the monitor (spec/46_presence_monitor.md R311, R312, R315, R325,
R331, R335, R342).
-/

namespace Sys2Proof.Machine

/-! ## INIT -/

/-- The transactions of one entry of INIT_SEQUENCE, `v` the byte answered to its read (R311). -/
def InitStep.trace (v : Byte) : InitStep → List TraceEntry
  | .write a x => [.write a x]
  | .setBits a m => setTrace a v m

theorem performInitStep_answered {c : Cfg} {v : Byte} {t : InitStep} {s : State} (h : s.Answers (InitStep.trace v t)) :
    performInitStep c t s = .ok () (s.ran (InitStep.trace v t)) := by
  cases t with
  | write a x => exact regWrite_answered h
  | setBits a m => exact setBits_answered h

theorem performInit_answered {c : Cfg} {v : Byte} {steps : List InitStep} {s : State}
    (h : s.Answers (steps.flatMap (InitStep.trace v))) :
    performInit c steps s = .ok () (s.ran (steps.flatMap (InitStep.trace v))) := by
  induction steps generalizing s with
  | nil => simp [performInit]
  | cons t ts ih =>
    obtain ⟨hfirst, hrest⟩ := (State.answers_append s _ _).mp h
    refine (op_bind_ok (performInitStep_answered hfirst)).trans ?_
    rw [ih hrest, List.flatMap_cons, State.ran_append]

/-- INIT, its sequence answered: only then `initialised` is set (R311). -/
theorem initialise_answered {c : Cfg} {v : Byte} {s : State}
    (h : s.lineUp.Answers (c.initSequence.flatMap (InitStep.trace v))) :
    initialise c s =
      .ok () { s.lineUp.ran (c.initSequence.flatMap (InitStep.trace v)) with initialised := true } :=
  (op_bind_ok (rfl : setLine s = .ok () s.lineUp)).trans (op_bind_ok (performInit_answered h))

theorem exec_init_cold {s : State} (hi : s.initialised = false) :
    exec .init s = topLevel (initialise Config.cfg >>= fun _ => pure .unit) s :=
  if_neg (by simp [hi])

/-- An INIT that answers a next state ran on a controller not yet initialised (R311). -/
theorem exec_init_next {s t : State} (h : exec .init s = .next t) : s.initialised = false := by
  refine Bool.eq_false_iff.mpr fun hi => ?_
  cases h.symm.trans (if_pos hi)

/-- Settles O52: the sequence answered, or whatever ends it, which is at most a failed transaction. -/
theorem init : Obligations.Init := by
  refine ⟨fun v s hi hl h => ?_, fun s t hexec => ?_⟩
  · have hrun := initialise_answered (c := Config.cfg) (v := v) (s := s.locked) (State.answers_congr rfl rfl rfl h)
    rw [exec_init_cold hi, topLevel_free hl, op_bind_ok hrun]
    rfl
  · have hi := exec_init_next hexec
    rw [exec_init_cold hi] at hexec
    obtain ⟨-, rfl⟩ := topLevel_next hexec
    rcases initialise_ends s.locked with ⟨T, hrun, -⟩ | ⟨T, e, hrun, ⟨a, rfl⟩, -⟩
    · exact ⟨T, true, .ok .unit, by rw [op_bind_ok hrun]; rfl, .inl ⟨rfl, rfl⟩⟩
    · exact ⟨T, s.initialised, _, by rw [op_bind_error hrun]; rfl, .inr ⟨hi, a, rfl⟩⟩

/-! ## The state right after construction -/

/-- Settles O1: each field of `State.reset` is the one the table of R40 gives. -/
theorem resetState : Obligations.ResetState := ⟨rfl, rfl, rfl, rfl, rfl, rfl, rfl, rfl, rfl, rfl⟩

/-! ## The lifecycle requests -/

theorem exec_monitorStart_idle {s : State} (hi : s.initialised = true) (hw : s.monitor.worker = .none) :
    exec .monitorStart s = .next ({ s with monitor := s.monitor.started } : State).acknowledge :=
  (if_pos hi).trans (if_pos hw)

/-- The subscriber list after SUBSCRIBE: a new consumer is appended, a known one changes nothing (R335). -/
theorem addSubscriber_eq (subs : List Subscriber) (n : Nat) :
    addSubscriber subs n =
      subs ++ (if n ∈ subs.map (·.consumer) then [] else [{ consumer := n, inbox := [] }]) := by
  have listed : (subs.any fun q => q.consumer == n) = true ↔ n ∈ subs.map (·.consumer) := by simp
  unfold addSubscriber
  by_cases hn : n ∈ subs.map (·.consumer)
  · rw [if_pos (listed.mpr hn), if_pos hn, List.append_nil]
  · rw [if_neg (mt listed.mp hn), if_neg hn]

/-- A cycle that finds the stop flag ends the worker before anything else (R325). -/
theorem exec_monitorCycle_stopped {s : State} (ha : s.agent = .worker) (hi : s.initialised = true)
    (hw : s.monitor.worker = .polling) (hs : s.monitor.stopFlag = true) :
    exec .monitorCycle s = .next ({ s with monitor := s.monitor.ended } : State).acknowledge :=
  (if_pos ha).trans ((if_pos hi).trans ((if_pos hw).trans (if_pos hs)))

/-- Settles O53: each of them changes the monitor and records its result. -/
theorem monitorControl : Obligations.MonitorControl := by
  refine ⟨fun s hi hw => exec_monitorStart_idle hi hw, fun s => rfl, fun n s => ?_, fun s ha hi hw hs => ?_⟩
  · rw [← addSubscriber_eq]
    rfl
  · rw [exec_monitorCycle_stopped ha hi hw hs, ← ha]
    rfl

end Sys2Proof.Machine
end

section
/-!
SUPPORT. MONITOR_CYCLE of a ready worker, the answers of its DETECT given: the cycles without an event and those with one
(spec/46_presence_monitor.md R320, R321, R323).
-/

namespace Sys2Proof.Machine

/-! ## How a cycle ends -/

/-- The end of a cycle whose bus work returned, with its result: the worker sleeps (R320; log 18). -/
abbrev State.cycleSlept (s : State) (ms : Nat) : State :=
  { s with
    monitor := { s.monitor with worker := .sleeping ms }
    results := s.results ++ [{ caller := .worker, result := .ok .unit }] }

/-- The end of a cycle whose bus work raised, with its result, policy `halt`: the error is logged and the worker has ended
(R324; log 18). -/
abbrev State.cycleHalted (s : State) (k : Kind) : State :=
  { s with
    log := s.log ++ [.monitorError k]
    monitor := { s.monitor with mstate := .faulted k, worker := .none }
    results := s.results ++ [{ caller := .worker, result := .ok .unit }] }

section
variable {s u : State} {present : Option Uid} (h : s.CycleReady) (hp : s.monitor.mstate.watching = some present)
include h hp

theorem exec_cycle_slept {ms : Nat} (hrun : pollCard Config.cfg present s.locked = .ok ms u.locked)
    (ha : u.agent = s.agent) (hl : u.lock = s.lock) : exec .monitorCycle s = .next (u.cycleSlept ms) := by
  refine (execMonitorCycle_ready h hp).trans ?_
  rw [runCycle_ok hrun, State.cycleSlept, ← h.agent_eq, ← ha, hl, h.lock_eq]
  rfl

theorem exec_cycle_halted {e : Err} (hrun : pollCard Config.cfg present s.locked = .error e u.locked)
    (ha : u.agent = s.agent) (hl : u.lock = s.lock) : exec .monitorCycle s = .next (u.cycleHalted e.cause.kind) := by
  refine (execMonitorCycle_ready h hp).trans ?_
  rw [runCycle_error hrun, State.cycleHalted, ← h.agent_eq, ← ha, hl, h.lock_eq]
  rfl

end

/-! ## The bus work of a cycle, its DETECT answered -/

/-- What installation leaves, its session and counter left open. -/
theorem installed_exists (c : Cfg) (s : State) (u : Uid) (bcc : Byte) :
    ∃ q g, State.installed c s u bcc = { s with session := q, gen := g } :=
  ⟨_, _, installed_eq_update c s u bcc⟩

/-- Installation under the lock and after transactions. -/
theorem installed_locked_ran (c : Cfg) (s : State) (T : List TraceEntry) (u : Uid) (bcc : Byte) :
    State.installed c (s.locked.ran T) u bcc = ((State.installed c s u bcc).ran T).locked := by
  rw [installed_ran, installed_locked, installed_eq_update]
  rfl

section
variable {p : Probe} {s : State} (hcompletes : p.completes Config.cfg = true) (ha : s.Answers (p.trace Config.cfg))
include hcompletes ha

/-- A DETECT that finds no card leaves the rest to the transition (R322). -/
theorem pollCard_absent (present : Option Uid) (hcard : p.card Config.cfg = none) :
    pollCard Config.cfg present s.locked = transition Config.cfg present none (s.ran (p.trace Config.cfg)).locked := by
  have hpoll := pollCard_answered (present := present) hcompletes ha.locked
  simp only [hcard] at hpoll
  exact hpoll

/-- A DETECT that finds a card installs it and leaves the rest to the transition (R226, R322). -/
theorem pollCard_found (present : Option Uid) {u : Uid} {bcc : Byte} (hcard : p.card Config.cfg = some (u, bcc)) :
    pollCard Config.cfg present s.locked =
      transition Config.cfg present (some (s.handleFor u))
        ((State.installed Config.cfg s u bcc).ran (p.trace Config.cfg)).locked := by
  have hpoll := pollCard_answered (present := present) hcompletes ha.locked
  simp only [hcard, installed_locked_ran] at hpoll
  exact hpoll

end

theorem transition_same {c : Cfg} {u : Uid} {h : Handle} {s : State} (hu : h.uid = u) :
    transition c (some u) (some h) s = .ok c.shortIntervalMs s := by
  simp [transition, hu]

/-- A card other than the one present is an arrival (R321 a, b). -/
theorem transition_arrive {c : Cfg} {present : Option Uid} {h : Handle} (hne : present ≠ some h.uid) :
    transition c present (some h) = arrive c h := by
  cases present with
  | none => rfl
  | some w => exact if_neg fun hw => hne (by rw [hw])

/-- In NoCard, and in CardPresent of another card, the card `u` is an arrival (R321 a, b). -/
theorem MState.watching_other {m : MState} {u : Uid} (h : m = .noCard ∨ ∃ w, m = .cardPresent w ∧ w ≠ u) :
    ∃ present, m.watching = some present ∧ present ≠ some u := by
  rcases h with rfl | ⟨w, rfl, hne⟩
  · exact ⟨none, rfl, by simp⟩
  · exact ⟨some w, rfl, by simpa using hne⟩

/-- What the environment answers after DETECT does not depend on the session it installed. -/
theorem State.Answers.installed {c : Cfg} {T U : List TraceEntry} {u : Uid} {bcc : Byte} {s : State}
    (h : (s.ran T).Answers U) : ((State.installed c s u bcc).ran T).locked.Answers U := by
  rw [installed_eq_update]
  exact State.answers_congr rfl rfl rfl h

/-! ## The obligations -/

/-- Settles O54: the transition chooses the sleep and changes nothing. -/
theorem cycleWithoutEvent : Obligations.CycleWithoutEvent := by
  intro p s h hcompletes ha
  refine ⟨fun hm hcard => ?_, fun u bcc hm hcard => ⟨?_, fun q hq hu => ?_⟩⟩
  · exact exec_cycle_slept h (MState.watching_none.mpr hm) (pollCard_absent hcompletes ha none hcard) rfl rfl
  · have hpoll := (pollCard_found hcompletes ha (some u) hcard).trans (transition_same (handleFor_uid s u))
    rw [installed_ran]
    obtain ⟨q, g, hinstalled⟩ := installed_exists Config.cfg s u bcc
    rw [hinstalled] at hpoll ⊢
    exact exec_cycle_slept h (MState.watching_some.mpr hm) hpoll rfl rfl
  · rw [(installed_of_same (s := s.ran (p.trace Config.cfg)) Config.cfg bcc hq hu).1]
    exact ⟨rfl, rfl⟩

/-- Settles O55: an arrival installs, announces and ends the crypto session; a removal announces and drops the session. -/
theorem cycleEvents : Obligations.CycleEvents := by
  intro p v s h hcompletes
  refine ⟨fun u bcc hcard hm ha => ?_, fun u hcard hm ha => ?_⟩
  · obtain ⟨present, hp, hne⟩ := MState.watching_other hm
    obtain ⟨hdetect, hend⟩ := (State.answers_append s (p.trace Config.cfg) (endSessionTrace Config.cfg v)).mp ha
    have hpoll := pollCard_found hcompletes hdetect present hcard
    rw [transition_arrive (by rwa [handleFor_uid]), arrive_answered hend.installed, handleFor_uid] at hpoll
    rw [installed_ran, State.ran_append]
    obtain ⟨q, g, hinstalled⟩ := installed_exists Config.cfg s u bcc
    rw [hinstalled] at hpoll ⊢
    exact exec_cycle_slept (u := (((State.ran { s with session := q, gen := g } (p.trace Config.cfg)).arrivedAt u).ran
      (endSessionTrace Config.cfg v)).mirrored false) h hp hpoll rfl rfl
  · have hpoll := (pollCard_absent hcompletes ha (some u) hcard).trans (depart_eq _ u _)
    have hgen : (if s.session = none then s.gen else s.gen + 1) = if s.session.isSome then s.gen + 1 else s.gen := by
      cases s.session <;> rfl
    rw [hgen]
    exact exec_cycle_slept (u := (s.ran (p.trace Config.cfg)).departed u) h (MState.watching_some.mpr hm) hpoll rfl rfl

end Sys2Proof.Machine
end

section
/-!
SUPPORT. The cycles that end the worker, policy `halt`: the errors of DETECT and a failed END_SESSION
(spec/46_presence_monitor.md R322, R324).
-/

namespace Sys2Proof.Machine

/-! ## Any cycle of a ready worker -/

theorem exec_cycle_next {s t : State} (h : s.CycleReady) (hexec : exec .monitorCycle s = .next t) :
    ∃ present, s.monitor.mstate.watching = some present ∧ t = (runCycle Config.cfg present s).acknowledge := by
  obtain ⟨-, -, -, ⟨hstop, -⟩ | ⟨present, -, hp, rfl⟩⟩ := execMonitorCycle_next hexec
  · exact absurd (hstop.symm.trans h.stop_eq) Bool.noConfusion
  · exact ⟨present, hp, rfl⟩

/-- A cycle that ended the worker logged the error that Faulted names, and announced nothing but an arrival, whose session
stays (R324; log 16). -/
theorem CycleLeft.halted {c : Cfg} {s t : State} {present : Option Uid} (hc : CycleLeft c s present t)
    (hw : t.monitor.worker = .none) :
    ∃ k, t.monitor.mstate = .faulted k ∧ t.log = s.log ++ [.monitorError k] ∧
      ((t.events = s.events ∧ t.session = s.session ∧ t.gen = s.gen) ∨
        (t.events ≠ s.events ∧ ∃ u bcc, present ≠ some u ∧ t.events = s.events ++ [.arrived u] ∧
          t.session = (State.installed c s u bcc).session ∧ t.gen = (State.installed c s u bcc).gen)) := by
  cases hc with
  | detectFailed _ T k => exact ⟨k, rfl, rfl, .inl ⟨rfl, rfl, rfl⟩⟩
  | arrivalFailed _ T U u bcc hne _ k =>
    refine ⟨k, rfl, by simp, .inr ⟨by simp, u, bcc, hne, by simp, ?_, ?_⟩⟩ <;> simp [installed_ran]
  | stillAbsent _ | removed _ _ | stillPresent _ _ _ _ | arrived _ _ _ _ _ _ _ => cases hw

/-- A cycle of a ready worker that ended it: the kind is one of the frame layer, and after an arrival it is the transport's
(R322, R324; log 16). -/
theorem exec_cycle_halts {s t : State} (h : s.CycleReady) (hexec : exec .monitorCycle s = .next t)
    (hw : t.monitor.worker = .none) :
    ∃ k, (k = .timeout ∨ k = .frameError ∨ k = .transportError) ∧ t.monitor.mstate = .faulted k ∧
      t.log = s.log ++ [.monitorError k] ∧
      ((t.events = s.events ∧ t.session = s.session ∧ t.gen = s.gen) ∨
        (k = .transportError ∧ ∃ u bcc, s.monitor.mstate ≠ .cardPresent u ∧ t.events = s.events ++ [.arrived u] ∧
          t.session = (State.installed Config.cfg s u bcc).session ∧
          t.gen = (State.installed Config.cfg s u bcc).gen)) := by
  obtain ⟨present, hp, rfl⟩ := exec_cycle_next h hexec
  obtain ⟨k, hk, hlog, hquiet | ⟨hne, u, bcc, hother, harrived⟩⟩ := (runCycle_left present s).halted hw
  · exact ⟨k, (runCycle_fault_kind hw hk).1, hk, hlog, .inl hquiet⟩
  · obtain ⟨hkind, htransport⟩ := runCycle_fault_kind hw hk
    exact ⟨k, hkind, hk, hlog, .inr ⟨htransport hne, u, bcc, MState.ne_cardPresent hp hother, harrived⟩⟩

/-! ## Failed transactions -/

/-- A failed transaction is the last, and it is what was raised (R362). -/
theorem FailsLast.of_fail {α : Type} {r : EStateM.Result Err State α} {T : List TraceEntry} {a : Addr}
    (h : FailsLast r T) (ha : .fail a ∈ T) :
    (∃ U, T = U ++ [.fail a] ∧ ∀ e ∈ U, e.failed = false) ∧
      ∃ e t, r = .error e t ∧ e.cause.kind = .transportError := by
  have notFailed : ∀ {V : List TraceEntry}, (∀ x ∈ V, x.failed = false) → .fail a ∉ V := fun hV hmem =>
    Bool.noConfusion (hV _ hmem)
  cases r with
  | ok _ _ => exact absurd ha (notFailed h)
  | error e t =>
    rcases h with ⟨hT, -⟩ | ⟨U, b, rfl, hU, hcause⟩
    · exact absurd ha (notFailed hT)
    · have hab : a = b := by simpa [notFailed hU] using ha
      exact ⟨⟨U, by rw [hab], hU⟩, e, t, rfl, by rw [hcause]; rfl⟩

/-- What a cycle does after its bus work is no transaction. -/
theorem runCycle_trace (present : Option Uid) (s : State) :
    (runCycle Config.cfg present s).trace = (endState (pollCard Config.cfg present s.locked)).trace := by
  cases hrun : pollCard Config.cfg present s.locked with
  | ok ms t => rw [runCycle_ok hrun]; rfl
  | error e t => rw [runCycle_error hrun]; rfl

/-- A cycle in which a transaction failed ends with it, in Faulted (R324, R362). -/
theorem runCycle_failed {present : Option Uid} {T : List TraceEntry} {a : Addr} {s : State}
    (htrace : (runCycle Config.cfg present s).trace = s.trace ++ T) (ha : .fail a ∈ T) :
    (∃ U, T = U ++ [.fail a] ∧ ∀ e ∈ U, e.failed = false) ∧ (runCycle Config.cfg present s).monitor.worker = .none ∧
      (runCycle Config.cfg present s).monitor.mstate = .faulted .transportError := by
  obtain ⟨V, hV, hlast⟩ := pollCard_failsLast Config.cfg present s.locked
  obtain rfl : T = V := List.append_cancel_left (htrace.symm.trans ((runCycle_trace present s).trans hV))
  obtain ⟨hend, e, t, hrun, hkind⟩ := hlast.of_fail ha
  rw [runCycle_error hrun]
  exact ⟨hend, rfl, congrArg MState.faulted hkind⟩

/-! ## What DETECT raises -/

/-- Detect folding leaves a frame-layer error as it is (R322). -/
theorem foldDetect_raises {c : Cfg} {e : Err} {s t : State} (h : detect c s = .error e t)
    (he : e.cause.isFrameLayer = true) : foldDetect c s = .error e t := by
  unfold foldDetect
  rw [h]
  cases hcause : e.cause with
  | noTagPresent r => rw [hcause] at he; cases he
  | uidChecksumError bytes => rw [hcause] at he; cases he
  | _ => simp only [hcause]

/-- The operation behind a DETECT whose result is an error. -/
theorem detect_of_exec {T : List TraceEntry} {e : Cause} {s : State}
    (hexec : exec .detect s = .next ((s.ran T).replied (raised e))) :
    detect Config.cfg s.locked = .error { cause := e, mark := .none } (s.ran T).locked := by
  obtain ⟨-, -, hend⟩ := cardOperation_next hexec
  rcases detect_ends Config.cfg s.locked with ⟨U, e', t, hd, rfl, -⟩ | ⟨U, u, bcc, hd, -⟩
  · rw [op_bind_error hd, finish_error] at hend
    obtain rfl : T = U := List.append_cancel_left (congrArg State.trace hend)
    have hresult := congrArg State.results hend
    obtain rfl : { cause := e, mark := .none } = e' := by simpa [raised] using hresult
    exact hd
  · rw [op_bind_ok hd, op_pure, finish_ok] at hend
    have hresult := congrArg State.results hend
    simp [raised] at hresult

/-- Whatever frame-layer error DETECT raises halts the cycle (R322, R324). -/
theorem exec_cycle_detectRaised {T : List TraceEntry} {e : Cause} {s : State} (h : s.CycleReady)
    (hm : s.monitor.mstate.active) (he : e.isFrameLayer = true)
    (hdetect : exec .detect s = .next ((s.ran T).replied (raised e))) :
    exec .monitorCycle s = .next (s.halted T e.kind) := by
  obtain ⟨present, hp⟩ := Option.isSome_iff_exists.mp hm
  have hpoll : pollCard Config.cfg present s.locked = .error _ (s.ran T).locked :=
    op_bind_error (foldDetect_raises (detect_of_exec hdetect) he)
  exact exec_cycle_halted h hp hpoll rfl rfl

/-- What the request frame of DETECT raises is DETECT's result (R225, R360). -/
theorem exec_detect_request_raised {T : List TraceEntry} {e : Cause} {s : State} (hi : s.initialised = true)
    (hl : s.lock = none) (ha : s.Answers T) (hraise : FrameRaises .transceive [0x26#8] 7 T e) :
    exec .detect s = .next ((s.ran T).replied (raised e)) :=
  (cardOperation_raised hi hl (op_bind_error (op_bind_error (op_bind_error (hraise _ ha.locked))))).trans rfl

/-- A frame whose first transaction, its framing write, fails (R151, R362). -/
theorem frameRaises_firstFailed (cmd : ChipCommand) (payload : List Byte) (framing : Nat) :
    FrameRaises cmd payload framing [.fail 0x0D#6] (.transportError 0x0D#6) := fun _ h =>
  op_bind_error (op_bind_error (regWrite_failed rfl h))

/-! ## The obligation -/

/-- Settles O56: how any cycle halts, and that the errors of DETECT and of END_SESSION halt it. -/
theorem cycleFault_correct : Obligations.CycleFault := by
  refine ⟨fun s t h hexec hw => ?_, fun s t T a h hexec htrace ha => ?_,
    fun e T s h hm he hdetect => exec_cycle_detectRaised h hm he hdetect, fun x s h hm => ?_,
    fun req x s h hm hreq hstatus hbits => ?_, fun p u bcc v F s h hcompletes hcard hm hF ha => ?_⟩
  · exact exec_cycle_halts h hexec hw
  · obtain ⟨present, hp, rfl⟩ := exec_cycle_next h hexec
    obtain ⟨hend, hw, hmstate⟩ := runCycle_failed htrace ha
    obtain ⟨k, -, hk, hlog, -⟩ := exec_cycle_halts h hexec hw
    obtain rfl : .transportError = k := MState.faulted.inj (hmstate.symm.trans hk)
    exact ⟨hend, hw, hmstate, hlog⟩
  · have halts : ∀ {T e}, s.Answers T → FrameRaises .transceive [0x26#8] 7 T e → e.isFrameLayer = true →
        exec .monitorCycle s = .next (s.halted T e.kind) := fun ha hraise he =>
      exec_cycle_detectRaised h hm he (exec_detect_request_raised h.initialised_eq h.lock_eq ha hraise)
    refine ⟨fun polls hn hd ha => ?_, fun hpoll he ha => ?_, fun ha => ?_⟩
    · exact halts ha (frameRaises_timeout hn hd x _ _) rfl
    · exact halts ha (frameRaises_frameError hpoll he _ _) rfl
    · exact halts ha (frameRaises_firstFailed _ _ _) rfl
  · have halts : ∀ {T e}, s.Answers (req.trace Config.cfg .transceive [0x26#8] 7 ++ T) →
        FrameRaises .transceive [0x93#8, 0x20#8] 0 T e → e.isFrameLayer = true →
        exec .monitorCycle s = .next (s.halted (req.trace Config.cfg .transceive [0x26#8] 7 ++ T) e.kind) :=
      fun ha hraise he => exec_cycle_detectRaised h hm he
        (exec_detect_anticoll_raised h.initialised_eq h.lock_eq hreq hstatus hbits ha hraise)
    refine ⟨fun polls hn hd ha => ?_, fun hpoll he ha => ?_⟩
    · exact halts ha (frameRaises_timeout hn hd x _ _) rfl
    · exact halts ha (frameRaises_frameError hpoll he _ _) rfl
  · obtain ⟨present, hp, hne⟩ := MState.watching_other hm
    obtain ⟨hdetect, hfail⟩ := (State.answers_append s (p.trace Config.cfg) F).mp ha
    have hpoll := pollCard_found hcompletes hdetect present hcard
    rw [transition_arrive (by rwa [handleFor_uid]), arrive_failed (v := v) rfl hF hfail.installed, handleFor_uid] at hpoll
    rw [installed_ran, State.ran_append]
    obtain ⟨q, g, hinstalled⟩ := installed_exists Config.cfg s u bcc
    rw [hinstalled] at hpoll ⊢
    exact exec_cycle_halted
      (u := ((State.ran { s with session := q, gen := g } (p.trace Config.cfg)).arrivedAt u).ran F) h hp hpoll rfl rfl

end Sys2Proof.Machine
end

section
/-!
SUPPORT. The steps of a worker when no request is pending: its sleep, and its end on the stop flag
(spec/46_presence_monitor.md R325, R330, R332).
-/

namespace Sys2Proof.Machine

theorem run_succ {s t : State} (k : Nat) (h : step s = .next t) :
    Host.Core.run core (k + 1) s = Host.Core.run core k t := by
  have hcore : core.step s = .next t := h
  simp only [Host.Core.run, hcore]

section
variable {ms : Nat} {s : State} (hport : s.port = [])
include hport

/-- With no request pending a polling worker takes a cycle (R320). -/
theorem step_polling (hw : s.monitor.worker = .polling) :
    step s = exec .monitorCycle { s with agent := .worker } := by
  obtain ⟨hcycle, -, -⟩ := stepRunsDecoded.2 s [] (.inl ⟨hport, rfl⟩)
  rw [hcycle hw, ← hport]

/-- With no request pending a sleeping worker takes one step of its sleep (R330). -/
theorem step_sleeping (hw : s.monitor.worker = .sleeping ms) : step s = .next (sleepSlice Config.cfg s) := by
  obtain ⟨-, hslice, -⟩ := stepRunsDecoded.2 s [] (.inl ⟨hport, rfl⟩)
  rw [hslice ms hw, ← hport]

/-- With no time left the worker wakes. -/
theorem step_awake (hw : s.monitor.worker = .sleeping 0) :
    step s = .next { s with monitor := { s.monitor with worker := .polling } } := by
  rw [step_sleeping hport hw, sleepSlice_awake hw]

/-- With time left and the stop flag set the worker ends. -/
theorem step_stopped (hw : s.monitor.worker = .sleeping ms) (hms : 0 < ms) (hs : s.monitor.stopFlag = true) :
    step s = .next { s with monitor := s.monitor.ended } := by
  rw [step_sleeping hport hw, sleepSlice_stopped hw hms hs]

/-- With time left and the stop flag clear the worker sleeps one slice. -/
theorem step_slept (hw : s.monitor.worker = .sleeping ms) (hms : 0 < ms) (hs : s.monitor.stopFlag = false) :
    step s = .next
      { s with
        labels := s.labels ++ [min 100 ms]
        monitor := { s.monitor with worker := .sleeping (ms - min 100 ms) } } := by
  rw [step_sleeping hport hw, sleepSlice_slept hw hms hs]
  rfl

/-- A sleep is run in slices whose labels sum to its length, and one step more wakes the worker (R330). -/
theorem run_sleep (hw : s.monitor.worker = .sleeping ms) (hs : s.monitor.stopFlag = false) :
    ∃ L : List Nat, L.sum = ms ∧ (∀ d ∈ L, d ≤ 100) ∧
      Host.Core.run core (L.length + 1) s =
        .next { s with labels := s.labels ++ L, monitor := { s.monitor with worker := .polling } } := by
  induction ms using Nat.strong_induction_on generalizing s with
  | h ms ih =>
    rcases Nat.eq_zero_or_pos ms with rfl | hms
    · exact ⟨[], rfl, by simp, by rw [List.append_nil, run_succ _ (step_awake hport hw)]; rfl⟩
    · obtain ⟨L, hsum, hslices, hrun⟩ := ih (ms - min 100 ms) (by omega)
        (s := { s with
          labels := s.labels ++ [min 100 ms]
          monitor := { s.monitor with worker := .sleeping (ms - min 100 ms) } }) hport rfl hs
      refine ⟨min 100 ms :: L, by rw [List.sum_cons, hsum]; omega, ?_, ?_⟩
      · rintro d (_ | ⟨_, hd⟩)
        · exact Nat.min_le_left 100 ms
        · exact hslices d hd
      · rw [List.length_cons, run_succ _ (step_slept hport hw hms hs), hrun, List.append_assoc]
        rfl

/-- A polling worker that finds the stop flag ends in one step (R325). -/
theorem step_polling_stopped (hi : s.initialised = true) (hw : s.monitor.worker = .polling)
    (hs : s.monitor.stopFlag = true) :
    step s = .next ({ s with agent := .worker, monitor := s.monitor.ended } : State).acknowledge := by
  rw [step_polling hport hw]
  exact exec_monitorCycle_stopped rfl hi hw hs

end

/-! ## The obligations -/

/-- Settles O58: the three steps of a sleep, and the run they make. -/
theorem sleep : Obligations.Sleep :=
  ⟨fun _ hport hw => step_awake hport hw, fun _ _ hport hw hms hs => step_stopped hport hw hms hs,
    fun _ _ hport hw hms hs => step_slept hport hw hms hs, fun _ _ hport hw hs => run_sleep hport hw hs⟩

/-- Settles O59: a polling worker and one with time left see the flag at once, one whose sleep is over wakes first. -/
theorem stopLatency : Obligations.StopLatency := by
  intro s h hport hw hs
  have hi := h.initialised_of_worker hw
  cases hworker : s.monitor.worker with
  | none => exact absurd hworker hw
  | polling =>
    exact ⟨1, _, by omega, run_succ 0 (step_polling_stopped hport hi hworker hs), rfl, rfl, rfl, rfl, rfl⟩
  | sleeping ms =>
    rcases Nat.eq_zero_or_pos ms with rfl | hms
    · exact ⟨2, _, by omega, (run_succ 1 (step_awake hport hworker)).trans
        (run_succ 0 (step_polling_stopped hport hi rfl hs)), rfl, rfl, rfl, rfl, rfl⟩
    · exact ⟨1, _, by omega, run_succ 0 (step_stopped hport hworker hms hs), rfl, rfl, rfl, rfl, rfl⟩

end Sys2Proof.Machine
end

section
/-!
SUPPORT. The presence scenario (spec/46_presence_monitor.md R326): what shows of each kind of cycle.
-/

namespace Sys2Proof.Machine

/-- What the monitor shows after a cycle: the presence state, the events, and the sleep that follows. -/
structure State.Shows (t : State) (m : MState) (E : List Event) (ms : Nat) : Prop where
  mstate_eq : t.monitor.mstate = m
  events_eq : t.events = E
  worker_eq : t.monitor.worker = .sleeping ms

/-- The presence state and the events are those of the cycle before when its sleep has ended. -/
theorem State.Shows.woken {s t : State} {m : MState} {E : List Event} {ms : Nat} (h : t.Shows m E ms)
    (hwake : s.monitor.mstate = t.monitor.mstate ∧ s.session = t.session ∧ s.events = t.events) :
    s.monitor.mstate = m ∧ s.events = E := by
  obtain ⟨hmstate, -, hevents⟩ := hwake
  exact ⟨hmstate.trans h.mstate_eq, hevents.trans h.events_eq⟩

section
variable {p : Probe} {u : Uid} {bcc v : Byte} {m : MState} {E : List Event} {s t : State}
  (hcycle : s.CycleReady ∧ p.completes Config.cfg = true ∧ exec .monitorCycle s = .next t)
include hcycle

theorem shows_absent (hbefore : s.monitor.mstate = .noCard ∧ s.events = E) (hcard : p.card Config.cfg = none)
    (ha : s.Answers (p.trace Config.cfg)) : t.Shows .noCard E 300 := by
  obtain ⟨hready, hcompletes, hexec⟩ := hcycle
  obtain ⟨hm, hE⟩ := hbefore
  cases hexec.symm.trans ((cycleWithoutEvent p s hready hcompletes ha).1 hm hcard)
  exact ⟨hm, hE, rfl⟩

theorem shows_present (hbefore : s.monitor.mstate = .cardPresent u ∧ s.events = E)
    (hcard : p.card Config.cfg = some (u, bcc)) (ha : s.Answers (p.trace Config.cfg)) :
    t.Shows (.cardPresent u) E 300 := by
  obtain ⟨hready, hcompletes, hexec⟩ := hcycle
  obtain ⟨hm, hE⟩ := hbefore
  cases hexec.symm.trans ((cycleWithoutEvent p s hready hcompletes ha).2 u bcc hm hcard).1
  exact ⟨hm, by simpa using hE, rfl⟩

theorem shows_arrived (hbefore : s.monitor.mstate = m ∧ s.events = E)
    (hother : m = .noCard ∨ ∃ w, m = .cardPresent w ∧ w ≠ u) (hcard : p.card Config.cfg = some (u, bcc))
    (ha : s.Answers (p.trace Config.cfg ++ endSessionTrace Config.cfg v)) :
    t.Shows (.cardPresent u) (E ++ [.arrived u]) 0 := by
  obtain ⟨hready, hcompletes, hexec⟩ := hcycle
  obtain ⟨rfl, rfl⟩ := hbefore
  cases hexec.symm.trans ((cycleEvents p v s hready hcompletes).1 u bcc hcard hother ha)
  exact ⟨rfl, rfl, rfl⟩

theorem shows_removed (hbefore : s.monitor.mstate = .cardPresent u ∧ s.events = E) (hcard : p.card Config.cfg = none)
    (ha : s.Answers (p.trace Config.cfg)) : t.Shows .noCard (E ++ [.removed u]) 3000 := by
  obtain ⟨hready, hcompletes, hexec⟩ := hcycle
  obtain ⟨hm, rfl⟩ := hbefore
  cases hexec.symm.trans ((cycleEvents p 0#8 s hready hcompletes).2 u hcard hm ha)
  exact ⟨rfl, rfl, rfl⟩

end

/-- Settles O60: the six cycles in turn, each begun in the presence state and with the events the one before it left. -/
theorem scenario : Obligations.Scenario := by
  intro A B bccA bccB p vA vB awake after hne hcycle hwake h0 c0 c1 c2 c3 c4 c5 a0 a1 a2 a3 a4 a5
  have nothing := shows_absent (hcycle 0) ⟨h0, rfl⟩ c0 a0
  have arrivedA := shows_arrived (hcycle 1) (nothing.woken (hwake 0)) (.inl rfl) c1 a1
  have stillA := shows_present (hcycle 2) (arrivedA.woken (hwake 1)) c2 a2
  have arrivedB := shows_arrived (hcycle 3) (stillA.woken (hwake 2)) (.inr ⟨A, rfl, hne⟩) c3 a3
  have removedB := shows_removed (hcycle 4) (arrivedB.woken (hwake 3)) c4 a4
  have nothingAgain := shows_absent (hcycle 5) (removedB.woken (hwake 4)) c5 a5
  refine ⟨by rw [nothingAgain.events_eq]; simp, ?_⟩
  show [(after 0).monitor.worker, (after 1).monitor.worker, (after 2).monitor.worker, (after 3).monitor.worker,
    (after 4).monitor.worker, (after 5).monitor.worker] = _
  rw [nothing.worker_eq, arrivedA.worker_eq, stillA.worker_eq, arrivedB.worker_eq, removedB.worker_eq,
    nothingAgain.worker_eq]

end Sys2Proof.Machine
end

section
/-!
SUPPORT. How a request is answered: which gate its instruction stands behind, that no request faults, and that one which is
answered has one result and the lock free (spec/60_exceptions.md R350, R363, R366, R380).
-/

namespace Sys2Proof.Machine

/-! ## The gates in front of an instruction -/

/-- What stands in front of the meaning of `i` in `s`. -/
inductive Gate (i : Instr) (s : State) : Prop where
  /-- An operation on the bus that R22 lets run before INIT (and INIT itself, of a cold controller). -/
  | ungated (op : Op ResultValue) (hi : beforeInit i = true) (h : exec i s = topLevel op s)
  /-- A request that touches no bus and that R22 lets run before INIT. -/
  | acknowledged (m : Monitor) (hi : beforeInit i = true) (h : exec i s = .next ({ s with monitor := m } : State).acknowledge)
  /-- INIT of an initialised controller (R311). -/
  | again (hi : beforeInit i = true) (h : exec i s = .refused .alreadyInitialised)
  /-- An operation on the bus that requires `initialised`, its operands of their types. -/
  | gated (op : Op ResultValue) (hi : beforeInit i = false) (h : exec i s = whenTyped i.wf (cardOperation op s))
  /-- MONITOR_START. -/
  | start (h : i = .monitorStart)
  /-- MONITOR_CYCLE. -/
  | cycle (h : i = .monitorCycle)

theorem exec_init_again {s : State} (hi : s.initialised = true) : exec .init s = .refused .alreadyInitialised :=
  if_pos hi

/-- Every arm of `exec` stands behind one of the gates. -/
theorem exec_gate (i : Instr) (s : State) : Gate i s := by
  cases i
  case regRead | regWrite | setBits | clearBits | cmdIdle | cmdCalcCRC | cmdTransceive | cmdAuthent =>
    exact .ungated _ rfl rfl
  case monitorStop | subscribe => exact .acknowledged _ rfl rfl
  case init =>
    cases hi : s.initialised with
    | false => exact .ungated _ rfl (exec_init_cold hi)
    | true => exact .again rfl (exec_init_again hi)
  case monitorStart => exact .start rfl
  case monitorCycle => exact .cycle rfl
  all_goals exact .gated _ rfl rfl

/-! ## Nothing faults -/

theorem topLevel_ne_fault {op : Op ResultValue} {s : State} (hl : s.lock = none) (why : Fault) :
    topLevel op s ≠ .fault why := by
  rw [topLevel_free hl]
  nofun

theorem whenInitialised_ne_fault {s : State} {k : Outcome} {why : Fault} (h : k ≠ .fault why) :
    whenInitialised s k ≠ .fault why := by
  unfold whenInitialised
  split
  · exact h
  · nofun

theorem whenTyped_ne_fault {ok : Bool} {k : Outcome} {why : Fault} (h : k ≠ .fault why) :
    whenTyped ok k ≠ .fault why := by
  unfold whenTyped
  split
  · exact h
  · nofun

theorem execMonitorStart_ne_fault (s : State) (why : Fault) : execMonitorStart s ≠ .fault why := by
  refine whenInitialised_ne_fault ?_
  split <;> nofun

/-- A running worker is in a presence state its cycle has a case for, and finds the bus free (R35, R320, R366). -/
theorem cycle_ne_fault {s : State} (h : s.Inv) (hw : s.monitor.worker ≠ .none) (why : Fault) :
    cycle Config.cfg s ≠ .fault why := by
  obtain ⟨present, hp⟩ := Option.isSome_iff_exists.mp (h.worker_active.mp hw)
  unfold cycle
  rw [hp, h.lock_free]
  split <;> nofun

theorem execMonitorCycle_ne_fault {s : State} (h : s.Inv) (why : Fault) : execMonitorCycle s ≠ .fault why := by
  unfold execMonitorCycle
  split
  · refine whenInitialised_ne_fault ?_
    split
    · rename_i hw
      exact cycle_ne_fault h (by simp [hw]) why
    · nofun
  · nofun

theorem exec_ne_fault (i : Instr) {s : State} (h : s.Inv) (why : Fault) : exec i s ≠ .fault why := by
  cases exec_gate i s with
  | ungated op _ heq => exact heq ▸ topLevel_ne_fault h.lock_free why
  | acknowledged m _ heq => rw [heq]; nofun
  | again _ heq => rw [heq]; nofun
  | gated op _ heq =>
    exact heq ▸ whenTyped_ne_fault (whenInitialised_ne_fault (topLevel_ne_fault h.lock_free why))
  | start hstart => exact hstart ▸ execMonitorStart_ne_fault s why
  | cycle hcycle => exact hcycle ▸ execMonitorCycle_ne_fault h why

/-- The worker's turn runs its cycle as the worker. -/
theorem workerTurn_run {s t : State} {i : Instr} (h : workerTurn s = .run i t) : t = { s with agent := .worker } := by
  unfold workerTurn at h
  split at h <;> cases h
  rfl

/-- What the fetch gives an instruction to run in: the state with its port and caller set (R365). -/
theorem fetch_run {s t : State} {i : Instr} (h : fetch s = .run i t) :
    ∃ rest a, t = { s with port := rest, agent := a } := by
  unfold fetch at h
  split at h
  · exact ⟨s.port, .worker, workerTurn_run h⟩
  · rename_i rest _
    exact ⟨rest, .worker, workerTurn_run (s := { s with port := rest }) h⟩
  · split at h <;> cases h
    exact ⟨_, _, rfl⟩

/-- Settles O11: only an instruction could fault, and neither its port nor its caller is a part of the invariant. -/
theorem stepNeverFaults : Obligations.StepNeverFaults := by
  intro s why h
  unfold step
  cases hfetch : fetch s with
  | run i t =>
    obtain ⟨rest, a, rfl⟩ := fetch_run hfetch
    exact exec_ne_fault i (s := { s with port := rest, agent := a }) { h with } why
  | slice _ | idle _ | invalid _ => nofun

/-! ## The result -/

/-- Whatever an instruction did from a free bus, it left one result for its caller and the bus free (R350, R366). -/
theorem Did.replies {s t : State} (hd : Did s t) (hl : s.lock = none) :
    (∃ r, t.results = s.results ++ [{ caller := s.agent, result := r }]) ∧ t.lock = none := by
  cases hd with
  | bus T L r | mirror T L r q _ | booted T done r _ => exact ⟨⟨r, rfl⟩, rfl⟩
  | detected T u bcc r _ _ => exact ⟨⟨r, by simp⟩, rfl⟩
  | started _ _ | flagged | subscribed _ | ended _ _ => exact ⟨⟨.ok .unit, rfl⟩, hl⟩
  | cycled present _ _ =>
    obtain ⟨T, -, -, hresults, hagent, -, -, -, hlock⟩ := runCycle_ends present s
    exact ⟨⟨.ok .unit, by rw [State.acknowledge_results, hresults, hagent]⟩, hlock⟩

/-- Settles O10: no instruction faults, so one that is not refused did something, and that has a result. -/
theorem requestsEnd : Obligations.RequestsEnd := by
  intro i s h
  cases hexec : exec i s with
  | next t =>
    obtain ⟨⟨r, hresults⟩, hlock⟩ := (exec_did hexec).replies h.lock_free
    exact .inr ⟨t, r, rfl, hresults, hlock⟩
  | fault why => exact absurd hexec (exec_ne_fault i h why)
  | refused why => exact .inl ⟨why, rfl⟩

/-! ## Refusals -/

/-- A top-level operation runs or waits; it is not refused. -/
theorem topLevel_ne_refused (op : Op ResultValue) (s : State) (why : Refusal) : topLevel op s ≠ .refused why := by
  unfold topLevel
  split <;> nofun

/-- A well-typed instruction that R22 does not except is refused before INIT; MONITOR_CYCLE by its caller first (R92). -/
theorem exec_cold_refused {i : Instr} {s : State} (hwf : i.wf = true) (hb : beforeInit i = false)
    (hi : s.initialised = false) (hworker : i = .monitorCycle → s.agent = .worker) :
    exec i s = .refused .notInitialised := by
  have cold : ∀ k : Outcome, whenInitialised s k = .refused .notInitialised := fun k => if_neg (by simp [hi])
  cases exec_gate i s with
  | ungated _ hungated _ | acknowledged _ hungated _ | again hungated _ => cases hb.symm.trans hungated
  | gated op _ heq => exact heq.trans ((if_pos hwf).trans (cold _))
  | start hstart => exact hstart ▸ cold _
  | cycle hcycle =>
    have hagent := hworker hcycle
    subst hcycle
    exact (if_pos hagent).trans (cold _)

/-- An instruction that R22 excepts is never refused for want of INIT. -/
theorem exec_beforeInit_ne_refused {i : Instr} (hb : beforeInit i = true) (s : State) :
    exec i s ≠ .refused .notInitialised := by
  cases exec_gate i s with
  | ungated op _ heq => exact heq ▸ topLevel_ne_refused op s _
  | acknowledged m _ heq => rw [heq]; nofun
  | again _ heq => rw [heq]; nofun
  | gated op hgated _ => cases hb.symm.trans hgated
  | start hstart => subst hstart; cases hb
  | cycle hcycle => subst hcycle; cases hb

/-- Settles O9: each request is refused at its own gate. -/
theorem refusals : Obligations.Refusals := by
  refine ⟨fun i s hwf hb hi hworker => exec_cold_refused hwf hb hi hworker,
    fun i s hb => exec_beforeInit_ne_refused hb s, fun s hi => exec_init_again hi, fun s hi hw => ?_, fun s n ha => ?_⟩
  · exact (if_pos hi).trans (if_neg hw)
  · exact if_neg (by simp [ha])

end Sys2Proof.Machine
end

section
/-!
SUPPORT. The transaction that fails, in any instruction, and the ends of CRC16 (spec/60_exceptions.md R352, R362).
-/

namespace Sys2Proof.Machine

/-- Settles O12: a failed transaction is one of a top-level operation, whose last it is and whose error it becomes. -/
theorem transportFailureEnds : Obligations.TransportFailureEnds := by
  intro i s t T a hc hexec htrace hfail
  rcases exec_traced hc hexec with ⟨op, htraced, hop⟩ | ⟨m, rfl⟩
  · obtain ⟨U, r, hU, -, rfl, hlast, hended, hcarried⟩ := topLevel_traced htraced hop
    obtain rfl : T = U := List.append_cancel_left (htrace.symm.trans hU)
    obtain ⟨V, mark, hT, hV, rfl⟩ := hended.failed hlast hfail
    refine ⟨V, mark, hT, hV, ?_⟩
    rw [State.replied_results, hcarried.results, hcarried.agent]
  · obtain rfl : [] = T := List.append_cancel_left ((List.append_nil s.trace).trans htrace)
    cases hfail

/-- The operation of CRC16 as a request: the payload check, then the calculation (R190, R361). -/
abbrev crc16Body (bytes : List Byte) : Op ResultValue :=
  checkPayload Config.cfg bytes >>= fun _ => crc16 Config.cfg bytes >>= fun crc => pure (.crc crc.1 crc.2)

theorem crc16Body_returns {bytes : List Byte} {v : ResultValue} {s t : State} (h : crc16Body bytes s = .ok v t) :
    ∃ lo hi, v = .crc lo hi := by
  obtain ⟨_, s1, -, h⟩ := op_bind_returns h
  obtain ⟨crc, s2, -, h⟩ := op_bind_returns h
  cases h
  exact ⟨crc.1, crc.2, rfl⟩

/-- Only the payload check and the transport raise (R352). -/
theorem crc16Body_raises {bytes : List Byte} {e : Err} {s t : State} (h : crc16Body bytes s = .error e t) :
    transportErr e ∨ 64 < bytes.length ∧ e = { cause := .invalidArgument .payloadLength, mark := .none } := by
  rcases op_bind_raises h with h | ⟨_, s1, -, h⟩
  · obtain ⟨hlong, rfl, -⟩ := ensure_raises h
    exact .inr ⟨not_le.mp (of_decide_eq_false hlong), rfl⟩
  · rcases op_bind_raises h with h | ⟨crc, s2, -, h⟩
    · exact .inl (raises_crc16 Config.cfg bytes _ _ _ h)
    · cases h

theorem effects_crc16Body (bytes : List Byte) :
    Effects (ownEntry Config.cfg) crcEntry (7 + bytes.length + 255) (crc16Body bytes) :=
  effects_mono (effects_bind (effects_checkPayload _ _) fun _ => effects_map (effects_crc16 Config.cfg bytes))
    (Nat.le_of_eq (Nat.zero_add _))

/-- Settles O29: the bound is that of its operation, and the operation's three ends are those of the request. -/
theorem crcEnds : Obligations.CrcEnds := by
  intro bytes s t hexec
  obtain ⟨-, hop⟩ := cardOperation_topLevel (op := crc16Body bytes) hexec
  obtain ⟨T, L, r, rfl, hcount, -, -, -, hended⟩ := topLevel_ends (effects_crc16Body bytes) hop
  refine ⟨⟨T, rfl, hcount⟩, r, rfl, ?_⟩
  rcases hended with ⟨v, rfl, hrun⟩ | ⟨e, rfl, hrun⟩
  · obtain ⟨lo, hi, rfl⟩ := crc16Body_returns hrun
    exact .inl ⟨lo, hi, rfl⟩
  · rcases crc16Body_raises hrun with ⟨a, rfl⟩ | ⟨hlong, rfl⟩
    · exact .inr (.inl ⟨a, rfl⟩)
    · exact .inr (.inr ⟨hlong, rfl⟩)

end Sys2Proof.Machine
end
